-- ==== Sys2Proof/Word.lean ====
section
/-! DEFINITION. The machine's two bit-vector widths: the byte that host memory holds and the 32-bit word that a
register, a host address and a command word are (00_scope.md R10: ADDR_W = REG_W = 32). -/

namespace Sys2Proof

/-- One byte of host memory (R100), one literal, one length field (R160). -/
abbrev Byte := BitVec 8

/-- A register, a host address or a command word: 32 bits (R10, R50, R150). -/
abbrev Word := BitVec 32

/-- The 16-bit offset field of a token (R160) and the 16-bit registers WINDOW, LOOKAHEAD, MATCH_DIST, MATCH_LEN (R50). -/
abbrev Half := BitVec 16

end Sys2Proof
end

