-- ==== Sys2Proof/Syntax.lean ====
section
/-! DEFINITION. The instructions: one constructor per row of spec/opcode_table.json, the nine command words a host
writes to CMD (30_encoding.md R151, R152) and the four token classes a DECOMPRESS reads (R164). -/

namespace Sys2Proof

/-- The instructions of LZMF. A command takes its operands from registers (R150); a token carries its offset, length and
literal (R161). -/
inductive Instr where
  /-- 0x00000000 (R361) -/
  | nop
  /-- 0x00000001: COMPRESS with FINDER = 0 (R152, R290) -/
  | compressLin
  /-- 0x00000101: COMPRESS with FINDER = 1 (R152, R290) -/
  | compressHc
  /-- 0x00000002 (R330) -/
  | decompress
  /-- 0x00000003 (R210) -/
  | findLinear
  /-- 0x00000004 (R250) -/
  | findHc
  /-- 0x00000005 (R233) -/
  | hash3
  /-- 0x00000006 (R252) -/
  | indexClear
  /-- 0x00000007 (R362) -/
  | reset
  /-- LIT: offset 0, length 0 (R164, R325) -/
  | tokenLit (lit : Byte)
  /-- COPY: offset and length both at least 1 (R164, R324) -/
  | tokenCopy (off : Half) (len : Byte) (lit : Byte)
  /-- ZOFF: offset 0, length at least 1 (R164, R324) -/
  | tokenZoff (len : Byte) (lit : Byte)
  /-- ZLEN: offset at least 1, length 0 (R164, R325) -/
  | tokenZlen (off : Half) (lit : Byte)
  deriving DecidableEq, Repr

/-- Whether an instruction is a command word, as against a token record (the two formats CMD and TOKEN of the table). -/
def Instr.isCommand : Instr → Bool
  | .nop | .compressLin | .compressHc | .decompress | .findLinear | .findHc | .hash3 | .indexClear | .reset => true
  | .tokenLit _ | .tokenCopy _ _ _ | .tokenZoff _ _ | .tokenZlen _ _ => false

/-- The offset, length and literal of a token (R161); a command has none. -/
def Instr.tokenFields : Instr → Option (Half × Byte × Byte)
  | .tokenLit x => some (0, 0, x)
  | .tokenCopy d l x => some (d, l, x)
  | .tokenZoff l x => some (0, l, x)
  | .tokenZlen d x => some (d, 0, x)
  | .nop | .compressLin | .compressHc | .decompress | .findLinear | .findHc | .hash3 | .indexClear | .reset => none

end Sys2Proof
end

