-- ==== Sys2Proof/WellFormed.lean ====
section
/-! DEFINITION. Which instructions stand for an encoding: the class table of 30_encoding.md R164 (the constraints of the
TOKEN rows of spec/opcode_table.json). -/

namespace Sys2Proof

/-- The constraint of an instruction's row: COPY has offset and length nonzero, ZOFF length nonzero, ZLEN offset nonzero
(R164). A command word has no operand and a LIT admits every literal. -/
def Instr.wellFormed : Instr → Bool
  | .tokenCopy off len _ => off != 0 && len != 0
  | .tokenZoff len _ => len != 0
  | .tokenZlen off _ => off != 0
  | .tokenLit _ => true
  | .nop | .compressLin | .compressHc | .decompress | .findLinear | .findHc | .hash3 | .indexClear | .reset => true

end Sys2Proof
end

