-- ==== Sys2Proof/Decode.lean ====
section
/-! DEFINITION. Decoding and encoding (30_encoding.md): command words (R150 to R154) and token records (R160 to R164).
A command decodes from the word alone (R153); every record decodes (R322). Which of the two formats a word has is said
by where it stands: a word written to CMD is a command word, four bytes of a DECOMPRESS's input are a record. -/

namespace Sys2Proof

/-- Why a word is no legal command word (R154). -/
inductive IllegalWord where
  /-- a nonzero bit in 31:9 -/
  | reservedBits
  /-- OP in 0x08..0xFF -/
  | reservedOpcode
  /-- FINDER = 1 with an OP other than 0x01 -/
  | finderBit
  deriving DecidableEq, Repr

/-- What a word written to CMD is. -/
inductive DecodedCommand where
  | command (i : Instr)
  | illegal (why : IllegalWord)
  deriving DecidableEq, Repr

/-- OP, bits 7:0 of a command word (R150). -/
def commandOp (v : Word) : Nat := (v.extractLsb' 0 8).toNat

/-- FINDER, bit 8 of a command word (R150). -/
def commandFinder (v : Word) : Bool := v.getLsbD 8

/-- Bits 31:9 of a command word, which must be 0 (R150). -/
def commandReserved (v : Word) : BitVec 23 := v.extractLsb' 9 23

/-- R153: a word is legal if and only if `v[31:9] = 0`, `v[7:0] <= 0x07`, and `v[8] = 0` or `v[7:0] = 0x01`. -/
def legalWord (v : Word) : Bool :=
  commandReserved v == 0 && decide (commandOp v ≤ 7) && (!commandFinder v || decide (commandOp v = 1))

/-- The opcode map (R151), with FINDER telling the two COMPRESS words apart (R152). -/
def decodeCommand (v : Word) : DecodedCommand :=
  if commandReserved v ≠ 0 then .illegal .reservedBits
  else
    match commandOp v, commandFinder v with
    | 0, false => .command .nop
    | 1, false => .command .compressLin
    | 1, true => .command .compressHc
    | 2, false => .command .decompress
    | 3, false => .command .findLinear
    | 4, false => .command .findHc
    | 5, false => .command .hash3
    | 6, false => .command .indexClear
    | 7, false => .command .reset
    | op, _ => if op ≤ 7 then .illegal .finderBit else .illegal .reservedOpcode

/-- A record's four bytes as the little-endian word `W = {b3, b2, b1, b0}` (R162). -/
def recordWord (b0 b1 b2 b3 : Byte) : Word := b3 ++ b2 ++ b1 ++ b0

/-- Byte `j` of a record (R160): `W[8j+7 : 8j]`. -/
def recordByte (w : Word) (j : Nat) : Byte := w.extractLsb' (8 * j) 8

/-- The offset field, `W[15:0]` (R162). -/
def recordOffset (w : Word) : Half := w.extractLsb' 0 16

/-- The length field, `W[23:16]` (R162). -/
def recordLength (w : Word) : Byte := w.extractLsb' 16 8

/-- The literal field, `W[31:24]` (R162). -/
def recordLiteral (w : Word) : Byte := w.extractLsb' 24 8

/-- The token class of a record (R164). Every one of the 2^32 record values decodes (R322). -/
def decodeToken (w : Word) : Instr :=
  if recordOffset w = 0 then
    if recordLength w = 0 then .tokenLit (recordLiteral w)
    else .tokenZoff (recordLength w) (recordLiteral w)
  else
    if recordLength w = 0 then .tokenZlen (recordOffset w) (recordLiteral w)
    else .tokenCopy (recordOffset w) (recordLength w) (recordLiteral w)

/-- A record decoded from its bytes in stream order (R320). -/
def decodeRecord (b0 b1 b2 b3 : Byte) : Instr := decodeToken (recordWord b0 b1 b2 b3)

/-- Token packing (R163): the word whose bytes are `d[7:0], d[15:8], l[7:0], x`. -/
def packToken (off : Half) (len lit : Byte) : Word := lit ++ len ++ off

/-- The encoder: the command word of a command (R151, R152) and the record word of a token (R163). -/
def encode : Instr → Word
  | .nop => 0x00000000
  | .compressLin => 0x00000001
  | .compressHc => 0x00000101
  | .decompress => 0x00000002
  | .findLinear => 0x00000003
  | .findHc => 0x00000004
  | .hash3 => 0x00000005
  | .indexClear => 0x00000006
  | .reset => 0x00000007
  | .tokenLit x => packToken 0 0 x
  | .tokenCopy d l x => packToken d l x
  | .tokenZoff l x => packToken 0 l x
  | .tokenZlen d x => packToken d 0 x

/-- The instruction of the table that a word stands for, for the host's checks. The table's two formats share words (NOP
and a TOKEN.LIT with literal 0 are both 0x00000000), so a legal command word is read as the command and any other word as
a record (log entry 3). -/
def decodeTableWord (nbits w : Nat) : Option Instr :=
  let v := w % 2 ^ nbits
  if v < 2 ^ 32 then
    match decodeCommand (BitVec.ofNat 32 v) with
    | .command i => some i
    | .illegal _ => some (decodeToken (BitVec.ofNat 32 v))
  else none

end Sys2Proof
end

