-- ==== Sys2Proof/Config.lean ====
section
/-! DEFINITION. What an instance is built with (00_scope.md R10, 93_implementation_defined.md section 2): the literals
the spec fixes, the platform's parameters as plain data, and the one free value of the model. -/

namespace Sys2Proof

/-- FREE VALUE (log entry 1). Every value the spec leaves unspecified (93_implementation_defined.md U1 to U5, U7) is
`Config.freeValue n` for a fresh `n` taken from the state's counter. It has no body: nothing can be proved of it that is
not true of every value. -/
opaque Config.freeValue : Nat → BitVec 32

/-- A free byte. -/
def Config.freeByte (n : Nat) : Byte := (Config.freeValue n).setWidth 8

/-- A free Boolean. -/
def Config.freeBool (n : Nat) : Bool := (Config.freeValue n).getLsbD 0

/-- MIN_MATCH, the hash-chain finder's minimum (R10, R243). -/
def Config.minMatch : Nat := 3

/-- HASH_BYTES, how many bytes the hash covers (R10, R230). -/
def Config.hashBytes : Nat := 3

/-- HASH_MULT (R10, R230). -/
def Config.hashMult : Nat := 31

/-- HASH_INIT (R10, R230). -/
def Config.hashInit : Nat := 0

/-- CHAIN_CAP: a bucket longer than this is pruned (R10, R245). -/
def Config.chainCap : Nat := 100

/-- TOKEN_BYTES, the size of a record (R10, R160). -/
def Config.tokenBytes : Nat := 4

/-- The ID register (R53). -/
def Config.idValue : Word := 0x4C5A3737

/-- The size of the host address space, 2^ADDR_W bytes (R10, R100). -/
def Config.addressSpace : Nat := 2 ^ 32

/-- The size of the register block in bytes (R50). -/
def Config.blockBytes : Nat := 256

/-- The `kind` of a byte access that the platform judges (R404). -/
inductive AccessKind where
  | read
  | write
  deriving DecidableEq, Repr

/-- A range of host addresses, `base ≤ a < base + size`. -/
structure Region where
  base : Nat
  size : Nat
  deriving DecidableEq, Repr

/-- Whether an address lies in a region. -/
def Region.holds (g : Region) (a : Nat) : Bool := decide (g.base ≤ a) && decide (a < g.base + g.size)

/-- The platform's parameters (R10, 93 section 2), as plain data that no step changes (log entry 2). Host addresses are
finitely many, so every predicate `memAdmits` is the complement of finitely many refused regions. -/
structure Platform where
  /-- MMIO_BASE: host address of the register block (R50). -/
  mmioBase : Nat
  /-- where `memAdmits(a, read)` is false (R404) -/
  refusedReads : List Region
  /-- where `memAdmits(a, write)` is false (R404) -/
  refusedWrites : List Region
  /-- where memory has side effects on read or write (R110, U7); the register block always counts as such -/
  sideEffects : List Region
  /-- INDEX_CAP: how many positions the hash index holds, `none` for unbounded (R246) -/
  indexCap : Option Nat
  deriving DecidableEq, Repr

/-- `memAdmits(a, kind)` (R404). An address outside the 2^32-byte space (R100) is never admitted; the start check R103
keeps the engine's addresses inside it. -/
def Platform.admits (p : Platform) (a : Nat) (kind : AccessKind) : Bool :=
  decide (a < Config.addressSpace) &&
    !((match kind with
      | .read => p.refusedReads
      | .write => p.refusedWrites).any (·.holds a))

/-- Whether the byte at `a` belongs to the register block of this instance (R50). -/
def Platform.inBlock (p : Platform) (a : Nat) : Bool := Region.holds ⟨p.mmioBase, Config.blockBytes⟩ a

/-- Whether an engine access to `a` falls on memory with side effects, so that the byte has an unspecified value
(R110, U7). -/
def Platform.hasSideEffects (p : Platform) (a : Nat) : Bool := p.inBlock a || p.sideEffects.any (·.holds a)

/-- The abstract machine's platform (93 section 2): nothing refused, no side effects, INDEX_CAP unbounded. MMIO_BASE is
OPEN there ("any word-aligned host address with 256 bytes free"); the value is this model's (log entry 2). -/
def Platform.abstract : Platform :=
  { mmioBase := 0xFFFFFF00, refusedReads := [], refusedWrites := [], sideEffects := [], indexCap := none }

end Sys2Proof
end

