-- ==== Sys2Proof/Machine/State.lean ====
section
/-! DEFINITION. The state of one LZMF instance with the host memory it works on (10_state.md section 6), as plain data:
the registers of R50, the engine-internal state of R83, the hash index of R80, host memory (20_memory.md R100), the
platform's parameters, and the host's coming accesses (45_control.md R365, 60_exceptions.md R413). -/

namespace Sys2Proof.Machine

/-- STATUS.ERR (60_exceptions.md R400). Codes 7..15 are reserved and never produced (U8), so they have no name. -/
inductive ErrCode where
  | none
  | illegalCmd
  | range
  | overlap
  | outOverflow
  | bus
  | indexFull
  deriving DecidableEq, Repr

/-- The parameter registers IN_BASE, IN_LEN, OUT_BASE, OUT_CAP, WINDOW and LOOKAHEAD (R57, R58), which a command
snapshots at its acceptance (R83). -/
structure Params where
  inBase : Word
  inLen : Word
  outBase : Word
  outCap : Word
  window : Half
  lookahead : Half
  deriving DecidableEq, Repr

/-- The accepted command word (R83): the commands that run on the engine. RESET is not among them: it acts at once and
never sets BUSY (R56, R360). -/
inductive Task where
  | nop
  | compressLin
  | compressHc
  | decompress
  | findLinear
  | findHc
  | hash3
  | indexClear
  deriving DecidableEq, Repr

/-- The registers the engine writes, STATUS apart (R64): the result registers, whose value a host read does not define
while BUSY = 1 (R72), and ERR_ADDR among them. -/
inductive ResultReg where
  | cursor
  | outLen
  | tokenCount
  | matchDist
  | matchLen
  | hash
  | errAddr
  deriving DecidableEq, Repr

/-- One register or index update of the engine (R413). -/
inductive Update where
  /-- `x[reg] <- v` -/
  | result (reg : ResultReg) (v : Word)
  /-- `for every h: idx[h] <- []` (R290) -/
  | clearIndex
  /-- `idx[h] <- ps` (R240 steps 4 and 5) -/
  | bucket (h : Nat) (ps : List Nat)
  deriving DecidableEq, Repr

/-- Where the engine goes when it has made a row of updates. -/
inductive After where
  /-- COMPRESS: the head of its loop (R290) -/
  | encodeTop
  /-- DECOMPRESS: the head of its loop (R330) -/
  | recordRead
  /-- findHC returns `(dist, len)` (R240) -/
  | found (dist len : Nat)
  /-- the command's own end (R360) -/
  | ending
  /-- `raise Err(e)` goes on to record ERR (R410) -/
  | raising (e : ErrCode)
  deriving DecidableEq, Repr

/-- Where the engine stands in its pseudocode; one engine step is one byte access or one register or index update
(R413), or a test of the pseudocode between two of them. `x[STATUS].BUSY <- 0; x[STATUS].DONE <- 1` is one update of one
register (log entry 7). -/
inductive Phase where
  /-- the start checks and the effects of starting (R210, R233, R250, R252, R290, R330, R361) -/
  | start
  /-- COMPRESS: the head of `while cur < n` (R290) -/
  | encodeTop
  /-- HASH3 and findHC step 1: reading the 3 bytes at the cursor, `bytes` read so far (R233, R240) -/
  | hashRead (bytes : List Byte)
  /-- a finder: the head of its loop over candidates, `left` still to visit (R202, R240) -/
  | candidates (left : List Nat)
  /-- matchLen: the loop head and the read of `In[p + k]` (R200) -/
  | matching (p k : Nat) (left : List Nat)
  /-- matchLen: the read of `In[c + k]` and its comparison with `v = In[p + k]` (R200) -/
  | comparing (p k : Nat) (v : Byte) (left : List Nat)
  /-- a finder has returned `(dist, len)` (R210, R250, R290) -/
  | found (dist len : Nat)
  /-- COMPRESS: writing byte `j` of the record `w`, whose token covers `k + 1` input bytes (R286, R290) -/
  | emit (w : Word) (k j : Nat)
  /-- DECOMPRESS: the head of `while q + 4 <= m` and the record's reads, `bytes` read so far (R320, R330) -/
  | recordRead (bytes : List Byte)
  /-- DECOMPRESS: the record `w` has been read and is next to be executed (R330) -/
  | record (w : Word)
  /-- DECOMPRESS: the copy loop at index `i`, and after it the literal; `a` bytes of this record are appended (R324) -/
  | copy (start : Nat) (len lit : Byte) (i a : Nat)
  /-- DECOMPRESS: appending the copied byte `v` (R324) -/
  | copyWrite (start : Nat) (len lit : Byte) (i a : Nat) (v : Byte)
  /-- DECOMPRESS: the record is done, `a` bytes of it appended: its counts (R330) -/
  | recordEnd (a : Nat)
  /-- DECOMPRESS: `x[STATUS].TAIL <- 1` (R330, R332) -/
  | trailing
  /-- the update `u`, the updates `rest` after it, and then `next` -/
  | update (u : Update) (rest : List Update) (next : After)
  /-- `raise Err(e)`: `x[STATUS].ERR <- e` (R410) -/
  | raising (e : ErrCode)
  /-- the last update of a command, ended by `raise Err(e)` or by its own end (`NONE`): BUSY and DONE (R360, R410) -/
  | ending (e : ErrCode)
  deriving DecidableEq, Repr

/-- The engine's state while a command runs (R83). Positions and lengths are unbounded naturals (R11). -/
structure Run where
  task : Task
  /-- the parameters taken at acceptance -/
  snap : Params
  /-- the cursor: the argument `c` of a finder or HASH3, COMPRESS's `cur`, DECOMPRESS's `q` -/
  cur : Nat
  /-- the output length after the last token or record completed -/
  o : Nat
  /-- the token count -/
  t : Nat
  bestDist : Nat
  bestLen : Nat
  /-- findHC's `h` -/
  hash : Nat
  phase : Phase
  /-- the bytes this command has written, each with its value before, latest first (R362, U2, U3) -/
  journal : List Host.Cell
  /-- the registers this command has written, each with its value before, latest first (R122) -/
  regJournal : List (ResultReg × Word)
  /-- the values other agents' writes have replaced in this command's buffers, latest first (R460) -/
  foreign : List Host.Cell
  deriving DecidableEq, Repr

/-- What the outside does to the machine (R52, R365, R450, R460). -/
inductive HostAccess where
  /-- `HostRead(off)` if `width = 4` and `off` is aligned (R52) -/
  | regRead (off width : Nat)
  /-- `HostWrite(off, v)` if `width = 4` and `off` is aligned (R52) -/
  | regWrite (off width : Nat) (v : Word)
  /-- a 32-bit read at a host bus address of the register block (R50) -/
  | busRead (a : Word)
  /-- a 32-bit write at a host bus address of the register block (R50) -/
  | busWrite (a v : Word)
  /-- the host reads a byte of host memory -/
  | memRead (a : Word)
  /-- `WAIT` (R170): repeated reads of STATUS until one shows BUSY = 0. `gaps` holds how many engine steps take place between
  a read that shows BUSY = 1 and the next one; when it is used up, the host's next read waits for the command's end (log
  entry 7) -/
  | pollStatus (gaps : List Nat)
  /-- the host, or another agent, stores a byte of host memory -/
  | memWrite (a : Word) (v : Byte)
  /-- the host takes the completion interrupt if it is asserted (R365, R420) -/
  | takeIrq
  /-- the platform asserts the reset input (R450) -/
  | hardReset
  deriving DecidableEq, Repr

/-- A coming host access, and how many engine steps take place between the access before it and it; `none`: the host
waits until the running command has ended (R365 "wait", R413). The step of the access before it makes those engine steps, so
those of the event at the head of the list have been made. -/
structure HostEvent where
  delay : Option Nat
  access : HostAccess
  deriving DecidableEq, Repr

/-- A value the host has read. -/
inductive ReadRecord where
  | reg (off : Nat) (v : Word)
  | mem (a : Nat) (v : Byte)
  deriving DecidableEq, Repr

/-- Old values that the host may still see, because it has not been made to see the writes that replaced them (R122). -/
structure Unseen where
  /-- of bytes of memory -/
  cells : List Host.Cell
  /-- of registers -/
  regs : List (ResultReg × Word)
  deriving DecidableEq, Repr

/-- Nothing is unseen. -/
def Unseen.nothing : Unseen := { cells := [], regs := [] }

/-- The machine's state. STATUS.BUSY is `engine`'s being `some` (R56, R83), ID and the reserved bits are constants
(R50, R51, R53), CMD holds nothing (R55), and `irq` is computed (R420). -/
structure State where
  /-- CTRL.IRQ_EN (R54) -/
  irqEn : Bool
  /-- STATUS.DONE (R56) -/
  done : Bool
  /-- STATUS.TAIL (R56) -/
  tail : Bool
  /-- STATUS.IGN (R56, R71) -/
  ign : Bool
  /-- STATUS.ERR (R56, R400) -/
  err : ErrCode
  /-- IN_BASE, IN_LEN, OUT_BASE, OUT_CAP, WINDOW, LOOKAHEAD (R57, R58) -/
  params : Params
  /-- CURSOR (R59) -/
  cursor : Word
  /-- OUT_LEN (R60) -/
  outLen : Word
  /-- TOKEN_COUNT (R60) -/
  tokenCount : Word
  /-- MATCH_DIST (R61) -/
  matchDist : Half
  /-- MATCH_LEN (R61) -/
  matchLen : Half
  /-- HASH.VALUE (R62) -/
  hashValue : BitVec 18
  /-- HASH.VALID (R62) -/
  hashValid : Bool
  /-- ERR_ADDR (R63) -/
  errAddr : Word
  /-- the engine: `none` is IDLE, `some` is BUSY with the running command's state (R83) -/
  engine : Option Run
  /-- the hash index: buckets by hash value, strictly rising, none of them empty (R80) -/
  index : List (Nat × List Nat)
  /-- host memory (R100): addresses strictly rising, no entry equal to what an unlisted address reads as -/
  mem : List Host.Cell
  /-- the platform's parameters (R10); no step changes them -/
  platform : Platform
  /-- the host accesses still to come, the next one first (R365, R413) -/
  pending : List HostEvent
  /-- what the host has read, latest first -/
  readback : List ReadRecord
  /-- what the command that ended last has written and the host has not yet been made to see (R122) -/
  unseen : Unseen
  /-- the same of the commands before it, whose end the host has not read while it was the last (R122) -/
  stale : Unseen
  /-- how many free values have been drawn (the model's own, log entry 1) -/
  freeTick : Nat
  deriving DecidableEq, Repr

/-- Why the machine stops with a fault. LZMF itself never stops: every error of R400 is a next state. -/
inductive Fault where
  /-- Raised by the four token meanings when `exec` gives them a state in which no record is being decoded: a token is
  data of a DECOMPRESS (R2, R160), the spec gives it no effect elsewhere. No step reaches it. Safe. -/
  | tokenOutsideRecord
  deriving DecidableEq, Repr

/-- Why the model gives no meaning to a step. -/
inductive Refusal where
  /-- Raised by exec for an instruction that has no meaning yet. Safe. -/
  | notModelled (mnemonic : String)
  /-- Raised by a host register access that is not an aligned 32-bit word at an offset 0x00..0xFC, a byte access to the
  register block among them (R52, U6: "refuse"). Safe. -/
  | registerAccessShape
  /-- Raised by a 32-bit host bus access outside the register block: no access of LZMF's (R50; log entry 13). Safe. -/
  | outsideRegisterBlock
  deriving DecidableEq, Repr

/-- The state after a reset of an instance on a given platform with given host memory (R90, R450): every register and
field 0, the engine IDLE, the index empty. -/
def State.resetOn (platform : Platform) (mem : List Host.Cell) : State :=
  { irqEn := false, done := false, tail := false, ign := false, err := .none
    params := { inBase := 0, inLen := 0, outBase := 0, outCap := 0, window := 0, lookahead := 0 }
    cursor := 0, outLen := 0, tokenCount := 0, matchDist := 0, matchLen := 0
    hashValue := 0, hashValid := false, errAddr := 0
    engine := none, index := [], mem := mem, platform := platform
    pending := [], readback := [], unseen := .nothing, stale := .nothing, freeTick := 0 }

/-- The machine right after the power-on reset (R90, R450), on the abstract machine's platform (93 section 2), with
nothing in host memory and no host access to come: it waits for a command. -/
def State.reset : State := State.resetOn Platform.abstract []

end Sys2Proof.Machine
end

