-- ==== Sys2Proof/Machine/Ops.lean ====
section
/-! DEFINITION. The named operations that every meaning goes through: tables in canonical form, host memory and the hash
index as such tables, free values, accepting a command (45_control.md R360), ending it with or without an error (R360,
60_exceptions.md R410), and the reset (10_state.md R90). -/

namespace Sys2Proof.Machine

/-! ### Tables: lists of key and value with keys strictly rising and no value equal to the default -/

/-- The value at key `k`, `d` where none is listed. -/
def Table.get {α : Type} (d : α) : List (Nat × α) → Nat → α
  | [], _ => d
  | (k', v) :: t, k => if k = k' then v else Table.get d t k

/-- Puts `v` at the front with key `k`, or nothing if `v` is the default. -/
def Table.cons {α : Type} [DecidableEq α] (d : α) (k : Nat) (v : α) (t : List (Nat × α)) : List (Nat × α) :=
  if v = d then t else (k, v) :: t

/-- The table with the value `v` at key `k`; setting the default removes the entry. -/
def Table.set {α : Type} [DecidableEq α] (d : α) : List (Nat × α) → Nat → α → List (Nat × α)
  | [], k, v => Table.cons d k v []
  | (k', v') :: t, k, v =>
    if k < k' then Table.cons d k v ((k', v') :: t)
    else if k = k' then Table.cons d k v t
    else (k', v') :: Table.set d t k v

/-- The canonical form: every key is at least `lo`, keys rise strictly, no value is the default. -/
def Table.wfFrom {α : Type} [DecidableEq α] (d : α) : Nat → List (Nat × α) → Bool
  | _, [] => true
  | lo, (k, v) :: t => decide (lo ≤ k) && decide (v ≠ d) && Table.wfFrom d (k + 1) t

/-! ### Host memory (20_memory.md R100) -/

/-- What a byte of host memory that nothing has written reads as (log entry 4, DESIGN CHOICE). -/
def Memory.unlisted : Byte := 0

/-- The byte host memory holds at an address. -/
def Memory.read (m : List Host.Cell) (a : Nat) : Byte := Table.get Memory.unlisted m a

/-- Host memory with the byte `v` at address `a`. -/
def Memory.write (m : List Host.Cell) (a : Nat) (v : Byte) : List Host.Cell := Table.set Memory.unlisted m a v

/-- The canonical form of host memory, with every address below 2^32 (R100). -/
def Memory.wf (m : List Host.Cell) : Bool :=
  Table.wfFrom Memory.unlisted 0 m && m.all fun c => decide (c.1 < Config.addressSpace)

/-- Host memory with the bytes `vs` at `a`, `a + 1`, ... -/
def Memory.writeBytes (m : List Host.Cell) (a : Nat) : List Byte → List Host.Cell
  | [] => m
  | v :: vs => Memory.writeBytes (Memory.write m a v) (a + 1) vs

/-- The values recorded for a key in a list of key and value pairs. -/
def valuesOf {κ α : Type} [DecidableEq κ] (entries : List (κ × α)) (k : κ) : List α :=
  entries.filterMap fun e => if e.1 = k then some e.2 else none

/-- The values recorded for address `a` in a list of address and byte pairs. -/
def Memory.valuesAt (cells : List Host.Cell) (a : Nat) : List Byte := valuesOf cells a

/-! ### The hash index (10_state.md R80) -/

/-- `idx[h]`: the positions of a hash value in insertion order (R80). -/
def Index.bucket (idx : List (Nat × List Nat)) (h : Nat) : List Nat := Table.get [] idx h

/-- `idx[h] <- ps` (R16). -/
def Index.setBucket (idx : List (Nat × List Nat)) (h : Nat) (ps : List Nat) : List (Nat × List Nat) :=
  Table.set [] idx h ps

/-- `size(idx)`, the sum of the bucket lengths (R80). -/
def Index.size (idx : List (Nat × List Nat)) : Nat := (idx.map fun b => b.2.length).sum

/-- The canonical form of the index: hash values rising, no empty bucket listed. -/
def Index.wf (idx : List (Nat × List Nat)) : Bool := Table.wfFrom [] 0 idx

/-! ### Free values (log entry 1) -/

/-- One of the values `v :: others`, freely chosen; with no others it is `v` and nothing is drawn. -/
def State.choose {α : Type} (s : State) (v : α) : List α → α × State
  | [] => (v, s)
  | others => ((v :: others).getD ((Config.freeValue s.freeTick).toNat % (others.length + 1)) v,
      { s with freeTick := s.freeTick + 1 })

/-- A byte with the two values it may take after an abort or a BUS. -/
structure Blur where
  addr : Nat
  old : Byte
  new : Byte
  deriving DecidableEq, Repr

/-- Gives each listed byte its old or its new value, freely (U3, U4). -/
def State.blur (s : State) : List Blur → State
  | [] => s
  | b :: rest =>
    State.blur
      { s with
        mem := Memory.write s.mem b.addr (if Config.freeBool s.freeTick then b.new else b.old)
        freeTick := s.freeTick + 1 }
      rest

/-- Gives each of `n` bytes from `a` on a free value (U5). -/
def State.scrambleBytes (s : State) (a : Nat) : Nat → State
  | 0 => s
  | n + 1 =>
    State.scrambleBytes
      { s with
        mem := Memory.write s.mem a (Config.freeByte s.freeTick)
        freeTick := s.freeTick + 1 }
      (a + 1) n

/-! ### The registers the engine writes, and its updates (R64, R413) -/

/-- The word a result register holds, with its reserved bits 0 (R50, R51). -/
def State.result (s : State) : ResultReg → Word
  | .cursor => s.cursor
  | .outLen => s.outLen
  | .tokenCount => s.tokenCount
  | .matchDist => s.matchDist.setWidth 32
  | .matchLen => s.matchLen.setWidth 32
  | .hash => BitVec.ofBool s.hashValid ++ 0#13 ++ s.hashValue
  | .errAddr => s.errAddr

/-- `x[reg] <- v`: the register's fields take their bits of `v` (R59 to R63). -/
def State.setResult (s : State) (reg : ResultReg) (v : Word) : State :=
  match reg with
  | .cursor => { s with cursor := v }
  | .outLen => { s with outLen := v }
  | .tokenCount => { s with tokenCount := v }
  | .matchDist => { s with matchDist := v.setWidth 16 }
  | .matchLen => { s with matchLen := v.setWidth 16 }
  | .hash => { s with hashValue := v.setWidth 18, hashValid := v.getLsbD 31 }
  | .errAddr => { s with errAddr := v }

/-- One update of the engine (R413). -/
def State.update (s : State) : Update → State
  | .result reg v => s.setResult reg v
  | .clearIndex => { s with index := [] }
  | .bucket h ps => { s with index := Index.setBucket s.index h ps }

/-- The running command's record of an update: a register's old value is kept for the host that has not yet been made to
see the new one (R122). -/
def Run.note (r : Run) (s : State) : Update → Run
  | .result reg _ => { r with regJournal := (reg, s.result reg) :: r.regJournal }
  | .clearIndex | .bucket _ _ => r

/-- The phase after a row of updates. -/
def After.phase : After → Phase
  | .encodeTop => .encodeTop
  | .recordRead => .recordRead []
  | .found d k => .found d k
  | .ending => .ending .none
  | .raising e => .raising e

/-! ### What the host has yet to be made to see (R122) -/

/-- The old values of both. -/
def Unseen.append (u v : Unseen) : Unseen := { cells := u.cells ++ v.cells, regs := u.regs ++ v.regs }

/-- The old values in `v` that no write recorded in `u`, which is later, has replaced. -/
def Unseen.before (u v : Unseen) : Unseen :=
  { cells := v.cells.filter fun c => (valuesOf u.cells c.1).isEmpty
    regs := v.regs.filter fun c => (valuesOf u.regs c.1).isEmpty }

/-- A command word is accepted or rejected: from now on DONE tells of that command, and reading it makes no write of an
earlier one visible (R122: "for that command"). -/
def State.retire (s : State) : State := { s with unseen := .nothing, stale := s.unseen.append s.stale }

/-- The host has been made to see every write of the command that ended last (R122), and so nothing older where it
wrote. -/
def State.sync (s : State) : State := { s with unseen := .nothing, stale := s.unseen.before s.stale }

/-! ### The running command -/

/-- STATUS.BUSY (R56): the engine's mode is BUSY (R83). -/
def State.busy (s : State) : Bool := s.engine.isSome

/-- The engine moves on to another phase of the running command. -/
def State.goto (s : State) (r : Run) (ph : Phase) : State := { s with engine := some { r with phase := ph } }

/-- The engine makes the updates one step each, and then goes on (R413). -/
def State.updates (s : State) (r : Run) (us : List Update) (next : After) : State :=
  match us with
  | [] => s.goto r next.phase
  | u :: rest => s.goto r (.update u rest next)

/-- The update `u` is made. -/
def State.stepUpdate (s : State) (r : Run) (u : Update) (rest : List Update) (next : After) : State :=
  (s.update u).updates (r.note s u) rest next

/-- Whether the task uses the hash-chain finder (R250, R280). -/
def Task.usesChain : Task → Bool
  | .compressHc | .findHc => true
  | .nop | .compressLin | .decompress | .findLinear | .hash3 | .indexClear => false

/-- Whether the task is a COMPRESS (R290). -/
def Task.isCompress : Task → Bool
  | .compressLin | .compressHc => true
  | .nop | .decompress | .findLinear | .findHc | .hash3 | .indexClear => false

/-- Whether the task has an output buffer (R102). -/
def Task.hasOutput : Task → Bool
  | .compressLin | .compressHc | .decompress => true
  | .nop | .findLinear | .findHc | .hash3 | .indexClear => false

/-- Whether the task has an input buffer (R102). -/
def Task.hasInput : Task → Bool
  | .compressLin | .compressHc | .decompress | .findLinear | .findHc | .hash3 => true
  | .nop | .indexClear => false

/-- The state of a command at its acceptance: the snapshot of R83, nothing done. A finder's or HASH3's argument is
CURSOR (R59). -/
def Run.init (task : Task) (s : State) : Run :=
  { task := task, snap := s.params, cur := s.cursor.toNat, o := 0, t := 0, bestDist := 0, bestLen := 0, hash := 0
    phase := .start, journal := [], regJournal := [], foreign := [] }

/-- Acceptance of a legal command word (R360): DONE, ERR and TAIL are cleared and BUSY is set. -/
def State.accept (s : State) (task : Task) : State :=
  { s.retire with done := false, err := .none, tail := false, engine := some (Run.init task s) }

/-- Rejection of an illegal command word with BUSY = 0 (R154, R360, R401). -/
def State.reject (s : State) : State := { s.retire with err := .illegalCmd, tail := false, done := true }

/-- A host write dropped because BUSY = 1 (R71): IGN is set and nothing else changes. -/
def State.drop (s : State) : State := { s with ign := true }

/-- The error codes a command can end with once its start checks have passed (R400). The list is the command's alone, whatever
the platform: after a broken R460 (`State.scramble`) BUS is among the codes drawn where the platform refuses nothing, and
INDEX_FULL where INDEX_CAP is unbounded, though R404 and R406 say that those never happen there. R460 leaves open which is
meant (log entry 11, DESIGN CHOICE). -/
def Task.runErrors : Task → List ErrCode
  | .nop | .indexClear => [.none]
  | .findLinear | .hash3 => [.none, .bus]
  | .findHc => [.none, .bus, .indexFull]
  | .compressLin | .decompress => [.none, .outOverflow, .bus]
  | .compressHc => [.none, .outOverflow, .bus, .indexFull]

/-- The registers a task may write, STATUS apart (R64). -/
def Task.results : Task → List ResultReg
  | .nop | .indexClear => []
  | .compressLin | .compressHc | .decompress => [.cursor, .outLen, .tokenCount, .errAddr]
  | .findLinear | .findHc => [.matchDist, .matchLen, .errAddr]
  | .hash3 => [.hash, .errAddr]

/-- Gives each of the registers a free value (U5). -/
def State.scrambleResults (s : State) : List ResultReg → State
  | [] => s
  | reg :: regs =>
    State.scrambleResults (State.setResult { s with freeTick := s.freeTick + 1 } reg (Config.freeValue s.freeTick)) regs

/-- R460 (U5): the results of a command whose buffers another agent wrote while it ran are unspecified. ERR is one of the
codes it can raise; its result registers, ERR_ADDR among them whatever ERR is, and the bytes of its output buffer are free;
no other byte changes. TAIL depends on IN_LEN alone and is 0 after an error (R330, R411). -/
def State.scramble (s : State) (r : Run) : State :=
  let e := r.task.runErrors.getD ((Config.freeValue s.freeTick).toNat % r.task.runErrors.length) .none
  let s' := State.scrambleResults
    { s with
      err := e
      tail := decide (r.task = .decompress) && decide (e = .none) && decide (r.snap.inLen.toNat % 4 ≠ 0)
      freeTick := s.freeTick + 1 }
    r.task.results
  if r.task.hasOutput then s'.scrambleBytes r.snap.outBase.toNat r.snap.outCap.toNat else s'

/-- What a scrambled command's results hold before it: the host may still see these (R122). -/
def State.beforeScramble (s : State) (r : Run) : Unseen :=
  { cells := (List.range (if r.task.hasOutput then r.snap.outCap.toNat else 0)).map fun j =>
      (r.snap.outBase.toNat + j, Memory.read s.mem (r.snap.outBase.toNat + j))
    regs := r.task.results.map fun reg => (reg, s.result reg) }

/-- The errors of the start checks, raised before the command has any other effect (R402, R403). -/
def ErrCode.atStart : ErrCode → Bool
  | .range | .overlap => true
  | .none | .illegalCmd | .outOverflow | .bus | .indexFull => false

/-- Whether a command that stands here has passed its start checks. -/
def Phase.begun : Phase → Bool
  | .start => false
  | .raising e | .ending e => !e.atStart
  | .encodeTop | .hashRead _ | .candidates _ | .matching _ _ _ | .comparing _ _ _ _ | .found _ _ | .emit _ _ _
  | .recordRead _ | .record _ | .copy _ _ _ _ _ | .copyWrite _ _ _ _ _ _ | .recordEnd _ | .trailing
  | .update _ _ _ => true

/-- `raise Err(e)` (R410): the command stops, and records ERR next. Nothing else is saved and nothing is redirected. -/
def State.raise (s : State) (r : Run) (e : ErrCode) : State := s.goto r (.raising e)

/-- `x[STATUS].ERR <- e` (R410). -/
def State.stepRaising (s : State) (r : Run) (e : ErrCode) : State := State.goto { s with err := e } r (.ending e)

/-- The end of a command, by its own end (`e = NONE`) or by `raise Err(e)` (R360, R410): BUSY falls, DONE is set, the mode
is IDLE. ERR is `e` already: since `State.stepRaising`, or since the acceptance. A failed start check has had no other
effect whatever another agent did (R402, R403, R460). -/
def State.finish (s : State) (r : Run) (e : ErrCode) : State :=
  let s' := { s with
    engine := none, done := true, err := e
    unseen := Unseen.append { cells := r.journal, regs := r.regJournal } s.unseen }
  if r.foreign = [] ∨ e.atStart = true then s'
  else { State.scramble s' r with unseen := (s'.beforeScramble r).append s'.unseen }

/-- R281: a finder's result `(d, k)` at the cursor becomes a copy token if and only if `k > 0 and c + k < n`. -/
def Run.qualifies (r : Run) (k : Nat) : Bool := decide (k > 0) && decide (r.cur + k < r.snap.inLen.toNat)

/-! ### Reset -/

/-- What an abort leaves in memory (R362, U3): each byte the command wrote holds its old value or the value written. If
another agent wrote the command's buffers, the output buffer is unspecified (R460); a command that has not passed its
start checks has written nothing. -/
def State.abort (s : State) : State :=
  match s.engine with
  | none => s
  | some r =>
    let s' := State.blur s (r.journal.map fun c => { addr := c.1, old := c.2, new := Memory.read s.mem c.1 })
    if r.foreign = [] ∨ r.task.hasOutput = false ∨ r.phase.begun = false then s'
    else State.scrambleBytes s' r.snap.outBase.toNat r.snap.outCap.toNat

/-- RESET and the hardware reset (R90, R362, R450): the running command is aborted, every register takes its reset value,
the index is emptied and the engine is IDLE. Host memory is not touched but for the aborted command's output, and the
host is no nearer to having been made to see an ended command's bytes (R122); the registers it reads are the reset ones. -/
def State.resetDevice (s : State) : State :=
  let s := s.abort
  { State.resetOn s.platform s.mem with
    pending := s.pending, readback := s.readback, freeTick := s.freeTick
    unseen := { s.unseen with regs := [] }, stale := { s.stale with regs := [] } }

end Sys2Proof.Machine
end

