-- ==== Sys2Proof/Machine/Operands.lean ====
section
/-! DEFINITION. A command's operands: the buffers (20_memory.md R102), the start checks (R103, R104), the bytes `In[i]`
and `Out[j]` (00_scope.md R14), the window and the candidates of the linear finder (41_linear_finder.md R202), the 3-byte
hash and the bucket after an insertion (42_hash_chain.md R230, R240). -/

namespace Sys2Proof.Machine

/-- `n`, and `m` for a token stream: the input length (R14, R330). -/
def Params.n (p : Params) : Nat := p.inLen.toNat

/-- `w`: windowSize (R58). -/
def Params.w (p : Params) : Nat := p.window.toNat

/-- `L`: lookaheadSize (R58). -/
def Params.L (p : Params) : Nat := p.lookahead.toNat

/-- The address of `In[i]` (R14). -/
def Params.inAddr (p : Params) (i : Nat) : Nat := p.inBase.toNat + i

/-- The address of `Out[j]` (R14). -/
def Params.outAddr (p : Params) (j : Nat) : Nat := p.outBase.toNat + j

/-- Whether the input buffer passes the top of the address space (R103). -/
def Params.inRangeFails (p : Params) : Bool := decide (p.inBase.toNat + p.inLen.toNat > Config.addressSpace)

/-- Whether the output buffer passes the top of the address space (R103). -/
def Params.outRangeFails (p : Params) : Bool := decide (p.outBase.toNat + p.outCap.toNat > Config.addressSpace)

/-- Whether both buffers have nonzero length and share a byte (R104). -/
def Params.buffersOverlap (p : Params) : Bool :=
  decide (p.inLen.toNat > 0) && decide (p.outCap.toNat > 0) &&
    decide (p.inBase.toNat < p.outBase.toNat + p.outCap.toNat) &&
    decide (p.outBase.toNat < p.inBase.toNat + p.inLen.toNat)

/-- Whether `a` is a byte of the input buffer (R102). -/
def Params.inInput (p : Params) (a : Nat) : Bool :=
  Region.holds ⟨p.inBase.toNat, p.inLen.toNat⟩ a

/-- Whether `a` is a byte of the output buffer (R102). -/
def Params.inOutput (p : Params) (a : Nat) : Bool :=
  Region.holds ⟨p.outBase.toNat, p.outCap.toNat⟩ a

/-- Whether `a` is a byte of a buffer of the running command (R102, R460). -/
def Run.ownsByte (r : Run) (a : Nat) : Bool :=
  (r.task.hasInput && r.snap.inInput a) || (r.task.hasOutput && r.snap.inOutput a)

/-- The linear finder's candidates `max(0, c - w) .. c - 1`, ascending (R202). -/
def linearCandidates (c w : Nat) : List Nat := List.range' (c - min w c) (min w c)

/-- Whether a bucket's position is in the window: `c - w <= p and p < c`, with `c - w` unbounded (R240). -/
def inWindow (c w p : Nat) : Bool := decide (c ≤ p + w) && decide (p < c)

/-- `hash3` as the polynomial of R230: `h <- h * 31 + b` over the bytes in order, from HASH_INIT; bytes are unsigned. -/
def hashBytes (bytes : List Byte) : Nat :=
  bytes.foldl (fun h b => h * Config.hashMult + b.toNat) Config.hashInit

/-- The bucket after `cursor` is appended and, if it is then longer than CHAIN_CAP, pruned of the positions older than the
window start (R240 steps 4 and 5, R244, R245). -/
def chainBucket (c w : Nat) (bucket : List Nat) : List Nat :=
  let appended := bucket ++ [c]
  if appended.length > Config.chainCap then appended.filter (fun p => decide (c ≤ p + w)) else appended

end Sys2Proof.Machine
end

