-- ==== Sys2Proof/Machine/Reference.lean ====
section
/-! DEFINITION. The spec's functions as functions of byte sequences, with no machine in them: matchLen and the two finders
(41_linear_finder.md R200, R202; 42_hash_chain.md R240), the encoder's loop (43_encoder.md R282, R290) and the decoder's
(44_decoder.md R320 to R330). The engine does not run them. They say, for the claims, what a whole command computes, and
what the token would have been that a BUS has cut short (Bus.lean). `inp i` is `In[i]`, `n` the input length. -/

namespace Sys2Proof.Machine

/-! ### The finders -/

/-- matchLen's loop from `k` on, for at most `fuel` turns (R200). -/
def Ref.matchFrom (inp : Nat → Byte) (n L p c : Nat) : Nat → Nat → Nat
  | 0, k => k
  | fuel + 1, k =>
    if k < L ∧ c + k < n ∧ inp (p + k) = inp (c + k) then Ref.matchFrom inp n L p c fuel (k + 1) else k

/-- `matchLen(p, c, L)` (R200). -/
def Ref.matchLen (inp : Nat → Byte) (n p c L : Nat) : Nat := Ref.matchFrom inp n L p c L 0

/-- A finder's loop over candidates: one in the window replaces the best pair so far when `better bestLen k` (R202,
R240). -/
def Ref.visit (better : Nat → Nat → Bool) (inp : Nat → Byte) (n c w L : Nat) : List Nat → Nat × Nat → Nat × Nat
  | [], best => best
  | p :: ps, best =>
    Ref.visit better inp n c w L ps
      (if inWindow c w p && better best.2 (Ref.matchLen inp n p c L) then (c - p, Ref.matchLen inp n p c L) else best)

/-- `findLinear(c, w, L)` (R202): oldest candidate first, strict improvement only. -/
def Ref.findLinear (inp : Nat → Byte) (n c w L : Nat) : Nat × Nat :=
  Ref.visit (fun b k => decide (b < k)) inp n c w L (linearCandidates c w) (0, 0)

/-- findHC's best pair over a bucket, before the minimum match applies (R240 steps 2 and 3): last-found wins ties. -/
def Ref.searchBucket (inp : Nat → Byte) (n c w L : Nat) (bucket : List Nat) : Nat × Nat :=
  Ref.visit (fun b k => decide (b ≤ k)) inp n c w L bucket (0, 0)

/-- `hash3` of the 3 bytes at position `c` (R230). -/
def Ref.hashAt (inp : Nat → Byte) (c : Nat) : Nat := hashBytes [inp c, inp (c + 1), inp (c + 2)]

/-- The pair `findHC(c, w, L)` returns (R240, R243). -/
def Ref.findHc (inp : Nat → Byte) (n c w L : Nat) (idx : List (Nat × List Nat)) : Nat × Nat :=
  if c + 3 ≤ n then
    let best := Ref.searchBucket inp n c w L (Index.bucket idx (Ref.hashAt inp c))
    if 3 ≤ best.2 then best else (0, 0)
  else (0, 0)

/-- The index after `findHC(c, w, L)` (R240 steps 4 and 5). -/
def Ref.insertHc (inp : Nat → Byte) (n c w : Nat) (idx : List (Nat × List Nat)) : List (Nat × List Nat) :=
  if c + 3 ≤ n then
    Index.setBucket idx (Ref.hashAt inp c) (chainBucket c w (Index.bucket idx (Ref.hashAt inp c)))
  else idx

/-- Whether `findHC` at `c` raises INDEX_FULL (R246): it would append, and the index is at its capacity. -/
def Ref.fullAt (cap : Option Nat) (n c : Nat) (idx : List (Nat × List Nat)) : Bool :=
  decide (c + 3 ≤ n) &&
    match cap with
    | none => false
    | some size => decide (size ≤ Index.size idx)

/-! ### The encoder -/

/-- What the encoder emits in one step, before it is packed: `(d, k, x)` with the full length `k`, or `(0, 0, x)` for a
literal. It covers `k + 1` input bytes (R282). -/
structure Ref.Token where
  dist : Nat
  len : Nat
  lit : Byte
  deriving DecidableEq, Repr

/-- The record of a token: `T(d, k mod 256, x)` (R282, R283). -/
def Ref.record (t : Ref.Token) : Word := packToken (BitVec.ofNat 16 t.dist) (BitVec.ofNat 8 t.len) t.lit

/-- The four bytes of a record in memory order (R160, R286). -/
def Ref.recordBytes (w : Word) : List Byte := (List.range 4).map (recordByte w)

/-- The bytes of a token stream (R165, R286). -/
def Ref.streamBytes (ts : List Ref.Token) : List Byte := ts.flatMap fun t => Ref.recordBytes (Ref.record t)

/-- How many input bytes the tokens cover (R282, R293). -/
def Ref.covered (ts : List Ref.Token) : Nat := (ts.map fun t => t.len + 1).sum

/-- What a finder's result at `c` becomes (R281, R282). -/
def Ref.choose (inp : Nat → Byte) (n c : Nat) (found : Nat × Nat) : Ref.Token :=
  if 0 < found.2 ∧ c + found.2 < n then ⟨found.1, found.2, inp (c + found.2)⟩ else ⟨0, 0, inp c⟩

/-- The finder of R280 and the index after it. -/
def Ref.find (chain : Bool) (inp : Nat → Byte) (n w L c : Nat) (idx : List (Nat × List Nat)) :
    (Nat × Nat) × List (Nat × List Nat) :=
  if chain then (Ref.findHc inp n c w L idx, Ref.insertHc inp n c w idx) else (Ref.findLinear inp n c w L, idx)

/-- The encoder's loop from the cursor `c` (R290), with room for `room` more tokens in the output buffer: the tokens, the
index it leaves and the error it ends with. -/
def Ref.encode (chain : Bool) (cap : Option Nat) (inp : Nat → Byte) (n w L : Nat) :
    Nat → Nat → List (Nat × List Nat) → List Ref.Token × List (Nat × List Nat) × ErrCode
  | 0, c, idx => ([], idx, if c < n then .outOverflow else .none)
  | room + 1, c, idx =>
    if c < n then
      if chain && Ref.fullAt cap n c idx then ([], idx, .indexFull)
      else
        let found := Ref.find chain inp n w L c idx
        let tok := Ref.choose inp n c found.1
        let rest := Ref.encode chain cap inp n w L room (c + (tok.len + 1)) found.2
        (tok :: rest.1, rest.2)
    else ([], idx, .none)

/-- The tokens of a COMPRESS with buffers and index large enough (R290, R294). -/
def Ref.compress (chain : Bool) (inp : Nat → Byte) (n w L : Nat) : List Ref.Token :=
  (Ref.encode chain none inp n w L n 0 []).1

/-! ### The decoder -/

/-- The copy loop from index `i` on for `m` more indexes, over the output so far (R324): a byte at a time, from the output
as it grows; an index at or beyond its end is skipped. -/
def Ref.copyFrom (start : Nat) : Nat → Nat → List Byte → List Byte
  | 0, _, out => out
  | m + 1, i, out =>
    Ref.copyFrom start m (i + 1) (if start + i < out.length then out ++ [out.getD (start + i) 0] else out)

/-- The output after one record (R321, R324, R325). -/
def Ref.decodeRecord (out : List Byte) (w : Word) : List Byte :=
  Ref.copyFrom (out.length - (recordOffset w).toNat) (recordLength w).toNat 0 out ++ [recordLiteral w]

/-- The output of a stream of records (R320, R330). -/
def Ref.decode (ws : List Word) : List Byte := ws.foldl Ref.decodeRecord []

/-- The decoder's loop into an output buffer of `cap` bytes (R330, R405): the output, and how many records fitted. -/
def Ref.decodeWithin (cap : Nat) : List Word → List Byte → List Byte × Nat
  | [], out => (out, 0)
  | w :: ws, out =>
    if cap < (Ref.decodeRecord out w).length then (out, 0)
    else
      let rest := Ref.decodeWithin cap ws (Ref.decodeRecord out w)
      (rest.1, rest.2 + 1)

/-- The record at position `4 k` of the stream (R320). -/
def Ref.recordAt (inp : Nat → Byte) (k : Nat) : Word :=
  recordWord (inp (4 * k)) (inp (4 * k + 1)) (inp (4 * k + 2)) (inp (4 * k + 3))

/-- The full records of a stream of `m` bytes; 1 to 3 trailing bytes belong to none (R320, R332). -/
def Ref.records (inp : Nat → Byte) (m : Nat) : List Word := (List.range (m / 4)).map (Ref.recordAt inp)

end Sys2Proof.Machine
end

