-- ==== Sys2Proof/Machine/Bus.lean ====
section
/-! DEFINITION. The engine's byte accesses (00_scope.md R14, 60_exceptions.md R404), and what a refused one leaves: the
error BUS, and the bytes of the failing token or record, each old or as the rules give it (R411). -/

namespace Sys2Proof.Machine

/-! ### What the failing token or record would have written (R411; log entry 8) -/

/-- `In[i]` as the rules take it: the byte memory holds where the engine may read it, a free byte where a read is refused
(R404: it "returns no value") or falls on side-effect memory (R110, U7). -/
def State.supposedInput (s : State) (p : Params) (i : Nat) : Byte :=
  if s.platform.admits (p.inAddr i) .read && !s.platform.hasSideEffects (p.inAddr i) then Memory.read s.mem (p.inAddr i)
  else Config.freeByte (s.freeTick + i)

/-- The token of the encoder's step at the cursor (R280 to R283, R290), its finder run over `State.supposedInput`; none if
that step would have ended with INDEX_FULL (R246, R406). -/
def State.supposedToken (s : State) (r : Run) : Option Ref.Token :=
  let chain := r.task.usesChain
  let inp := s.supposedInput r.snap
  if chain && Ref.fullAt s.platform.indexCap r.snap.n r.cur s.index then none
  else some (Ref.choose inp r.snap.n r.cur (Ref.find chain inp r.snap.n r.snap.w r.snap.L r.cur s.index).1)

/-- The record at the cursor (R320), completed with `State.supposedInput` after the bytes read so far. -/
def State.supposedRecord (s : State) (r : Run) (bytes : List Byte) : Word :=
  let byte := fun j => bytes.getD j (s.supposedInput r.snap (r.cur + j))
  recordWord (byte 0) (byte 1) (byte 2) (byte 3)

/-- The byte a record copied from position `start` appends at index `i`, in its periodic form (R326): a byte of the output
before the record; a free byte if the copy passes through side-effect memory (U7). -/
def State.copiedByte (s : State) (r : Run) (start i : Nat) : Byte :=
  let period := r.o - start
  if (List.range (i + 1)).any fun j =>
      decide (j % period = i % period) && s.platform.hasSideEffects (r.snap.outAddr (start + j)) then
    Config.freeByte (s.freeTick + r.snap.n + i)
  else Memory.read s.mem (r.snap.outAddr (start + i % period))

/-- The bytes that a record copied from position `start` and its literal take, each with its position from `o` on: the
`cnt` copied bytes (R323, R326), then the literal (R325). -/
def State.copiedBytes (s : State) (r : Run) (start len : Nat) (lit : Byte) : List (Nat × Byte) :=
  let cnt := if start < r.o then len else 0
  ((List.range cnt).map fun i => (i, s.copiedByte r start i)) ++ [(cnt, lit)]

/-- The bytes of a token's record, each with its position from `o` on (R286). -/
def tokenBytes (w : Word) : List (Nat × Byte) := (List.range 4).map fun i => (i, recordByte w i)

/-- The bytes that the token or record in progress writes, or would have written, each with its position from `o` on and
the value the rules give it (R411). Nothing would have been written by a step or record that its own check stops first
(R405, R406). -/
def State.recordBytes (s : State) (r : Run) : List (Nat × Byte) :=
  match r.phase with
  | .emit w _ _ => tokenBytes w
  | .found d k =>
    if r.task.isCompress then
      tokenBytes (Ref.record (Ref.choose (s.supposedInput r.snap) r.snap.n r.cur (d, k)))
    else []
  | .hashRead _ | .candidates _ | .matching _ _ _ | .comparing _ _ _ _ =>
    if r.task.isCompress then
      match s.supposedToken r with
      | none => []
      | some t => tokenBytes (Ref.record t)
    else []
  | .recordRead bytes =>
    let w := s.supposedRecord r bytes
    let written := s.copiedBytes r (r.o - (recordOffset w).toNat) (recordLength w).toNat (recordLiteral w)
    if r.o + written.length ≤ r.snap.outCap.toNat then written else []
  | .copy start len lit _ _ | .copyWrite start len lit _ _ _ => s.copiedBytes r start len.toNat lit
  | .start | .encodeTop | .record _ | .recordEnd _ | .trailing | .update _ _ _ | .raising _ | .ending _ => []

/-- The value of the byte at `a` before the running command wrote it. -/
def State.oldByte (s : State) (r : Run) (a : Nat) : Byte :=
  (Memory.valuesAt r.journal a).headD (Memory.read s.mem a)

/-- What R411 leaves unspecified after a BUS: the failing record's bytes, each old or as the rules give it; on side-effect
memory the rules give it a free value (U7). A byte that the platform refuses to write keeps its old value, the one of the
refused write among them (R404; log entry 9). -/
def State.failingBytes (s : State) (r : Run) : List Blur :=
  ((s.recordBytes r).map fun (i, v) =>
      let a := r.snap.outAddr (r.o + i)
      { addr := a, old := s.oldByte r a
        new := if s.platform.hasSideEffects a then Config.freeByte (s.freeTick + r.snap.n + 256 + i) else v }).filter
    fun b => s.platform.admits b.addr .write

/-- The free values that the failing token or record may have taken: one for each input byte, two for each of the at most
256 bytes a record takes. A task with no output takes none. -/
def State.passSupposed (s : State) (r : Run) : State :=
  if r.task.hasOutput then { s with freeTick := s.freeTick + r.snap.n + 512 } else s

/-- `raise Err(BUS, a)` (R404, R410): no access follows; ERR_ADDR is recorded, then ERR, and the command ends. -/
def State.raiseBus (s : State) (r : Run) (a : Nat) : State :=
  let bytes := s.failingBytes r
  ((s.passSupposed r).blur bytes).updates
    { r with journal := (bytes.map fun b => (b.addr, Memory.read s.mem b.addr)) ++ r.journal }
    [.result .errAddr (BitVec.ofNat 32 a)] (.raising .bus)

/-! ### The engine's byte accesses (R14, R404) -/

/-- What an admitted read of the byte at `a` gives: the byte memory holds; on side-effect memory a free byte (R110, U7);
where another agent has written during the command, one of the values the byte held (R460), those that the command's own
writes replaced among them. -/
def State.observe (s : State) (r : Run) (a : Nat) : Byte × State :=
  if s.platform.hasSideEffects a then
    (Config.freeByte s.freeTick, { s with freeTick := s.freeTick + 1 })
  else
    match Memory.valuesAt r.foreign a with
    | [] => (Memory.read s.mem a, s)
    | v :: vs => s.choose (Memory.read s.mem a) (v :: vs ++ Memory.valuesAt r.journal a)

/-- `v <- MemRead(a, 1)`, and `k` goes on with `v` (R14); a refused access raises BUS (R404). -/
def State.fetch (s : State) (r : Run) (a : Nat) (k : Byte → State → State) : State :=
  if s.platform.admits a .read then
    let (v, s') := s.observe r a
    k v s'
  else s.raiseBus r a

/-- `MemWrite(a, 1, v)`, and `k` goes on (R14); a refused access stores nothing and raises BUS (R404). The byte's old
value goes into the command's journal. On side-effect memory the byte's value is free (U7). -/
def State.store (s : State) (r : Run) (a : Nat) (v : Byte) (k : Run → State → State) : State :=
  if s.platform.admits a .write then
    let r' := { r with journal := (a, Memory.read s.mem a) :: r.journal }
    if s.platform.hasSideEffects a then
      k r' { s with mem := Memory.write s.mem a (Config.freeByte s.freeTick), freeTick := s.freeTick + 1 }
    else k r' { s with mem := Memory.write s.mem a v }
  else s.raiseBus r a

end Sys2Proof.Machine
end

