-- ==== Sys2Proof/Machine/Finder.lean ====
section
/-! DEFINITION. The match finders as the engine runs them: matchLen (41_linear_finder.md R200), the loop over candidates
that the linear (R202) and the hash-chain finder (42_hash_chain.md R240) share, the reads of the 3 hashed bytes, and the
hash-chain finder's lookup, capacity check, insertion and pruning (R240, R244 to R246). One function per phase. -/

namespace Sys2Proof.Machine

/-- A finder's search begins: no best match yet, the candidates to visit (R202, R240). -/
def State.search (s : State) (r : Run) (left : List Nat) : State :=
  s.goto { r with bestDist := 0, bestLen := 0 } (.candidates left)

/-- The call of the finder at the cursor (R280): the linear finder visits its window (R202); the hash-chain finder first
reads the 3 bytes it hashes, or returns `(0, 0)` when fewer remain (R240 step 1). -/
def State.callFinder (s : State) (r : Run) : State :=
  if r.task.usesChain then
    if r.cur + Config.hashBytes ≤ r.snap.n then s.goto r (.hashRead [])
    else s.goto r (.found 0 0)
  else s.search r (linearCandidates r.cur r.snap.w)

/-- Whether a match of length `k` replaces the incumbent: on strict improvement under the linear finder (R202, R203), on
equal length too under the hash-chain finder (R240 step 3, R242). -/
def Run.improves (r : Run) (k : Nat) : Bool :=
  if r.task.usesChain then decide (r.bestLen ≤ k) else decide (r.bestLen < k)

/-- The candidate `p` gave length `k`: the best pair is updated and the loop goes on (R202, R240). -/
def State.candidateDone (s : State) (r : Run) (p k : Nat) (left : List Nat) : State :=
  s.goto (if r.improves k then { r with bestDist := r.cur - p, bestLen := k } else r) (.candidates left)

/-- `chainBucket` as the updates that make it: the append (R240 step 4), and the pruning where there is one (step 5). -/
def chainUpdates (h c w : Nat) (bucket : List Nat) : List Update :=
  .bucket h (bucket ++ [c]) ::
    (if (bucket ++ [c]).length > Config.chainCap then [.bucket h (chainBucket c w bucket)] else [])

/-- Whether the index is at its capacity (R246). -/
def State.indexFull (s : State) : Bool :=
  match s.platform.indexCap with
  | none => false
  | some cap => decide (cap ≤ Index.size s.index)

/-- The end of the loop over candidates. The linear finder returns its best pair (R202). The hash-chain finder raises
INDEX_FULL at capacity (R246), else appends and prunes, and returns its best pair if it is at least MIN_MATCH long
(R240, R243). -/
def State.searchDone (s : State) (r : Run) : State :=
  if r.task.usesChain then
    if s.indexFull then s.raise r .indexFull
    else
      s.updates r (chainUpdates r.hash r.cur r.snap.w (Index.bucket s.index r.hash))
        (if Config.minMatch ≤ r.bestLen then .found r.bestDist r.bestLen else .found 0 0)
  else s.goto r (.found r.bestDist r.bestLen)

/-- The loop head over candidates (R202, R240): the next one in the window is compared, one outside it is passed over. The
linear finder's candidates are all in the window. -/
def State.stepCandidates (s : State) (r : Run) : List Nat → State
  | [] => s.searchDone r
  | p :: left =>
    if inWindow r.cur r.snap.w p then s.goto r (.matching p 0 left) else s.goto r (.candidates left)

/-- matchLen's loop head: while `k < L` and `c + k < n`, read `In[p + k]` (R200). -/
def State.stepMatching (s : State) (r : Run) (p k : Nat) (left : List Nat) : State :=
  if k < r.snap.L ∧ r.cur + k < r.snap.n then
    s.fetch r (r.snap.inAddr (p + k)) fun v s => s.goto r (.comparing p k v left)
  else s.candidateDone r p k left

/-- matchLen's comparison: read `In[c + k]`; an equal byte extends the match (R200). -/
def State.stepComparing (s : State) (r : Run) (p k : Nat) (v : Byte) (left : List Nat) : State :=
  s.fetch r (r.snap.inAddr (r.cur + k)) fun v' s =>
    if v = v' then s.goto r (.matching p (k + 1) left) else s.candidateDone r p k left

/-- HASH3's result: `x[HASH] <- {1, 0, hash3(b0, b1, b2)[17:0]}` (R233), and then its end. -/
def State.hash3Done (s : State) (r : Run) (bytes : List Byte) : State :=
  s.updates r [.result .hash (1#1 ++ 0#13 ++ BitVec.ofNat 18 (hashBytes bytes))] .ending

/-- The reads of `b0, b1, b2` at the cursor (R233, R240 step 1). With the third, HASH3 goes on to write its result; findHC looks
its bucket up and begins its search. -/
def State.stepHashRead (s : State) (r : Run) (bytes : List Byte) : State :=
  s.fetch r (r.snap.inAddr (r.cur + bytes.length)) fun b s =>
    if bytes.length + 1 < Config.hashBytes then s.goto r (.hashRead (bytes ++ [b]))
    else if r.task = .hash3 then s.hash3Done r (bytes ++ [b])
    else
      let h := hashBytes (bytes ++ [b])
      s.search { r with hash := h } (Index.bucket s.index h)

end Sys2Proof.Machine
end

