-- ==== Sys2Proof/Machine/Encoder.lean ====
section
/-! DEFINITION. COMPRESS as the engine runs it (43_encoder.md R280 to R290): the loop head with its OUT_OVERFLOW check,
what a finder's result becomes, the writing of a record, the progress update. One function per phase. -/

namespace Sys2Proof.Machine

/-- The head of `while cur < n` (R290): OUT_OVERFLOW before the finder runs (R405), else the finder is called. -/
def State.stepEncodeTop (s : State) (r : Run) : State :=
  if r.cur < r.snap.n then
    if r.o + Config.tokenBytes > r.snap.outCap.toNat then s.raise r .outOverflow
    else s.callFinder r
  else s.finish r .none

/-- What a finder's result becomes. Under COMPRESS (R282, R283): if it qualifies, the token `T(d, k mod 256, In[c + k])`,
otherwise `T(0, 0, In[c])`; the literal is read here, after the finder, so that a BUS on a literal the finder has not
read (`k = L`) finds the position already in the index, as the pseudocode of R240 and R290 has it; R411 also says that a
BUS on a read leaves it out (log entry 20, DESIGN CHOICE). Under FIND_LINEAR and FIND_HC (R210, R250): MATCH_DIST and
MATCH_LEN, and then the command's end. -/
def State.stepFound (s : State) (r : Run) (d k : Nat) : State :=
  if r.task.isCompress then
    if r.qualifies k then
      s.fetch r (r.snap.inAddr (r.cur + k)) fun x s =>
        s.goto r (.emit (packToken (BitVec.ofNat 16 d) (BitVec.ofNat 8 k) x) k 0)
    else
      s.fetch r (r.snap.inAddr r.cur) fun x s => s.goto r (.emit (packToken 0 0 x) 0 0)
  else
    s.updates r
      [.result .matchDist ((BitVec.ofNat 16 d).setWidth 32), .result .matchLen ((BitVec.ofNat 16 k).setWidth 32)]
      .ending

/-- The progress registers take the engine's counts (R290, R330). -/
def Run.progress (r : Run) : List Update :=
  [.result .cursor (BitVec.ofNat 32 r.cur), .result .outLen (BitVec.ofNat 32 r.o),
    .result .tokenCount (BitVec.ofNat 32 r.t)]

/-- The four writes of a record in byte order (R286), and after them `o <- o + 4`, `t <- t + 1`, `cur <- cur + k + 1` and
then the progress registers (R282, R290). -/
def State.stepEmit (s : State) (r : Run) (w : Word) (k j : Nat) : State :=
  if j < Config.tokenBytes then
    s.store r (r.snap.outAddr (r.o + j)) (recordByte w j) fun r s => s.goto r (.emit w k (j + 1))
  else
    let r' := { r with o := r.o + Config.tokenBytes, t := r.t + 1, cur := r.cur + (k + 1) }
    s.updates r' r'.progress .encodeTop

end Sys2Proof.Machine
end

