-- ==== Sys2Proof/Machine/Decoder.lean ====
section
/-! DEFINITION. DECOMPRESS as the engine runs it (44_decoder.md R320 to R330): the record's reads, its OUT_OVERFLOW check,
the byte-by-byte copy, the literal, the progress update. One function per phase. -/

namespace Sys2Proof.Machine

/-- The head of `while q + 4 <= m` and the record's reads in order (R320, R330). With fewer than 4 bytes left the command
ends, after TAIL is set if 1 to 3 bytes trail (R332). -/
def State.stepRecordRead (s : State) (r : Run) (bytes : List Byte) : State :=
  if bytes = [] ∧ ¬ r.cur + Config.tokenBytes ≤ r.snap.n then
    if r.cur < r.snap.n then s.goto r .trailing else s.finish r .none
  else
    s.fetch r (r.snap.inAddr (r.cur + bytes.length)) fun b s =>
      match bytes with
      | b0 :: b1 :: b2 :: _ => s.goto r (.record (recordWord b0 b1 b2 b))
      | _ => s.goto r (.recordRead (bytes ++ [b]))

/-- `x[STATUS].TAIL <- 1`, an update of its own before the end (R330, R413). -/
def State.stepTrailing (s : State) (r : Run) : State := State.goto { s with tail := true } r (.ending .none)

/-- `cnt`, how many bytes a record copies (R323, R330): `(len > 0 and off > 0 and o > 0) ? len : 0`. -/
def copyCount (o : Nat) (off : Half) (len : Byte) : Nat :=
  if len.toNat > 0 ∧ off.toNat > 0 ∧ o > 0 then len.toNat else 0

/-- The record `T(off, len, lit)` begins (R330): OUT_OVERFLOW if its `cnt + 1` bytes would not fit, with nothing of it
written (R405); else the copy loop from `start = max(0, o - off)` (R321). -/
def State.startRecord (s : State) (r : Run) (off : Half) (len lit : Byte) : State :=
  if r.o + copyCount r.o off len + 1 > r.snap.outCap.toNat then s.raise r .outOverflow
  else s.goto r (.copy (r.o - off.toNat) len lit 0 0)

/-- The copy loop at index `i` (R324): if `start + i < o`, with `o` counting the bytes this record has appended, the byte
there is read; otherwise the index is skipped. After the loop the literal is appended (R325). -/
def State.stepCopy (s : State) (r : Run) (start : Nat) (len lit : Byte) (i a : Nat) : State :=
  if i < len.toNat then
    if start + i < r.o + a then
      s.fetch r (r.snap.outAddr (start + i)) fun v s => s.goto r (.copyWrite start len lit i a v)
    else s.goto r (.copy start len lit (i + 1) a)
  else
    s.store r (r.snap.outAddr (r.o + a)) lit fun r s => s.goto r (.recordEnd (a + 1))

/-- The copied byte is appended (R324). -/
def State.stepCopyWrite (s : State) (r : Run) (start : Nat) (len lit : Byte) (i a : Nat) (v : Byte) : State :=
  s.store r (r.snap.outAddr (r.o + a)) v fun r s => s.goto r (.copy start len lit (i + 1) (a + 1))

/-- The record is done: `q <- q + 4`, `t <- t + 1`, `o`, and then the progress registers (R330). -/
def State.stepRecordEnd (s : State) (r : Run) (a : Nat) : State :=
  let r' := { r with cur := r.cur + Config.tokenBytes, o := r.o + a, t := r.t + 1 }
  s.updates r' r'.progress .recordRead

end Sys2Proof.Machine
end

