-- ==== Sys2Proof/Machine/Engine.lean ====
section
/-! DEFINITION. The engine: how each command starts (its start checks and first effects), one engine step, and how far the
engine runs between two host accesses (60_exceptions.md R413, 70_reset_and_hazards.md R470). -/

namespace Sys2Proof.Machine

/-- The start checks of COMPRESS and DECOMPRESS (R103, R104) in the order of R412, and the error they raise. -/
def Params.codecCheck (p : Params) : Option ErrCode :=
  if p.inRangeFails ∨ p.outRangeFails then some .range
  else if p.buffersOverlap then some .overlap
  else none

/-- The start check of FIND_LINEAR, FIND_HC and HASH3: the input buffer only (R103). -/
def Params.queryCheck (p : Params) : Option ErrCode := if p.inRangeFails then some .range else none

/-- COMPRESS starts (R290): its checks, the index emptied (R82), the counts and their registers zeroed, then its loop. -/
def State.startCompress (s : State) (r : Run) : State :=
  match r.snap.codecCheck with
  | some e => s.raise r e
  | none =>
    let r' := { r with cur := 0, o := 0, t := 0 }
    s.updates r' (.clearIndex :: r'.progress) .encodeTop

/-- DECOMPRESS starts (R330): its checks, the counts and their registers zeroed, then its loop. -/
def State.startDecompress (s : State) (r : Run) : State :=
  match r.snap.codecCheck with
  | some e => s.raise r e
  | none =>
    let r' := { r with cur := 0, o := 0, t := 0 }
    s.updates r' r'.progress .recordRead

/-- FIND_LINEAR or FIND_HC starts (R210, R250): its check, then the finder. -/
def State.startFind (s : State) (r : Run) : State :=
  match r.snap.queryCheck with
  | some e => s.raise r e
  | none => s.callFinder r

/-- HASH3 starts (R233): its check, then its three reads; if fewer than 3 bytes remain, HASH is 0. -/
def State.startHash3 (s : State) (r : Run) : State :=
  match r.snap.queryCheck with
  | some e => s.raise r e
  | none =>
    if r.cur + Config.hashBytes ≤ r.snap.n then s.goto r (.hashRead [])
    else s.updates r [.result .hash 0] .ending

/-- The first step of an accepted command. NOP ends at once (R361); INDEX_CLEAR empties the index and ends (R252), in the
one step R470 gives it. -/
def State.stepStart (s : State) (r : Run) : State :=
  match r.task with
  | .nop => s.finish r .none
  | .indexClear => State.finish { s with index := [] } r .none
  | .compressLin | .compressHc => s.startCompress r
  | .decompress => s.startDecompress r
  | .findLinear | .findHc => s.startFind r
  | .hash3 => s.startHash3 r

/-- The record that has been read is executed (R164, R330): every class has the one effect of R321 to R325 on its
offset, length and literal. -/
def State.stepRecord (s : State) (r : Run) (w : Word) : State :=
  s.startRecord r (recordOffset w) (recordLength w) (recordLiteral w)

/-- The engine's next step in the phase it stands in. -/
def State.stepPhase (s : State) (r : Run) : State :=
  match r.phase with
  | .start => s.stepStart r
  | .encodeTop => s.stepEncodeTop r
  | .hashRead bytes => s.stepHashRead r bytes
  | .candidates left => s.stepCandidates r left
  | .matching p k left => s.stepMatching r p k left
  | .comparing p k v left => s.stepComparing r p k v left
  | .found d k => s.stepFound r d k
  | .emit w k j => s.stepEmit r w k j
  | .recordRead bytes => s.stepRecordRead r bytes
  | .record w => s.stepRecord r w
  | .copy start len lit i a => s.stepCopy r start len lit i a
  | .copyWrite start len lit i a v => s.stepCopyWrite r start len lit i a v
  | .recordEnd a => s.stepRecordEnd r a
  | .trailing => s.stepTrailing r
  | .update u rest next => s.stepUpdate r u rest next
  | .raising e => s.stepRaising r e
  | .ending e => s.finish r e

/-- One engine step: one byte access, or one register or index update (R413). An idle engine does nothing. -/
def State.engineStep (s : State) : State :=
  match s.engine with
  | none => s
  | some r => s.stepPhase r

/-- At most `k` engine steps; the engine stands still once the command has ended. -/
def State.runSteps : Nat → State → State
  | 0, s => s
  | k + 1, s => if s.busy then State.runSteps k s.engineStep else s

/-! ### How many engine steps a command can still take (R470) -/

/-- The updates the engine has before it. -/
def Run.todo (r : Run) : List Update :=
  match r.phase with
  | .update u rest _ => u :: rest
  | .start | .encodeTop | .hashRead _ | .candidates _ | .matching _ _ _ | .comparing _ _ _ _ | .found _ _ | .emit _ _ _
  | .recordRead _ | .record _ | .copy _ _ _ _ _ | .copyWrite _ _ _ _ _ _ | .recordEnd _ | .trailing | .raising _
  | .ending _ => []

/-- The registers and the index once the updates before the engine are made. -/
def Run.settled (r : Run) (s : State) : State := r.todo.foldl State.update s

/-- A bound on the steps of a loop over `m` candidates with lookahead `L`, and of the insertion after it: for each
candidate its loop head and at most two reads per byte of the match (R201). -/
def searchBound (L m : Nat) : Nat := m * (2 * L + 2) + 3

/-- A bound on one encoder step whose finder visits at most `m` candidates. -/
def tokenBound (L m : Nat) : Nat := searchBound L m + 20

/-- A bound on one record of DECOMPRESS: 4 reads, its start, at most 2 * 255 + 1 accesses, its end and 3 updates. -/
def recordBound : Nat := 522

/-- A bound on the encoder's loop from its head, with `rest` input bytes left and `size` positions in the index, which
grows by at most one a step. -/
def encodeBound (p : Params) (rest size : Nat) : Nat := rest * tokenBound p.L (p.w + size + rest) + 1

/-- A bound on what follows a finder's result: 9 steps and the encoder's loop one byte further on. -/
def foundBound (r : Run) (size : Nat) : Nat := encodeBound r.snap (r.snap.n - r.cur - 1) size + 10

/-- A bound on the steps from one of the places a row of updates leads to. -/
def Run.afterBound (r : Run) (size : Nat) : After → Nat
  | .encodeTop => encodeBound r.snap (r.snap.n - r.cur) size
  | .recordRead => (r.snap.n - r.cur) * recordBound + 3
  | .found _ _ => foundBound r size
  | .ending => 1
  | .raising _ => 2

/-- A bound on the engine steps a command still takes (R470) that runs in the state `s`. -/
def Run.stepsBound (r : Run) (s : State) : Nat :=
  let size := Index.size s.index
  let L := r.snap.L
  let later := (r.snap.n - r.cur - 4) * recordBound
  match r.phase with
  | .start =>
    searchBound L (r.snap.w + size) + encodeBound r.snap (r.snap.n - r.cur - 1) (size + 1) +
      encodeBound r.snap r.snap.n 0 + r.snap.n * recordBound + 30
  | .encodeTop => r.afterBound size .encodeTop
  | .hashRead bytes => (3 - bytes.length) + searchBound L size + foundBound r (size + 1) + 1
  | .candidates left => searchBound L left.length + foundBound r (size + 1)
  | .matching _ k left => (2 * (L - k) + 1) + searchBound L left.length + foundBound r (size + 1)
  | .comparing _ k _ left => (2 * (L - (k + 1)) + 2) + searchBound L left.length + foundBound r (size + 1)
  | .found _ _ => foundBound r size
  | .emit _ k j => encodeBound r.snap (r.snap.n - r.cur - (k + 1)) size + (4 - j) + 4
  | .recordRead bytes => if bytes = [] then r.afterBound size .recordRead else later + (4 - bytes.length) + 520
  | .record _ => later + 519
  | .copy _ len _ i _ => later + 2 * (len.toNat - i) + 8
  | .copyWrite _ len _ i _ _ => later + 2 * (len.toNat - (i + 1)) + 9
  | .recordEnd _ => later + 7
  | .trailing => 2
  | .update u rest next => rest.length + 1 + r.afterBound (Index.size ((u :: rest).foldl State.update s).index) next
  | .raising _ => 2
  | .ending _ => 1

/-- A bound on the engine steps from a state to the end of its running command. -/
def State.stepsBound (s : State) : Nat :=
  match s.engine with
  | none => 0
  | some r => r.stepsBound s

/-- The engine runs until the running command has ended (R360: "runs to its end"). -/
def State.runToEnd (s : State) : State := State.runSteps s.stepsBound s

/-- The engine runs until the next host access is due (R413): to the command's end if no access is coming or the host
waits for it, else for the number of steps that take place before that access. -/
def State.advance (s : State) : State :=
  match s.pending with
  | [] => s.runToEnd
  | e :: _ =>
    match e.delay with
    | none => s.runToEnd
    | some k => s.runSteps k

end Sys2Proof.Machine
end

