-- ==== Sys2Proof/Machine/Commands.lean ====
section
/-! DEFINITION. The meanings of the nine command words: what a host write of each to CMD does (45_control.md R360), up to
the next host access. A command offered while BUSY = 1 is dropped, but for RESET (R71, R362). -/

namespace Sys2Proof.Machine

/-- R360 for a legal word other than RESET: dropped with IGN while BUSY = 1, else accepted. -/
def State.offer (s : State) (task : Task) : State := if s.busy then s.drop else s.accept task

/-- NOP (R361). -/
def execNop (s : State) : Host.Outcome State Fault Refusal := .next (s.offer .nop).advance

/-- COMPRESS with the linear finder (R290, R280). -/
def execCompressLin (s : State) : Host.Outcome State Fault Refusal := .next (s.offer .compressLin).advance

/-- COMPRESS with the hash-chain finder (R290, R280). -/
def execCompressHc (s : State) : Host.Outcome State Fault Refusal := .next (s.offer .compressHc).advance

/-- DECOMPRESS (R330). -/
def execDecompress (s : State) : Host.Outcome State Fault Refusal := .next (s.offer .decompress).advance

/-- FIND_LINEAR (R210). -/
def execFindLinear (s : State) : Host.Outcome State Fault Refusal := .next (s.offer .findLinear).advance

/-- FIND_HC (R250). -/
def execFindHc (s : State) : Host.Outcome State Fault Refusal := .next (s.offer .findHc).advance

/-- HASH3 (R233). -/
def execHash3 (s : State) : Host.Outcome State Fault Refusal := .next (s.offer .hash3).advance

/-- INDEX_CLEAR (R252). -/
def execIndexClear (s : State) : Host.Outcome State Fault Refusal := .next (s.offer .indexClear).advance

/-- RESET (R362): acts whatever BUSY is, aborts the running command and raises no completion interrupt. -/
def execReset (s : State) : Host.Outcome State Fault Refusal := .next s.resetDevice

end Sys2Proof.Machine
end

