-- ==== Sys2Proof/Machine/Tokens.lean ====
section
/-! DEFINITION. The meanings of the four token classes (30_encoding.md R164): what a DECOMPRESS that has read the record
does with it, to the end of the record (44_decoder.md R321 to R325, R330). -/

namespace Sys2Proof.Machine

/-- Whether the engine is inside a record: its copy, its literal or its progress updates; or at the end of a record that
raises an error. -/
def Phase.inRecord : Phase → Bool
  | .copy _ _ _ _ _ | .copyWrite _ _ _ _ _ _ | .recordEnd _ | .update _ _ .recordRead
  | .update _ _ .ending | .update _ _ (.raising _) | .raising _ | .ending _ => true
  | .start | .encodeTop | .hashRead _ | .candidates _ | .matching _ _ _ | .comparing _ _ _ _ | .found _ _
  | .emit _ _ _ | .recordRead _ | .record _ | .trailing | .update _ _ .encodeTop | .update _ _ (.found _ _) => false

/-- At most `k` engine steps within the record. -/
def State.runRecord : Nat → State → State
  | 0, s => s
  | k + 1, s =>
    match s.engine with
    | none => s
    | some r => if r.phase.inRecord then State.runRecord k s.engineStep else s

/-- The execution of the record `T(off, len, lit)` that the engine has just read: its check, its copy, its literal and its
progress updates (R330), at most `2 * len + 5` engine steps after the first (R470). A token has no meaning where no record
is being decoded (R2, R160). -/
def State.runToken (s : State) (off : Half) (len lit : Byte) : Host.Outcome State Fault Refusal :=
  match s.engine with
  | none => .fault .tokenOutsideRecord
  | some r =>
    match r.phase with
    | .record _ => .next (State.runRecord (2 * len.toNat + 5) (s.startRecord r off len lit))
    | .start | .encodeTop | .hashRead _ | .candidates _ | .matching _ _ _ | .comparing _ _ _ _ | .found _ _
    | .emit _ _ _ | .recordRead _ | .copy _ _ _ _ _ | .copyWrite _ _ _ _ _ _ | .recordEnd _ | .trailing
    | .update _ _ _ | .raising _ | .ending _ =>
      .fault .tokenOutsideRecord

/-- LIT: append the literal (R164, R325). -/
def execTokenLit (lit : Byte) (s : State) : Host.Outcome State Fault Refusal := s.runToken 0 0 lit

/-- COPY: copy `len` bytes from `off` back, then append the literal (R164, R324, R325). -/
def execTokenCopy (off : Half) (len lit : Byte) (s : State) : Host.Outcome State Fault Refusal :=
  s.runToken off len lit

/-- ZOFF: every copy index is skipped, then the literal is appended (R164, R323, R324). -/
def execTokenZoff (len lit : Byte) (s : State) : Host.Outcome State Fault Refusal := s.runToken 0 len lit

/-- ZLEN: append the literal (R164, R325). -/
def execTokenZlen (off : Half) (lit : Byte) (s : State) : Host.Outcome State Fault Refusal := s.runToken off 0 lit

end Sys2Proof.Machine
end

