-- ==== Sys2Proof/Machine/Dispatch.lean ====
section
/-! DEFINITION. One arm per instruction: the meaning of each row of spec/opcode_table.json. -/

namespace Sys2Proof.Machine

def exec (i : Instr) (s : State) : Host.Outcome State Fault Refusal :=
  match i with
  -- command words (30_encoding.md R151)
  | .nop => Sys2Proof.Machine.execNop s
  | .compressLin => Sys2Proof.Machine.execCompressLin s
  | .compressHc => Sys2Proof.Machine.execCompressHc s
  | .decompress => Sys2Proof.Machine.execDecompress s
  | .findLinear => Sys2Proof.Machine.execFindLinear s
  | .findHc => Sys2Proof.Machine.execFindHc s
  | .hash3 => Sys2Proof.Machine.execHash3 s
  | .indexClear => Sys2Proof.Machine.execIndexClear s
  | .reset => Sys2Proof.Machine.execReset s
  -- token classes (30_encoding.md R164)
  | .tokenLit lit => Sys2Proof.Machine.execTokenLit lit s
  | .tokenCopy off len lit => Sys2Proof.Machine.execTokenCopy off len lit s
  | .tokenZoff len lit => Sys2Proof.Machine.execTokenZoff len lit s
  | .tokenZlen off lit => Sys2Proof.Machine.execTokenZlen off lit s

end Sys2Proof.Machine
end

