-- ==== Sys2Proof/Machine/Flags.lean ====
section
/-! DEFINITION. STATUS and its flags (10_state.md R56, R73), CTRL (R54), the error codes (60_exceptions.md R400) and the
interrupt line (R420). LZMF has no condition codes (R73). -/

namespace Sys2Proof.Machine

/-- The 4-bit code of an error (R400). -/
def ErrCode.code : ErrCode → BitVec 4
  | .none => 0
  | .illegalCmd => 1
  | .range => 2
  | .overlap => 3
  | .outOverflow => 4
  | .bus => 5
  | .indexFull => 6

/-- STATUS as the host reads it (R50): ERR in 11:8, IGN in 3, TAIL in 2, DONE in 1, BUSY in 0, all else 0. -/
def State.statusWord (s : State) : Word :=
  0#20 ++ s.err.code ++ 0#4 ++ BitVec.ofBool s.ign ++ BitVec.ofBool s.tail ++ BitVec.ofBool s.done ++
    BitVec.ofBool s.busy

/-- A host write of `v` to STATUS (R56): bits 1 and 3 written 1 clear DONE and IGN; everything else is unchanged. -/
def State.writeStatus (s : State) (v : Word) : State :=
  { s with done := s.done && !v.getLsbD 1, ign := s.ign && !v.getLsbD 3 }

/-- CTRL as the host reads it (R54). -/
def State.ctrlWord (s : State) : Word := 0#31 ++ BitVec.ofBool s.irqEn

/-- A host write of `v` to CTRL (R54). -/
def State.writeCtrl (s : State) (v : Word) : State := { s with irqEn := v.getLsbD 0 }

/-- The interrupt output: `irq = DONE and IRQ_EN` (R420). -/
def State.irq (s : State) : Bool := s.done && s.irqEn

end Sys2Proof.Machine
end

