-- ==== Sys2Proof/Machine/HostPort.lean ====
section
/-! DEFINITION. The host's side (10_state.md R50 to R72, 45_control.md R365): the register map, HostRead and HostWrite, the
host's view of memory (20_memory.md R121, R122), other agents' writes (70_reset_and_hazards.md R460), the interrupt
(60_exceptions.md R420) and the hardware reset (R450). A write to CMD is Step.lean's: it runs an instruction. -/

namespace Sys2Proof.Machine

/-- The defined registers (R50). -/
inductive RegName where
  | id
  | ctrl
  | cmd
  | status
  | inBase
  | inLen
  | outBase
  | outCap
  | window
  | lookahead
  | cursor
  | outLen
  | tokenCount
  | matchDist
  | matchLen
  | hash
  | errAddr
  deriving DecidableEq, Repr

/-- The register map (R50): the word slots from offset 0x00 on. -/
def RegName.map : List RegName :=
  [.id, .ctrl, .cmd, .status, .inBase, .inLen, .outBase, .outCap, .window, .lookahead, .cursor, .outLen, .tokenCount,
    .matchDist, .matchLen, .hash, .errAddr]

/-- The register at an offset; 0x44..0xFC are reserved slots (R50). -/
def RegName.ofOffset (off : Nat) : Option RegName := RegName.map[off / 4]?

/-- The offset of a register (R50). -/
def RegName.offset : RegName → Nat
  | .id => 0x00
  | .ctrl => 0x04
  | .cmd => 0x08
  | .status => 0x0C
  | .inBase => 0x10
  | .inLen => 0x14
  | .outBase => 0x18
  | .outCap => 0x1C
  | .window => 0x20
  | .lookahead => 0x24
  | .cursor => 0x28
  | .outLen => 0x2C
  | .tokenCount => 0x30
  | .matchDist => 0x34
  | .matchLen => 0x38
  | .hash => 0x3C
  | .errAddr => 0x40

/-- R52: a register access is a 32-bit access at a word-aligned offset in 0x00..0xFC. -/
def registerAccess (off width : Nat) : Bool := decide (width = 4) && decide (off % 4 = 0) && decide (off ≤ 0xFC)

/-- The result register a register is, if it is one (R72). -/
def RegName.resultReg : RegName → Option ResultReg
  | .cursor => some .cursor
  | .outLen => some .outLen
  | .tokenCount => some .tokenCount
  | .matchDist => some .matchDist
  | .matchLen => some .matchLen
  | .hash => some .hash
  | .errAddr => some .errAddr
  | .id | .ctrl | .cmd | .status | .inBase | .inLen | .outBase | .outCap | .window | .lookahead => none

/-- The unreserved bits of a result register (R50; U1: "any 32-bit value with reserved bits 0"). -/
def ResultReg.mask : ResultReg → Word
  | .cursor | .outLen | .tokenCount | .errAddr => 0xFFFFFFFF
  | .matchDist | .matchLen => 0x0000FFFF
  | .hash => 0x8003FFFF

/-- The word a register holds, with its reserved bits 0 (R50, R51, R53, R55). -/
def State.regWord (s : State) : RegName → Word
  | .id => Config.idValue
  | .ctrl => s.ctrlWord
  | .cmd => 0
  | .status => s.statusWord
  | .inBase => s.params.inBase
  | .inLen => s.params.inLen
  | .outBase => s.params.outBase
  | .outCap => s.params.outCap
  | .window => s.params.window.setWidth 32
  | .lookahead => s.params.lookahead.setWidth 32
  | .cursor => s.result .cursor
  | .outLen => s.result .outLen
  | .tokenCount => s.result .tokenCount
  | .matchDist => s.result .matchDist
  | .matchLen => s.result .matchLen
  | .hash => s.result .hash
  | .errAddr => s.result .errAddr

/-- What a host read of a result register with BUSY = 0 may see besides what it holds (R122): its values before writes
that the host has not yet been made to see. -/
def State.hiddenResults (s : State) (reg : ResultReg) : List Word :=
  (valuesOf s.unseen.regs reg ++ valuesOf s.stale.regs reg).map (· &&& reg.mask)

/-- The value of `HostRead(off)`: a reserved slot reads 0 (R51). A result register read while BUSY = 1 is free (R72); read
with BUSY = 0, it is what the register holds, or a value it held before a write of an ended command that the host has not
yet been made to see (R122; log entry 10). -/
def State.hostReadValue (s : State) (off : Nat) : Word × State :=
  match RegName.ofOffset off with
  | none => (0, s)
  | some reg =>
    match reg.resultReg with
    | none => (s.regWord reg, s)
    | some res =>
      if s.busy then (Config.freeValue s.freeTick &&& res.mask, { s with freeTick := s.freeTick + 1 })
      else s.choose (s.regWord reg) (s.hiddenResults res)

/-- `HostRead(off)`: the value goes to the host; the register is not changed (R52, R112). Reading STATUS with BUSY = 0 and
DONE = 1 makes visible to the host the writes of the command that DONE tells of (R122). -/
def State.hostRead (s : State) (off : Nat) : State :=
  let (v, s') := s.hostReadValue off
  let s'' := { s' with readback := .reg off v :: s'.readback }
  if RegName.ofOffset off = some .status ∧ s.busy = false ∧ s.done = true then s''.sync else s''

/-- The old values of every register but one. -/
def Unseen.forget (u : Unseen) (reg : ResultReg) : Unseen := { u with regs := u.regs.filter fun c => decide (c.1 ≠ reg) }

/-- A host write to CURSOR, which the host then sees (R59, R466). -/
def State.writeCursor (s : State) (v : Word) : State :=
  { s with cursor := v, unseen := s.unseen.forget .cursor, stale := s.stale.forget .cursor }

/-- A host write to a parameter register or CURSOR (R57, R58, R59): the value is stored; while BUSY = 1 it is dropped and
IGN is set (R71). -/
def State.writeParam (s : State) (update : State → State) : State := if s.busy then s.drop else update s

/-- `HostWrite(off, v)` to a register other than CMD. Read-only registers, reserved slots and reserved bits ignore writes
(R51); CTRL and STATUS take effect whatever BUSY is (R54, R56); the others are dropped while BUSY = 1 (R71). -/
def State.hostWrite (s : State) (off : Nat) (v : Word) : State :=
  match RegName.ofOffset off with
  | none => s
  | some reg =>
    match reg with
    | .ctrl => s.writeCtrl v
    | .status => s.writeStatus v
    | .inBase => s.writeParam fun s => { s with params := { s.params with inBase := v } }
    | .inLen => s.writeParam fun s => { s with params := { s.params with inLen := v } }
    | .outBase => s.writeParam fun s => { s with params := { s.params with outBase := v } }
    | .outCap => s.writeParam fun s => { s with params := { s.params with outCap := v } }
    | .window => s.writeParam fun s => { s with params := { s.params with window := v.setWidth 16 } }
    | .lookahead => s.writeParam fun s => { s with params := { s.params with lookahead := v.setWidth 16 } }
    | .cursor => s.writeParam fun s => s.writeCursor v
    | .id | .cmd | .outLen | .tokenCount | .matchDist | .matchLen | .hash | .errAddr => s

/-- An illegal word written to CMD: dropped while BUSY = 1, else rejected (R154, R360). -/
def State.offerIllegal (s : State) : State := if s.busy then s.drop else s.reject

/-- What a host read of the memory byte at `a` may see besides what memory holds (R122, U2): the value before the running
command wrote it, and values before commands whose writes the host has not yet been made to see. -/
def State.hiddenValues (s : State) (a : Nat) : List Byte :=
  (match s.engine with
    | none => []
    | some r => Memory.valuesAt r.journal a) ++ Memory.valuesAt s.unseen.cells a ++ Memory.valuesAt s.stale.cells a

/-- A host read of a byte of host memory (R122); side-effect memory gives a free byte (R110, U7). -/
def State.hostMemRead (s : State) (a : Nat) : State :=
  if s.platform.hasSideEffects a then
    { s with readback := .mem a (Config.freeByte s.freeTick) :: s.readback, freeTick := s.freeTick + 1 }
  else
    let (v, s') := s.choose (Memory.read s.mem a) (State.hiddenValues s a)
    { s' with readback := .mem a v :: s'.readback }

/-- The running command's record of another agent's write to its buffers (R460): the value replaced is kept, for the
engine may still read it. -/
def Run.noteForeign (r : Run) (a : Nat) (old : Byte) : Run :=
  if r.ownsByte a then { r with foreign := (a, old) :: r.foreign } else r

/-- A store of a byte of host memory by the host or another agent; into the buffers of a running command it breaks R460. -/
def State.hostMemWrite (s : State) (a : Nat) (v : Byte) : State :=
  { s with
    mem := Memory.write s.mem a v
    engine := s.engine.map fun r => r.noteForeign a (Memory.read s.mem a) }

/-- The host takes the completion interrupt (R365): if it is asserted, the writes of the command it tells of are visible to
the host (R122). -/
def State.takeIrq (s : State) : State := if s.irq then s.sync else s

/-- The next read of a polling loop: after the next of the `gaps`, or, when they are used up, at the command's end. -/
def nextPoll : List Nat → HostEvent
  | [] => { delay := none, access := .pollStatus [] }
  | k :: gaps => { delay := some k, access := .pollStatus gaps }

/-- One turn of the loop `repeat RD STATUS until BUSY = 0` (R170, R365): STATUS is read, and where the read shows BUSY = 1
the loop goes on with the next read, before any other access of the host. -/
def State.pollStatus (s : State) (gaps : List Nat) : State :=
  let t := s.hostRead (RegName.offset .status)
  if s.busy then { t with pending := nextPoll gaps :: t.pending } else t

/-- The offset in the register block of a host bus address (R50). -/
def State.busOffset (s : State) (a : Word) : Option Nat :=
  if s.platform.inBlock a.toNat then some (a.toNat - s.platform.mmioBase) else none

/-- The access itself, apart from a write to CMD; then the engine runs until the next access (R413, R472). -/
def State.regReadAt (s : State) (off width : Nat) : Host.Outcome State Fault Refusal :=
  if registerAccess off width then .next (s.hostRead off).advance else .refused .registerAccessShape

/-- As `State.regReadAt`, for a write. -/
def State.regWriteAt (s : State) (off width : Nat) (v : Word) : Host.Outcome State Fault Refusal :=
  if registerAccess off width then .next (s.hostWrite off v).advance else .refused .registerAccessShape

/-- The word a host access writes to CMD, if it is such a write (R55). -/
def State.commandWord (s : State) : HostAccess → Option Word
  | .regWrite off width v => if registerAccess off width && decide (off = RegName.offset .cmd) then some v else none
  | .busWrite a v => if s.busOffset a = some (RegName.offset .cmd) then some v else none
  | .regRead _ _ | .busRead _ | .pollStatus _ | .memRead _ | .memWrite _ _ | .takeIrq | .hardReset => none

/-- A host access other than a write to CMD, and the engine steps up to the next one. A byte access to the register block
is no register access (R52, U6). `memAdmits` judges the engine's accesses (R404); whether a platform refuses the host's own,
or another agent's, the spec does not say, and the model lets them through at every other address (log entry 18, DESIGN
CHOICE). -/
def State.hostAccess (s : State) : HostAccess → Host.Outcome State Fault Refusal
  | .regRead off width => s.regReadAt off width
  | .regWrite off width v => s.regWriteAt off width v
  | .busRead a =>
    match s.busOffset a with
    | some off => s.regReadAt off 4
    | none => .refused .outsideRegisterBlock
  | .busWrite a v =>
    match s.busOffset a with
    | some off => s.regWriteAt off 4 v
    | none => .refused .outsideRegisterBlock
  | .pollStatus gaps => .next (s.pollStatus gaps).advance
  | .memRead a =>
    if s.platform.inBlock a.toNat then .refused .registerAccessShape else .next (s.hostMemRead a.toNat).advance
  | .memWrite a v =>
    if s.platform.inBlock a.toNat then .refused .registerAccessShape else .next (s.hostMemWrite a.toNat v).advance
  | .takeIrq => .next s.takeIrq.advance
  | .hardReset => .next s.resetDevice

end Sys2Proof.Machine
end

