-- ==== Sys2Proof/Machine/Step.lean ====
section
/-! DEFINITION. One step of the machine (60_exceptions.md R413): the next host access and the engine steps up to the one
after it; with no host access to come, the engine's next step or the record it has just read; an idle engine waits. -/

namespace Sys2Proof.Machine

/-- A host write of the word `v` to CMD (R360): a legal word runs its instruction, another is rejected or dropped. -/
def commandWrite (v : Word) (s : State) : Host.Outcome State Fault Refusal :=
  match decodeCommand v with
  | .command i => exec i s
  | .illegal _ => .next s.offerIllegal.advance

/-- The engine's move when no host access is to come. A record that has been read runs as its token (R164, R330). -/
def engineMove (s : State) : Host.Outcome State Fault Refusal :=
  match s.engine with
  | none => .next s
  | some r =>
    match r.phase with
    | .record w => exec (decodeToken w) s
    | .start | .encodeTop | .hashRead _ | .candidates _ | .matching _ _ _ | .comparing _ _ _ _ | .found _ _
    | .emit _ _ _ | .recordRead _ | .copy _ _ _ _ _ | .copyWrite _ _ _ _ _ _ | .recordEnd _ | .trailing | .update _ _ _
    | .raising _ | .ending _ => .next s.engineStep

/-- One step. -/
def step (s : State) : Host.Outcome State Fault Refusal :=
  match s.pending with
  | [] => engineMove s
  | e :: rest =>
    match State.commandWord s e.access with
    | some v => commandWrite v { s with pending := rest }
    | none => State.hostAccess { s with pending := rest } e.access

/-- A machine in the middle of a DECOMPRESS of the one record `w`, which it has just read (log entry 5): the record's
bytes are the input buffer at address 0, the output buffer is the 256 bytes after it. -/
def State.withRecord (s : State) (w : Word) : State :=
  let p : Params := { s.params with inBase := 0, inLen := 4, outBase := 4, outCap := 256 }
  { s with
    params := p, done := false, err := .none, tail := false, cursor := 0, outLen := 0, tokenCount := 0, pending := []
    mem := Memory.writeBytes s.mem 0 ((List.range 4).map (recordByte w))
    engine := some
      { task := .decompress, snap := p, cur := 0, o := 0, t := 0, bestDist := 0, bestLen := 0, hash := 0
        phase := .record w, journal := [], regJournal := [], foreign := [] } }

/-- `s` with the instruction of the word `w` where the next step takes its instruction from (log entries 3 and 5): a
command word is the next host write to CMD; any other word is the record a DECOMPRESS has just read. -/
def State.withFetchWord (s : State) (nbits w : Nat) : State :=
  let v := BitVec.ofNat 32 (w % 2 ^ nbits)
  match decodeCommand v with
  | .command _ =>
    { s with pending := { delay := some 0, access := .regWrite (RegName.offset .cmd) 4 v } :: s.pending }
  | .illegal _ => s.withRecord v

end Sys2Proof.Machine
end

