-- ==== Sys2Proof/Safety.lean ====
section
/-! DEFINITION. The terms the claims use: what counts as ordinary memory, a host that waits, and the invariant of the
machine: canonical memory and index, and an engine whose position, counts and buffers agree with the registers. -/

namespace Sys2Proof.Machine

/-- The host makes no access before the running command has ended (R365 "wait"): no access is coming, or the next one
waits. -/
def State.hostWaits (s : State) : Bool :=
  match s.pending with
  | [] => true
  | e :: _ => e.delay.isNone

/-- The next host access comes with no engine step before it. -/
def State.hostNext (s : State) : Bool :=
  match s.pending with
  | [] => false
  | e :: _ => e.delay == some 0

/-- The `n` bytes from `a` on are ordinary memory that the platform lets the engine read (R110, R404). -/
def State.plainReads (s : State) (a n : Nat) : Prop :=
  ∀ i < n, s.platform.admits (a + i) .read = true ∧ s.platform.hasSideEffects (a + i) = false

/-- The `n` bytes from `a` on are ordinary memory that the platform lets the engine write (R110, R404). -/
def State.plainWrites (s : State) (a n : Nat) : Prop :=
  ∀ i < n, s.platform.admits (a + i) .write = true ∧ s.platform.hasSideEffects (a + i) = false

/-- The input buffer's bytes as a function of the position: `In[i]` (R14). -/
def State.inByte (s : State) (i : Nat) : Byte := Memory.read s.mem (s.params.inAddr i)

/-- A command accepted in `s` has ended with the error `e` and has changed nothing but STATUS (R360); what the host has not
yet been made to see is now of earlier commands (R122). -/
def State.ended (s : State) (e : ErrCode) : State := { s.retire with done := true, err := e, tail := false }

/-- The old values that the writes of registers leave for the host to see, until it has been made to see the new ones
(R122). -/
def State.oldResults (s : State) (regs : List ResultReg) : List (ResultReg × Word) := regs.map fun reg => (reg, s.result reg)

/-- `k` steps of the machine, up to the first that stops. -/
def steps : Nat → State → Host.Outcome State Fault Refusal
  | 0, s => .next s
  | k + 1, s =>
    match step s with
    | .next t => steps k t
    | .fault f => .fault f
    | .refused why => .refused why

/-- A block that can take a command whose host then waits for its end: it is idle, and no host access comes before the
command has ended (R365). -/
structure State.Ready (s : State) : Prop where
  idle : s.busy = false
  waits : s.hostWaits = true

/-- The reserved bits of the register at an aligned offset of the block; a reserved slot has no other, and CMD reads 0
(R50). -/
def reservedBits (off : Nat) : Word :=
  match RegName.ofOffset off with
  | none => 0xFFFFFFFF
  | some reg =>
    match reg with
    | .cmd => 0xFFFFFFFF
    | .ctrl => 0xFFFFFFFE
    | .status => 0xFFFFF0F0
    | .window | .lookahead | .matchDist | .matchLen => 0xFFFF0000
    | .hash => 0x7FFC0000
    | .id | .inBase | .inLen | .outBase | .outCap | .cursor | .outLen | .tokenCount | .errAddr => 0

/-- The byte access that the engine's next step makes, if it makes one (R110, R413): the order of these is the order of
the pseudocode's reads and writes. -/
def Run.nextAccess (r : Run) : Option (Nat × AccessKind) :=
  match r.phase with
  | .hashRead bytes => some (r.snap.inAddr (r.cur + bytes.length), .read)
  | .matching p k _ =>
    if k < r.snap.L ∧ r.cur + k < r.snap.n then some (r.snap.inAddr (p + k), .read) else none
  | .comparing _ k _ _ => some (r.snap.inAddr (r.cur + k), .read)
  | .found _ k =>
    if r.task.isCompress then some (r.snap.inAddr (if r.qualifies k then r.cur + k else r.cur), .read) else none
  | .emit _ _ j => if j < 4 then some (r.snap.outAddr (r.o + j), .write) else none
  | .recordRead bytes =>
    if bytes = [] ∧ ¬ r.cur + 4 ≤ r.snap.n then none else some (r.snap.inAddr (r.cur + bytes.length), .read)
  | .copy start len _ i a =>
    if i < len.toNat then
      if start + i < r.o + a then some (r.snap.outAddr (start + i), .read) else none
    else some (r.snap.outAddr (r.o + a), .write)
  | .copyWrite _ _ _ _ a _ => some (r.snap.outAddr (r.o + a), .write)
  | .start | .encodeTop | .candidates _ | .record _ | .recordEnd _ | .trailing | .update _ _ _ | .raising _
  | .ending _ => none

/-- The error codes a command can end with (R400): those of its start checks and those of its run. -/
def Task.errors (t : Task) : List ErrCode :=
  t.runErrors ++ (if t.hasInput then [.range] else []) ++ (if t.hasOutput then [.overlap] else [])

/-- The first `m` bytes of the output buffer as they stand in memory (R14). -/
def State.outputOf (s : State) (p : Params) (m : Nat) : List Byte :=
  (List.range m).map fun j => Memory.read s.mem (p.outAddr j)

/-- Whether a task is one of the two finder queries (R210, R250). -/
def Task.isQuery : Task → Bool
  | .findLinear | .findHc => true
  | .nop | .compressLin | .compressHc | .decompress | .hash3 | .indexClear => false

/-- The updates a task may make before going on to `next` (R64, R82): ERR_ADDR only before it raises BUS. -/
def Update.okFor (task : Task) (next : After) : Update → Bool
  | .result reg _ => decide (reg ∈ task.results) && decide (reg = .errAddr → next = .raising .bus)
  | .clearIndex => task.isCompress
  | .bucket _ _ => task.usesChain

/-- Whether the engine is inside a finder's search, or at its result: a COMPRESS with a byte to encode and room for a
token, or a query. -/
def Run.finding (r : Run) : Prop :=
  (r.task.isCompress = true ∧ r.cur < r.snap.n ∧ r.o + 4 ≤ r.snap.outCap.toNat) ∨ r.task.isQuery = true

/-- Where a row of updates may lead. -/
def Run.afterOk (r : Run) : After → Prop
  | .encodeTop => r.task.isCompress = true
  | .recordRead => r.task = .decompress
  | .found _ _ => r.finding
  | .ending => True
  | .raising e => e = .bus ∧ r.task.hasInput = true

/-- Where the engine may stand: the phase belongs to the task, and what is still to be written fits the output buffer. -/
def Run.phaseOk (r : Run) : Prop :=
  let n := r.snap.n
  let cap := r.snap.outCap.toNat
  match r.phase with
  | .start => r.journal = []
  | .encodeTop => r.task.isCompress = true
  | .hashRead bytes =>
    ((r.task.usesChain = true ∧ r.finding) ∨ r.task = .hash3) ∧ r.cur + 3 ≤ n ∧ bytes.length < 3
  | .candidates _ => r.finding
  | .matching p _ _ => r.finding ∧ p < r.cur
  | .comparing p k _ _ => r.finding ∧ p < r.cur ∧ r.cur + k < n
  | .found _ _ => r.finding
  | .emit _ k j => r.task.isCompress = true ∧ r.cur + (k + 1) ≤ n ∧ r.o + 4 ≤ cap ∧ j ≤ 4
  | .recordRead bytes =>
    r.task = .decompress ∧ bytes.length < 4 ∧ (bytes ≠ [] → r.cur + 4 ≤ n)
  | .record _ => r.task = .decompress ∧ r.cur + 4 ≤ n
  | .copy start len _ i a =>
    r.task = .decompress ∧ r.cur + 4 ≤ n ∧
      ((start < r.o ∧ a = i ∧ i ≤ len.toNat ∧ r.o + len.toNat + 1 ≤ cap) ∨ (start = r.o ∧ a = 0 ∧ r.o + 1 ≤ cap))
  | .copyWrite start len _ i a _ =>
    r.task = .decompress ∧ r.cur + 4 ≤ n ∧ start < r.o ∧ a = i ∧ i < len.toNat ∧ r.o + len.toNat + 1 ≤ cap
  | .recordEnd a => r.task = .decompress ∧ r.cur + 4 ≤ n ∧ 1 ≤ a ∧ r.o + a ≤ cap
  | .trailing => r.task = .decompress
  | .update u rest next => (∀ v ∈ u :: rest, v.okFor r.task next = true) ∧ r.afterOk next
  | .raising e => e ∈ r.task.errors ∧ e ≠ .none
  | .ending e => e ∈ r.task.errors

/-- What STATUS.ERR holds while a command runs (R410). -/
def Phase.err : Phase → ErrCode
  | .ending e => e
  | .start | .encodeTop | .hashRead _ | .candidates _ | .matching _ _ _ | .comparing _ _ _ _ | .found _ _ | .emit _ _ _
  | .recordRead _ | .record _ | .copy _ _ _ _ _ | .copyWrite _ _ _ _ _ _ | .recordEnd _ | .trailing | .update _ _ _
  | .raising _ => .none

/-- What holds of a running command (R83): its snapshot is the registers, its start checks have passed, its counts agree
with each other and with the progress registers, and it has written nothing outside its output buffer. -/
structure Run.Ok (r : Run) (s : State) : Prop where
  /-- R83: "The snapshot equals the registers" -/
  snap : r.snap = s.params
  /-- R56, R360, R410: the acceptance cleared DONE and ERR; the end sets DONE, and `raise Err` sets ERR just before it -/
  status : s.done = false ∧ s.err = r.phase.err
  /-- R330: the acceptance cleared TAIL, and DECOMPRESS sets it just before its end -/
  tail : s.tail = true → r.task = .decompress ∧ r.phase = .ending .none
  /-- R103 -/
  inRange : r.phase.begun = true → r.task.hasInput = true → r.snap.inRangeFails = false
  /-- R103 -/
  outRange : r.phase.begun = true → r.task.hasOutput = true → r.snap.outRangeFails = false
  /-- R104 -/
  apart : r.phase.begun = true → r.task.hasOutput = true → r.snap.buffersOverlap = false
  /-- R290, R330: once the engine's updates are made, the progress registers hold the counts after the last token or
  record completed -/
  progress : r.phase.begun = true → r.task.hasOutput = true →
    (r.settled s).cursor = BitVec.ofNat 32 r.cur ∧ (r.settled s).outLen = BitVec.ofNat 32 r.o ∧
      (r.settled s).tokenCount = BitVec.ofNat 32 r.t
  /-- R70: the cursor of a codec never passes the input -/
  cursor : r.phase.begun = true → r.task.hasOutput = true → r.cur ≤ r.snap.n
  /-- R59: the argument of a query is CURSOR -/
  argument : r.task.hasOutput = false → r.cur = s.cursor.toNat
  /-- R290, R330: COMPRESS has written 4 bytes a token, DECOMPRESS has read 4 bytes a record -/
  counts : r.phase.begun = true →
    (r.task.isCompress = true → r.o = 4 * r.t) ∧ (r.task = .decompress → r.cur = 4 * r.t)
  /-- R405: what has been written fits -/
  room : r.phase.begun = true → r.task.hasOutput = true → r.o ≤ r.snap.outCap.toNat
  phase : r.phaseOk
  /-- R111 -/
  journal : ∀ c ∈ r.journal, r.task.hasOutput = true ∧ r.phase.begun = true ∧ r.snap.inOutput c.1 = true

/-- The machine's invariant. -/
structure State.Inv (s : State) : Prop where
  /-- host memory keeps its canonical form, inside the address space (R100) -/
  memory : Memory.wf s.mem = true
  /-- the index keeps its canonical form (R80) -/
  index : Index.wf s.index = true
  /-- R411: "STATUS.TAIL is 0 after any error" -/
  tail : s.tail = true → s.err = .none
  /-- the running command, if any -/
  engine : ∀ r, s.engine = some r → r.Ok s

end Sys2Proof.Machine
end

