-- ==== Sys2Proof/Certificates/Slice0/Obligations.lean ====
section
/-! DEFINITION. The statements for the provers. Each docstring names the rule of spec/ it formalises, or the log entry of
notes/assumptions/ it rests on. -/

section
open Sys2Proof Sys2Proof.Machine

/-! ### Encodings (30_encoding.md) -/

/-- R151, R152, R163, R164: decoding is the inverse of encoding, both ways, for the nine command words and for every token
with every operand. -/
def Obligations.DecodeInvertsEncode : Prop :=
  (∀ i : Instr, i.wellFormed = true →
    (i.isCommand = true → decodeCommand (encode i) = .command i) ∧
    (i.isCommand = false → decodeToken (encode i) = i)) ∧
  (∀ (v : Word) (i : Instr), decodeCommand v = .command i → i.isCommand = true ∧ i.wellFormed = true ∧ encode i = v) ∧
  (∀ w : Word, (decodeToken w).isCommand = false ∧ (decodeToken w).wellFormed = true ∧ encode (decodeToken w) = w)

/-- R153: which words are legal, by their fields and as the list of nine; the decoder accepts exactly those. -/
def Obligations.LegalCommandWords : Prop :=
  ∀ v : Word,
    (legalWord v = true ↔
      v >>> 9 = 0 ∧ v.toNat % 256 ≤ 7 ∧ (v.getLsbD 8 = false ∨ v.toNat % 256 = 1)) ∧
    (legalWord v = true ↔ v ∈ ([0, 1, 2, 3, 4, 5, 6, 7, 0x101] : List Word)) ∧
    (legalWord v = true ↔ ∃ i, decodeCommand v = .command i) ∧
    (legalWord v = false ↔ ∃ why, decodeCommand v = .illegal why)

/-- R151, R152, R160: words written out from the spec's encodings decode to the instructions they stand for. -/
def Obligations.WordsWrittenOutDecode : Prop :=
  decodeCommand 0x00000000 = .command .nop ∧ decodeCommand 0x00000001 = .command .compressLin ∧
  decodeCommand 0x00000101 = .command .compressHc ∧ decodeCommand 0x00000002 = .command .decompress ∧
  decodeCommand 0x00000003 = .command .findLinear ∧ decodeCommand 0x00000004 = .command .findHc ∧
  decodeCommand 0x00000005 = .command .hash3 ∧ decodeCommand 0x00000006 = .command .indexClear ∧
  decodeCommand 0x00000007 = .command .reset ∧
  decodeRecord 0x00 0x00 0x00 0x61 = .tokenLit 0x61 ∧ decodeRecord 0x01 0x00 0x09 0x62 = .tokenCopy 1 9 0x62 ∧
  decodeRecord 0x00 0x00 0x05 0x62 = .tokenZoff 5 0x62 ∧ decodeRecord 0x00 0x01 0x00 0x21 = .tokenZlen 256 0x21

/-- R162: the fields of a record from its four bytes, and from its word. -/
def Obligations.RecordFieldAssembly : Prop :=
  ∀ b0 b1 b2 b3 : Byte,
    (recordOffset (recordWord b0 b1 b2 b3)).toNat = b0.toNat + 256 * b1.toNat ∧
    recordLength (recordWord b0 b1 b2 b3) = b2 ∧ recordLiteral (recordWord b0 b1 b2 b3) = b3 ∧
    (recordWord b0 b1 b2 b3).toNat = b0.toNat + 256 * (b1.toNat + 256 * (b2.toNat + 256 * b3.toNat)) ∧
    (∀ w : Word, (recordOffset w).toNat = w.toNat % 65536 ∧ (recordLength w).toNat = w.toNat / 65536 % 256 ∧
      (recordLiteral w).toNat = w.toNat / 16777216)

/-- R163, R283: the four bytes the encoder writes for `(d, k, x)`, the length field being the low 8 bits of `k`; the
assembly of R162 gives back `d`, `k mod 256` and `x`. -/
def Obligations.TokenPacking : Prop :=
  ∀ t : Ref.Token, t.dist ≤ 65535 →
    Ref.recordBytes (Ref.record t) =
      [BitVec.ofNat 8 (t.dist % 256), BitVec.ofNat 8 (t.dist / 256), BitVec.ofNat 8 (t.len % 256), t.lit] ∧
    (recordOffset (Ref.record t)).toNat = t.dist ∧ (recordLength (Ref.record t)).toNat = t.len % 256 ∧
    recordLiteral (Ref.record t) = t.lit

/-- R164, R322: every record is of exactly one class, decided by whether its offset and its length are 0, and its operands
are its fields. -/
def Obligations.EveryRecordHasItsClass : Prop :=
  ∀ w : Word,
    (decodeToken w).tokenFields = some (recordOffset w, recordLength w, recordLiteral w) ∧
    (recordOffset w = 0 → recordLength w = 0 → decodeToken w = .tokenLit (recordLiteral w)) ∧
    (recordOffset w ≠ 0 → recordLength w ≠ 0 →
      decodeToken w = .tokenCopy (recordOffset w) (recordLength w) (recordLiteral w)) ∧
    (recordOffset w = 0 → recordLength w ≠ 0 → decodeToken w = .tokenZoff (recordLength w) (recordLiteral w)) ∧
    (recordOffset w ≠ 0 → recordLength w = 0 → decodeToken w = .tokenZlen (recordOffset w) (recordLiteral w))

/-! ### The step (45_control.md section 1) -/

/-- R55, R150: a host write of a word to CMD, by its offset or by its bus address, runs the instruction the word decodes
to, on the state in which that access is no longer to come. -/
def Obligations.StepRunsTheCommandWritten : Prop :=
  ∀ (s : State) (e : HostEvent) (rest : List HostEvent) (v : Word) (i : Instr),
    s.pending = e :: rest → decodeCommand v = .command i →
    (e.access = .regWrite 0x08 4 v → step s = exec i { s with pending := rest }) ∧
    (∀ a : Word, e.access = .busWrite a v → a.toNat = s.platform.mmioBase + 0x08 →
      step s = exec i { s with pending := rest })

/-- With no host access to come, a record that the engine has read runs as the token it decodes to; in any other phase the
engine makes one step; an idle engine does nothing. That a step of the machine is one engine step, or one whole record, is
the model's form and no rule of the spec (log entries 6 and 7, DESIGN CHOICE); the engine step itself is R413's one access
or one update. -/
def Obligations.StepRunsTheEngine : Prop :=
  ∀ s : State, s.pending = [] →
    (∀ r w, s.engine = some r → r.phase = .record w → step s = exec (decodeToken w) s) ∧
    (∀ r, s.engine = some r → (∀ w, r.phase ≠ .record w) → step s = .next s.engineStep) ∧
    (s.engine = none → step s = .next s)

/-- R401: an illegal word written to CMD while BUSY = 0 sets ERR to 1 and DONE, clears TAIL and changes nothing else, so
that the interrupt can fire; while BUSY = 1 it is dropped and sets IGN. What the host has yet to be made to see (R122) is
from then on of commands before the one that DONE tells of. -/
def Obligations.IllegalWordIsRejected : Prop :=
  ∀ (s : State) (e : HostEvent) (rest : List HostEvent) (v : Word),
    s.pending = e :: rest → e.access = .regWrite 0x08 4 v → legalWord v = false →
    (s.busy = false →
      step s = .next { s with
        pending := rest, err := .illegalCmd, tail := false, done := true
        unseen := .nothing, stale := s.unseen.append s.stale } ∧
      ErrCode.illegalCmd.code = 1 ∧
      State.irq { s with pending := rest, err := .illegalCmd, tail := false, done := true } = s.irqEn) ∧
    (s.busy = true → step s = .next (State.advance { s with pending := rest, ign := true }))

/-- R71: while BUSY = 1 a host write to CMD of any word but RESET's, or to a parameter register or CURSOR, sets IGN and
changes nothing else; a write to CTRL or STATUS takes effect, and the RESET word acts. -/
def Obligations.BusyDropsHostWrites : Prop :=
  ∀ (s : State) (e : HostEvent) (rest : List HostEvent) (off : Nat) (v : Word),
    s.busy = true → s.pending = e :: rest → e.access = .regWrite off 4 v →
    (off = 0x08 → v ≠ 0x00000007 → step s = .next (State.advance { s with pending := rest, ign := true })) ∧
    (off ∈ ([0x10, 0x14, 0x18, 0x1C, 0x20, 0x24, 0x28] : List Nat) →
      step s = .next (State.advance { s with pending := rest, ign := true })) ∧
    (off = 0x04 → step s = .next (State.advance { s with pending := rest, irqEn := v.getLsbD 0 })) ∧
    (off = 0x0C →
      step s = .next (State.advance
        { s with pending := rest, done := s.done && !v.getLsbD 1, ign := s.ign && !v.getLsbD 3 })) ∧
    (off = 0x08 → v = 0x00000007 → step s = .next (State.resetDevice { s with pending := rest }))

/-- R71: a running command never sees a host write to the registers: what it ends with is the same whether or not the write
is made, but for IGN and CTRL.IRQ_EN, which belong to the write. -/
def Obligations.RunningCommandIsBlindToHostWrites : Prop :=
  ∀ (s : State) (off : Nat) (v : Word), s.Inv → s.busy = true →
    State.runToEnd (s.hostWrite off v) =
      { s.runToEnd with irqEn := (s.hostWrite off v).irqEn, ign := (s.hostWrite off v).ign }

/-- R52, U6: a register access of another width, misaligned, or outside 0x00..0xFC is refused, by its offset or by its bus
address, and so is a byte access to the register block; the refusal by that name has no other cause. A 32-bit bus access
outside the block is refused as no access of LZMF's (the model's choice, log entry 13), and that refusal has no other cause
either. No step of the machine stops otherwise: with no access to come, and at every other access, it answers a next
state. -/
def Obligations.MisshapenRegisterAccessIsRefused : Prop :=
  ∀ s : State,
    (s.pending = [] → ∃ t, step s = .next t) ∧
    ∀ (e : HostEvent) (rest : List HostEvent), s.pending = e :: rest →
      let base := s.platform.mmioBase
      let reg := fun off width => e.access = .regRead off width ∨ ∃ v, e.access = .regWrite off width v
      let bus := fun a => e.access = .busRead a ∨ ∃ v, e.access = .busWrite a v
      let byte := fun a => e.access = .memRead a ∨ ∃ v, e.access = .memWrite a v
      let inside := fun a : Word => base ≤ a.toNat ∧ a.toNat < base + 256
      (step s = .refused .registerAccessShape ↔
        (∃ off width, reg off width ∧ ¬ (width = 4 ∧ off % 4 = 0 ∧ off ≤ 0xFC)) ∨
        (∃ a, bus a ∧ inside a ∧ (a.toNat - base) % 4 ≠ 0) ∨ (∃ a, byte a ∧ inside a)) ∧
      (step s = .refused .outsideRegisterBlock ↔ ∃ a, bus a ∧ ¬ inside a) ∧
      (step s = .refused .registerAccessShape ∨ step s = .refused .outsideRegisterBlock ∨ ∃ t, step s = .next t)

/-! ### Registers (10_state.md) -/

/-- R53, R50, R54: the values ID, STATUS and CTRL read as, in every state. R400: the code of each error as ERR shows it, and
that there is no other. -/
def Obligations.IdStatusAndCtrlReads : Prop :=
  ∀ s : State,
    s.hostReadValue 0x00 = (0x4C5A3737, s) ∧
    s.hostReadValue 0x0C = (s.statusWord, s) ∧
    s.statusWord.toNat = s.busy.toNat + 2 * s.done.toNat + 4 * s.tail.toNat + 8 * s.ign.toNat + 256 * s.err.code.toNat ∧
    s.hostReadValue 0x04 = (s.ctrlWord, s) ∧ s.ctrlWord.toNat = s.irqEn.toNat ∧
    (ErrCode.none.code = 0 ∧ ErrCode.illegalCmd.code = 1 ∧ ErrCode.range.code = 2 ∧ ErrCode.overlap.code = 3 ∧
      ErrCode.outOverflow.code = 4 ∧ ErrCode.bus.code = 5 ∧ ErrCode.indexFull.code = 6 ∧
      ∀ e : ErrCode, e.code.toNat ≤ 6)

/-- R56: a host write to STATUS clears DONE and IGN where it has a 1 and leaves every other bit, and every other field,
whatever BUSY is. -/
def Obligations.StatusWriteClearsWrittenOnes : Prop :=
  ∀ (s : State) (v : Word),
    (s.hostWrite 0x0C v).statusWord = s.statusWord &&& ~~~(v &&& 0x0000000A) ∧
    s.hostWrite 0x0C v = { s with done := (s.hostWrite 0x0C v).done, ign := (s.hostWrite 0x0C v).ign }

/-- R51: a reserved slot or field reads 0, whether BUSY is 0 or 1; a write to it, to ID, to a read-only register or to a
read-only field of STATUS has no effect. -/
def Obligations.ReservedReadsZeroIgnoresWrites : Prop :=
  ∀ (s : State) (off : Nat) (v : Word), registerAccess off 4 = true →
    (s.hostReadValue off).1 &&& reservedBits off = 0 ∧
    s.hostWrite off v = s.hostWrite off (v &&& ~~~reservedBits off) ∧
    (off ∈ ([0x00, 0x2C, 0x30, 0x34, 0x38, 0x3C, 0x40] : List Nat) → s.hostWrite off v = s) ∧
    (off = 0x0C → s.hostWrite off v = s.hostWrite off (v &&& 0x0000000A)) ∧
    (0x44 ≤ off → (s.hostReadValue off).1 = 0 ∧ s.hostWrite off v = s)

/-- R57, R58, R59: with BUSY = 0 the parameter registers and CURSOR read what was written, WINDOW and LOOKAHEAD its low 16
bits; a write changes no other register, nor anything else of the block (R466: it takes effect before the host's next
access). That the host then sees its own write to CURSOR, and no value CURSOR held before (the clause on unseen and stale),
is the model's choice (log entry 10, DESIGN CHOICE). -/
def Obligations.ParameterWritesReadBack : Prop :=
  ∀ (s : State) (off : Nat) (v : Word), s.busy = false →
    (off ∈ ([0x10, 0x14, 0x18, 0x1C, 0x28] : List Nat) → ((s.hostWrite off v).hostReadValue off).1 = v) ∧
    (off ∈ ([0x20, 0x24] : List Nat) →
      ((s.hostWrite off v).hostReadValue off).1 = v &&& 0x0000FFFF) ∧
    (off ∈ ([0x10, 0x14, 0x18, 0x1C, 0x20, 0x24, 0x28] : List Nat) →
      (∀ off', registerAccess off' 4 = true → off' ≠ off →
        ((s.hostWrite off v).hostReadValue off').1 = (s.hostReadValue off').1) ∧
      s.hostWrite off v =
        { s with
          params := (s.hostWrite off v).params, cursor := (s.hostWrite off v).cursor
          unseen := if off = 0x28 then s.unseen.forget .cursor else s.unseen
          stale := if off = 0x28 then s.stale.forget .cursor else s.stale })

/-- R72: while BUSY = 1 a read of a result register says nothing about what the register holds; ID, CTRL and STATUS read as
always. The value read is the model's free value (log entry 1): the statement holds whatever it is. R52, R112: no read has a
side effect: it moves only what the host has read, what it has been made to see (R122) and the counter of free values. -/
def Obligations.RegisterReads : Prop :=
  (∀ (s : State) (off : Nat) (c o t e : Word) (d l : Half) (hv : BitVec 18) (hb : Bool), s.busy = true →
    (State.hostReadValue
        { s with cursor := c, outLen := o, tokenCount := t, errAddr := e, matchDist := d, matchLen := l, hashValue := hv,
                 hashValid := hb } off).1 = (s.hostReadValue off).1 ∧
    (off ∈ ([0x00, 0x04, 0x0C] : List Nat) → (s.hostReadValue off).2 = s)) ∧
  (∀ (s : State) (off : Nat), ∃ u u' n,
    s.hostRead off =
      { s with readback := .reg off (s.hostReadValue off).1 :: s.readback, unseen := u, stale := u', freeTick := n })

/-- R420: the interrupt line is DONE and IRQ_EN, as the host reads them; writing IRQ_EN moves it at once and leaves DONE;
acknowledging, accepting a command and RESET deassert it. -/
def Obligations.InterruptLine : Prop :=
  ∀ (s : State) (v : Word) (task : Task),
    (s.irq = (s.statusWord.getLsbD 1 && s.ctrlWord.getLsbD 0)) ∧
    ((s.hostWrite 0x04 v).irq = (s.done && v.getLsbD 0) ∧ (s.hostWrite 0x04 v).done = s.done) ∧
    (v.getLsbD 1 = true → (s.hostWrite 0x0C v).irq = false) ∧
    ((s.accept task).irq = false) ∧ (s.resetDevice.irq = false)

/-! ### Reset (70_reset_and_hazards.md) -/

/-- R90: after reset ID reads its constant and every other register and slot reads 0; the engine is IDLE, the index empty
and the interrupt line deasserted, on every platform and over every memory, which is not touched. -/
def Obligations.ResetState : Prop :=
  ∀ (p : Platform) (m : List Host.Cell),
    (∀ off, registerAccess off 4 = true →
      (State.resetOn p m).hostReadValue off = (if off = 0 then 0x4C5A3737 else 0, State.resetOn p m)) ∧
    (State.resetOn p m).engine = none ∧ (State.resetOn p m).index = [] ∧ (State.resetOn p m).irq = false ∧
    (State.resetOn p m).mem = m ∧ State.reset = State.resetOn Platform.abstract []

/-- R362: RESET acts whatever BUSY is: every register at its reset value, the index empty, the engine IDLE, STATUS 0. With
the engine idle memory is unchanged; an aborted command leaves each byte it wrote old or written, and every byte outside
its output buffer as it was. R450: the hardware reset has that same effect, at any time. -/
def Obligations.ResetCommand : Prop :=
  ∀ s : State, s.Inv → ∃ t, exec .reset s = .next t ∧
    (∀ d, step { s with pending := { delay := d, access := .hardReset } :: s.pending } = .next t) ∧
    t = { State.resetOn s.platform t.mem with
          pending := s.pending, readback := s.readback, freeTick := t.freeTick
          unseen := { s.unseen with regs := [] }, stale := { s.stale with regs := [] } } ∧
    t.statusWord = 0 ∧
    (s.engine = none → t.mem = s.mem) ∧
    (∀ r a, s.engine = some r →
      ((r.task.hasOutput = true → r.snap.inOutput a = false) → Memory.read t.mem a = Memory.read s.mem a) ∧
      (r.foreign = [] → Memory.read t.mem a = Memory.read s.mem a ∨ Memory.read t.mem a ∈ Memory.valuesAt r.journal a))

/-- The machine's invariant holds after reset, over every memory in canonical form. -/
def Obligations.InvariantAtReset : Prop :=
  State.reset.Inv ∧ ∀ p m, Memory.wf m = true → (State.resetOn p m).Inv

/-- Every step keeps the machine's invariant (Safety.lean): canonical memory inside the 2^32-byte space (R100), canonical
index (R80), TAIL 0 after an error (R411), and for a running command: its snapshot is the registers (R83), its buffers pass
the checks (R103, R104), its counts agree with the progress registers (R290, R330), it has written only its output buffer
(R111). -/
def Obligations.StepKeepsInvariant : Prop :=
  ∀ s t : State, s.Inv → step s = .next t → t.Inv

/-! ### The end of a command (70_reset_and_hazards.md R470) -/

/-- R470: a running command ends, within the bound, with DONE set; so every command but RESET, taken by an idle block whose
host waits, leaves the block idle with DONE set. -/
def Obligations.EveryCommandEnds : Prop :=
  (∀ s : State, s.Inv → s.busy = true → s.runToEnd.busy = false ∧ s.runToEnd.done = true) ∧
  (∀ (s : State) (i : Instr), s.Inv → s.Ready → i.isCommand = true → i ≠ .reset →
    ∃ t, exec i s = .next t ∧ t.busy = false ∧ t.done = true)

/-- R400, R460: a command ends with one of the error codes it can raise and, whatever other agents write meanwhile, changes
no byte outside its output buffer. -/
def Obligations.CommandEndsWithItsOwnErrors : Prop :=
  ∀ (s : State) (r : Run), s.Inv → s.engine = some r →
    s.runToEnd.err ∈ r.task.errors ∧
    (∀ a, (r.task.hasOutput = true → r.snap.inOutput a = false) →
      Memory.read s.runToEnd.mem a = Memory.read s.mem a)

/-- R64, R111: what each command leaves alone, from an idle block, wherever the next host access interrupts it. CTRL, IGN
and the parameters stay; CURSOR, OUT_LEN, TOKEN_COUNT and memory are COMPRESS's and DECOMPRESS's; MATCH_DIST and MATCH_LEN
the queries'; HASH is HASH3's; TAIL is set by DECOMPRESS only; ERR_ADDR changes only on BUS; the index only under COMPRESS,
FIND_HC and INDEX_CLEAR; no byte outside the output buffer changes. What the host had yet to be made to see stays to be
seen (R122). -/
def Obligations.CommandFrame : Prop :=
  ∀ (s t : State) (i : Instr), s.Inv → s.busy = false → i.isCommand = true → i ≠ .reset → exec i s = .next t →
    (t.irqEn = s.irqEn ∧ t.ign = s.ign ∧ t.params = s.params ∧ t.platform = s.platform ∧ t.pending = s.pending ∧
      t.readback = s.readback ∧ t.stale = s.unseen.append s.stale) ∧
    (i ≠ .compressLin → i ≠ .compressHc → i ≠ .decompress →
      t.cursor = s.cursor ∧ t.outLen = s.outLen ∧ t.tokenCount = s.tokenCount ∧ t.mem = s.mem ∧ t.unseen.cells = []) ∧
    (i ≠ .findLinear → i ≠ .findHc → t.matchDist = s.matchDist ∧ t.matchLen = s.matchLen) ∧
    (i ≠ .hash3 → t.hashValue = s.hashValue ∧ t.hashValid = s.hashValid) ∧
    (i ≠ .decompress → t.tail = false) ∧
    (t.err ≠ .bus → (∀ r, t.engine = some r → r.phase ≠ .raising .bus) → t.errAddr = s.errAddr) ∧
    (i ≠ .compressLin → i ≠ .compressHc → i ≠ .findHc → i ≠ .indexClear → t.index = s.index) ∧
    (∀ a, s.params.inOutput a = false → Memory.read t.mem a = Memory.read s.mem a)

/-! ### Commands without a buffer (45_control.md, 42_hash_chain.md) -/

/-- R361: NOP ends at once and changes nothing but STATUS. R252: INDEX_CLEAR empties the index and changes nothing else but
STATUS. -/
def Obligations.NopAndIndexClearComplete : Prop :=
  ∀ s : State, s.Ready → exec .nop s = .next (s.ended .none) ∧ exec .indexClear s = .next { s.ended .none with index := [] }

/-! ### The start checks (60_exceptions.md R402, R403) -/

/-- R402: RANGE, with nothing changed but STATUS: both buffers are checked for COMPRESS and DECOMPRESS, the input buffer
alone for FIND_LINEAR, FIND_HC and HASH3. R403: OVERLAP, right after RANGE passes, with nothing changed but STATUS. -/
def Obligations.FailedStartChecksChangeOnlyStatus : Prop :=
  ∀ (s : State) (i : Instr), s.Ready →
    (i ∈ ([.compressLin, .compressHc, .decompress] : List Instr) →
      (s.params.inBase.toNat + s.params.inLen.toNat > 2 ^ 32 ∨ s.params.outBase.toNat + s.params.outCap.toNat > 2 ^ 32) →
      exec i s = .next (s.ended .range)) ∧
    (i ∈ ([.findLinear, .findHc, .hash3] : List Instr) → s.params.inBase.toNat + s.params.inLen.toNat > 2 ^ 32 →
      exec i s = .next (s.ended .range)) ∧
    (i ∈ ([.compressLin, .compressHc, .decompress] : List Instr) →
      s.params.inBase.toNat + s.params.inLen.toNat ≤ 2 ^ 32 → s.params.outBase.toNat + s.params.outCap.toNat ≤ 2 ^ 32 →
      s.params.inLen.toNat > 0 → s.params.outCap.toNat > 0 →
      s.params.inBase.toNat < s.params.outBase.toNat + s.params.outCap.toNat →
      s.params.outBase.toNat < s.params.inBase.toNat + s.params.inLen.toNat →
      exec i s = .next (s.ended .overlap))

/-! ### The hash (42_hash_chain.md R230 to R233) -/

/-- R230, R231, R232: the hash of three bytes, its range, that it is not injective, and its rolling form over the integers. -/
def Obligations.HashOfThreeBytes : Prop :=
  (∀ b0 b1 b2 : Byte,
    hashBytes [b0, b1, b2] = 961 * b0.toNat + 31 * b1.toNat + b2.toNat ∧ hashBytes [b0, b1, b2] ≤ 253215 ∧
    hashBytes [b0] ≤ 253215 ∧ hashBytes [b0, b1] ≤ 253215 ∧ 253215 < 2 ^ 18) ∧
  hashBytes [255, 255, 255] = 253215 ∧
  hashBytes [0, 1, 0] = 31 ∧ hashBytes [0, 0, 31] = 31 ∧ hashBytes [1, 0, 0] = 961 ∧ hashBytes [0, 31, 0] = 961 ∧
  (∀ b0 b1 b2 b3 : Byte,
    (hashBytes [b1, b2, b3] : Int) = 31 * ((hashBytes [b0, b1, b2] : Int) - 961 * (b0.toNat : Int)) + (b3.toNat : Int))

/-- R233: HASH3 ends with VALID and the hash of the three bytes at CURSOR, or with HASH = 0 where fewer than 3 remain;
nothing else changes but STATUS and what the host has yet to be made to see (R122), HASH's old value. -/
def Obligations.HashCommandCompletes : Prop :=
  ∀ s : State, s.Inv → s.Ready → s.params.inBase.toNat + s.params.inLen.toNat ≤ 2 ^ 32 →
    (s.cursor.toNat + 3 ≤ s.params.inLen.toNat → s.plainReads (s.params.inBase.toNat + s.cursor.toNat) 3 →
      exec .hash3 s = .next { s.ended .none with
        unseen := { cells := [], regs := s.oldResults [.hash] }
        hashValid := true
        hashValue := BitVec.ofNat 18 (961 * (s.inByte s.cursor.toNat).toNat + 31 * (s.inByte (s.cursor.toNat + 1)).toNat +
          (s.inByte (s.cursor.toNat + 2)).toNat) }) ∧
    (s.params.inLen.toNat < s.cursor.toNat + 3 →
      exec .hash3 s = .next { s.ended .none with
        unseen := { cells := [], regs := s.oldResults [.hash] }
        hashValid := false, hashValue := 0 })

/-- R233, R404: HASH3 raises BUS on the first of its three reads that the platform refuses: ERR_ADDR is its address, HASH
keeps its old value and nothing else changes but STATUS and what the host has yet to be made to see (R122), ERR_ADDR's old
value. -/
def Obligations.HashCommandBus : Prop :=
  ∀ (s : State) (j : Nat), s.Inv → s.Ready → s.params.inBase.toNat + s.params.inLen.toNat ≤ 2 ^ 32 →
    s.cursor.toNat + 3 ≤ s.params.inLen.toNat → j < 3 →
    s.plainReads (s.params.inBase.toNat + s.cursor.toNat) j →
    s.platform.admits (s.params.inBase.toNat + s.cursor.toNat + j) .read = false →
    exec .hash3 s = .next { s.ended .bus with
      unseen := { cells := [], regs := s.oldResults [.errAddr] }
      errAddr := BitVec.ofNat 32 (s.params.inBase.toNat + s.cursor.toNat + j) }

/-! ### The finders (41_linear_finder.md, 42_hash_chain.md) -/

/-- R201: the properties of matchLen: its bounds, that the matched bytes are equal, and that it is maximal. -/
def Obligations.MatchLengthProperties : Prop :=
  ∀ (inp : Nat → Byte) (n p c L : Nat), p < c →
    Ref.matchLen inp n p c L ≤ L ∧
    (c ≤ n → Ref.matchLen inp n p c L ≤ n - c) ∧
    (n ≤ c ∨ L = 0 → Ref.matchLen inp n p c L = 0) ∧
    (∀ j < Ref.matchLen inp n p c L, inp (p + j) = inp (c + j)) ∧
    (Ref.matchLen inp n p c L = L ∨ n ≤ c + Ref.matchLen inp n p c L ∨
      inp (p + Ref.matchLen inp n p c L) ≠ inp (c + Ref.matchLen inp n p c L))

/-- R203, R204: the closed form of the linear finder: `(0, 0)` where no candidate matches one byte; else the longest match,
the oldest of its positions, and the bounds on the pair. -/
def Obligations.LinearFinderClosedForm : Prop :=
  ∀ (inp : Nat → Byte) (n c w L : Nat),
    ((∀ p, c - w ≤ p → p < c → Ref.matchLen inp n p c L = 0) → Ref.findLinear inp n c w L = (0, 0)) ∧
    (∀ q, c - w ≤ q → q < c → 0 < Ref.matchLen inp n q c L →
      (∀ p, c - w ≤ p → p < c → Ref.matchLen inp n p c L ≤ Ref.matchLen inp n q c L) →
      (∀ p, c - w ≤ p → p < q → Ref.matchLen inp n p c L < Ref.matchLen inp n q c L) →
      Ref.findLinear inp n c w L = (c - q, Ref.matchLen inp n q c L)) ∧
    (0 < (Ref.findLinear inp n c w L).2 →
      1 ≤ (Ref.findLinear inp n c w L).1 ∧ (Ref.findLinear inp n c w L).1 ≤ min w c ∧
      (Ref.findLinear inp n c w L).2 ≤ min L (n - c) ∧ (w ≤ 65535 → (Ref.findLinear inp n c w L).1 ≤ 65535))

/-- R210: FIND_LINEAR ends with the pair of findLinear at CURSOR in MATCH_DIST and MATCH_LEN; CURSOR, the index, memory and
everything else but STATUS are unchanged, but for what the host has yet to be made to see (R122), the two registers' old
values. A cursor at or beyond the input's end reads nothing. -/
def Obligations.FindLinearCompletes : Prop :=
  ∀ s : State, s.Inv → s.Ready → s.params.inBase.toNat + s.params.inLen.toNat ≤ 2 ^ 32 →
    (s.cursor.toNat < s.params.inLen.toNat → s.plainReads s.params.inBase.toNat s.params.inLen.toNat) →
    exec .findLinear s = .next { s.ended .none with
      unseen := { cells := [], regs := s.oldResults [.matchLen, .matchDist] }
      matchDist := BitVec.ofNat 16
        (Ref.findLinear s.inByte s.params.n s.cursor.toNat s.params.w s.params.L).1
      matchLen := BitVec.ofNat 16
        (Ref.findLinear s.inByte s.params.n s.cursor.toNat s.params.w s.params.L).2 } ∧
    (s.params.inLen.toNat ≤ s.cursor.toNat →
      Ref.findLinear s.inByte s.params.n s.cursor.toNat s.params.w s.params.L = (0, 0))

/-- R242, R243: what findHC returns from a bucket, in whatever order its positions stand: nothing shorter than 3; the
longest match among the bucket's positions in the window, the latest of those in the bucket; `(0, 0)` where none is 3
long, as always with a lookahead below 3. -/
def Obligations.ChainFinderTieBreak : Prop :=
  ∀ (inp : Nat → Byte) (n c w L : Nat) (idx : List (Nat × List Nat)),
    let bucket := Index.bucket idx (Ref.hashAt inp c)
    (c + 3 ≤ n → ∀ pre q post, bucket = pre ++ q :: post → c ≤ q + w → q < c → 3 ≤ Ref.matchLen inp n q c L →
      (∀ p ∈ pre, c ≤ p + w → p < c → Ref.matchLen inp n p c L ≤ Ref.matchLen inp n q c L) →
      (∀ p ∈ post, c ≤ p + w → p < c → Ref.matchLen inp n p c L < Ref.matchLen inp n q c L) →
      Ref.findHc inp n c w L idx = (c - q, Ref.matchLen inp n q c L)) ∧
    ((∀ p ∈ bucket, c ≤ p + w → p < c → Ref.matchLen inp n p c L < 3) → Ref.findHc inp n c w L idx = (0, 0)) ∧
    (L < 3 ∨ n < c + 3 → Ref.findHc inp n c w L idx = (0, 0)) ∧
    (0 < (Ref.findHc inp n c w L idx).2 →
      3 ≤ (Ref.findHc inp n c w L idx).2 ∧ 1 ≤ (Ref.findHc inp n c w L idx).1 ∧
      (Ref.findHc inp n c w L idx).1 ≤ min w c ∧ (Ref.findHc inp n c w L idx).2 ≤ min L (n - c) ∧
      ∀ j < (Ref.findHc inp n c w L idx).2, inp (c - (Ref.findHc inp n c w L idx).1 + j) = inp (c + j))

/-- R244, R245: findHC appends its cursor to the bucket of the hash, and prunes that bucket of the positions older than the
window start when it then exceeds 100; kept entries keep their order, no other bucket changes, and the index keeps its
canonical form. With fewer than 3 bytes left the index is untouched. -/
def Obligations.InsertionAndPruning : Prop :=
  ∀ (inp : Nat → Byte) (n c w : Nat) (idx : List (Nat × List Nat)), Index.wf idx = true →
    let h := Ref.hashAt inp c
    (c + 3 ≤ n → (Index.bucket idx h).length < 100 →
      Index.bucket (Ref.insertHc inp n c w idx) h = Index.bucket idx h ++ [c]) ∧
    (c + 3 ≤ n → 100 ≤ (Index.bucket idx h).length →
      Index.bucket (Ref.insertHc inp n c w idx) h =
        (Index.bucket idx h).filter (fun p => decide (c - w ≤ p)) ++ [c]) ∧
    (c + 3 ≤ n → ∀ h', h' ≠ h → Index.bucket (Ref.insertHc inp n c w idx) h' = Index.bucket idx h') ∧
    (n < c + 3 → Ref.insertHc inp n c w idx = idx) ∧
    Index.wf (Ref.insertHc inp n c w idx) = true

/-- R247: the closed form of findHC when every call since the index was emptied used a greater cursor than the one before,
over one input and one window (log entry 15, the model's reading of the rule): the candidates are the earlier calls in the window with the same 3-byte prefix, and the
newest of the longest matches wins. Neither the bucket cap nor pruning is seen. -/
def Obligations.ChainFinderClosedForm : Prop :=
  ∀ (inp : Nat → Byte) (n w L c : Nat) (calls : List Nat), calls.Pairwise (· < ·) → (∀ p ∈ calls, p < c) →
    let idx := calls.foldl (fun i p => Ref.insertHc inp n p w i) []
    let S := fun p => p ∈ calls ∧ c ≤ p + w ∧ p < c ∧ p + 3 ≤ n ∧ inp p = inp c ∧ inp (p + 1) = inp (c + 1) ∧
      inp (p + 2) = inp (c + 2)
    (n < c + 3 ∨ L < 3 ∨ (∀ p, ¬ S p) → Ref.findHc inp n c w L idx = (0, 0)) ∧
    (c + 3 ≤ n → 3 ≤ L → ∀ q, S q → (∀ p, S p → Ref.matchLen inp n p c L ≤ Ref.matchLen inp n q c L) →
      (∀ p, S p → q < p → Ref.matchLen inp n p c L < Ref.matchLen inp n q c L) →
      3 ≤ Ref.matchLen inp n q c L ∧ Ref.findHc inp n c w L idx = (c - q, Ref.matchLen inp n q c L))

/-- R250, R246, R406: FIND_HC ends with the pair of findHC at CURSOR and the index with CURSOR inserted; or with INDEX_FULL
and nothing else changed, where it would append to an index at its capacity. Nothing else changes but STATUS and what the
host has yet to be made to see (R122), the two registers' old values. -/
def Obligations.FindHcCompletes : Prop :=
  ∀ s : State, s.Inv → s.Ready → s.params.inBase.toNat + s.params.inLen.toNat ≤ 2 ^ 32 →
    (s.cursor.toNat + 3 ≤ s.params.inLen.toNat → s.plainReads s.params.inBase.toNat s.params.inLen.toNat) →
    (Ref.fullAt s.platform.indexCap s.params.n s.cursor.toNat s.index = false →
      exec .findHc s = .next { s.ended .none with
        unseen := { cells := [], regs := s.oldResults [.matchLen, .matchDist] }
        matchDist := BitVec.ofNat 16
          (Ref.findHc s.inByte s.params.n s.cursor.toNat s.params.w s.params.L s.index).1
        matchLen := BitVec.ofNat 16
          (Ref.findHc s.inByte s.params.n s.cursor.toNat s.params.w s.params.L s.index).2
        index := Ref.insertHc s.inByte s.params.n s.cursor.toNat s.params.w s.index }) ∧
    (Ref.fullAt s.platform.indexCap s.params.n s.cursor.toNat s.index = true →
      exec .findHc s = .next (s.ended .indexFull))

/-! ### The encoder (43_encoder.md) -/

/-- R290, R282, R286, R405, R406, R411: COMPRESS, with either finder, over buffers of ordinary memory: the tokens of the
encoder's loop are written to the output buffer in order; CURSOR, OUT_LEN and TOKEN_COUNT count the tokens completed; the
index is the one the finder leaves; ERR says whether the input was covered, the output buffer was full or the index was.
Nothing else changes but STATUS and what the host has yet to be made to see (R122): old values of the bytes written and of
the three counting registers. -/
def Obligations.CompressCompletes : Prop :=
  ∀ (s : State) (chain : Bool), s.Inv → s.Ready → s.params.codecCheck = none →
    let res := Ref.encode chain s.platform.indexCap s.inByte s.params.n s.params.w s.params.L (s.params.outCap.toNat / 4) 0 []
    s.plainReads s.params.inBase.toNat s.params.inLen.toNat →
    s.plainWrites s.params.outBase.toNat (4 * res.1.length) →
    ∃ seen : Unseen, exec (if chain then .compressHc else .compressLin) s = .next { s.ended res.2.2 with
        cursor := BitVec.ofNat 32 (Ref.covered res.1)
        outLen := BitVec.ofNat 32 (4 * res.1.length)
        tokenCount := BitVec.ofNat 32 res.1.length
        index := res.2.1
        mem := Memory.writeBytes s.mem s.params.outBase.toNat (Ref.streamBytes res.1)
        unseen := seen } ∧
      (∀ c ∈ seen.regs, c.1 ∈ ([.cursor, .outLen, .tokenCount] : List ResultReg)) ∧
      ∀ c ∈ seen.cells, s.params.outBase.toNat ≤ c.1 ∧ c.1 < s.params.outBase.toNat + 4 * res.1.length

/-- R293, R294: the tokens cover the input exactly; there is at least one if the input is not empty and at most one a byte;
with OUT_CAP of at least 4 n, OUT_OVERFLOW is not raised; without an error the input is covered and OUT_LEN is four times
the tokens. -/
def Obligations.EncoderCoversInput : Prop :=
  ∀ (chain : Bool) (cap : Option Nat) (inp : Nat → Byte) (n w L room : Nat),
    let res := Ref.encode chain cap inp n w L room 0 []
    Ref.covered (Ref.compress chain inp n w L) = n ∧ (Ref.compress chain inp n w L).length ≤ n ∧
    (1 ≤ n → 1 ≤ (Ref.compress chain inp n w L).length) ∧
    (n ≤ room → res.2.2 ≠ .outOverflow) ∧
    (res.2.2 = .none ↔ Ref.covered res.1 = n) ∧
    (Ref.streamBytes res.1).length = 4 * res.1.length

/-- R411: a COMPRESS that ends early, for want of output or of index, has written exactly the first tokens of the stream that
it writes with room enough; the same of DECOMPRESS and its output. -/
def Obligations.ErrorsKeepAPrefix : Prop :=
  (∀ (chain : Bool) (cap : Option Nat) (inp : Nat → Byte) (n w L room : Nat),
    (Ref.encode chain cap inp n w L room 0 []).1 <+: Ref.compress chain inp n w L) ∧
  (∀ (cap : Nat) (ws : List Word),
    (Ref.decodeWithin cap ws []).1 = Ref.decode (ws.take (Ref.decodeWithin cap ws []).2) ∧
    (Ref.decodeWithin cap ws []).1 <+: Ref.decode ws)

/-- R295: every token the encoder emits, by its place in the stream: a literal `T(0, 0, In[c])`, or a copy whose source is in
the window and before the cursor, whose bytes are equal, whose literal is the byte after the run; under the hash-chain
finder at least 3 long; and with a lookahead of at most 255 its offset field is 0 if and only if its length field is. -/
def Obligations.EmittedTokenInvariants : Prop :=
  ∀ (chain : Bool) (inp : Nat → Byte) (n w L : Nat) (pre post : List Ref.Token) (t : Ref.Token),
    Ref.compress chain inp n w L = pre ++ t :: post →
    let c := Ref.covered pre
    (t = ⟨0, 0, inp c⟩ ∨
      (1 ≤ t.dist ∧ t.dist ≤ min w c ∧ 1 ≤ t.len ∧ t.len ≤ min L (n - c - 1) ∧ t.lit = inp (c + t.len) ∧
        (∀ j < t.len, inp (c - t.dist + j) = inp (c + j)) ∧ (chain = true → 3 ≤ t.len))) ∧
    (L ≤ 255 → w ≤ 65535 →
      (recordOffset (Ref.record t) = 0 ↔ recordLength (Ref.record t) = 0) ∧ (recordLength (Ref.record t)).toNat ≤ L)

/-- R296: two COMPRESS commands of the same finder over the same input bytes, window and lookahead, wherever the buffers
stand and whatever the index, the registers and the rest of memory hold before, that both end with ERR = NONE, end with
the same CURSOR, OUT_LEN and TOKEN_COUNT and write the same bytes. -/
def Obligations.CompressIsDeterministic : Prop :=
  ∀ (s s' t t' : State) (chain : Bool), s.Inv → s'.Inv → s.Ready → s'.Ready →
    s.params.inLen = s'.params.inLen → s.params.window = s'.params.window → s.params.lookahead = s'.params.lookahead →
    (∀ i < s.params.n, s.inByte i = s'.inByte i) →
    (∀ u : State, u = s ∨ u = s' →
      (∀ i < u.params.n, u.platform.hasSideEffects (u.params.inAddr i) = false) ∧
      (∀ j < u.params.outCap.toNat, u.platform.hasSideEffects (u.params.outAddr j) = false)) →
    exec (if chain then .compressHc else .compressLin) s = .next t →
    exec (if chain then .compressHc else .compressLin) s' = .next t' →
    t.err = .none → t'.err = .none →
    t.cursor = t'.cursor ∧ t.outLen = t'.outLen ∧ t.tokenCount = t'.tokenCount ∧
    ∀ j < t.outLen.toNat, Memory.read t.mem (s.params.outAddr j) = Memory.read t'.mem (s'.params.outAddr j)

/-! ### The decoder (44_decoder.md) -/

/-- R323, R325: a record adds `cnt + 1` bytes, `cnt` its length if its length and offset are nonzero and the output is not
empty, else 0; what was there stays; the last byte added is the literal. -/
def Obligations.RecordLength : Prop :=
  ∀ (out : List Byte) (off : Half) (len lit : Byte),
    let out' := Ref.decodeRecord out (packToken off len lit)
    let cnt := if len.toNat > 0 ∧ off.toNat > 0 ∧ out.length > 0 then len.toNat else 0
    out'.length = out.length + cnt + 1 ∧ out <+: out' ∧ out'.getLast? = some lit

/-- R326: the copied bytes in their periodic form, for a valid offset and for a clamped one. -/
def Obligations.PeriodicCopy : Prop :=
  ∀ (out : List Byte) (off : Half) (len lit : Byte), 0 < len.toNat → 0 < off.toNat → 0 < out.length →
    let out' := Ref.decodeRecord out (packToken off len lit)
    let s := out.length - off.toNat
    let P := out.length - s
    1 ≤ P ∧ P ≤ out.length ∧ (off.toNat ≤ out.length → P = off.toNat) ∧
    (out.length < off.toNat → s = 0 ∧ P = out.length) ∧
    ∀ i < len.toNat, out'[out.length + i]? = out'[s + i % P]?

/-- R330, R405, R411: DECOMPRESS over buffers of ordinary memory: the output of the records that fit is written; CURSOR,
OUT_LEN and TOKEN_COUNT count them; ERR is OUT_OVERFLOW if one did not fit, else NONE with TAIL for 1 to 3 trailing bytes.
Nothing else changes but STATUS and what the host has yet to be made to see (R122): old values of the bytes written and of
the three counting registers. -/
def Obligations.DecompressCompletes : Prop :=
  ∀ s : State, s.Inv → s.Ready → s.params.codecCheck = none →
    let res := Ref.decodeWithin s.params.outCap.toNat (Ref.records s.inByte s.params.n) []
    let fits := decide (res.2 = s.params.n / 4)
    s.plainReads s.params.inBase.toNat s.params.inLen.toNat →
    s.plainWrites s.params.outBase.toNat res.1.length →
    s.plainReads s.params.outBase.toNat res.1.length →
    ∃ seen : Unseen, exec .decompress s = .next { s.ended (if fits then .none else .outOverflow) with
        tail := fits && decide (s.params.n % 4 ≠ 0)
        cursor := BitVec.ofNat 32 (4 * res.2)
        outLen := BitVec.ofNat 32 res.1.length
        tokenCount := BitVec.ofNat 32 res.2
        mem := Memory.writeBytes s.mem s.params.outBase.toNat res.1
        unseen := seen } ∧
      (∀ c ∈ seen.regs, c.1 ∈ ([.cursor, .outLen, .tokenCount] : List ResultReg)) ∧
      ∀ c ∈ seen.cells, s.params.outBase.toNat ≤ c.1 ∧ c.1 < s.params.outBase.toNat + res.1.length

/-- R341: a stream of `m` bytes decodes to at most `256 * floor(m / 4)` bytes, so that much room is enough for every record
to fit, and then the output is the whole stream's. -/
def Obligations.DecoderOutputBound : Prop :=
  ∀ (inp : Nat → Byte) (m cap : Nat),
    (Ref.decode (Ref.records inp m)).length ≤ 256 * (m / 4) ∧
    (256 * (m / 4) ≤ cap → Ref.decodeWithin cap (Ref.records inp m) [] = (Ref.decode (Ref.records inp m), m / 4))

/-- R340, over byte sequences: for every input, every window of at most 65535, every lookahead of at most 255 and either
finder, decoding the encoder's tokens gives back the input. -/
def Obligations.RoundTripOfBytes : Prop :=
  ∀ (chain : Bool) (inp : Nat → Byte) (n w L : Nat), w ≤ 65535 → L ≤ 255 →
    Ref.decode ((Ref.compress chain inp n w L).map Ref.record) = (List.range n).map inp

/-- R340, of the machine: a COMPRESS with a lookahead of at most 255 that ends with ERR = NONE, and after it a DECOMPRESS of
the bytes it wrote that ends with ERR = NONE, into a buffer of at least n bytes: the output is the input, OUT_LEN is n,
TOKEN_COUNT is COMPRESS's, TAIL is 0. -/
def Obligations.RoundTripOnTheMachine : Prop :=
  ∀ (s t u v : State) (chain : Bool), s.Inv → s.Ready → u.Inv → u.Ready →
    s.params.lookahead.toNat ≤ 255 →
    (∀ i < s.params.n, s.platform.hasSideEffects (s.params.inAddr i) = false) →
    (∀ j < s.params.outCap.toNat, s.platform.hasSideEffects (s.params.outAddr j) = false) →
    exec (if chain then .compressHc else .compressLin) s = .next t → t.err = .none →
    u.params.inLen = t.outLen → (∀ j < t.outLen.toNat, u.inByte j = Memory.read t.mem (s.params.outAddr j)) →
    (∀ i < u.params.n, u.platform.hasSideEffects (u.params.inAddr i) = false) →
    (∀ j < u.params.outCap.toNat, u.platform.hasSideEffects (u.params.outAddr j) = false) →
    s.params.n ≤ u.params.outCap.toNat →
    exec .decompress u = .next v → v.err = .none →
    (∀ i < s.params.n, Memory.read v.mem (u.params.outAddr i) = s.inByte i) ∧ v.outLen = s.params.inLen ∧
    v.tokenCount = t.tokenCount ∧ v.tail = false

/-! ### The token classes (30_encoding.md R164) -/

/-- R321 to R325, R330, R164: the four token classes, each on the record a DECOMPRESS has just read, where the record fits
and its bytes fall on ordinary memory: the output grows by what the record decodes to, the cursor by 4, the record count by
1, and the progress registers follow; nothing else changes but the command's record of old values (R122), and the engine
goes on to the next record. -/
def Obligations.TokensComplete : Prop :=
  ∀ (s : State) (r : Run) (w : Word) (i : Instr) (off : Half) (len lit : Byte), s.Inv → s.engine = some r →
    r.phase = .record w → r.foreign = [] → i.tokenFields = some (off, len, lit) →
    let out := s.outputOf r.snap r.o
    let out' := Ref.decodeRecord out (packToken off len lit)
    out'.length ≤ r.snap.outCap.toNat →
    s.plainWrites r.snap.outBase.toNat out'.length → s.plainReads r.snap.outBase.toNat out'.length →
    ∃ seen : Unseen, exec i s = .next { s with
        mem := Memory.writeBytes s.mem (r.snap.outAddr r.o) (out'.drop r.o)
        cursor := BitVec.ofNat 32 (r.cur + 4)
        outLen := BitVec.ofNat 32 out'.length
        tokenCount := BitVec.ofNat 32 (r.t + 1)
        engine := some { r with
          cur := r.cur + 4, o := out'.length, t := r.t + 1, phase := .recordRead []
          journal := seen.cells ++ r.journal, regJournal := seen.regs ++ r.regJournal } } ∧
      (∀ c ∈ seen.regs, c.1 ∈ ([.cursor, .outLen, .tokenCount] : List ResultReg)) ∧
      ∀ c ∈ seen.cells, ∃ j, r.o ≤ j ∧ j < out'.length ∧ c.1 = r.snap.outAddr j

/-- R325: LIT, ZLEN and ZOFF append the literal and nothing else: one byte, at OUT_BASE plus the output length. -/
def Obligations.LiteralTokensAppendOneByte : Prop :=
  ∀ (s : State) (r : Run) (w : Word) (i : Instr) (off : Half) (len lit : Byte), s.Inv → s.engine = some r →
    r.phase = .record w → r.foreign = [] →
    (i = .tokenLit lit ∨ i = .tokenZlen off lit ∨ i = .tokenZoff len lit) →
    r.o + 1 ≤ r.snap.outCap.toNat → s.plainWrites (r.snap.outBase.toNat + r.o) 1 →
    exec i s = .next { s with
      mem := Memory.write s.mem (r.snap.outAddr r.o) lit
      cursor := BitVec.ofNat 32 (r.cur + 4)
      outLen := BitVec.ofNat 32 (r.o + 1)
      tokenCount := BitVec.ofNat 32 (r.t + 1)
      engine := some { r with
        cur := r.cur + 4, o := r.o + 1, t := r.t + 1, phase := .recordRead []
        journal := (r.snap.outAddr r.o, Memory.read s.mem (r.snap.outAddr r.o)) :: r.journal
        regJournal := s.oldResults [.tokenCount, .outLen, .cursor] ++ r.regJournal } }

/-- R405: COMPRESS of a nonempty input with OUT_CAP below 4 ends at once with OUT_OVERFLOW and OUT_LEN = 0, whatever memory
holds and the platform admits; at any step, COMPRESS checks `o + 4 > OUT_CAP` before its finder runs; DECOMPRESS checks a
record's `cnt + 1` bytes when it has read it. Where the check fails nothing of that step or record is written and the counts
of those before it are kept. -/
def Obligations.OutputOverflow : Prop :=
  (∀ (s : State) (chain : Bool), s.Inv → s.Ready → s.params.codecCheck = none → s.params.inLen.toNat ≥ 1 →
    s.params.outCap.toNat < 4 →
    exec (if chain then .compressHc else .compressLin) s = .next
      { s.ended .outOverflow with
        cursor := 0, outLen := 0, tokenCount := 0, index := []
        unseen := { cells := [], regs := s.oldResults [.tokenCount, .outLen, .cursor] } }) ∧
  (∀ (s : State) (r : Run), s.Inv → s.engine = some r → r.phase = .encodeTop → r.foreign = [] → r.cur < r.snap.n →
    r.snap.outCap.toNat < r.o + 4 →
    s.runToEnd = { s with
      engine := none, done := true, err := .outOverflow
      unseen := Unseen.append { cells := r.journal, regs := r.regJournal } s.unseen }) ∧
  (∀ (s : State) (r : Run) (w : Word) (i : Instr) (off : Half) (len lit : Byte), s.Inv → s.engine = some r →
    r.phase = .record w → r.foreign = [] → i.tokenFields = some (off, len, lit) →
    r.snap.outCap.toNat < r.o + (if len.toNat > 0 ∧ off.toNat > 0 ∧ r.o > 0 then len.toNat else 0) + 1 →
    exec i s = .next { s with
      engine := none, done := true, err := .outOverflow
      unseen := Unseen.append { cells := r.journal, regs := r.regJournal } s.unseen })

/-- The meaning of the token a record decodes to is the engine's own steps on that record, no fewer and no more: after the
first, which takes the record up, each begins inside it; after the last the engine is at the head of its loop with the
cursor on the next record, or the command has ended. That one step of the machine runs a whole record is the model's form
(log entry 6, DESIGN CHOICE). -/
def Obligations.TokenIsTheEnginesSteps : Prop :=
  ∀ (s : State) (r : Run) (w : Word), s.engine = some r → r.phase = .record w →
    ∃ k, 1 ≤ k ∧ exec (decodeToken w) s = .next (State.runSteps k s) ∧
      (∀ j, 1 ≤ j → j < k → ∃ q, (State.runSteps j s).engine = some q ∧ q.phase.inRecord = true) ∧
      ((State.runSteps k s).engine = none ∨
        ∃ q, (State.runSteps k s).engine = some q ∧ q.phase = .recordRead [] ∧ q.cur = r.cur + 4)

/-- R2, R160: a record is data of a DECOMPRESS, so a token has no meaning where no record has just been read: its meaning
stops by name (the model's choice, log entry 6). -/
def Obligations.TokenOutsideARecordStops : Prop :=
  ∀ (s : State) (i : Instr), i.isCommand = false →
    (s.engine = none ∨ ∃ r, s.engine = some r ∧ ∀ w, r.phase ≠ .record w) → exec i s = .fault .tokenOutsideRecord

/-! ### Errors while a command runs (60_exceptions.md R404, R410, R411) -/

/-- R404, R410, R411: where the platform refuses the engine's next byte access, the command makes no further one and ends
with BUS and the address in ERR_ADDR; the results of its kind, and the index, stay as they are. Of memory only bytes of the
failing token or record may change, at most 4 for COMPRESS, at most the record's copy and its literal for DECOMPRESS, its
literal alone where no output precedes it (R323). Each of those is then as it was before the command or as the rules give it
(State.recordBytes), or any on side-effect memory (R110). How the rules give a byte that depends on a byte not read, that a
byte the platform refuses to write keeps its value, and that the index stays at a refused read of a literal (the pseudocode's
order) are the model's readings: log entries 8, 9 and 20. Where the platform refuses nothing, no command ends with BUS. -/
def Obligations.RefusedAccessRaisesBus : Prop :=
  (∀ (s : State) (r : Run) (a : Nat) (kind : AccessKind), s.Inv → s.engine = some r → r.foreign = [] →
    r.nextAccess = some (a, kind) → s.platform.admits a kind = false →
    (∀ k, 1 ≤ k → ∀ q, (State.runSteps k s).engine = some q → q.nextAccess = none) ∧
    ∃ m n cells, s.runToEnd = { s with
        engine := none, done := true, err := .bus, errAddr := BitVec.ofNat 32 a, mem := m, freeTick := n
        unseen := Unseen.append { cells := cells ++ r.journal, regs := (.errAddr, s.errAddr) :: r.regJournal } s.unseen } ∧
      (∀ c ∈ cells, r.task.hasOutput = true ∧ r.snap.inOutput c.1 = true) ∧
      (∀ x, Memory.read m x ≠ Memory.read s.mem x →
        s.platform.admits x .write = true ∧ (kind = .write → x ≠ a) ∧
        ∃ i v, (i, v) ∈ s.recordBytes r ∧ x = r.snap.outAddr (r.o + i) ∧ r.snap.inOutput x = true ∧
          (Memory.read m x = s.oldByte r x ∨ Memory.read m x = v ∨ s.platform.hasSideEffects x = true) ∧
          (r.task.isCompress = true → i < 4) ∧ (r.task = .decompress → i < 256) ∧
          (r.task = .decompress → r.o = 0 → i = 0) ∧
          (∀ start len lit j b, r.phase = .copy start len lit j b →
            i ≤ (if start < r.o then len.toNat else 0)) ∧
          (∀ start len lit j b c, r.phase = .copyWrite start len lit j b c → i ≤ len.toNat)) ∧
      (r.task.hasOutput = false → m = s.mem)) ∧
  (∀ (s t : State) (i : Instr), s.Inv → s.busy = false → s.platform.refusedReads = [] → s.platform.refusedWrites = [] →
    exec i s = .next t → t.err ≠ .bus)

/-- R111: the engine's next access is to its own buffers: it reads its input, or the output this command has written, which
is the `r.o` bytes of the records before and the `b` bytes that this record's copy has appended; it writes its output, at or
beyond what is complete. -/
def Obligations.EngineAccessesItsBuffers : Prop :=
  ∀ (s : State) (r : Run) (a : Nat), s.Inv → s.engine = some r →
    (r.nextAccess = some (a, .read) →
      (r.task.hasInput = true ∧ r.snap.inInput a = true) ∨
      (r.task = .decompress ∧ ∃ start len lit i b, r.phase = .copy start len lit i b ∧
        ∃ j, j < r.o + b ∧ a = r.snap.outAddr j ∧ r.snap.inOutput a = true)) ∧
    (r.nextAccess = some (a, .write) →
      r.task.hasOutput = true ∧ r.snap.inOutput a = true ∧ ∃ j, r.o ≤ j ∧ a = r.snap.outAddr j)

/-- R110, R413: an engine step moves at most the one byte of its access: a step that writes changes no other byte; any other
changes none and depends on no byte but the one it reads. -/
def Obligations.EngineMovesOneByte : Prop :=
  ∀ (s : State) (r : Run), s.Inv → s.engine = some r → r.foreign = [] →
    (∀ a kind, r.nextAccess = some (a, kind) → s.platform.admits a kind = true) →
    (∀ x, r.nextAccess ≠ some (x, .write) → Memory.read s.engineStep.mem x = Memory.read s.mem x) ∧
    ((∀ a, r.nextAccess ≠ some (a, .write)) →
      ∀ m, (∀ a, r.nextAccess = some (a, .read) → Memory.read m a = Memory.read s.mem a) →
        State.engineStep { s with mem := m } = { s.engineStep with mem := m })

/-! ### The host's view of memory (20_memory.md R121, R122) -/

/-- R122: a host read of an ordinary byte gives what memory holds, or a value it held before a write the host has not yet
been made to see. Once the host has read STATUS with BUSY = 0 and DONE = 1, or has taken the interrupt, it gives what
memory holds, unless an earlier command wrote the byte whose end the host has not read while it was the last and the last
one did not ("for that command"). Third clause: a byte the host stores with the block idle is what memory then holds, no
other byte changes, and what is unseen stays unseen; that the platform lets the host's store through is the model's choice
(log entry 18, DESIGN CHOICE), and so is that a store leaves old values to be seen (log entry 10, DESIGN CHOICE); R121 says
only that a command then started sees the store. -/
def Obligations.HostViewOfMemory : Prop :=
  (∀ (s : State) (a : Word), s.platform.hasSideEffects a.toNat = false →
    ∃ v, (s.hostMemRead a.toNat).readback = .mem a.toNat v :: s.readback ∧
      (v = Memory.read s.mem a.toNat ∨ v ∈ s.hiddenValues a.toNat)) ∧
  (∀ s : State, s.busy = false → s.done = true →
    ∀ a : Word, s.platform.hasSideEffects a.toNat = false →
      (Memory.valuesAt s.stale.cells a.toNat = [] ∨ Memory.valuesAt s.unseen.cells a.toNat ≠ []) →
      State.hostMemRead (s.hostRead 0x0C) a.toNat =
        { s.hostRead 0x0C with
          readback := .mem a.toNat (Memory.read s.mem a.toNat) :: .reg 0x0C s.statusWord :: s.readback } ∧
      (s.irq = true → State.hostMemRead s.takeIrq a.toNat =
        { s.takeIrq with readback := .mem a.toNat (Memory.read s.mem a.toNat) :: s.readback })) ∧
  (∀ (s : State) (a : Word) (v : Byte), s.Inv → s.busy = false →
    (∀ x, Memory.read (s.hostMemWrite a.toNat v).mem x = if x = a.toNat then v else Memory.read s.mem x) ∧
    s.hostMemWrite a.toNat v = { s with mem := (s.hostMemWrite a.toNat v).mem })

/-- R122, of the result registers: with BUSY = 0 a read of one gives what it holds, or a value it held before a write that
the host has not yet been made to see. Once the host has read STATUS with BUSY = 0 and DONE = 1, or has taken the interrupt,
it gives what the register holds, unless an earlier command wrote it whose end the host has not read while it was the last
and the last one did not. So a host that has been made to see everything, gives a command, waits for its end and reads
STATUS, then reads every result of that command as it is. -/
def Obligations.HostViewOfResults : Prop :=
  (∀ (s : State) (off : Nat) (reg : RegName) (res : ResultReg), s.busy = false → RegName.ofOffset off = some reg →
    reg.resultReg = some res →
    ∃ v n, s.hostReadValue off = (v, { s with freeTick := n }) ∧ (v = s.result res ∨ v ∈ s.hiddenResults res)) ∧
  (∀ (s : State) (off : Nat) (reg : RegName) (res : ResultReg), s.busy = false → s.done = true →
    RegName.ofOffset off = some reg → reg.resultReg = some res →
    (valuesOf s.stale.regs res = [] ∨ valuesOf s.unseen.regs res ≠ []) →
    (s.hostRead 0x0C).hostReadValue off = (s.result res, s.hostRead 0x0C) ∧
    (s.irq = true → s.takeIrq.hostReadValue off = (s.result res, s.takeIrq))) ∧
  (∀ (s t : State) (i : Instr) (off : Nat) (reg : RegName) (res : ResultReg), s.Inv → s.Ready → i.isCommand = true →
    i ≠ .reset → s.unseen = .nothing → s.stale = .nothing → RegName.ofOffset off = some reg → reg.resultReg = some res →
    exec i s = .next t → (t.hostRead 0x0C).hostReadValue off = (t.result res, t.hostRead 0x0C))

/-! ### The step at a host access (45_control.md R365, 60_exceptions.md R413) -/

/-- R50, R52, R365: a step whose next access is an aligned 32-bit register access by its offset, other than a write to CMD,
performs the host's read or write of that register; an access by bus address, to CMD too, is the access by offset; a step
whose next access is a byte of memory outside the register block performs the host's read or store of it; taking the
interrupt and the hardware reset likewise. After each but
the reset the engine makes the steps that come before the host's next access (R413): the number that access asks for, or all
that are left of the command where none is coming or the host waits; an idle engine makes none, so that the access's effect is
then the whole of the step. How many steps fall between two accesses is an input (log entry 7, DESIGN CHOICE), and that a
platform lets the host's own memory accesses through is log entry 18's. The turns of a polling loop are
WaitPollsUntilTheEnd's. -/
def Obligations.StepPerformsTheHostAccess : Prop :=
  (∀ (s : State) (e : HostEvent) (rest : List HostEvent), s.pending = e :: rest →
    let s₀ : State := { s with pending := rest }
    let base := s.platform.mmioBase
    (∀ (off : Nat) (v : Word), off % 4 = 0 → off ≤ 0xFC →
      let as := fun access => step { s with pending := { e with access := access } :: rest }
      (e.access = .regRead off 4 → step s = .next (s₀.hostRead off).advance) ∧
      (e.access = .regWrite off 4 v → off ≠ 0x08 → step s = .next (s₀.hostWrite off v).advance) ∧
      (∀ a : Word, a.toNat = base + off →
        (e.access = .busRead a → step s = as (.regRead off 4)) ∧
        (e.access = .busWrite a v → step s = as (.regWrite off 4 v)))) ∧
    (∀ (a : Word) (v : Byte), a.toNat < base ∨ base + 256 ≤ a.toNat →
      (e.access = .memRead a → step s = .next (s₀.hostMemRead a.toNat).advance) ∧
      (e.access = .memWrite a v → step s = .next (s₀.hostMemWrite a.toNat v).advance)) ∧
    (e.access = .takeIrq → step s = .next s₀.takeIrq.advance) ∧
    (e.access = .hardReset → step s = .next s₀.resetDevice)) ∧
  (∀ s : State,
    (s.busy = false → s.advance = s) ∧
    (s.pending = [] → s.advance = s.runToEnd) ∧
    (∀ e rest, s.pending = e :: rest → e.delay = none → s.advance = s.runToEnd) ∧
    (∀ e rest k, s.pending = e :: rest → e.delay = some k → s.advance = s.runSteps k))

/-! ### The polling loop of a script (30_encoding.md R170) -/

/-- R170, WAIT: a host that polls reads STATUS and, where the read shows BUSY = 1, reads it again after the engine steps that
take place in between, before its next access. So whatever the gaps between its reads, the loop ends: every read but the last
shows BUSY = 1, the last shows BUSY = 0, the host has got each of them, and the running command has run to its end
untouched. A read past the given gaps waits for that end (the form of the gaps is log entry 7, DESIGN CHOICE). -/
def Obligations.WaitPollsUntilTheEnd : Prop :=
  ∀ (s : State) (d : Option Nat) (gaps : List Nat) (rest : List HostEvent), s.Inv →
    s.pending = { delay := d, access := .pollStatus gaps } :: rest →
    (∀ k gaps', s.busy = true → gaps = k :: gaps' →
      step s = .next (State.runSteps k { s with
        pending := { delay := some k, access := .pollStatus gaps' } :: rest
        readback := .reg 0x0C s.statusWord :: s.readback })) ∧
    ∃ (reads : List Word) (t : State), steps (reads.length + 1) s = .next t ∧
      (∀ v ∈ reads, v.getLsbD 0 = true) ∧ (reads = [] ↔ s.busy = false) ∧ reads.length ≤ gaps.length + 1 ∧
      t = State.hostRead
        { s.runToEnd with pending := rest, readback := reads.map (.reg 0x0C ·) ++ s.readback } 0x0C ∧
      t.readback = .reg 0x0C s.runToEnd.statusWord :: (reads.map (.reg 0x0C ·) ++ s.readback) ∧
      s.runToEnd.statusWord.getLsbD 0 = false

end
end

