-- ==== Sys2Proof/Laws/Encoding.lean ====
section
/-! SUPPORT. The fields of a record word and of a packed token (30_encoding.md R162, R163). -/

namespace Sys2Proof

/-- The bits of a packed token. -/
theorem getLsbD_packToken (off : Half) (len lit : Byte) (i : Nat) : (packToken off len lit).getLsbD i =
    if i < 16 then off.getLsbD i else if i - 16 < 8 then len.getLsbD (i - 16) else lit.getLsbD (i - 16 - 8) := by
  change BitVec.getLsbD (w := 8 + 8 + 16) (lit ++ len ++ off) i = _
  rw [BitVec.getLsbD_append, BitVec.getLsbD_append]

@[simp] theorem recordOffset_packToken (off : Half) (len lit : Byte) : recordOffset (packToken off len lit) = off := by
  refine BitVec.eq_of_getLsbD_eq fun i hi => ?_
  simp [recordOffset, getLsbD_packToken, hi]

@[simp] theorem recordLength_packToken (off : Half) (len lit : Byte) : recordLength (packToken off len lit) = len := by
  refine BitVec.eq_of_getLsbD_eq fun i hi => ?_
  simp [recordLength, getLsbD_packToken, hi]

@[simp] theorem recordLiteral_packToken (off : Half) (len lit : Byte) : recordLiteral (packToken off len lit) = lit := by
  refine BitVec.eq_of_getLsbD_eq fun i hi => ?_
  have h : 24 + i - 16 - 8 = i := by omega
  simp only [recordLiteral, BitVec.getLsbD_extractLsb', getLsbD_packToken, hi, decide_true, Bool.true_and, h]
  rw [if_neg (by omega), if_neg (by omega)]

/-- A record is its offset, length and literal packed. -/
@[simp] theorem packToken_fields (w : Word) : packToken (recordOffset w) (recordLength w) (recordLiteral w) = w := by
  refine BitVec.eq_of_getLsbD_eq fun i hi => ?_
  rw [getLsbD_packToken]
  simp only [recordOffset, recordLength, recordLiteral, BitVec.getLsbD_extractLsb']
  split_ifs with h1 h2
  · simp [h1]
  · have : 16 + (i - 16) = i := by omega
    simp [h2, this]
  · have : 24 + (i - 16 - 8) = i := by omega
    have h3 : i - 16 - 8 < 8 := by omega
    simp [h3, this]

end Sys2Proof
end

