-- ==== Sys2Proof/Laws/State.lean ====
section
/-! SUPPORT. One lemma per field and update of the state: what each named update leaves in each field. -/

namespace Sys2Proof.Machine

/-! ### State.goto -/

@[simp] theorem State.goto_irqEn (s : State) (r : Run) (ph : Phase) : (s.goto r ph).irqEn = s.irqEn := rfl
@[simp] theorem State.goto_done (s : State) (r : Run) (ph : Phase) : (s.goto r ph).done = s.done := rfl
@[simp] theorem State.goto_tail (s : State) (r : Run) (ph : Phase) : (s.goto r ph).tail = s.tail := rfl
@[simp] theorem State.goto_ign (s : State) (r : Run) (ph : Phase) : (s.goto r ph).ign = s.ign := rfl
@[simp] theorem State.goto_err (s : State) (r : Run) (ph : Phase) : (s.goto r ph).err = s.err := rfl
@[simp] theorem State.goto_params (s : State) (r : Run) (ph : Phase) : (s.goto r ph).params = s.params := rfl
@[simp] theorem State.goto_cursor (s : State) (r : Run) (ph : Phase) : (s.goto r ph).cursor = s.cursor := rfl
@[simp] theorem State.goto_outLen (s : State) (r : Run) (ph : Phase) : (s.goto r ph).outLen = s.outLen := rfl
@[simp] theorem State.goto_tokenCount (s : State) (r : Run) (ph : Phase) : (s.goto r ph).tokenCount = s.tokenCount := rfl
@[simp] theorem State.goto_matchDist (s : State) (r : Run) (ph : Phase) : (s.goto r ph).matchDist = s.matchDist := rfl
@[simp] theorem State.goto_matchLen (s : State) (r : Run) (ph : Phase) : (s.goto r ph).matchLen = s.matchLen := rfl
@[simp] theorem State.goto_hashValue (s : State) (r : Run) (ph : Phase) : (s.goto r ph).hashValue = s.hashValue := rfl
@[simp] theorem State.goto_hashValid (s : State) (r : Run) (ph : Phase) : (s.goto r ph).hashValid = s.hashValid := rfl
@[simp] theorem State.goto_errAddr (s : State) (r : Run) (ph : Phase) : (s.goto r ph).errAddr = s.errAddr := rfl
@[simp] theorem State.goto_engine (s : State) (r : Run) (ph : Phase) : (s.goto r ph).engine = some { r with phase := ph } := rfl
@[simp] theorem State.goto_index (s : State) (r : Run) (ph : Phase) : (s.goto r ph).index = s.index := rfl
@[simp] theorem State.goto_mem (s : State) (r : Run) (ph : Phase) : (s.goto r ph).mem = s.mem := rfl
@[simp] theorem State.goto_platform (s : State) (r : Run) (ph : Phase) : (s.goto r ph).platform = s.platform := rfl
@[simp] theorem State.goto_pending (s : State) (r : Run) (ph : Phase) : (s.goto r ph).pending = s.pending := rfl
@[simp] theorem State.goto_readback (s : State) (r : Run) (ph : Phase) : (s.goto r ph).readback = s.readback := rfl
@[simp] theorem State.goto_unseen (s : State) (r : Run) (ph : Phase) : (s.goto r ph).unseen = s.unseen := rfl
@[simp] theorem State.goto_stale (s : State) (r : Run) (ph : Phase) : (s.goto r ph).stale = s.stale := rfl
@[simp] theorem State.goto_freeTick (s : State) (r : Run) (ph : Phase) : (s.goto r ph).freeTick = s.freeTick := rfl

/-! ### State.accept -/

@[simp] theorem State.accept_irqEn (s : State) (task : Task) : (s.accept task).irqEn = s.irqEn := rfl
@[simp] theorem State.accept_done (s : State) (task : Task) : (s.accept task).done = false := rfl
@[simp] theorem State.accept_tail (s : State) (task : Task) : (s.accept task).tail = false := rfl
@[simp] theorem State.accept_ign (s : State) (task : Task) : (s.accept task).ign = s.ign := rfl
@[simp] theorem State.accept_err (s : State) (task : Task) : (s.accept task).err = .none := rfl
@[simp] theorem State.accept_params (s : State) (task : Task) : (s.accept task).params = s.params := rfl
@[simp] theorem State.accept_cursor (s : State) (task : Task) : (s.accept task).cursor = s.cursor := rfl
@[simp] theorem State.accept_outLen (s : State) (task : Task) : (s.accept task).outLen = s.outLen := rfl
@[simp] theorem State.accept_tokenCount (s : State) (task : Task) : (s.accept task).tokenCount = s.tokenCount := rfl
@[simp] theorem State.accept_matchDist (s : State) (task : Task) : (s.accept task).matchDist = s.matchDist := rfl
@[simp] theorem State.accept_matchLen (s : State) (task : Task) : (s.accept task).matchLen = s.matchLen := rfl
@[simp] theorem State.accept_hashValue (s : State) (task : Task) : (s.accept task).hashValue = s.hashValue := rfl
@[simp] theorem State.accept_hashValid (s : State) (task : Task) : (s.accept task).hashValid = s.hashValid := rfl
@[simp] theorem State.accept_errAddr (s : State) (task : Task) : (s.accept task).errAddr = s.errAddr := rfl
@[simp] theorem State.accept_engine (s : State) (task : Task) : (s.accept task).engine = some (Run.init task s) := rfl
@[simp] theorem State.accept_index (s : State) (task : Task) : (s.accept task).index = s.index := rfl
@[simp] theorem State.accept_mem (s : State) (task : Task) : (s.accept task).mem = s.mem := rfl
@[simp] theorem State.accept_platform (s : State) (task : Task) : (s.accept task).platform = s.platform := rfl
@[simp] theorem State.accept_pending (s : State) (task : Task) : (s.accept task).pending = s.pending := rfl
@[simp] theorem State.accept_readback (s : State) (task : Task) : (s.accept task).readback = s.readback := rfl
@[simp] theorem State.accept_unseen (s : State) (task : Task) : (s.accept task).unseen = .nothing := rfl
@[simp] theorem State.accept_stale (s : State) (task : Task) : (s.accept task).stale = s.unseen.append s.stale := rfl
@[simp] theorem State.accept_freeTick (s : State) (task : Task) : (s.accept task).freeTick = s.freeTick := rfl

/-! ### State.reject -/

@[simp] theorem State.reject_irqEn (s : State) : (s.reject).irqEn = s.irqEn := rfl
@[simp] theorem State.reject_done (s : State) : (s.reject).done = true := rfl
@[simp] theorem State.reject_tail (s : State) : (s.reject).tail = false := rfl
@[simp] theorem State.reject_ign (s : State) : (s.reject).ign = s.ign := rfl
@[simp] theorem State.reject_err (s : State) : (s.reject).err = .illegalCmd := rfl
@[simp] theorem State.reject_params (s : State) : (s.reject).params = s.params := rfl
@[simp] theorem State.reject_cursor (s : State) : (s.reject).cursor = s.cursor := rfl
@[simp] theorem State.reject_outLen (s : State) : (s.reject).outLen = s.outLen := rfl
@[simp] theorem State.reject_tokenCount (s : State) : (s.reject).tokenCount = s.tokenCount := rfl
@[simp] theorem State.reject_matchDist (s : State) : (s.reject).matchDist = s.matchDist := rfl
@[simp] theorem State.reject_matchLen (s : State) : (s.reject).matchLen = s.matchLen := rfl
@[simp] theorem State.reject_hashValue (s : State) : (s.reject).hashValue = s.hashValue := rfl
@[simp] theorem State.reject_hashValid (s : State) : (s.reject).hashValid = s.hashValid := rfl
@[simp] theorem State.reject_errAddr (s : State) : (s.reject).errAddr = s.errAddr := rfl
@[simp] theorem State.reject_engine (s : State) : (s.reject).engine = s.engine := rfl
@[simp] theorem State.reject_index (s : State) : (s.reject).index = s.index := rfl
@[simp] theorem State.reject_mem (s : State) : (s.reject).mem = s.mem := rfl
@[simp] theorem State.reject_platform (s : State) : (s.reject).platform = s.platform := rfl
@[simp] theorem State.reject_pending (s : State) : (s.reject).pending = s.pending := rfl
@[simp] theorem State.reject_readback (s : State) : (s.reject).readback = s.readback := rfl
@[simp] theorem State.reject_unseen (s : State) : (s.reject).unseen = .nothing := rfl
@[simp] theorem State.reject_stale (s : State) : (s.reject).stale = s.unseen.append s.stale := rfl
@[simp] theorem State.reject_freeTick (s : State) : (s.reject).freeTick = s.freeTick := rfl

/-! ### State.drop -/

@[simp] theorem State.drop_irqEn (s : State) : (s.drop).irqEn = s.irqEn := rfl
@[simp] theorem State.drop_done (s : State) : (s.drop).done = s.done := rfl
@[simp] theorem State.drop_tail (s : State) : (s.drop).tail = s.tail := rfl
@[simp] theorem State.drop_ign (s : State) : (s.drop).ign = true := rfl
@[simp] theorem State.drop_err (s : State) : (s.drop).err = s.err := rfl
@[simp] theorem State.drop_params (s : State) : (s.drop).params = s.params := rfl
@[simp] theorem State.drop_cursor (s : State) : (s.drop).cursor = s.cursor := rfl
@[simp] theorem State.drop_outLen (s : State) : (s.drop).outLen = s.outLen := rfl
@[simp] theorem State.drop_tokenCount (s : State) : (s.drop).tokenCount = s.tokenCount := rfl
@[simp] theorem State.drop_matchDist (s : State) : (s.drop).matchDist = s.matchDist := rfl
@[simp] theorem State.drop_matchLen (s : State) : (s.drop).matchLen = s.matchLen := rfl
@[simp] theorem State.drop_hashValue (s : State) : (s.drop).hashValue = s.hashValue := rfl
@[simp] theorem State.drop_hashValid (s : State) : (s.drop).hashValid = s.hashValid := rfl
@[simp] theorem State.drop_errAddr (s : State) : (s.drop).errAddr = s.errAddr := rfl
@[simp] theorem State.drop_engine (s : State) : (s.drop).engine = s.engine := rfl
@[simp] theorem State.drop_index (s : State) : (s.drop).index = s.index := rfl
@[simp] theorem State.drop_mem (s : State) : (s.drop).mem = s.mem := rfl
@[simp] theorem State.drop_platform (s : State) : (s.drop).platform = s.platform := rfl
@[simp] theorem State.drop_pending (s : State) : (s.drop).pending = s.pending := rfl
@[simp] theorem State.drop_readback (s : State) : (s.drop).readback = s.readback := rfl
@[simp] theorem State.drop_unseen (s : State) : (s.drop).unseen = s.unseen := rfl
@[simp] theorem State.drop_stale (s : State) : (s.drop).stale = s.stale := rfl
@[simp] theorem State.drop_freeTick (s : State) : (s.drop).freeTick = s.freeTick := rfl

/-! ### State.stepRaising -/

@[simp] theorem State.stepRaising_irqEn (s : State) (r : Run) (e : ErrCode) : (s.stepRaising r e).irqEn = s.irqEn := rfl
@[simp] theorem State.stepRaising_done (s : State) (r : Run) (e : ErrCode) : (s.stepRaising r e).done = s.done := rfl
@[simp] theorem State.stepRaising_tail (s : State) (r : Run) (e : ErrCode) : (s.stepRaising r e).tail = s.tail := rfl
@[simp] theorem State.stepRaising_ign (s : State) (r : Run) (e : ErrCode) : (s.stepRaising r e).ign = s.ign := rfl
@[simp] theorem State.stepRaising_err (s : State) (r : Run) (e : ErrCode) : (s.stepRaising r e).err = e := rfl
@[simp] theorem State.stepRaising_params (s : State) (r : Run) (e : ErrCode) : (s.stepRaising r e).params = s.params := rfl
@[simp] theorem State.stepRaising_cursor (s : State) (r : Run) (e : ErrCode) : (s.stepRaising r e).cursor = s.cursor := rfl
@[simp] theorem State.stepRaising_outLen (s : State) (r : Run) (e : ErrCode) : (s.stepRaising r e).outLen = s.outLen := rfl
@[simp] theorem State.stepRaising_tokenCount (s : State) (r : Run) (e : ErrCode) : (s.stepRaising r e).tokenCount = s.tokenCount := rfl
@[simp] theorem State.stepRaising_matchDist (s : State) (r : Run) (e : ErrCode) : (s.stepRaising r e).matchDist = s.matchDist := rfl
@[simp] theorem State.stepRaising_matchLen (s : State) (r : Run) (e : ErrCode) : (s.stepRaising r e).matchLen = s.matchLen := rfl
@[simp] theorem State.stepRaising_hashValue (s : State) (r : Run) (e : ErrCode) : (s.stepRaising r e).hashValue = s.hashValue := rfl
@[simp] theorem State.stepRaising_hashValid (s : State) (r : Run) (e : ErrCode) : (s.stepRaising r e).hashValid = s.hashValid := rfl
@[simp] theorem State.stepRaising_errAddr (s : State) (r : Run) (e : ErrCode) : (s.stepRaising r e).errAddr = s.errAddr := rfl
@[simp] theorem State.stepRaising_engine (s : State) (r : Run) (e : ErrCode) : (s.stepRaising r e).engine = some { r with phase := .ending e } := rfl
@[simp] theorem State.stepRaising_index (s : State) (r : Run) (e : ErrCode) : (s.stepRaising r e).index = s.index := rfl
@[simp] theorem State.stepRaising_mem (s : State) (r : Run) (e : ErrCode) : (s.stepRaising r e).mem = s.mem := rfl
@[simp] theorem State.stepRaising_platform (s : State) (r : Run) (e : ErrCode) : (s.stepRaising r e).platform = s.platform := rfl
@[simp] theorem State.stepRaising_pending (s : State) (r : Run) (e : ErrCode) : (s.stepRaising r e).pending = s.pending := rfl
@[simp] theorem State.stepRaising_readback (s : State) (r : Run) (e : ErrCode) : (s.stepRaising r e).readback = s.readback := rfl
@[simp] theorem State.stepRaising_unseen (s : State) (r : Run) (e : ErrCode) : (s.stepRaising r e).unseen = s.unseen := rfl
@[simp] theorem State.stepRaising_stale (s : State) (r : Run) (e : ErrCode) : (s.stepRaising r e).stale = s.stale := rfl
@[simp] theorem State.stepRaising_freeTick (s : State) (r : Run) (e : ErrCode) : (s.stepRaising r e).freeTick = s.freeTick := rfl

/-! ### State.setResult -/

@[simp] theorem State.setResult_irqEn (s : State) (reg : ResultReg) (v : Word) : (s.setResult reg v).irqEn = s.irqEn :=
  by cases reg <;> rfl
@[simp] theorem State.setResult_done (s : State) (reg : ResultReg) (v : Word) : (s.setResult reg v).done = s.done :=
  by cases reg <;> rfl
@[simp] theorem State.setResult_tail (s : State) (reg : ResultReg) (v : Word) : (s.setResult reg v).tail = s.tail :=
  by cases reg <;> rfl
@[simp] theorem State.setResult_ign (s : State) (reg : ResultReg) (v : Word) : (s.setResult reg v).ign = s.ign :=
  by cases reg <;> rfl
@[simp] theorem State.setResult_err (s : State) (reg : ResultReg) (v : Word) : (s.setResult reg v).err = s.err :=
  by cases reg <;> rfl
@[simp] theorem State.setResult_params (s : State) (reg : ResultReg) (v : Word) : (s.setResult reg v).params = s.params :=
  by cases reg <;> rfl
@[simp] theorem State.setResult_engine (s : State) (reg : ResultReg) (v : Word) : (s.setResult reg v).engine = s.engine :=
  by cases reg <;> rfl
@[simp] theorem State.setResult_index (s : State) (reg : ResultReg) (v : Word) : (s.setResult reg v).index = s.index :=
  by cases reg <;> rfl
@[simp] theorem State.setResult_mem (s : State) (reg : ResultReg) (v : Word) : (s.setResult reg v).mem = s.mem :=
  by cases reg <;> rfl
@[simp] theorem State.setResult_platform (s : State) (reg : ResultReg) (v : Word) : (s.setResult reg v).platform = s.platform :=
  by cases reg <;> rfl
@[simp] theorem State.setResult_pending (s : State) (reg : ResultReg) (v : Word) : (s.setResult reg v).pending = s.pending :=
  by cases reg <;> rfl
@[simp] theorem State.setResult_readback (s : State) (reg : ResultReg) (v : Word) : (s.setResult reg v).readback = s.readback :=
  by cases reg <;> rfl
@[simp] theorem State.setResult_unseen (s : State) (reg : ResultReg) (v : Word) : (s.setResult reg v).unseen = s.unseen :=
  by cases reg <;> rfl
@[simp] theorem State.setResult_stale (s : State) (reg : ResultReg) (v : Word) : (s.setResult reg v).stale = s.stale :=
  by cases reg <;> rfl
@[simp] theorem State.setResult_freeTick (s : State) (reg : ResultReg) (v : Word) : (s.setResult reg v).freeTick = s.freeTick :=
  by cases reg <;> rfl

/-! ### State.update -/

@[simp] theorem State.update_irqEn (s : State) (u : Update) : (s.update u).irqEn = s.irqEn :=
  by rcases u with ⟨reg, v⟩ | _ | _ <;> first | rfl | (cases reg <;> rfl)
@[simp] theorem State.update_done (s : State) (u : Update) : (s.update u).done = s.done :=
  by rcases u with ⟨reg, v⟩ | _ | _ <;> first | rfl | (cases reg <;> rfl)
@[simp] theorem State.update_tail (s : State) (u : Update) : (s.update u).tail = s.tail :=
  by rcases u with ⟨reg, v⟩ | _ | _ <;> first | rfl | (cases reg <;> rfl)
@[simp] theorem State.update_ign (s : State) (u : Update) : (s.update u).ign = s.ign :=
  by rcases u with ⟨reg, v⟩ | _ | _ <;> first | rfl | (cases reg <;> rfl)
@[simp] theorem State.update_err (s : State) (u : Update) : (s.update u).err = s.err :=
  by rcases u with ⟨reg, v⟩ | _ | _ <;> first | rfl | (cases reg <;> rfl)
@[simp] theorem State.update_params (s : State) (u : Update) : (s.update u).params = s.params :=
  by rcases u with ⟨reg, v⟩ | _ | _ <;> first | rfl | (cases reg <;> rfl)
@[simp] theorem State.update_engine (s : State) (u : Update) : (s.update u).engine = s.engine :=
  by rcases u with ⟨reg, v⟩ | _ | _ <;> first | rfl | (cases reg <;> rfl)
@[simp] theorem State.update_mem (s : State) (u : Update) : (s.update u).mem = s.mem :=
  by rcases u with ⟨reg, v⟩ | _ | _ <;> first | rfl | (cases reg <;> rfl)
@[simp] theorem State.update_platform (s : State) (u : Update) : (s.update u).platform = s.platform :=
  by rcases u with ⟨reg, v⟩ | _ | _ <;> first | rfl | (cases reg <;> rfl)
@[simp] theorem State.update_pending (s : State) (u : Update) : (s.update u).pending = s.pending :=
  by rcases u with ⟨reg, v⟩ | _ | _ <;> first | rfl | (cases reg <;> rfl)
@[simp] theorem State.update_readback (s : State) (u : Update) : (s.update u).readback = s.readback :=
  by rcases u with ⟨reg, v⟩ | _ | _ <;> first | rfl | (cases reg <;> rfl)
@[simp] theorem State.update_unseen (s : State) (u : Update) : (s.update u).unseen = s.unseen :=
  by rcases u with ⟨reg, v⟩ | _ | _ <;> first | rfl | (cases reg <;> rfl)
@[simp] theorem State.update_stale (s : State) (u : Update) : (s.update u).stale = s.stale :=
  by rcases u with ⟨reg, v⟩ | _ | _ <;> first | rfl | (cases reg <;> rfl)
@[simp] theorem State.update_freeTick (s : State) (u : Update) : (s.update u).freeTick = s.freeTick :=
  by rcases u with ⟨reg, v⟩ | _ | _ <;> first | rfl | (cases reg <;> rfl)

/-! ### State.updates -/

@[simp] theorem State.updates_irqEn (s : State) (r : Run) (us : List Update) (next : After) : (s.updates r us next).irqEn = s.irqEn :=
  by cases us <;> rfl
@[simp] theorem State.updates_done (s : State) (r : Run) (us : List Update) (next : After) : (s.updates r us next).done = s.done :=
  by cases us <;> rfl
@[simp] theorem State.updates_tail (s : State) (r : Run) (us : List Update) (next : After) : (s.updates r us next).tail = s.tail :=
  by cases us <;> rfl
@[simp] theorem State.updates_ign (s : State) (r : Run) (us : List Update) (next : After) : (s.updates r us next).ign = s.ign :=
  by cases us <;> rfl
@[simp] theorem State.updates_err (s : State) (r : Run) (us : List Update) (next : After) : (s.updates r us next).err = s.err :=
  by cases us <;> rfl
@[simp] theorem State.updates_params (s : State) (r : Run) (us : List Update) (next : After) : (s.updates r us next).params = s.params :=
  by cases us <;> rfl
@[simp] theorem State.updates_cursor (s : State) (r : Run) (us : List Update) (next : After) : (s.updates r us next).cursor = s.cursor :=
  by cases us <;> rfl
@[simp] theorem State.updates_outLen (s : State) (r : Run) (us : List Update) (next : After) : (s.updates r us next).outLen = s.outLen :=
  by cases us <;> rfl
@[simp] theorem State.updates_tokenCount (s : State) (r : Run) (us : List Update) (next : After) : (s.updates r us next).tokenCount = s.tokenCount :=
  by cases us <;> rfl
@[simp] theorem State.updates_matchDist (s : State) (r : Run) (us : List Update) (next : After) : (s.updates r us next).matchDist = s.matchDist :=
  by cases us <;> rfl
@[simp] theorem State.updates_matchLen (s : State) (r : Run) (us : List Update) (next : After) : (s.updates r us next).matchLen = s.matchLen :=
  by cases us <;> rfl
@[simp] theorem State.updates_hashValue (s : State) (r : Run) (us : List Update) (next : After) : (s.updates r us next).hashValue = s.hashValue :=
  by cases us <;> rfl
@[simp] theorem State.updates_hashValid (s : State) (r : Run) (us : List Update) (next : After) : (s.updates r us next).hashValid = s.hashValid :=
  by cases us <;> rfl
@[simp] theorem State.updates_errAddr (s : State) (r : Run) (us : List Update) (next : After) : (s.updates r us next).errAddr = s.errAddr :=
  by cases us <;> rfl
@[simp] theorem State.updates_index (s : State) (r : Run) (us : List Update) (next : After) : (s.updates r us next).index = s.index :=
  by cases us <;> rfl
@[simp] theorem State.updates_mem (s : State) (r : Run) (us : List Update) (next : After) : (s.updates r us next).mem = s.mem :=
  by cases us <;> rfl
@[simp] theorem State.updates_platform (s : State) (r : Run) (us : List Update) (next : After) : (s.updates r us next).platform = s.platform :=
  by cases us <;> rfl
@[simp] theorem State.updates_pending (s : State) (r : Run) (us : List Update) (next : After) : (s.updates r us next).pending = s.pending :=
  by cases us <;> rfl
@[simp] theorem State.updates_readback (s : State) (r : Run) (us : List Update) (next : After) : (s.updates r us next).readback = s.readback :=
  by cases us <;> rfl
@[simp] theorem State.updates_unseen (s : State) (r : Run) (us : List Update) (next : After) : (s.updates r us next).unseen = s.unseen :=
  by cases us <;> rfl
@[simp] theorem State.updates_stale (s : State) (r : Run) (us : List Update) (next : After) : (s.updates r us next).stale = s.stale :=
  by cases us <;> rfl
@[simp] theorem State.updates_freeTick (s : State) (r : Run) (us : List Update) (next : After) : (s.updates r us next).freeTick = s.freeTick :=
  by cases us <;> rfl

/-! ### State.retire -/

@[simp] theorem State.retire_irqEn (s : State) : (s.retire).irqEn = s.irqEn := rfl
@[simp] theorem State.retire_done (s : State) : (s.retire).done = s.done := rfl
@[simp] theorem State.retire_tail (s : State) : (s.retire).tail = s.tail := rfl
@[simp] theorem State.retire_ign (s : State) : (s.retire).ign = s.ign := rfl
@[simp] theorem State.retire_err (s : State) : (s.retire).err = s.err := rfl
@[simp] theorem State.retire_params (s : State) : (s.retire).params = s.params := rfl
@[simp] theorem State.retire_cursor (s : State) : (s.retire).cursor = s.cursor := rfl
@[simp] theorem State.retire_outLen (s : State) : (s.retire).outLen = s.outLen := rfl
@[simp] theorem State.retire_tokenCount (s : State) : (s.retire).tokenCount = s.tokenCount := rfl
@[simp] theorem State.retire_matchDist (s : State) : (s.retire).matchDist = s.matchDist := rfl
@[simp] theorem State.retire_matchLen (s : State) : (s.retire).matchLen = s.matchLen := rfl
@[simp] theorem State.retire_hashValue (s : State) : (s.retire).hashValue = s.hashValue := rfl
@[simp] theorem State.retire_hashValid (s : State) : (s.retire).hashValid = s.hashValid := rfl
@[simp] theorem State.retire_errAddr (s : State) : (s.retire).errAddr = s.errAddr := rfl
@[simp] theorem State.retire_engine (s : State) : (s.retire).engine = s.engine := rfl
@[simp] theorem State.retire_index (s : State) : (s.retire).index = s.index := rfl
@[simp] theorem State.retire_mem (s : State) : (s.retire).mem = s.mem := rfl
@[simp] theorem State.retire_platform (s : State) : (s.retire).platform = s.platform := rfl
@[simp] theorem State.retire_pending (s : State) : (s.retire).pending = s.pending := rfl
@[simp] theorem State.retire_readback (s : State) : (s.retire).readback = s.readback := rfl
@[simp] theorem State.retire_unseen (s : State) : (s.retire).unseen = .nothing := rfl
@[simp] theorem State.retire_stale (s : State) : (s.retire).stale = s.unseen.append s.stale := rfl
@[simp] theorem State.retire_freeTick (s : State) : (s.retire).freeTick = s.freeTick := rfl

/-! ### State.sync -/

@[simp] theorem State.sync_irqEn (s : State) : (s.sync).irqEn = s.irqEn := rfl
@[simp] theorem State.sync_done (s : State) : (s.sync).done = s.done := rfl
@[simp] theorem State.sync_tail (s : State) : (s.sync).tail = s.tail := rfl
@[simp] theorem State.sync_ign (s : State) : (s.sync).ign = s.ign := rfl
@[simp] theorem State.sync_err (s : State) : (s.sync).err = s.err := rfl
@[simp] theorem State.sync_params (s : State) : (s.sync).params = s.params := rfl
@[simp] theorem State.sync_cursor (s : State) : (s.sync).cursor = s.cursor := rfl
@[simp] theorem State.sync_outLen (s : State) : (s.sync).outLen = s.outLen := rfl
@[simp] theorem State.sync_tokenCount (s : State) : (s.sync).tokenCount = s.tokenCount := rfl
@[simp] theorem State.sync_matchDist (s : State) : (s.sync).matchDist = s.matchDist := rfl
@[simp] theorem State.sync_matchLen (s : State) : (s.sync).matchLen = s.matchLen := rfl
@[simp] theorem State.sync_hashValue (s : State) : (s.sync).hashValue = s.hashValue := rfl
@[simp] theorem State.sync_hashValid (s : State) : (s.sync).hashValid = s.hashValid := rfl
@[simp] theorem State.sync_errAddr (s : State) : (s.sync).errAddr = s.errAddr := rfl
@[simp] theorem State.sync_engine (s : State) : (s.sync).engine = s.engine := rfl
@[simp] theorem State.sync_index (s : State) : (s.sync).index = s.index := rfl
@[simp] theorem State.sync_mem (s : State) : (s.sync).mem = s.mem := rfl
@[simp] theorem State.sync_platform (s : State) : (s.sync).platform = s.platform := rfl
@[simp] theorem State.sync_pending (s : State) : (s.sync).pending = s.pending := rfl
@[simp] theorem State.sync_readback (s : State) : (s.sync).readback = s.readback := rfl
@[simp] theorem State.sync_unseen (s : State) : (s.sync).unseen = .nothing := rfl
@[simp] theorem State.sync_stale (s : State) : (s.sync).stale = s.unseen.before s.stale := rfl
@[simp] theorem State.sync_freeTick (s : State) : (s.sync).freeTick = s.freeTick := rfl

/-! ### Unseen -/

@[simp] theorem Unseen.append_nothing (u : Unseen) : u.append .nothing = u := by simp [Unseen.append, Unseen.nothing]
@[simp] theorem Unseen.nothing_append (u : Unseen) : Unseen.append .nothing u = u := by simp [Unseen.append, Unseen.nothing]
@[simp] theorem Unseen.empty_append (u : Unseen) : Unseen.append { cells := [], regs := [] } u = u := by simp [Unseen.append]

@[simp] theorem State.goto_busy (s : State) (r : Run) (ph : Phase) : (s.goto r ph).busy = true := rfl

@[simp] theorem State.accept_busy (s : State) (task : Task) : (s.accept task).busy = true := rfl

end Sys2Proof.Machine
end

