-- ==== Sys2Proof/Laws/Table.lean ====
section
/-! SUPPORT. Laws of the tables that hold host memory and the hash index: reading after setting, the canonical form. -/

namespace Sys2Proof.Machine

variable {α : Type} [DecidableEq α] {d : α}

theorem Table.wfFrom_mono {t : List (Nat × α)} {lo lo' : Nat} (h : Table.wfFrom d lo t = true) (hle : lo' ≤ lo) :
    Table.wfFrom d lo' t = true := by
  cases t with
  | nil => rfl
  | cons c t =>
    simp only [Table.wfFrom, Bool.and_eq_true, decide_eq_true_eq] at h ⊢
    exact ⟨⟨by omega, h.1.2⟩, h.2⟩

theorem Table.get_of_wfFrom_lt {t : List (Nat × α)} {lo k : Nat} (h : Table.wfFrom d lo t = true) (hk : k < lo) :
    Table.get d t k = d := by
  induction t generalizing lo with
  | nil => rfl
  | cons c t ih =>
    simp only [Table.wfFrom, Bool.and_eq_true, decide_eq_true_eq] at h
    have hne : k ≠ c.1 := by omega
    simp [Table.get, hne, ih h.2 (by omega)]

theorem Table.get_cons_self (k : Nat) (v : α) {t : List (Nat × α)} (ht : Table.get d t k = d) :
    Table.get d (Table.cons d k v t) k = v := by
  unfold Table.cons
  split
  · rw [ht]; exact Eq.symm ‹_›
  · simp [Table.get]

theorem Table.get_cons_ne {k k' : Nat} (v : α) (t : List (Nat × α)) (hne : k' ≠ k) :
    Table.get d (Table.cons d k v t) k' = Table.get d t k' := by
  unfold Table.cons
  split
  · rfl
  · simp [Table.get, hne]

/-- Reading the key that was set gives the value set. -/
theorem Table.get_set_self {t : List (Nat × α)} {lo : Nat} (h : Table.wfFrom d lo t = true) (k : Nat) (v : α) :
    Table.get d (Table.set d t k v) k = v := by
  induction t generalizing lo with
  | nil => exact Table.get_cons_self k v rfl
  | cons c t ih =>
    have h' := h
    simp only [Table.wfFrom, Bool.and_eq_true, decide_eq_true_eq] at h'
    simp only [Table.set]
    split
    · refine Table.get_cons_self k v (Table.get_of_wfFrom_lt (lo := c.1) ?_ (by omega))
      simp [Table.wfFrom, h'.1.2, h'.2]
    · split
      · rename_i hk
        exact Table.get_cons_self k v (Table.get_of_wfFrom_lt h'.2 (by omega))
      · rename_i hk
        simp [Table.get, hk, ih h'.2]

/-- Reading another key gives what it gave before; no canonical form is needed. -/
theorem Table.get_set_ne (t : List (Nat × α)) {k k' : Nat} (v : α) (hne : k' ≠ k) :
    Table.get d (Table.set d t k v) k' = Table.get d t k' := by
  induction t with
  | nil => exact Table.get_cons_ne v [] hne
  | cons c t ih =>
    simp only [Table.set]
    split
    · exact Table.get_cons_ne v _ hne
    · split
      · rename_i hk
        subst hk
        rw [Table.get_cons_ne v t hne]
        simp [Table.get, hne]
      · simp only [Table.get, ih]

/-- Setting a key twice is setting it once, where the first value stays listed. -/
theorem Table.set_set (t : List (Nat × α)) (k : Nat) (v : α) (hv : v ≠ d) (w : α) :
    Table.set d (Table.set d t k v) k w = Table.set d t k w := by
  induction t with
  | nil => simp [Table.set, Table.cons, hv]
  | cons e t ih =>
    obtain ⟨k', v'⟩ := e
    simp only [Table.set]
    by_cases h1 : k < k'
    · simp [h1, Table.cons, hv, Table.set]
    · by_cases h2 : k = k'
      · simp [h2, Table.cons, hv, Table.set]
      · simp only [h1, h2, if_false, Table.set, ih]

theorem Table.wfFrom_cons {k : Nat} (v : α) {t : List (Nat × α)} {lo : Nat} (h : Table.wfFrom d (k + 1) t = true)
    (hlo : lo ≤ k) : Table.wfFrom d lo (Table.cons d k v t) = true := by
  unfold Table.cons
  split
  · exact Table.wfFrom_mono h (by omega)
  · simp [Table.wfFrom, *]

/-- Setting a key keeps the canonical form. -/
theorem Table.wfFrom_set {t : List (Nat × α)} {lo : Nat} (h : Table.wfFrom d lo t = true) (k : Nat) (v : α)
    (hlo : lo ≤ k) : Table.wfFrom d lo (Table.set d t k v) = true := by
  induction t generalizing lo with
  | nil => exact Table.wfFrom_cons v rfl hlo
  | cons c t ih =>
    have h' := h
    simp only [Table.wfFrom, Bool.and_eq_true, decide_eq_true_eq] at h'
    simp only [Table.set]
    split
    · refine Table.wfFrom_cons v ?_ hlo
      simp only [Table.wfFrom, Bool.and_eq_true, decide_eq_true_eq]
      exact ⟨⟨by omega, h'.1.2⟩, h'.2⟩
    · split
      · rename_i hk
        subst hk
        exact Table.wfFrom_cons v h'.2 hlo
      · simp only [Table.wfFrom, Bool.and_eq_true, decide_eq_true_eq]
        exact ⟨h'.1, ih h'.2 (by omega)⟩

/-- Every entry of a table after a set is an old entry or the one set. -/
theorem Table.mem_set {t : List (Nat × α)} {k : Nat} {v : α} {c : Nat × α} (h : c ∈ Table.set d t k v) :
    c ∈ t ∨ c = (k, v) := by
  have hcons : ∀ u : List (Nat × α), c ∈ Table.cons d k v u → c ∈ u ∨ c = (k, v) := by
    intro u hu
    unfold Table.cons at hu
    split at hu
    · exact .inl hu
    · rcases List.mem_cons.1 hu with h | h
      · exact .inr h
      · exact .inl h
  induction t with
  | nil => exact hcons [] h
  | cons b t ih =>
    simp only [Table.set] at h
    split at h
    · exact hcons _ h
    · split at h
      · rcases hcons _ h with h | h
        · exact .inl (List.mem_cons_of_mem _ h)
        · exact .inr h
      · rcases List.mem_cons.1 h with h | h
        · exact .inl (h ▸ List.mem_cons_self)
        · rcases ih h with h | h
          · exact .inl (List.mem_cons_of_mem _ h)
          · exact .inr h

/-! ### Host memory -/

theorem Memory.wf_iff {m : List Host.Cell} :
    Memory.wf m = true ↔ Table.wfFrom Memory.unlisted 0 m = true ∧ ∀ c ∈ m, c.1 < Config.addressSpace := by
  simp [Memory.wf]

/-- A read after a write to the same address gives the byte written. -/
theorem Memory.read_write_self {m : List Host.Cell} (h : Memory.wf m = true) (a : Nat) (v : Byte) :
    Memory.read (Memory.write m a v) a = v :=
  Table.get_set_self (Memory.wf_iff.1 h).1 a v

/-- A write leaves every other byte alone. -/
theorem Memory.read_write_ne (m : List Host.Cell) {a a' : Nat} (v : Byte) (hne : a' ≠ a) :
    Memory.read (Memory.write m a v) a' = Memory.read m a' :=
  Table.get_set_ne m v hne

/-- A write inside the address space keeps the canonical form. -/
theorem Memory.wf_write {m : List Host.Cell} (h : Memory.wf m = true) {a : Nat} (v : Byte)
    (ha : a < Config.addressSpace) : Memory.wf (Memory.write m a v) = true := by
  obtain ⟨h1, h2⟩ := Memory.wf_iff.1 h
  refine Memory.wf_iff.2 ⟨Table.wfFrom_set h1 a v (Nat.zero_le a), fun c hc => ?_⟩
  rcases Table.mem_set hc with hc | rfl
  · exact h2 c hc
  · exact ha

theorem Memory.wf_empty : Memory.wf [] = true := by decide

theorem Memory.wf_writeBytes {m : List Host.Cell} (h : Memory.wf m = true) {a : Nat} (vs : List Byte)
    (ha : a + vs.length ≤ Config.addressSpace) : Memory.wf (Memory.writeBytes m a vs) = true := by
  induction vs generalizing m a with
  | nil => exact h
  | cons v vs ih =>
    simp only [List.length_cons] at ha
    exact ih (Memory.wf_write h v (by omega)) (by omega)

theorem Memory.writeBytes_append (m : List Host.Cell) (a : Nat) (us vs : List Byte) :
    Memory.writeBytes m a (us ++ vs) = Memory.writeBytes (Memory.writeBytes m a us) (a + us.length) vs := by
  induction us generalizing m a with
  | nil => rfl
  | cons u us ih =>
    simp only [List.cons_append, Memory.writeBytes, ih, List.length_cons]
    congr 1
    omega

/-- Bytes outside the ones stored are left alone. -/
theorem Memory.read_writeBytes_outside (m : List Host.Cell) {a x : Nat} (vs : List Byte)
    (hx : x < a ∨ a + vs.length ≤ x) : Memory.read (Memory.writeBytes m a vs) x = Memory.read m x := by
  induction vs generalizing m a with
  | nil => rfl
  | cons v vs ih =>
    simp only [List.length_cons] at hx
    rw [Memory.writeBytes, ih _ (by omega), Memory.read_write_ne m v (by omega)]

/-- The bytes stored are read back. -/
theorem Memory.read_writeBytes_inside {m : List Host.Cell} (h : Memory.wf m = true) {a i : Nat} (vs : List Byte)
    (hi : i < vs.length) (ha : a + vs.length ≤ Config.addressSpace) :
    Memory.read (Memory.writeBytes m a vs) (a + i) = vs[i] := by
  induction vs generalizing m a i with
  | nil => simp at hi
  | cons v vs ih =>
    simp only [List.length_cons] at hi ha
    have hw := Memory.wf_write h v (a := a) (by omega)
    cases i with
    | zero =>
      rw [Memory.writeBytes, Memory.read_writeBytes_outside _ _ (by omega)]
      simpa using Memory.read_write_self h a v
    | succ i =>
      rw [Memory.writeBytes, show a + (i + 1) = a + 1 + i by omega, ih hw (by omega) (by omega)]
      simp

/-! ### The hash index -/

theorem Index.bucket_setBucket_self {idx : List (Nat × List Nat)} (h : Index.wf idx = true) (k : Nat)
    (ps : List Nat) : Index.bucket (Index.setBucket idx k ps) k = ps :=
  Table.get_set_self h k ps

theorem Index.bucket_setBucket_ne (idx : List (Nat × List Nat)) {k k' : Nat} (ps : List Nat) (hne : k' ≠ k) :
    Index.bucket (Index.setBucket idx k ps) k' = Index.bucket idx k' :=
  Table.get_set_ne idx ps hne

theorem Index.wf_setBucket {idx : List (Nat × List Nat)} (h : Index.wf idx = true) (k : Nat) (ps : List Nat) :
    Index.wf (Index.setBucket idx k ps) = true :=
  Table.wfFrom_set h k ps (Nat.zero_le k)

theorem Index.wf_empty : Index.wf [] = true := rfl

theorem Index.size_cons (b : Nat × List Nat) (idx : List (Nat × List Nat)) :
    Index.size (b :: idx) = b.2.length + Index.size idx := by
  simp [Index.size]

theorem Index.bucket_length_le (idx : List (Nat × List Nat)) (h : Nat) :
    (Index.bucket idx h).length ≤ Index.size idx := by
  unfold Index.bucket
  induction idx with
  | nil => simp [Table.get]
  | cons b idx ih =>
    rw [Index.size_cons]
    simp only [Table.get]
    split <;> omega

/-- Replacing a bucket changes the size by no more than the bucket's growth. -/
theorem Index.size_setBucket_le {idx : List (Nat × List Nat)} (hwf : Index.wf idx = true) (h : Nat) (ps : List Nat)
    {m : Nat} (hm : ps.length ≤ (Index.bucket idx h).length + m) :
    Index.size (Index.setBucket idx h ps) ≤ Index.size idx + m := by
  have hcons : ∀ t : List (Nat × List Nat), Index.size (Table.cons [] h ps t) ≤ ps.length + Index.size t := by
    intro t
    unfold Table.cons
    split
    · omega
    · rw [Index.size_cons]
  unfold Index.wf at hwf
  unfold Index.bucket at hm
  unfold Index.setBucket
  generalize hlo : 0 = lo at hwf
  clear hlo
  induction idx generalizing lo with
  | nil =>
    have := hcons []
    simp only [Table.get, List.length_nil] at hm
    simp only [Table.set]
    omega
  | cons b idx ih =>
    obtain ⟨k, q⟩ := b
    have hwf' := hwf
    simp only [Table.wfFrom, Bool.and_eq_true, decide_eq_true_eq] at hwf'
    have hsize : ∀ t, Index.size ((k, q) :: t) = q.length + Index.size t := fun t => Index.size_cons (k, q) t
    simp only [Table.set]
    split
    · rename_i hlt
      rw [Table.get_of_wfFrom_lt (lo := k) (by simp [Table.wfFrom, hwf'.1.2, hwf'.2]) hlt] at hm
      have hc := hcons ((k, q) :: idx)
      simp only [List.length_nil] at hm
      omega
    · simp only [Table.get] at hm
      split
      · rename_i hk
        rw [if_pos hk] at hm
        have hc := hcons idx
        rw [hsize]
        omega
      · rename_i hk
        rw [if_neg hk] at hm
        have := ih hm (k + 1) hwf'.2
        rw [hsize, hsize]
        omega

end Sys2Proof.Machine
end

