-- ==== Sys2Proof/Laws/Ops.lean ====
section
/-! SUPPORT. What each shared operation can do, said once: the draws, the engine's byte accesses, the end of a command, the
abort. -/

namespace Sys2Proof.Machine

/-! ### Where a command stands -/

@[simp] theorem ErrCode.atStart_none : ErrCode.none.atStart = false := rfl
@[simp] theorem ErrCode.atStart_illegalCmd : ErrCode.illegalCmd.atStart = false := rfl
@[simp] theorem ErrCode.atStart_range : ErrCode.range.atStart = true := rfl
@[simp] theorem ErrCode.atStart_overlap : ErrCode.overlap.atStart = true := rfl
@[simp] theorem ErrCode.atStart_outOverflow : ErrCode.outOverflow.atStart = false := rfl
@[simp] theorem ErrCode.atStart_bus : ErrCode.bus.atStart = false := rfl
@[simp] theorem ErrCode.atStart_indexFull : ErrCode.indexFull.atStart = false := rfl

@[simp] theorem Phase.begun_start : Phase.start.begun = false := rfl
@[simp] theorem Phase.begun_encodeTop : Phase.encodeTop.begun = true := rfl
@[simp] theorem Phase.begun_hashRead (bytes : List Byte) : (Phase.hashRead bytes).begun = true := rfl
@[simp] theorem Phase.begun_candidates (left : List Nat) : (Phase.candidates left).begun = true := rfl
@[simp] theorem Phase.begun_matching (p : Nat) (k : Nat) (left : List Nat) : (Phase.matching p k left).begun = true := rfl
@[simp] theorem Phase.begun_comparing (p : Nat) (k : Nat) (v : Byte) (left : List Nat) : (Phase.comparing p k v left).begun = true := rfl
@[simp] theorem Phase.begun_found (d : Nat) (k : Nat) : (Phase.found d k).begun = true := rfl
@[simp] theorem Phase.begun_emit (w : Word) (k : Nat) (j : Nat) : (Phase.emit w k j).begun = true := rfl
@[simp] theorem Phase.begun_recordRead (bytes : List Byte) : (Phase.recordRead bytes).begun = true := rfl
@[simp] theorem Phase.begun_record (w : Word) : (Phase.record w).begun = true := rfl
@[simp] theorem Phase.begun_copy (start : Nat) (len : Byte) (lit : Byte) (i : Nat) (a : Nat) : (Phase.copy start len lit i a).begun = true := rfl
@[simp] theorem Phase.begun_copyWrite (start : Nat) (len : Byte) (lit : Byte) (i : Nat) (a : Nat) (v : Byte) : (Phase.copyWrite start len lit i a v).begun = true := rfl
@[simp] theorem Phase.begun_recordEnd (a : Nat) : (Phase.recordEnd a).begun = true := rfl
@[simp] theorem Phase.begun_trailing : Phase.trailing.begun = true := rfl
@[simp] theorem Phase.begun_update (u : Update) (rest : List Update) (next : After) : (Phase.update u rest next).begun = true := rfl
@[simp] theorem Phase.begun_raising (e : ErrCode) : (Phase.raising e).begun = (!e.atStart) := rfl
@[simp] theorem Phase.begun_ending (e : ErrCode) : (Phase.ending e).begun = (!e.atStart) := rfl

/-! ### Drawing free values -/

/-- A choice gives a value and moves nothing but the counter. -/
theorem State.choose_spec {α : Type} (s : State) (v : α) (others : List α) :
    ∃ v' n, s.choose v others = (v', { s with freeTick := n }) ∧ (others = [] → v' = v ∧ n = s.freeTick) ∧
      v' ∈ v :: others := by
  cases others with
  | nil => exact ⟨v, s.freeTick, rfl, fun _ => ⟨rfl, rfl⟩, by simp⟩
  | cons w ws =>
    refine ⟨_, _, rfl, fun h => absurd h (by simp), ?_⟩
    rw [List.getD_eq_getElem?_getD]
    rcases h : (v :: w :: ws)[(Config.freeValue s.freeTick).toNat % ((w :: ws).length + 1)]? with _ | x
    · simp
    · exact List.mem_of_getElem? (by simpa using h)

/-- A blur changes nothing but listed bytes of memory and the counter. -/
theorem State.blur_spec (s : State) (cells : List Blur) :
    ∃ m n, s.blur cells = { s with mem := m, freeTick := n } ∧
      (∀ a, (∀ c ∈ cells, c.addr ≠ a) → Memory.read m a = Memory.read s.mem a) ∧
      ((∀ c ∈ cells, c.addr < Config.addressSpace) → Memory.wf s.mem = true → Memory.wf m = true) := by
  induction cells generalizing s with
  | nil => exact ⟨s.mem, s.freeTick, rfl, fun _ _ => rfl, fun _ h => h⟩
  | cons c cells ih =>
    obtain ⟨m, n, h, hread, hwf⟩ := ih
      { s with
        mem := Memory.write s.mem c.addr (if Config.freeBool s.freeTick then c.new else c.old)
        freeTick := s.freeTick + 1 }
    refine ⟨m, n, by rw [State.blur, h], fun x hx => ?_, fun hlt hm => ?_⟩
    · rw [hread x (fun c hc => hx c (List.mem_cons_of_mem _ hc))]
      exact Memory.read_write_ne _ _ (Ne.symm (hx _ List.mem_cons_self))
    · exact hwf (fun c hc => hlt c (List.mem_cons_of_mem _ hc)) (Memory.wf_write hm _ (hlt _ List.mem_cons_self))

/-- A byte that a blur changes ends with its old value or its new one. -/
theorem State.blur_values {s : State} {cells : List Blur} (hlt : ∀ c ∈ cells, c.addr < Config.addressSpace)
    (hm : Memory.wf s.mem = true) (x : Nat) :
    Memory.read (s.blur cells).mem x = Memory.read s.mem x ∨
      ∃ c ∈ cells, c.addr = x ∧
        (Memory.read (s.blur cells).mem x = c.old ∨ Memory.read (s.blur cells).mem x = c.new) := by
  induction cells generalizing s with
  | nil => exact .inl rfl
  | cons c cells ih =>
    rw [State.blur]
    rcases ih (s := { s with
        mem := Memory.write s.mem c.addr (if Config.freeBool s.freeTick then c.new else c.old)
        freeTick := s.freeTick + 1 }) (fun d hd => hlt d (List.mem_cons_of_mem _ hd))
        (Memory.wf_write hm _ (hlt c List.mem_cons_self)) with h | ⟨d, hd, h⟩
    · by_cases hx : c.addr = x
      · refine .inr ⟨c, List.mem_cons_self, hx, ?_⟩
        rw [h, ← hx, Memory.read_write_self hm]
        split <;> simp
      · exact .inl (h.trans (Memory.read_write_ne _ _ (Ne.symm hx)))
    · exact .inr ⟨d, List.mem_cons_of_mem _ hd, h⟩

/-- Scrambling `n` bytes from `a` on changes nothing but those bytes and the counter. -/
theorem State.scrambleBytes_spec (s : State) (a n : Nat) :
    ∃ m k, s.scrambleBytes a n = { s with mem := m, freeTick := k } ∧
      (∀ x, (x < a ∨ a + n ≤ x) → Memory.read m x = Memory.read s.mem x) ∧
      (a + n ≤ Config.addressSpace → Memory.wf s.mem = true → Memory.wf m = true) := by
  induction n generalizing s a with
  | zero => exact ⟨s.mem, s.freeTick, rfl, fun _ _ => rfl, fun _ h => h⟩
  | succ n ih =>
    obtain ⟨m, k, h, hread, hwf⟩ := ih
      { s with
        mem := Memory.write s.mem a (Config.freeByte s.freeTick)
        freeTick := s.freeTick + 1 } (a + 1)
    refine ⟨m, k, by rw [State.scrambleBytes, h], fun x hx => ?_, fun hlt hm => ?_⟩
    · rw [hread x (by omega)]
      exact Memory.read_write_ne _ _ (by omega)
    · exact hwf (by omega) (Memory.wf_write hm _ (by omega))

@[simp] theorem State.scrambleBytes_engine (s : State) (a n : Nat) : (s.scrambleBytes a n).engine = s.engine := by
  obtain ⟨m, k, h, -⟩ := State.scrambleBytes_spec s a n
  rw [h]

@[simp] theorem State.scrambleBytes_err (s : State) (a n : Nat) : (s.scrambleBytes a n).err = s.err := by
  obtain ⟨m, k, h, -⟩ := State.scrambleBytes_spec s a n
  rw [h]

@[simp] theorem State.scrambleBytes_done (s : State) (a n : Nat) : (s.scrambleBytes a n).done = s.done := by
  obtain ⟨m, k, h, -⟩ := State.scrambleBytes_spec s a n
  rw [h]

@[simp] theorem State.scrambleBytes_tail (s : State) (a n : Nat) : (s.scrambleBytes a n).tail = s.tail := by
  obtain ⟨m, k, h, -⟩ := State.scrambleBytes_spec s a n
  rw [h]

/-! ### Updates -/

/-- One engine step for each update of a row. -/
theorem State.updates_cons (s : State) (r : Run) (u : Update) (rest : List Update) (next : After) :
    s.updates r (u :: rest) next = s.goto r (.update u rest next) := rfl

@[simp] theorem State.update_goto (s : State) (r : Run) (ph : Phase) (u : Update) :
    (s.goto r ph).update u = (s.update u).goto r ph := by
  rcases u with ⟨reg, v⟩ | _ | _
  · cases reg <;> rfl
  · rfl
  · rfl

@[simp] theorem State.result_goto (s : State) (r : Run) (ph : Phase) (reg : ResultReg) :
    (s.goto r ph).result reg = s.result reg := by cases reg <;> rfl

theorem Run.note_goto (s : State) (q r : Run) (ph ph' : Phase) (u : Update) :
    Run.note { r with phase := ph' } (s.goto q ph) u = { r.note s u with phase := ph' } := by
  cases u with
  | result reg v => simp [Run.note]
  | clearIndex | bucket => rfl

theorem State.foldl_update_goto (s : State) (r : Run) (ph : Phase) (us : List Update) :
    us.foldl State.update (s.goto r ph) = (us.foldl State.update s).goto r ph := by
  induction us generalizing s with
  | nil => rfl
  | cons u us ih => rw [List.foldl_cons, State.update_goto, ih, List.foldl_cons]

theorem State.updates_goto (s : State) (q r : Run) (ph : Phase) (us : List Update) (next : After) :
    (s.goto q ph).updates r us next = s.updates r us next := by cases us <;> rfl

theorem State.updates_rephase (s : State) (r : Run) (ph : Phase) (us : List Update) (next : After) :
    s.updates { r with phase := ph } us next = s.updates r us next := by cases us <;> rfl

/-! ### The end of a command -/

/-- The fields the end of a command may change, and what it leaves in the others. A command whose buffers nobody else
wrote changes STATUS and the host's view only. -/
theorem State.finish_clean (s : State) (r : Run) (e : ErrCode) (h : r.foreign = []) :
    s.finish r e = { s with
      engine := none, done := true, err := e
      unseen := Unseen.append { cells := r.journal, regs := r.regJournal } s.unseen } := by
  simp [State.finish, h]

/-- What the end of a command, or an abort-like change of its results, leaves alone: `t` differs from `s` at most in
STATUS, the results of `r`'s task, the bytes of its output buffer, the host's view and the counter. -/
structure EndFrame (s t : State) (r : Run) : Prop where
  irqEn : t.irqEn = s.irqEn
  ign : t.ign = s.ign
  params : t.params = s.params
  index : t.index = s.index
  platform : t.platform = s.platform
  pending : t.pending = s.pending
  readback : t.readback = s.readback
  stale : t.stale = s.stale
  memory : ∀ a, (r.task.hasOutput = true → r.snap.inOutput a = false) → Memory.read t.mem a = Memory.read s.mem a
  memoryWf : (r.task.hasOutput = true → r.snap.outRangeFails = false) → Memory.wf s.mem = true →
    Memory.wf t.mem = true
  counts : r.task.hasOutput = false →
    t.cursor = s.cursor ∧ t.outLen = s.outLen ∧ t.tokenCount = s.tokenCount ∧ t.mem = s.mem
  matches_ : r.task ≠ .findLinear → r.task ≠ .findHc → t.matchDist = s.matchDist ∧ t.matchLen = s.matchLen
  hash : r.task ≠ .hash3 → t.hashValue = s.hashValue ∧ t.hashValid = s.hashValid

theorem List.getD_mem_of_mem {α : Type} {l : List α} {d : α} (n : Nat) (h : d ∈ l) : l.getD n d ∈ l := by
  rw [List.getD_eq_getElem?_getD]
  rcases hx : l[n]? with _ | x
  · simpa using h
  · simpa using List.mem_of_getElem? hx

/-- Scrambling the output buffer is within the frame of a task that has one. -/
theorem EndFrame.of_scrambleBytes (s u : State) (r : Run) (h : r.task.hasOutput = true)
    (hu : EndFrame s u r) :
    EndFrame s (u.scrambleBytes r.snap.outBase.toNat r.snap.outCap.toNat) r := by
  obtain ⟨m, k, he, hread, hwf⟩ := State.scrambleBytes_spec u r.snap.outBase.toNat r.snap.outCap.toNat
  rw [he]
  exact
    { hu with
      memory := fun a ha => by
        rw [← hu.memory a ha]
        refine hread a ?_
        have := ha h
        simp only [Params.inOutput, Region.holds, Bool.and_eq_false_iff, decide_eq_false_iff_not] at this
        omega
      memoryWf := fun hr hm => by
        refine hwf ?_ (hu.memoryWf hr hm)
        have := hr h
        simp only [Params.outRangeFails, decide_eq_false_iff_not] at this
        omega
      counts := fun h' => by simp [h] at h' }

/-- Scrambling registers leaves everything but them and the counter alone. -/
theorem State.scrambleResults_frame (s : State) (r : Run) {regs : List ResultReg} (h : ∀ reg ∈ regs, reg ∈ r.task.results) :
    EndFrame s (s.scrambleResults regs) r ∧ (s.scrambleResults regs).engine = s.engine ∧
      (s.scrambleResults regs).done = s.done ∧ (s.scrambleResults regs).err = s.err ∧
      (s.scrambleResults regs).tail = s.tail ∧ (s.scrambleResults regs).unseen = s.unseen := by
  induction regs generalizing s with
  | nil => exact ⟨by constructor <;> simp [State.scrambleResults], rfl, rfl, rfl, rfl, rfl⟩
  | cons reg regs ih =>
    obtain ⟨hf, he, hd, hr, ht, hu⟩ := ih
      (State.setResult { s with freeTick := s.freeTick + 1 } reg (Config.freeValue s.freeTick))
      (fun q hq => h q (List.mem_cons_of_mem _ hq))
    have hmem := h reg List.mem_cons_self
    rw [State.scrambleResults]
    refine ⟨?_, by rw [he]; cases reg <;> rfl, by rw [hd]; cases reg <;> rfl, by rw [hr]; cases reg <;> rfl,
      by rw [ht]; cases reg <;> rfl, by rw [hu]; cases reg <;> rfl⟩
    constructor
    case irqEn => rw [hf.irqEn]; cases reg <;> rfl
    case ign => rw [hf.ign]; cases reg <;> rfl
    case params => rw [hf.params]; cases reg <;> rfl
    case index => rw [hf.index]; cases reg <;> rfl
    case platform => rw [hf.platform]; cases reg <;> rfl
    case pending => rw [hf.pending]; cases reg <;> rfl
    case readback => rw [hf.readback]; cases reg <;> rfl
    case stale => rw [hf.stale]; cases reg <;> rfl
    case memory => intro a ha; rw [hf.memory a ha]; cases reg <;> rfl
    case memoryWf => intro hr hm; exact hf.memoryWf hr (by cases reg <;> exact hm)
    case counts =>
      intro ho
      obtain ⟨h1, h2, h3, h4⟩ := hf.counts ho
      rw [h1, h2, h3, h4]
      cases reg <;> cases ht : r.task <;> simp [ht, Task.results, Task.hasOutput] at hmem ho <;> exact ⟨rfl, rfl, rfl, rfl⟩
    case matches_ =>
      intro hl hc
      obtain ⟨h1, h2⟩ := hf.matches_ hl hc
      rw [h1, h2]
      cases reg <;> cases ht : r.task <;> simp [ht, Task.results] at hmem hl hc <;> exact ⟨rfl, rfl⟩
    case hash =>
      intro hh
      obtain ⟨h1, h2⟩ := hf.hash hh
      rw [h1, h2]
      cases reg <;> cases ht : r.task <;> simp [ht, Task.results] at hmem hh <;> exact ⟨rfl, rfl⟩

/-- What the scrambling of R460 does: a code the command can raise, TAIL only with none, everything outside the command's
results as it was. -/
theorem State.scramble_spec (s : State) (r : Run) :
    EndFrame s (s.scramble r) r ∧ (s.scramble r).engine = s.engine ∧ (s.scramble r).done = s.done ∧
      (s.scramble r).err ∈ r.task.runErrors ∧ ((s.scramble r).tail = true → (s.scramble r).err = .none) := by
  unfold State.scramble
  dsimp only
  generalize he : r.task.runErrors.getD ((Config.freeValue s.freeTick).toNat % r.task.runErrors.length) .none = e
  have hmem : e ∈ r.task.runErrors := by
    rw [← he]
    exact List.getD_mem_of_mem _ (by cases r.task <;> simp [Task.runErrors])
  obtain ⟨hf, h1, h2, h3, h4, -⟩ := State.scrambleResults_frame
    { s with
      err := e
      tail := decide (r.task = .decompress) && decide (e = .none) && decide (r.snap.inLen.toNat % 4 ≠ 0)
      freeTick := s.freeTick + 1 } r (regs := r.task.results) (fun _ h => h)
  generalize State.scrambleResults _ r.task.results = t at hf h1 h2 h3 h4 ⊢
  have hf' : EndFrame s t r := { hf with }
  have htail : t.tail = true → e = .none := by rw [h4]; simp; exact fun _ h _ => h
  split
  · rename_i ho
    exact ⟨EndFrame.of_scrambleBytes s t r ho hf', by simpa using h1, by simpa using h2, by simpa [h3] using hmem,
      by simpa [h3] using htail⟩
  · exact ⟨hf', h1, h2, h3 ▸ hmem, fun h => h3 ▸ htail h⟩

@[simp] theorem State.raise_eq (s : State) (r : Run) (e : ErrCode) : s.raise r e = s.goto r (.raising e) := rfl

/-- What the end of a command leaves alone, whatever others wrote. -/
theorem State.finish_frame (s : State) (r : Run) (e : ErrCode) : EndFrame s (s.finish r e) r := by
  unfold State.finish
  dsimp only
  split
  · constructor <;> simp
  · exact { (State.scramble_spec _ r).1 with }

@[simp] theorem State.finish_engine (s : State) (r : Run) (e : ErrCode) : (s.finish r e).engine = none := by
  unfold State.finish
  dsimp only
  split
  · rfl
  · exact (State.scramble_spec _ r).2.1

@[simp] theorem State.finish_done (s : State) (r : Run) (e : ErrCode) : (s.finish r e).done = true := by
  unfold State.finish
  dsimp only
  split
  · rfl
  · exact (State.scramble_spec _ r).2.2.1

/-- The error code a command ends with: the one it has met, or after R460's violation one it can raise. -/
theorem State.finish_err (s : State) (r : Run) (e : ErrCode) :
    (s.finish r e).err = e ∨ (s.finish r e).err ∈ r.task.runErrors := by
  unfold State.finish
  dsimp only
  split
  · exact .inl rfl
  · exact .inr (State.scramble_spec _ r).2.2.2.1

/-- Passing the free values a BUS may use moves nothing but the counter, and not that for a task with no output. -/
theorem State.passSupposed_spec (s : State) (r : Run) :
    ∃ k, s.passSupposed r = { s with freeTick := k } ∧ (r.task.hasOutput = false → k = s.freeTick) := by
  unfold State.passSupposed
  split
  · rename_i ho
    exact ⟨_, rfl, fun h' => by simp [ho] at h'⟩
  · exact ⟨s.freeTick, rfl, fun _ => rfl⟩

/-- BUS on the address `a`: the failing bytes are blurred, and the engine goes on to the updates of ERR_ADDR and ERR and
its end. -/
theorem State.raiseBus_spec (s : State) (r : Run) (a : Nat) :
    ∃ m n j, s.raiseBus r a =
        State.goto { s with mem := m, freeTick := n } { r with journal := j ++ r.journal }
          (.update (.result .errAddr (BitVec.ofNat 32 a)) [] (.raising .bus)) ∧
      (∀ c ∈ j, ∃ b ∈ s.failingBytes r, c.1 = b.addr) ∧
      (∀ x, (∀ b ∈ s.failingBytes r, b.addr ≠ x) → Memory.read m x = Memory.read s.mem x) ∧
      ((∀ b ∈ s.failingBytes r, b.addr < Config.addressSpace) → Memory.wf s.mem = true → Memory.wf m = true) ∧
      (s.failingBytes r = [] → m = s.mem ∧ j = [] ∧ (r.task.hasOutput = false → n = s.freeTick)) := by
  obtain ⟨m, n, h, hread, hwf⟩ := State.blur_spec (s.passSupposed r) (s.failingBytes r)
  obtain ⟨k, hk, hk'⟩ := s.passSupposed_spec r
  rw [hk] at h hread hwf
  refine ⟨m, n, _, by rw [State.raiseBus, hk, h]; rfl, fun c hc => ?_, hread, hwf, fun he => ?_⟩
  · obtain ⟨b, hb, rfl⟩ := List.mem_map.1 hc
    exact ⟨b, hb, rfl⟩
  · rw [he, State.blur] at h
    exact ⟨(congrArg State.mem h).symm, by simp [he], fun ho => (congrArg State.freeTick h).symm.trans (hk' ho)⟩

/-- A byte that a BUS changes is one of the failing record's, and ends old or as the rules give it (R411). -/
theorem State.raiseBus_values {s : State} {r : Run} (a : Nat)
    (hlt : ∀ b ∈ s.failingBytes r, b.addr < Config.addressSpace) (hm : Memory.wf s.mem = true) (x : Nat) :
    Memory.read (s.raiseBus r a).mem x = Memory.read s.mem x ∨
      ∃ b ∈ s.failingBytes r, b.addr = x ∧
        (Memory.read (s.raiseBus r a).mem x = b.old ∨ Memory.read (s.raiseBus r a).mem x = b.new) := by
  obtain ⟨k, hk, -⟩ := s.passSupposed_spec r
  have he : (s.raiseBus r a).mem = ((s.passSupposed r).blur (s.failingBytes r)).mem := rfl
  rw [he, hk]
  exact State.blur_values (s := { s with freeTick := k }) hlt hm x

/-! ### The engine's byte accesses -/

/-- A read gives a byte and moves nothing but the counter. On ordinary memory that nobody else wrote during the command
it is the byte memory holds, and nothing is drawn. -/
theorem State.observe_spec (s : State) (r : Run) (a : Nat) :
    ∃ v n, s.observe r a = (v, { s with freeTick := n }) ∧
      (s.platform.hasSideEffects a = false → Memory.valuesAt r.foreign a = [] →
        v = Memory.read s.mem a ∧ n = s.freeTick) := by
  unfold State.observe
  split
  · rename_i h
    exact ⟨_, _, rfl, fun h' => absurd h (by simp [h'])⟩
  · split
    · exact ⟨_, _, rfl, fun _ _ => ⟨rfl, rfl⟩⟩
    · rename_i v vs hvs
      obtain ⟨v', n, h, -⟩ := State.choose_spec s (Memory.read s.mem a) (v :: vs ++ Memory.valuesAt r.journal a)
      exact ⟨v', n, h, fun _ h' => by rw [hvs] at h'; cases h'⟩

/-- `MemRead`: refused, it raises BUS; admitted, its continuation goes on with some byte. -/
theorem State.fetch_spec (s : State) (r : Run) (a : Nat) (k : Byte → State → State) :
    (s.platform.admits a .read = false ∧ s.fetch r a k = s.raiseBus r a) ∨
    (s.platform.admits a .read = true ∧ ∃ v n, s.fetch r a k = k v { s with freeTick := n } ∧
      (s.platform.hasSideEffects a = false → Memory.valuesAt r.foreign a = [] →
        v = Memory.read s.mem a ∧ n = s.freeTick)) := by
  unfold State.fetch
  split
  · rename_i h
    obtain ⟨v, n, ho, hv⟩ := State.observe_spec s r a
    exact .inr ⟨h, v, n, by rw [ho], hv⟩
  · rename_i h
    exact .inl ⟨by simpa using h, rfl⟩

/-- A read of ordinary memory in a command whose buffers nobody else wrote gives the byte memory holds. -/
theorem State.fetch_plain {s : State} {r : Run} {a : Nat} (k : Byte → State → State)
    (ha : s.platform.admits a .read = true) (hs : s.platform.hasSideEffects a = false) (hf : r.foreign = []) :
    s.fetch r a k = k (Memory.read s.mem a) s := by
  rcases State.fetch_spec s r a k with ⟨h, -⟩ | ⟨-, v, n, h, hv⟩
  · rw [ha] at h; cases h
  · obtain ⟨rfl, rfl⟩ := hv hs (by simp [hf, Memory.valuesAt, valuesOf])
    exact h

/-- `MemWrite`: refused, it stores nothing and raises BUS; admitted, one byte is stored and journalled. -/
theorem State.store_spec (s : State) (r : Run) (a : Nat) (v : Byte) (k : Run → State → State) :
    (s.platform.admits a .write = false ∧ s.store r a v k = s.raiseBus r a) ∨
    (s.platform.admits a .write = true ∧ ∃ v' n, s.store r a v k =
        k { r with journal := (a, Memory.read s.mem a) :: r.journal }
          { s with mem := Memory.write s.mem a v', freeTick := n } ∧
      (s.platform.hasSideEffects a = false → v' = v ∧ n = s.freeTick)) := by
  unfold State.store
  split
  · rename_i h
    refine .inr ⟨h, ?_⟩
    split
    · rename_i h'
      exact ⟨_, _, rfl, fun h'' => absurd h' (by simp [h''])⟩
    · exact ⟨v, s.freeTick, rfl, fun _ => ⟨rfl, rfl⟩⟩
  · rename_i h
    exact .inl ⟨by simpa using h, rfl⟩

/-- A write to ordinary memory stores the byte. -/
theorem State.store_plain {s : State} {r : Run} {a : Nat} {v : Byte} (k : Run → State → State)
    (ha : s.platform.admits a .write = true) (hs : s.platform.hasSideEffects a = false) :
    s.store r a v k = k { r with journal := (a, Memory.read s.mem a) :: r.journal }
      { s with mem := Memory.write s.mem a v } := by
  rcases State.store_spec s r a v k with ⟨h, -⟩ | ⟨-, v', n, h, hv⟩
  · rw [ha] at h; cases h
  · obtain ⟨rfl, rfl⟩ := hv hs
    exact h

theorem Platform.lt_of_admits {p : Platform} {a : Nat} {kind : AccessKind} (h : p.admits a kind = true) :
    a < Config.addressSpace := by
  simp only [Platform.admits, Bool.and_eq_true, decide_eq_true_eq] at h
  exact h.1

end Sys2Proof.Machine
end

