-- ==== Sys2Proof/Laws/Engine.lean ====
section
/-! SUPPORT. The engine's run: running is iterating the engine step, every step lowers the bound of R470, so a run to the end
ends; a state that some number of engine steps reaches and in which the engine is idle is where the run ends. -/

namespace Sys2Proof.Machine

/-! ### Running is iterating -/

@[simp] theorem State.engineStep_idle {s : State} (h : s.engine = none) : s.engineStep = s := by
  simp [State.engineStep, h]

theorem State.engineStep_busy {s : State} {r : Run} (h : s.engine = some r) : s.engineStep = s.stepPhase r := by
  simp [State.engineStep, h]

theorem State.busy_iff {s : State} : s.busy = true ↔ ∃ r, s.engine = some r := by
  simp [State.busy, Option.isSome_iff_exists]

theorem State.not_busy_iff {s : State} : s.busy = false ↔ s.engine = none := by
  simp [State.busy]

theorem State.iterate_idle {s : State} (h : s.engine = none) (k : Nat) : State.engineStep^[k] s = s := by
  induction k with
  | zero => rfl
  | succ k ih => rw [Function.iterate_succ_apply, State.engineStep_idle h, ih]

theorem State.runSteps_eq_iterate (k : Nat) (s : State) : State.runSteps k s = State.engineStep^[k] s := by
  induction k generalizing s with
  | zero => rfl
  | succ k ih =>
    rw [State.runSteps]
    split
    · rw [ih, Function.iterate_succ_apply]
    · rename_i h
      rw [State.iterate_idle (State.not_busy_iff.1 (by simpa using h))]

/-- `t` is where some number of engine steps leads from `s`. -/
def State.Reaches (s t : State) : Prop := ∃ k, State.engineStep^[k] s = t

theorem State.Reaches.refl (s : State) : State.Reaches s s := ⟨0, rfl⟩

theorem State.Reaches.trans {s t u : State} (h : State.Reaches s t) (h' : State.Reaches t u) : State.Reaches s u := by
  obtain ⟨k, rfl⟩ := h
  obtain ⟨m, rfl⟩ := h'
  exact ⟨m + k, Function.iterate_add_apply _ _ _ _⟩

theorem State.Reaches.head {s t : State} (h : State.Reaches s.engineStep t) : State.Reaches s t :=
  State.Reaches.trans ⟨1, rfl⟩ h

theorem State.Reaches.step {s t : State} {r : Run} (h : s.engine = some r) (h' : State.Reaches (s.stepPhase r) t) :
    State.Reaches s t := by
  rw [← State.engineStep_busy h] at h'
  exact h'.head

/-- Two idle states reached from one state are the same. -/
theorem State.Reaches.idle_unique {s t u : State} (h : State.Reaches s t) (h' : State.Reaches s u) (ht : t.engine = none)
    (hu : u.engine = none) : t = u := by
  obtain ⟨k, rfl⟩ := h
  obtain ⟨m, rfl⟩ := h'
  rcases Nat.le_total k m with hle | hle
  · obtain ⟨j, rfl⟩ := Nat.exists_eq_add_of_le' hle
    rw [Function.iterate_add_apply, State.iterate_idle ht]
  · obtain ⟨j, rfl⟩ := Nat.exists_eq_add_of_le' hle
    rw [Function.iterate_add_apply, State.iterate_idle hu]

/-! ### Every step lowers the bound -/

theorem State.stepsBound_idle {s : State} (h : s.engine = none) : s.stepsBound = 0 := by
  simp [State.stepsBound, h]

theorem State.stepsBound_goto (s : State) (r : Run) (ph : Phase) :
    (s.goto r ph).stepsBound = Run.stepsBound { r with phase := ph } s := by
  cases ph <;> first | rfl | simp [State.stepsBound, Run.stepsBound, State.foldl_update_goto]

theorem Run.afterBound_note (r : Run) (s : State) (u : Update) (size : Nat) (next : After) :
    (r.note s u).afterBound size next = r.afterBound size next := by
  cases u <;> cases next <;> rfl

/-- A row of updates takes one step each. -/
theorem State.stepsBound_updates (s : State) (r : Run) (us : List Update) (next : After) :
    (s.updates r us next).stepsBound =
      us.length + r.afterBound (Index.size (us.foldl State.update s).index) next := by
  cases us <;> cases next <;>
    simp [State.updates, State.stepsBound_goto, After.phase, Run.stepsBound, Run.afterBound, foundBound]

theorem State.stepsBound_finish (s : State) (r : Run) (e : ErrCode) : (s.finish r e).stepsBound = 0 :=
  State.stepsBound_idle (by simp)

theorem State.stepsBound_raise (s : State) (r : Run) (e : ErrCode) : (s.raise r e).stepsBound = 2 :=
  State.stepsBound_goto s r (.raising e)

theorem State.stepsBound_raiseBus (s : State) (r : Run) (a : Nat) : (s.raiseBus r a).stepsBound = 3 := by
  rw [State.raiseBus, State.stepsBound_updates]
  rfl

theorem State.fetch_bound {s : State} {r : Run} {a : Nat} {k : Byte → State → State} {B : Nat} (hB : 3 < B)
    (hk : ∀ v n, (k v { s with freeTick := n }).stepsBound < B) : (s.fetch r a k).stepsBound < B := by
  rcases State.fetch_spec s r a k with ⟨-, h⟩ | ⟨-, v, n, h, -⟩
  · rw [h, State.stepsBound_raiseBus]; exact hB
  · rw [h]; exact hk v n

theorem State.store_bound {s : State} {r : Run} {a : Nat} {v : Byte} {k : Run → State → State} {B : Nat} (hB : 3 < B)
    (hk : ∀ v' n, (k { r with journal := (a, Memory.read s.mem a) :: r.journal }
      { s with mem := Memory.write s.mem a v', freeTick := n }).stepsBound < B) : (s.store r a v k).stepsBound < B := by
  rcases State.store_spec s r a v k with ⟨-, h⟩ | ⟨-, v', n, h, -⟩
  · rw [h, State.stepsBound_raiseBus]; exact hB
  · rw [h]; exact hk v' n

theorem searchBound_mono (L : Nat) {m m' : Nat} (h : m ≤ m') : searchBound L m ≤ searchBound L m' := by
  unfold searchBound
  have := Nat.mul_le_mul_right (2 * L + 2) h
  omega

theorem searchBound_succ (L m : Nat) : searchBound L (m + 1) = searchBound L m + 2 * L + 2 := by
  unfold searchBound
  rw [Nat.succ_mul]
  omega

theorem encodeBound_mono (p : Params) {rest rest' size size' : Nat} (h : rest ≤ rest') (h' : size ≤ size') :
    encodeBound p rest size ≤ encodeBound p rest' size' := by
  unfold encodeBound tokenBound
  have := Nat.mul_le_mul h (Nat.add_le_add_right (searchBound_mono p.L (m := p.w + size + rest)
    (m' := p.w + size' + rest') (by omega)) 20)
  omega

theorem three_le_searchBound (L m : Nat) : 3 ≤ searchBound L m := Nat.le_add_left 3 _

/-- The head of the encoder's loop pays for one finder call and the loop one byte further on. -/
theorem encodeBound_succ (p : Params) {rest size m : Nat} (hm : m ≤ p.w + size + rest) :
    searchBound p.L m + encodeBound p rest (size + 1) + 20 ≤ encodeBound p (rest + 1) size := by
  unfold encodeBound tokenBound
  have e : p.w + size + (rest + 1) = p.w + (size + 1) + rest := by omega
  rw [e, Nat.succ_mul]
  have := searchBound_mono p.L (m := m) (m' := p.w + (size + 1) + rest) (by omega)
  omega

theorem chainUpdates_fold (s : State) (h c w : Nat) (bucket : List Nat) :
    (chainUpdates h c w bucket).foldl State.update s =
      { s with index := Index.setBucket s.index h (chainBucket c w bucket) } := by
  unfold chainUpdates chainBucket
  dsimp only
  split
  · change ({ s with index := Table.set _ (Table.set _ s.index h _) h _ } : State) = _
    rw [Table.set_set _ _ _ (by simp) _]
    rfl
  · rfl

theorem chainUpdates_length (h c w : Nat) (bucket : List Nat) : (chainUpdates h c w bucket).length ≤ 2 := by
  unfold chainUpdates
  split <;> simp

theorem foundBound_mono (r : Run) {size size' : Nat} (h : size ≤ size') : foundBound r size ≤ foundBound r size' := by
  unfold foundBound
  have := encodeBound_mono r.snap (le_refl (r.snap.n - r.cur - 1)) h
  omega

theorem chainBucket_length_le (c w : Nat) (bucket : List Nat) : (chainBucket c w bucket).length ≤ bucket.length + 1 := by
  unfold chainBucket
  dsimp only
  split
  · exact le_trans (List.length_filter_le _ _) (by simp)
  · simp

/-- What a call of the finder leaves to do. -/
theorem State.callFinder_bound (s : State) (r : Run) {B : Nat}
    (h1 : searchBound r.snap.L (r.snap.w + Index.size s.index) + foundBound r (Index.size s.index + 1) + 4 < B) :
    (s.callFinder r).stepsBound < B := by
  unfold State.callFinder
  have hm := searchBound_mono r.snap.L (m := Index.size s.index) (m' := r.snap.w + Index.size s.index) (by omega)
  have hf := foundBound_mono r (size := Index.size s.index) (size' := Index.size s.index + 1) (by omega)
  split
  · split
    · rw [State.stepsBound_goto]
      simp only [Run.stepsBound, foundBound, List.length_nil] at *
      omega
    · rw [State.stepsBound_goto]
      simp only [Run.stepsBound, foundBound] at *
      omega
  · unfold State.search
    rw [State.stepsBound_goto]
    have hl := searchBound_mono r.snap.L (m := (linearCandidates r.cur r.snap.w).length)
      (m' := r.snap.w + Index.size s.index) (by simp [linearCandidates])
    simp only [Run.stepsBound, foundBound] at *
    omega

theorem State.candidateDone_bound (s : State) (r : Run) (p k : Nat) (left : List Nat) :
    (s.candidateDone r p k left).stepsBound =
      searchBound r.snap.L left.length + foundBound r (Index.size s.index + 1) := by
  unfold State.candidateDone
  rw [State.stepsBound_goto]
  split <;> rfl

/-- R470: an engine step lowers the bound on the steps left. -/
theorem State.stepPhase_bound (s : State) (r : Run) (hwf : Index.wf s.index = true) :
    (s.stepPhase r).stepsBound < r.stepsBound s := by
  unfold State.stepPhase
  cases hp : r.phase with
  | start =>
    have hB : r.stepsBound s = searchBound r.snap.L (r.snap.w + Index.size s.index) +
        encodeBound r.snap (r.snap.n - r.cur - 1) (Index.size s.index + 1) + encodeBound r.snap r.snap.n 0 +
        r.snap.n * recordBound + 30 := by simp [Run.stepsBound, hp]
    have hfind : (s.callFinder r).stepsBound < r.stepsBound s := by
      apply State.callFinder_bound
      rw [hB]
      unfold foundBound
      omega
    have hash : (s.goto r (.hashRead [])).stepsBound < r.stepsBound s := by
      rw [State.stepsBound_goto, hB]
      have hm := searchBound_mono r.snap.L (m := Index.size s.index) (m' := r.snap.w + Index.size s.index) (by omega)
      simp only [Run.stepsBound, foundBound, List.length_nil]
      omega
    have hidle : ∀ t : State, t.stepsBound ≤ 2 → t.stepsBound < r.stepsBound s := by
      intro t ht
      rw [hB]
      omega
    simp only [State.stepStart]
    cases r.task
    case nop | indexClear => exact hidle _ (by rw [State.stepsBound_finish]; omega)
    case compressLin | compressHc =>
      simp only [State.startCompress]
      split
      · exact hidle _ (State.stepsBound_raise _ _ _).le
      · rw [State.stepsBound_updates, hB]
        change 4 + encodeBound r.snap (r.snap.n - 0) 0 < _
        rw [Nat.sub_zero]
        omega
    case decompress =>
      simp only [State.startDecompress]
      split
      · exact hidle _ (State.stepsBound_raise _ _ _).le
      · rw [State.stepsBound_updates, hB]
        change 3 + ((r.snap.n - 0) * recordBound + 3) < _
        rw [Nat.sub_zero]
        omega
    case findLinear | findHc =>
      simp only [State.startFind]
      split
      · exact hidle _ (State.stepsBound_raise _ _ _).le
      · exact hfind
    case hash3 =>
      simp only [State.startHash3]
      split
      · exact hidle _ (State.stepsBound_raise _ _ _).le
      · split
        · exact hash
        · rw [State.stepsBound_updates, hB]
          simp only [Run.afterBound, List.length_singleton]
          omega
  | encodeTop =>
    simp only [State.stepEncodeTop, Run.stepsBound, Run.afterBound, hp]
    split
    · rename_i hc
      have h2 : 2 < encodeBound r.snap (r.snap.n - r.cur) (Index.size s.index) := by
        have := encodeBound_succ r.snap (rest := r.snap.n - r.cur - 1) (size := Index.size s.index) (m := 0) (by omega)
        rw [show r.snap.n - r.cur - 1 + 1 = r.snap.n - r.cur by omega] at this
        omega
      split
      · rw [State.stepsBound_raise]; exact h2
      · apply State.callFinder_bound
        have h := encodeBound_succ r.snap (rest := r.snap.n - r.cur - 1) (size := Index.size s.index)
          (m := r.snap.w + Index.size s.index) (by omega)
        rw [show r.snap.n - r.cur - 1 + 1 = r.snap.n - r.cur by omega] at h
        unfold foundBound
        omega
    · rw [State.stepsBound_finish]; unfold encodeBound; omega
  | hashRead bytes =>
    simp only [State.stepHashRead, Run.stepsBound, hp]
    have h3 := three_le_searchBound r.snap.L (Index.size s.index)
    apply State.fetch_bound (by omega)
    intro b n
    split
    · rename_i hlen
      rw [State.stepsBound_goto]
      simp only [Run.stepsBound, foundBound, Config.hashBytes, List.length_append, List.length_singleton] at *
      omega
    · split
      · unfold State.hash3Done
        rw [State.stepsBound_updates]
        simp only [Run.afterBound, List.length_singleton]
        unfold foundBound
        omega
      · unfold State.search
        rw [State.stepsBound_goto]
        have := searchBound_mono r.snap.L (Index.bucket_length_le s.index (hashBytes (bytes ++ [b])))
        simp only [Run.stepsBound, foundBound] at *
        omega
  | candidates left =>
    cases left with
    | nil =>
      simp only [State.stepCandidates, State.searchDone, Run.stepsBound, hp, List.length_nil, searchBound]
      split
      · split
        · rw [State.stepsBound_raise]; unfold foundBound; omega
        · have hsize := Index.size_setBucket_le hwf r.hash
            (chainBucket r.cur r.snap.w (Index.bucket s.index r.hash)) (chainBucket_length_le _ _ _)
          have := foundBound_mono r hsize
          have hlen := chainUpdates_length r.hash r.cur r.snap.w (Index.bucket s.index r.hash)
          rw [State.stepsBound_updates, chainUpdates_fold]
          split <;> simp only [Run.afterBound] <;> omega
      · rw [State.stepsBound_goto]
        have := foundBound_mono r (Nat.le_succ (Index.size s.index))
        simp only [Run.stepsBound, foundBound, Nat.succ_eq_add_one] at *
        omega
    | cons p left =>
      simp only [State.stepCandidates, Run.stepsBound, hp, List.length_cons, searchBound_succ]
      split <;>
      · rw [State.stepsBound_goto]
        simp only [Run.stepsBound, foundBound]
        omega
  | matching p k left =>
    simp only [State.stepMatching, Run.stepsBound, hp]
    split
    · rename_i hc
      have h3 := three_le_searchBound r.snap.L left.length
      apply State.fetch_bound (by omega)
      intro v n
      rw [State.stepsBound_goto]
      simp only [Run.stepsBound, foundBound] at *
      omega
    · rw [State.candidateDone_bound]; omega
  | comparing p k v left =>
    simp only [State.stepComparing, Run.stepsBound, hp]
    have h3 := three_le_searchBound r.snap.L left.length
    apply State.fetch_bound (by omega)
    intro v' n
    split
    · rw [State.stepsBound_goto]
      simp only [Run.stepsBound, foundBound] at *
      omega
    · rw [State.candidateDone_bound]; dsimp only; omega
  | found d k =>
    simp only [State.stepFound, Run.stepsBound, hp]
    have hB : 3 < foundBound r (Index.size s.index) := by unfold foundBound; omega
    have hemit : ∀ (w : Word) (k n : Nat),
        (State.goto { s with freeTick := n } r (.emit w k 0)).stepsBound < foundBound r (Index.size s.index) := by
      intro w k n
      rw [State.stepsBound_goto]
      have := encodeBound_mono r.snap (show r.snap.n - r.cur - (k + 1) ≤ r.snap.n - r.cur - 1 by omega)
        (le_refl (Index.size s.index))
      simp only [Run.stepsBound, foundBound] at *
      omega
    split
    · split
      · exact State.fetch_bound hB fun v n => hemit _ _ n
      · exact State.fetch_bound hB fun v n => hemit _ _ n
    · rw [State.stepsBound_updates]
      simp only [Run.afterBound, List.length_cons, List.length_nil]
      unfold foundBound
      omega
  | emit w k j =>
    simp only [State.stepEmit, Run.stepsBound, hp]
    split
    · rename_i hj
      apply State.store_bound (by omega)
      intro v' n
      rw [State.stepsBound_goto]
      simp only [Run.stepsBound, Config.tokenBytes] at *
      omega
    · rw [State.stepsBound_updates]
      change 3 + encodeBound r.snap (r.snap.n - (r.cur + (k + 1))) (Index.size s.index) < _
      rw [show r.snap.n - (r.cur + (k + 1)) = r.snap.n - r.cur - (k + 1) by omega]
      omega
  | recordRead bytes =>
    simp only [State.stepRecordRead, Run.stepsBound, Run.afterBound, hp]
    have hB : 2 < (if bytes = [] then (r.snap.n - r.cur) * recordBound + 3
        else (r.snap.n - r.cur - 4) * recordBound + (4 - bytes.length) + 520) := by split <;> omega
    split
    · split
      · rw [State.stepsBound_goto]; exact hB
      · rw [State.stepsBound_finish]; omega
    · rename_i hc
      have hB' : 3 < (if bytes = [] then (r.snap.n - r.cur) * recordBound + 3
          else (r.snap.n - r.cur - 4) * recordBound + (4 - bytes.length) + 520) := by
        simp only [Config.tokenBytes, not_and, not_not] at hc
        split
        · have := hc ‹_›
          simp only [recordBound]
          omega
        · omega
      apply State.fetch_bound hB'
      intro b n
      have hgo : ∀ bs : List Byte, bs ≠ [] → bs.length = bytes.length + 1 →
          bytes.length < 3 →
          (State.goto { s with freeTick := n } r (.recordRead bs)).stepsBound <
            (if bytes = [] then (r.snap.n - r.cur) * recordBound + 3
              else (r.snap.n - r.cur - 4) * recordBound + (4 - bytes.length) + 520) := by
        intro bs hbs hlen h3
        rw [State.stepsBound_goto]
        simp only [Run.stepsBound, if_neg hbs, hlen]
        split
        · rename_i hb
          have h4 : r.cur + 4 ≤ r.snap.n := by
            by_contra hn
            exact hc ⟨hb, hn⟩
          simp only [recordBound]
          omega
        · omega
      match bytes, hc, hB, hgo with
      | [], _, _, hgo => exact hgo _ (by simp) (by simp) (by simp)
      | [b0], _, _, hgo => exact hgo _ (by simp) (by simp) (by simp)
      | [b0, b1], _, _, hgo => exact hgo _ (by simp) (by simp) (by simp)
      | b0 :: b1 :: b2 :: bs, _, _, _ =>
        rw [State.stepsBound_goto]
        simp only [Run.stepsBound]
        rw [if_neg (by simp)]
        omega
  | record w =>
    simp only [State.stepRecord, State.startRecord, Run.stepsBound, hp]
    split
    · rw [State.stepsBound_raise]; omega
    · rw [State.stepsBound_goto]
      simp only [Run.stepsBound]
      have := (recordLength w).isLt
      omega
  | copy start len lit i a =>
    simp only [State.stepCopy, Run.stepsBound, hp]
    split
    · split
      · apply State.fetch_bound (by omega)
        intro v n
        rw [State.stepsBound_goto]
        simp only [Run.stepsBound]
        omega
      · rw [State.stepsBound_goto]
        simp only [Run.stepsBound]
        omega
    · apply State.store_bound (by omega)
      intro v' n
      rw [State.stepsBound_goto]
      simp only [Run.stepsBound]
      omega
  | copyWrite start len lit i a v =>
    simp only [State.stepCopyWrite, Run.stepsBound, hp]
    apply State.store_bound (by omega)
    intro v' n
    rw [State.stepsBound_goto]
    simp only [Run.stepsBound]
    omega
  | recordEnd a =>
    simp only [State.stepRecordEnd, Run.stepsBound, hp]
    rw [State.stepsBound_updates]
    change 3 + ((r.snap.n - (r.cur + 4)) * recordBound + 3) < _
    rw [show r.snap.n - (r.cur + 4) = r.snap.n - r.cur - 4 by omega]
    omega
  | trailing =>
    simp only [State.stepTrailing, Run.stepsBound, hp]
    rw [State.stepsBound_goto]
    exact Nat.one_lt_two
  | update u rest next =>
    simp only [State.stepUpdate, Run.stepsBound, hp]
    rw [State.stepsBound_updates, List.foldl_cons, Run.afterBound_note]
    omega
  | raising e =>
    simp only [State.stepRaising, Run.stepsBound, hp]
    rw [State.stepsBound_goto]
    exact Nat.one_lt_two
  | ending e =>
    simp only [Run.stepsBound, hp]
    rw [State.stepsBound_finish]
    exact Nat.one_pos

end Sys2Proof.Machine
end

