-- ==== Sys2Proof/Laws/Invariant.lean ====
section
/-! SUPPORT. The engine keeps the machine's invariant, and an engine step writes no byte outside the running command's output
buffer. -/

namespace Sys2Proof.Machine

/-! ### The end of a command -/

theorem State.finish_tail (s : State) (r : Run) (e : ErrCode) (he : s.tail = true → e = .none)
    (h : (s.finish r e).tail = true) : (s.finish r e).err = .none := by
  revert h
  unfold State.finish
  dsimp only
  split
  · exact he
  · exact (State.scramble_spec _ r).2.2.2.2

theorem State.finish_inv {s : State} {r : Run} (e : ErrCode) (hm : Memory.wf s.mem = true)
    (hi : Index.wf s.index = true) (he : s.tail = true → e = .none)
    (hout : e.atStart = false → r.task.hasOutput = true → r.snap.outRangeFails = false) : (s.finish r e).Inv := by
  have hf := State.finish_frame s r e
  have hmem : Memory.wf (s.finish r e).mem = true := by
    rcases hat : e.atStart with _ | _
    · exact hf.memoryWf (hout hat) hm
    · simpa [State.finish, hat] using hm
  exact ⟨hmem, by rw [hf.index]; exact hi, State.finish_tail s r e he, fun r' h => by simp at h⟩

/-! ### Where the engine stands -/

@[simp] theorem Phase.err_start : Phase.start.err = .none := rfl
@[simp] theorem Phase.err_encodeTop : Phase.encodeTop.err = .none := rfl
@[simp] theorem Phase.err_hashRead (bytes : List Byte) : (Phase.hashRead bytes).err = .none := rfl
@[simp] theorem Phase.err_candidates (left : List Nat) : (Phase.candidates left).err = .none := rfl
@[simp] theorem Phase.err_matching (p : Nat) (k : Nat) (left : List Nat) : (Phase.matching p k left).err = .none := rfl
@[simp] theorem Phase.err_comparing (p : Nat) (k : Nat) (v : Byte) (left : List Nat) : (Phase.comparing p k v left).err = .none := rfl
@[simp] theorem Phase.err_found (d : Nat) (k : Nat) : (Phase.found d k).err = .none := rfl
@[simp] theorem Phase.err_emit (w : Word) (k : Nat) (j : Nat) : (Phase.emit w k j).err = .none := rfl
@[simp] theorem Phase.err_recordRead (bytes : List Byte) : (Phase.recordRead bytes).err = .none := rfl
@[simp] theorem Phase.err_record (w : Word) : (Phase.record w).err = .none := rfl
@[simp] theorem Phase.err_copy (start : Nat) (len : Byte) (lit : Byte) (i : Nat) (a : Nat) : (Phase.copy start len lit i a).err = .none := rfl
@[simp] theorem Phase.err_copyWrite (start : Nat) (len : Byte) (lit : Byte) (i : Nat) (a : Nat) (v : Byte) : (Phase.copyWrite start len lit i a v).err = .none := rfl
@[simp] theorem Phase.err_recordEnd (a : Nat) : (Phase.recordEnd a).err = .none := rfl
@[simp] theorem Phase.err_trailing : Phase.trailing.err = .none := rfl
@[simp] theorem Phase.err_update (u : Update) (rest : List Update) (next : After) : (Phase.update u rest next).err = .none := rfl
@[simp] theorem Phase.err_raising (e : ErrCode) : (Phase.raising e).err = .none := rfl
@[simp] theorem Phase.err_ending (e : ErrCode) : (Phase.ending e).err = e := rfl

/-- Whether the engine is past its start checks, with no update and no end before it. -/
def Phase.underway : Phase → Bool
  | .encodeTop | .hashRead _ | .candidates _ | .matching _ _ _ | .comparing _ _ _ _ | .found _ _ | .emit _ _ _
  | .recordRead _ | .record _ | .copy _ _ _ _ _ | .copyWrite _ _ _ _ _ _ | .recordEnd _ | .trailing => true
  | .start | .update _ _ _ | .raising _ | .ending _ => false

theorem Phase.begun_of_underway {ph : Phase} (h : ph.underway = true) : ph.begun = true := by
  cases ph <;> first | rfl | simp [Phase.underway] at h

theorem Phase.err_of_underway {ph : Phase} (h : ph.underway = true) : ph.err = .none := by
  cases ph <;> first | rfl | simp [Phase.underway] at h

theorem Run.todo_of_underway {r : Run} (h : r.phase.underway = true) : r.todo = [] := by
  cases hp : r.phase <;> simp_all [Run.todo, Phase.underway]

theorem Run.settled_of_underway {r : Run} (h : r.phase.underway = true) (s : State) : r.settled s = s := by
  simp [Run.settled, Run.todo_of_underway h]

@[simp] theorem After.phase_err (next : After) : next.phase.err = .none := by cases next <;> rfl

theorem Run.begun_after {r : Run} {next : After} (h : r.afterOk next) : next.phase.begun = true := by
  cases next with
  | raising e => obtain ⟨rfl, -⟩ := h; rfl
  | recordRead | encodeTop | found d k | ending => rfl

theorem Task.none_mem_errors (t : Task) : ErrCode.none ∈ t.errors := by cases t <;> decide

theorem Task.bus_mem_errors {t : Task} (h : t.hasInput = true) : ErrCode.bus ∈ t.errors := by
  cases t <;> first | decide | cases h

theorem Run.settled_after (r : Run) (next : After) (s : State) : Run.settled { r with phase := next.phase } s = s := by
  cases next <;> rfl

/-- Where a row of updates leads the engine may stand. -/
theorem Run.phaseOk_after {r : Run} {next : After} (h : r.afterOk next) : Run.phaseOk { r with phase := next.phase } := by
  cases next with
  | recordRead => exact ⟨h, by simp, by simp⟩
  | encodeTop | found d k => exact h
  | ending => exact Task.none_mem_errors _
  | raising e =>
    obtain ⟨rfl, h⟩ := h
    exact ⟨Task.bus_mem_errors h, by simp⟩

theorem Task.hasOutput_of_isCompress {t : Task} (h : t.isCompress = true) : t.hasOutput = true := by
  cases t <;> simp_all [Task.isCompress, Task.hasOutput]

theorem Task.hasInput_of_isCompress {t : Task} (h : t.isCompress = true) : t.hasInput = true := by
  cases t <;> simp_all [Task.isCompress, Task.hasInput]

theorem Task.hasInput_of_usesChain {t : Task} (h : t.usesChain = true) : t.hasInput = true := by
  cases t <;> simp_all [Task.usesChain, Task.hasInput]

theorem Task.not_hasOutput_of_isQuery {t : Task} (h : t.isQuery = true) : t.hasOutput = false ∧ t.isCompress = false := by
  cases t <;> simp_all [Task.isQuery, Task.hasOutput, Task.isCompress]

theorem Task.errAddr_mem_results {t : Task} (h : t.hasInput = true) : ResultReg.errAddr ∈ t.results := by
  cases t <;> simp_all [Task.hasInput, Task.results]

theorem Run.finding.hasInput {r : Run} (h : r.finding) : r.task.hasInput = true := by
  rcases h with h | h
  · exact Task.hasInput_of_isCompress h.1
  · cases ht : r.task <;> simp_all [Task.isQuery, Task.hasInput]

/-- A command that is past its start checks has an input buffer. -/
theorem Run.Ok.hasInput {s : State} {r : Run} (h : r.Ok s) (hs : r.phase.underway = true) : r.task.hasInput = true := by
  have hpo := h.phase
  cases hp : r.phase <;> simp only [Run.phaseOk, hp] at hpo
  case start | update | raising | ending => simp [hp, Phase.underway] at hs
  case encodeTop => exact Task.hasInput_of_isCompress hpo
  case hashRead =>
    rcases hpo.1 with h | h
    · exact Task.hasInput_of_usesChain h.1
    · rw [h]; rfl
  case candidates | found => exact hpo.hasInput
  case matching | comparing => exact hpo.1.hasInput
  case emit => exact Task.hasInput_of_isCompress hpo.1
  case trailing => rw [hpo]; rfl
  all_goals rw [hpo.1]; rfl

/-- TAIL is 0 until DECOMPRESS has come to its end (R330). -/
theorem Run.Ok.tail_eq_false {s : State} {r : Run} (h : r.Ok s) (hp : r.phase ≠ .ending .none) : s.tail = false := by
  rcases ht : s.tail with _ | _
  · rfl
  · exact absurd (h.tail ht).2 hp

theorem Run.Ok.tail_of_underway {s : State} {r : Run} (h : r.Ok s) (hs : r.phase.underway = true) : s.tail = false :=
  h.tail_eq_false (by rintro hp; simp [hp, Phase.underway] at hs)

/-- ERR is NONE until an error is raised (R56). -/
theorem Run.Ok.err_of_underway {s : State} {r : Run} (h : r.Ok s) (hs : r.phase.underway = true) : s.err = .none :=
  h.status.2.trans (Phase.err_of_underway hs)

/-- `Out[j]` lies in the output buffer when `j` is below its capacity. -/
theorem Params.inOutput_outAddr {p : Params} {j : Nat} (h : j < p.outCap.toNat) :
    p.inOutput (p.outAddr j) = true := by
  simp [Params.inOutput, Params.outAddr, Region.holds, h]

theorem Params.inInput_inAddr {p : Params} {i : Nat} (h : i < p.n) : p.inInput (p.inAddr i) = true := by
  simp only [Params.n] at h
  simp [Params.inInput, Params.inAddr, Region.holds, h]

theorem Params.codecCheck_none {p : Params} (h : p.codecCheck = none) :
    p.inRangeFails = false ∧ p.outRangeFails = false ∧ p.buffersOverlap = false := by
  unfold Params.codecCheck at h
  split at h
  · cases h
  · split at h
    · cases h
    · rename_i h1 h2
      simp only [not_or, Bool.not_eq_true] at h1 h2
      exact ⟨h1.1, h1.2, h2⟩

theorem Params.queryCheck_none {p : Params} (h : p.queryCheck = none) : p.inRangeFails = false := by
  unfold Params.queryCheck at h
  split at h
  · cases h
  · rename_i h1
    simpa using h1

/-! ### Updates -/

theorem Index.wf_update {s : State} (h : Index.wf s.index = true) (u : Update) : Index.wf (s.update u).index = true := by
  cases u with
  | result reg v => simpa [State.update] using h
  | clearIndex => exact Index.wf_empty
  | bucket k ps => exact Index.wf_setBucket h _ _

theorem Run.note_eq (r : Run) (s : State) (u : Update) : ∃ regs, r.note s u = { r with regJournal := regs } := by
  cases u with
  | result reg v => exact ⟨_, rfl⟩
  | clearIndex | bucket => exact ⟨r.regJournal, rfl⟩

theorem State.foldl_update_params (s : State) (us : List Update) : (us.foldl State.update s).params = s.params := by
  induction us generalizing s with
  | nil => rfl
  | cons u us ih => rw [List.foldl_cons, ih, State.update_params]

theorem State.foldl_update_tail (s : State) (us : List Update) : (us.foldl State.update s).tail = s.tail := by
  induction us generalizing s with
  | nil => rfl
  | cons u us ih => rw [List.foldl_cons, ih, State.update_tail]

theorem State.foldl_update_status (s : State) (us : List Update) :
    (us.foldl State.update s).done = s.done ∧ (us.foldl State.update s).err = s.err := by
  induction us generalizing s with
  | nil => exact ⟨rfl, rfl⟩
  | cons u us ih => rw [List.foldl_cons]; simpa using ih (s.update u)

/-- The updates of a command without an output buffer leave CURSOR alone (R64). -/
theorem State.update_cursor {s : State} {task : Task} {next : After} {u : Update} (h : u.okFor task next = true)
    (ho : task.hasOutput = false) : (s.update u).cursor = s.cursor := by
  rcases u with ⟨reg, v⟩ | _ | _
  · cases reg <;> first | rfl | skip
    cases task <;> simp_all [Update.okFor, Task.results, Task.hasOutput]
  · rfl
  · rfl

theorem State.foldl_update_cursor {s : State} {task : Task} {next : After} {us : List Update}
    (h : ∀ u ∈ us, u.okFor task next = true) (ho : task.hasOutput = false) :
    (us.foldl State.update s).cursor = s.cursor := by
  induction us generalizing s with
  | nil => rfl
  | cons u us ih =>
    rw [List.foldl_cons, ih fun v hv => h v (List.mem_cons_of_mem _ hv),
      State.update_cursor (h u List.mem_cons_self) ho]

/-- A row of updates keeps the invariant if what holds of a running command holds where it leads. -/
theorem State.updates_inv {s : State} {r : Run} {us : List Update} {next : After} (hm : Memory.wf s.mem = true)
    (hi : Index.wf s.index = true) (ht : s.tail = false) (hu : ∀ u ∈ us, u.okFor r.task next = true)
    (hk : Run.Ok { r with phase := next.phase } (us.foldl State.update s)) (ha : r.afterOk next) :
    (s.updates r us next).Inv := by
  refine ⟨by simpa using hm, by simpa using hi, by simp [ht], fun r' hr' => ?_⟩
  have hns := Run.begun_after ha
  cases us with
  | nil =>
    obtain rfl : _ = r' := Option.some.inj hr'
    have hp := hk.progress
    rw [Run.settled_after] at hp
    exact
      { hk with
        tail := fun h => by simp [State.updates, ht] at h
        progress := by rw [Run.settled_after]; exact hp }
  | cons u us =>
    obtain rfl : _ = r' := Option.some.inj hr'
    have hp := hk.progress hns
    rw [Run.settled_after] at hp
    obtain ⟨hst1, hst2⟩ := hk.status
    exact
      { snap := by rw [hk.snap, State.foldl_update_params]; simp
        status := by
          obtain ⟨h1, h2⟩ := State.foldl_update_status s (u :: us)
          rw [h1] at hst1
          rw [h2, After.phase_err] at hst2
          exact ⟨by simpa using hst1, by simpa using hst2⟩
        tail := fun h => by simp [ht] at h
        inRange := fun _ => hk.inRange hns
        outRange := fun _ => hk.outRange hns
        apart := fun _ => hk.apart hns
        progress := fun _ ho => by
          have := hp ho
          rw [State.updates_cons, Run.settled, State.foldl_update_goto]
          exact this
        cursor := fun _ => hk.cursor hns
        argument := fun ho => by
          rw [hk.argument ho, State.foldl_update_cursor hu ho]
          rfl
        counts := fun _ => hk.counts hns
        room := fun _ => hk.room hns
        phase := ⟨hu, ha⟩
        journal := fun c hc => by
          obtain ⟨h1, -, h3⟩ := hk.journal c hc
          exact ⟨h1, by simp, h3⟩ }

/-- A move within a command to another of its places keeps what holds of it. -/
theorem Run.Ok.rephase {s : State} {r : Run} (h : r.Ok s) (hs : r.phase.begun = true) (ph : Phase)
    (hns : ph.begun = true) (bd bl hh : Nat) (regs : List (ResultReg × Word)) (u : State)
    (hu : u.params = s.params ∧ u.done = s.done ∧ u.err = ph.err)
    (ht : u.tail = true → r.task = .decompress ∧ ph = .ending .none)
    (hprog : ∀ q : Run, q.phase = ph → r.task.hasOutput = true → (q.settled u).cursor = (r.settled s).cursor ∧
      (q.settled u).outLen = (r.settled s).outLen ∧ (q.settled u).tokenCount = (r.settled s).tokenCount)
    (harg : r.task.hasOutput = false → u.cursor = s.cursor)
    (hp : Run.phaseOk { r with bestDist := bd, bestLen := bl, hash := hh, regJournal := regs, phase := ph }) :
    Run.Ok { r with bestDist := bd, bestLen := bl, hash := hh, regJournal := regs, phase := ph } u :=
  { snap := h.snap.trans hu.1.symm
    status := ⟨hu.2.1.trans h.status.1, hu.2.2⟩
    tail := ht
    inRange := fun _ => h.inRange hs
    outRange := fun _ => h.outRange hs
    apart := fun _ => h.apart hs
    progress := fun _ ho => by
      obtain ⟨h1, h2, h3⟩ := hprog { r with bestDist := bd, bestLen := bl, hash := hh, regJournal := regs, phase := ph } rfl ho
      rw [h1, h2, h3]
      exact h.progress hs ho
    cursor := fun _ => h.cursor hs
    argument := fun ho => (h.argument ho).trans (by rw [harg ho])
    counts := fun _ => h.counts hs
    room := fun _ => h.room hs
    phase := hp
    journal := fun c hc => by
      obtain ⟨h1, -, h3⟩ := h.journal c hc
      exact ⟨h1, hns, h3⟩ }

/-- What holds of a command that makes an update holds after it. -/
theorem State.stepUpdate_inv {s : State} {r : Run} {u : Update} {rest : List Update} {next : After} (h : s.Inv)
    (hr : s.engine = some r) (hp : r.phase = .update u rest next) : (s.stepUpdate r u rest next).Inv := by
  have hk := h.engine r hr
  have hpo := hk.phase
  simp only [Run.phaseOk, hp] at hpo
  obtain ⟨hu, ha⟩ := hpo
  obtain ⟨regs, hn⟩ := Run.note_eq r s u
  have ht : s.tail = false := hk.tail_eq_false (by simp [hp])
  have hset : r.settled s = rest.foldl State.update (s.update u) := by simp [Run.settled, Run.todo, hp]
  unfold State.stepUpdate
  rw [hn]
  refine State.updates_inv (r := { r with regJournal := regs }) (by simpa using h.memory) (Index.wf_update h.index u)
    (by simpa using ht) (fun v hv => hu v (List.mem_cons_of_mem _ hv)) ?_ (by cases next <;> exact ha)
  refine hk.rephase (by simp [hp]) next.phase (Run.begun_after (r := r) ha) r.bestDist r.bestLen r.hash regs _ ?_ ?_ ?_ ?_ ?_
  · obtain ⟨h1, h2⟩ := State.foldl_update_status (s.update u) rest
    rw [State.foldl_update_params, h1, h2]
    exact ⟨by simp, by simp, by simpa [hp] using hk.status.2⟩
  · rw [← hset, Run.settled, State.foldl_update_tail, ht]
    simp
  · intro q hq _
    have : q.settled (rest.foldl State.update (s.update u)) = rest.foldl State.update (s.update u) := by
      have := Run.settled_after q next (rest.foldl State.update (s.update u))
      rwa [← hq] at this
    rw [this, hset]
    exact ⟨rfl, rfl, rfl⟩
  · intro ho
    rw [← hset, Run.settled, State.foldl_update_cursor (task := r.task) (next := next) ?_ ho]
    simpa [Run.todo, hp] using hu
  · have := Run.phaseOk_after (r := { r with regJournal := regs }) (next := next) (by cases next <;> exact ha)
    exact this

/-! ### BUS -/

theorem State.copiedBytes_lt {s : State} {r : Run} {start len : Nat} {lit : Byte} {c : Nat × Byte}
    (h : c ∈ s.copiedBytes r start len lit) : c.1 < (s.copiedBytes r start len lit).length := by
  simp only [State.copiedBytes, List.mem_append, List.mem_map, List.mem_range, List.mem_singleton] at h
  simp only [State.copiedBytes, List.length_append, List.length_map, List.length_range, List.length_singleton]
  rcases h with ⟨i, hi, rfl⟩ | rfl <;> dsimp only <;> omega

theorem State.copiedBytes_length (s : State) (r : Run) (start len : Nat) (lit : Byte) :
    (s.copiedBytes r start len lit).length = (if start < r.o then len else 0) + 1 := by
  simp [State.copiedBytes]

theorem tokenBytes_lt {w : Word} {c : Nat × Byte} (h : c ∈ tokenBytes w) : c.1 < 4 := by
  simp only [tokenBytes, List.mem_map, List.mem_range] at h
  obtain ⟨i, hi, rfl⟩ := h
  exact hi

/-- The bytes of the token or record in progress lie in the output buffer (R405). -/
theorem Run.Ok.recordBytes_room {s : State} {r : Run} (hk : r.Ok s) {c : Nat × Byte} (hc : c ∈ s.recordBytes r) :
    r.task.hasOutput = true ∧ r.phase.begun = true ∧ r.o + c.1 < r.snap.outCap.toNat := by
  have hpo := hk.phase
  have hsearch : r.finding → r.task.isCompress = true → c.1 < 4 →
      r.task.hasOutput = true ∧ r.o + c.1 < r.snap.outCap.toNat := by
    rintro (hf | hf) hcmp hlt
    · exact ⟨Task.hasOutput_of_isCompress hcmp, by omega⟩
    · simp [(Task.not_hasOutput_of_isQuery hf).2] at hcmp
  have htoken : c ∈ (if r.task.isCompress then
      match s.supposedToken r with
      | none => []
      | some t => tokenBytes (Ref.record t) else []) → r.task.isCompress = true ∧ c.1 < 4 := by
    intro hm
    split at hm
    · split at hm
      · cases hm
      · exact ⟨‹_›, tokenBytes_lt hm⟩
    · cases hm
  have hcopy : ∀ {start : Nat} {len : Byte} {lit : Byte}, r.task = .decompress →
      (start < r.o → r.o + len.toNat + 1 ≤ r.snap.outCap.toNat) → r.o + 1 ≤ r.snap.outCap.toNat →
      c ∈ s.copiedBytes r start len.toNat lit → r.task.hasOutput = true ∧ r.o + c.1 < r.snap.outCap.toNat := by
    intro start len lit ht h1 h2 hm
    refine ⟨by rw [ht]; rfl, ?_⟩
    have := State.copiedBytes_lt hm
    rw [State.copiedBytes_length] at this
    split at this
    · have := h1 ‹_›; omega
    · omega
  unfold State.recordBytes at hc
  cases hp : r.phase <;> simp only [hp, Run.phaseOk] at hc hpo
  case emit w k j =>
    have := tokenBytes_lt hc
    exact ⟨Task.hasOutput_of_isCompress hpo.1, by simp, by omega⟩
  case found d k =>
    split at hc
    · obtain ⟨h1, h2⟩ := hsearch hpo ‹_› (tokenBytes_lt hc)
      exact ⟨h1, by simp, h2⟩
    · cases hc
  case candidates =>
    obtain ⟨h1, h2⟩ := hsearch hpo (htoken hc).1 (htoken hc).2
    exact ⟨h1, by simp, h2⟩
  case matching | comparing =>
    obtain ⟨h1, h2⟩ := hsearch hpo.1 (htoken hc).1 (htoken hc).2
    exact ⟨h1, by simp, h2⟩
  case hashRead bytes =>
    rcases hpo.1 with hf | hf
    · obtain ⟨h1, h2⟩ := hsearch hf.2 (htoken hc).1 (htoken hc).2
      exact ⟨h1, by simp, h2⟩
    · simp [hf, Task.isCompress] at hc
  case recordRead bytes =>
    refine ⟨by rw [hpo.1]; rfl, by simp, ?_⟩
    split at hc
    · have := State.copiedBytes_lt hc
      omega
    · cases hc
  case copy start len lit j b =>
    obtain ⟨h1, h2⟩ := hcopy hpo.1 (by omega) (by omega) hc
    exact ⟨h1, by simp, h2⟩
  case copyWrite start len lit j b w =>
    obtain ⟨h1, h2⟩ := hcopy hpo.1 (by omega) (by omega) hc
    exact ⟨h1, by simp, h2⟩
  all_goals cases hc

/-- The bytes a BUS leaves unspecified are bytes of the output buffer that the platform lets the engine write (R404,
R411). -/
theorem State.failingBytes_spec {s : State} {r : Run} (hk : r.Ok s) {b : Blur} (hb : b ∈ s.failingBytes r) :
    s.platform.admits b.addr .write = true ∧ r.task.hasOutput = true ∧ r.phase.begun = true ∧
      r.snap.inOutput b.addr = true := by
  simp only [State.failingBytes, List.mem_filter, List.mem_map] at hb
  obtain ⟨⟨c, hc, rfl⟩, hadm⟩ := hb
  obtain ⟨h1, h2, h3⟩ := hk.recordBytes_room hc
  exact ⟨hadm, h1, h2, Params.inOutput_outAddr h3⟩

theorem State.raiseBus_inv {s : State} {r : Run} (a : Nat) (h : s.Inv) (hr : s.engine = some r)
    (hs : r.phase.underway = true) : (s.raiseBus r a).Inv := by
  have hk := h.engine r hr
  have hns := Phase.begun_of_underway hs
  obtain ⟨m, n, j, he, hj, -, hwf, -⟩ := State.raiseBus_spec s r a
  rw [he, ← State.updates_cons]
  have hin := hk.hasInput hs
  have hset := Run.settled_of_underway hs s
  refine State.updates_inv
    (hwf (fun b hb => Platform.lt_of_admits (State.failingBytes_spec hk hb).1) h.memory) h.index
    (hk.tail_of_underway hs) ?_ ?_ ⟨rfl, hin⟩
  · intro u hu
    obtain rfl : u = _ := List.mem_singleton.1 hu
    simp [Update.okFor, Task.errAddr_mem_results hin]
  · have hk' := hk.rephase hns (.raising .bus) rfl r.bestDist r.bestLen r.hash r.regJournal
      { s with mem := m, freeTick := n, errAddr := BitVec.ofNat 32 a }
      ⟨rfl, rfl, hk.err_of_underway hs⟩
      (fun h' => by simp [hk.tail_of_underway hs] at h')
      (fun q hq _ => by
        have : q.settled { s with mem := m, freeTick := n, errAddr := BitVec.ofNat 32 a } =
            { s with mem := m, freeTick := n, errAddr := BitVec.ofNat 32 a } := by simp [Run.settled, Run.todo, hq]
        rw [this, hset]
        exact ⟨rfl, rfl, rfl⟩)
      (fun _ => rfl) ⟨Task.bus_mem_errors hin, by simp⟩
    exact
      { hk' with
        journal := fun c hc => by
          rcases List.mem_append.1 hc with hc | hc
          · obtain ⟨b, hb, hcb⟩ := hj c hc
            obtain ⟨-, h1, -, h3⟩ := State.failingBytes_spec hk hb
            exact ⟨h1, rfl, by rw [hcb]; exact h3⟩
          · obtain ⟨h1, -, h3⟩ := hk.journal c hc
            exact ⟨h1, rfl, h3⟩ }

/-! ### Moves -/

/-- A move within a command that changes neither its counts nor the registers keeps what holds of it. -/
theorem State.Inv.move {s : State} {r : Run} (h : s.Inv) (hr : s.engine = some r) (hs : r.phase.underway = true)
    (bd bl hh : Nat) (ph : Phase) (hph : ph.underway = true) (n : Nat)
    (hp : Run.phaseOk { r with bestDist := bd, bestLen := bl, hash := hh, phase := ph }) :
    (State.goto { s with freeTick := n } { r with bestDist := bd, bestLen := bl, hash := hh } ph).Inv := by
  have hk := h.engine r hr
  refine ⟨h.memory, h.index, h.tail, fun r' hr' => ?_⟩
  obtain rfl : _ = r' := Option.some.inj hr'
  refine hk.rephase (Phase.begun_of_underway hs) ph (Phase.begun_of_underway hph) bd bl hh r.regJournal _
    ⟨rfl, rfl, (hk.err_of_underway hs).trans (Phase.err_of_underway hph).symm⟩
    (fun h' => by simp [hk.tail_of_underway hs] at h') (fun q hq _ => ?_) (fun _ => rfl) hp
  rw [Run.settled_of_underway (by rw [hq]; exact hph), Run.settled_of_underway hs]
  exact ⟨rfl, rfl, rfl⟩

theorem State.Inv.goto {s : State} {r : Run} (h : s.Inv) (hr : s.engine = some r) (hs : r.phase.underway = true)
    (ph : Phase) (hph : ph.underway = true) (n : Nat) (hp : Run.phaseOk { r with phase := ph }) :
    (State.goto { s with freeTick := n } r ph).Inv :=
  h.move hr hs r.bestDist r.bestLen r.hash ph hph n hp

/-- Updates that leave the counts and their registers alone keep what holds of a command. -/
theorem State.Inv.updates {s : State} {r : Run} (h : s.Inv) (hr : s.engine = some r) (hs : r.phase.underway = true)
    (us : List Update) (next : After) (n : Nat) (hu : ∀ u ∈ us, u.okFor r.task next = true)
    (hreg : r.task.hasOutput = true → ∀ u ∈ us, ∀ reg v, u ≠ .result reg v)
    (ha : r.afterOk next) : (State.updates { s with freeTick := n } r us next).Inv := by
  have hk := h.engine r hr
  have ht := hk.tail_of_underway hs
  refine State.updates_inv (by exact h.memory) (by exact h.index) (by exact ht) hu ?_ ha
  obtain ⟨h1, h2⟩ := State.foldl_update_status { s with freeTick := n } us
  refine hk.rephase (Phase.begun_of_underway hs) next.phase (Run.begun_after ha) r.bestDist r.bestLen r.hash
    r.regJournal _ ⟨State.foldl_update_params _ _, h1, by rw [h2, After.phase_err]; exact hk.err_of_underway hs⟩ ?_ (fun q hq ho => ?_) (fun ho => ?_) (Run.phaseOk_after ha)
  · rw [State.foldl_update_tail]
    simp [ht]
  · have hq' := Run.settled_after q next (us.foldl State.update { s with freeTick := n })
    rw [← hq] at hq'
    rw [hq', Run.settled_of_underway hs]
    have hreg' := hreg ho
    clear hq' hu h1 h2 hreg
    generalize hs' : ({ s with freeTick := n } : State) = s'
    have hbase : s'.cursor = s.cursor ∧ s'.outLen = s.outLen ∧ s'.tokenCount = s.tokenCount := by
      rw [← hs']; exact ⟨rfl, rfl, rfl⟩
    clear hs'
    induction us generalizing s' with
    | nil => exact hbase
    | cons u us ih =>
      refine ih (fun v hv => hreg' v (List.mem_cons_of_mem _ hv)) (s'.update u) ?_
      cases u with
      | result reg v => exact absurd rfl (hreg' _ List.mem_cons_self reg v)
      | clearIndex | bucket => exact hbase
  · rw [State.foldl_update_cursor hu ho]

/-- A read keeps the invariant if what goes on after it does. -/
theorem State.fetch_inv {s : State} {r : Run} {a : Nat} {k : Byte → State → State} (h : s.Inv) (hr : s.engine = some r)
    (hs : r.phase.underway = true) (hk : ∀ v n, (k v { s with freeTick := n }).Inv) : (s.fetch r a k).Inv := by
  rcases State.fetch_spec s r a k with ⟨-, he⟩ | ⟨-, v, n, he, -⟩
  · rw [he]
    exact State.raiseBus_inv a h hr hs
  · rw [he]; exact hk v n

/-- A write inside the output buffer keeps the invariant if the phase after it is one the engine may stand in. -/
theorem State.store_inv {s : State} {r : Run} {a : Nat} {v : Byte} {ph : Phase} (h : s.Inv) (hr : s.engine = some r)
    (hs : r.phase.underway = true) (hph : ph.underway = true) (ho : r.task.hasOutput = true)
    (ha : r.snap.inOutput a = true) (hp : ∀ j, Run.phaseOk { r with journal := j, phase := ph }) :
    (s.store r a v fun r s => s.goto r ph).Inv := by
  have hk := h.engine r hr
  rcases State.store_spec s r a v (fun r s => s.goto r ph) with ⟨-, he⟩ | ⟨hadm, v', n, he, -⟩
  · rw [he]
    exact State.raiseBus_inv a h hr hs
  · rw [he]
    refine ⟨Memory.wf_write h.memory v' (Platform.lt_of_admits hadm), h.index, h.tail, fun r' hr' => ?_⟩
    obtain rfl : _ = r' := Option.some.inj hr'
    have hk' := hk.rephase (Phase.begun_of_underway hs) ph (Phase.begun_of_underway hph) r.bestDist r.bestLen
      r.hash r.regJournal { s with mem := Memory.write s.mem a v', freeTick := n }
      ⟨rfl, rfl, (hk.err_of_underway hs).trans (Phase.err_of_underway hph).symm⟩
      (fun h' => by simp [hk.tail_of_underway hs] at h')
      (fun q hq _ => by
        rw [Run.settled_of_underway (by rw [hq]; exact hph), Run.settled_of_underway hs]
        exact ⟨rfl, rfl, rfl⟩) (fun _ => rfl) (hp r.journal)
    exact
      { hk' with
        phase := hp _
        progress := fun _ ho => by
          rw [Run.settled_of_underway hph]
          have := hk.progress (Phase.begun_of_underway hs) ho
          rwa [Run.settled_of_underway hs] at this
        journal := fun c hc => by
          have hns := Phase.begun_of_underway hph
          rcases List.mem_cons.1 hc with rfl | hc
          · exact ⟨ho, hns, ha⟩
          · exact ⟨ho, hns, (hk.journal c hc).2.2⟩ }

/-! ### Errors (R410) -/

/-- An error raised in the run keeps the invariant. -/
theorem State.raise_inv {s : State} {r : Run} (e : ErrCode) (h : s.Inv) (hr : s.engine = some r)
    (hs : r.phase.underway = true) (he : e ∈ r.task.errors ∧ e ≠ .none) (hat : e.atStart = false) : (s.raise r e).Inv := by
  have hk := h.engine r hr
  refine ⟨h.memory, h.index, h.tail, fun r' hr' => ?_⟩
  obtain rfl : _ = r' := Option.some.inj hr'
  refine hk.rephase (Phase.begun_of_underway hs) (.raising e) (by simp [hat]) r.bestDist r.bestLen r.hash r.regJournal _
    ⟨rfl, rfl, hk.err_of_underway hs⟩ (fun h' => by simp [hk.tail_of_underway hs] at h') (fun q hq _ => ?_) (fun _ => rfl) he
  rw [Run.settled_of_underway hs, Run.settled, Run.todo, hq]
  exact ⟨rfl, rfl, rfl⟩

/-- A failed start check keeps the invariant: the command has not begun (R402, R403). -/
theorem State.raise_inv_of_start {s : State} {r : Run} (e : ErrCode) (h : s.Inv) (hr : s.engine = some r)
    (hp : r.phase = .start) (he : e ∈ r.task.errors) (hat : e.atStart = true) : (s.raise r e).Inv := by
  have hk := h.engine r hr
  have hj := hk.phase
  simp only [Run.phaseOk, hp] at hj
  have hnb : (Phase.raising e).begun = true → False := by simp [hat]
  refine ⟨h.memory, h.index, h.tail, fun r' hr' => ?_⟩
  obtain rfl : _ = r' := Option.some.inj hr'
  exact
    { snap := hk.snap
      status := ⟨hk.status.1, hk.status.2.trans (by simp [hp])⟩
      tail := fun h' => by simp [hk.tail_eq_false (by simp [hp])] at h'
      inRange := fun hb => (hnb hb).elim
      outRange := fun hb => (hnb hb).elim
      apart := fun hb => (hnb hb).elim
      progress := fun hb => (hnb hb).elim
      cursor := fun hb => (hnb hb).elim
      argument := hk.argument
      counts := fun hb => (hnb hb).elim
      room := fun hb => (hnb hb).elim
      phase := ⟨he, by rintro rfl; cases hat⟩
      journal := fun c hc => by
        have : r.journal = [] := hj
        simp [this] at hc }

/-- The update of ERR keeps the invariant. -/
theorem State.stepRaising_inv {s : State} {r : Run} {e : ErrCode} (h : s.Inv) (hr : s.engine = some r)
    (hp : r.phase = .raising e) : (s.stepRaising r e).Inv := by
  have hk := h.engine r hr
  have hpo := hk.phase
  simp only [Run.phaseOk, hp] at hpo
  have ht : s.tail = false := hk.tail_eq_false (by simp [hp])
  have hb : ∀ {q : Prop}, (r.phase.begun = true → q) → (Phase.ending e).begun = true → q :=
    fun hq hb => hq (by rw [hp]; exact hb)
  refine ⟨h.memory, h.index, fun h' => by simp [ht] at h', fun r' hr' => ?_⟩
  obtain rfl : _ = r' := Option.some.inj hr'
  exact
    { hk with
      status := ⟨hk.status.1, rfl⟩
      tail := fun h' => by simp [ht] at h'
      inRange := hb hk.inRange
      outRange := hb hk.outRange
      apart := hb hk.apart
      progress := hb fun hb ho => by simpa [Run.settled, Run.todo, hp] using hk.progress hb ho
      cursor := hb hk.cursor
      counts := hb hk.counts
      room := hb hk.room
      phase := hpo.1
      journal := fun c hc => by
        obtain ⟨h1, h2, h3⟩ := hk.journal c hc
        exact ⟨h1, by rw [hp] at h2; exact h2, h3⟩ }

/-- The start checks raise errors of their own (R402, R403). -/
theorem Params.codecCheck_some {p : Params} {e : ErrCode} {t : Task} (h : p.codecCheck = some e)
    (ho : t.hasOutput = true) : e ∈ t.errors ∧ e.atStart = true := by
  unfold Params.codecCheck at h
  split at h
  · obtain rfl := Option.some.inj h
    cases t <;> first | decide | cases ho
  · split at h
    · obtain rfl := Option.some.inj h
      cases t <;> first | decide | cases ho
    · cases h

theorem Params.queryCheck_some {p : Params} {e : ErrCode} {t : Task} (h : p.queryCheck = some e)
    (hi : t.hasInput = true) : e ∈ t.errors ∧ e.atStart = true := by
  unfold Params.queryCheck at h
  split at h
  · obtain rfl := Option.some.inj h
    cases t <;> first | decide | cases hi
  · cases h

/-- The call of a finder from a position where one may be called. -/
theorem State.callFinder_inv {s : State} {r : Run} (h : s.Inv) (hr : s.engine = some r) (hs : r.phase.underway = true)
    (hf : r.finding) : (s.callFinder r).Inv := by
  unfold State.callFinder
  split
  · rename_i hc
    split
    · rename_i h3
      exact h.goto hr hs _ rfl s.freeTick ⟨.inl ⟨hc, hf⟩, h3, by simp⟩
    · exact h.goto hr hs _ rfl s.freeTick hf
  · exact h.move hr hs 0 0 r.hash _ rfl s.freeTick hf

theorem State.candidateDone_inv {s : State} {r : Run} (h : s.Inv) (hr : s.engine = some r) (hs : r.phase.underway = true)
    (hf : r.finding) (p k : Nat) (left : List Nat) (n : Nat) :
    (State.candidateDone { s with freeTick := n } r p k left).Inv := by
  unfold State.candidateDone
  split
  · exact h.move hr hs _ _ r.hash _ rfl n hf
  · exact h.goto hr hs _ rfl n hf

/-- What holds of a query or HASH3 once its start check has passed. -/
theorem Run.Ok.started {s : State} {r : Run} (h : r.Ok s) (hst : r.phase = .start) (ph : Phase)
    (hpe : ph.err = .none) (hin : r.snap.inRangeFails = false) (hno : r.task.hasOutput = false) (bd bl : Nat) (u : State)
    (hu : u.params = s.params ∧ u.done = s.done ∧ u.err = s.err ∧ u.tail = s.tail ∧ u.cursor = s.cursor)
    (hp : Run.phaseOk { r with bestDist := bd, bestLen := bl, phase := ph }) :
    Run.Ok { r with bestDist := bd, bestLen := bl, phase := ph } u := by
  have hj := h.phase
  simp only [Run.phaseOk, hst] at hj
  obtain ⟨h1, h2, h3, h4, h5⟩ := hu
  have hnc : r.task.isCompress = false ∧ r.task ≠ .decompress := by
    cases ht : r.task <;> simp_all [Task.isCompress, Task.hasOutput]
  exact
    { snap := h.snap.trans h1.symm
      status := ⟨h2.trans h.status.1, (h3.trans h.status.2).trans (by simp [hst, hpe])⟩
      tail := fun h' => by
        rw [h4, h.tail_eq_false (by simp [hst])] at h'
        cases h'
      inRange := fun _ _ => hin
      outRange := fun _ ho => by simp [hno] at ho
      apart := fun _ ho => by simp [hno] at ho
      progress := fun _ ho => by simp [hno] at ho
      cursor := fun _ ho => by simp [hno] at ho
      argument := fun _ => by rw [h5]; exact h.argument hno
      counts := fun _ => ⟨fun hc => by simp [hnc.1] at hc, fun hc => absurd hc hnc.2⟩
      room := fun _ ho => by simp [hno] at ho
      phase := hp
      journal := fun c hc => by
        have : r.journal = [] := hj
        simp [this] at hc }

/-- The progress registers once they take the engine's counts. -/
theorem Run.progress_fold (r : Run) (s : State) :
    r.progress.foldl State.update s =
      { s with
        cursor := BitVec.ofNat 32 r.cur, outLen := BitVec.ofNat 32 r.o, tokenCount := BitVec.ofNat 32 r.t } := rfl

theorem Run.progress_okFor (r q : Run) {next : After} (h : r.task.hasOutput = true) :
    ∀ u ∈ q.progress, u.okFor r.task next = true := by
  intro u hu
  simp only [Run.progress, List.mem_cons, List.not_mem_nil, or_false] at hu
  cases ht : r.task <;> simp [ht, Task.hasOutput] at h <;> rcases hu with rfl | rfl | rfl <;>
    simp [Update.okFor, Task.results]

/-- COMPRESS and DECOMPRESS once their start checks have passed: the counts are zero, and so are their registers in the
state `u` that the first updates lead to. -/
theorem Run.Ok.startedCodec {s : State} {r : Run} (h : r.Ok s) (hst : r.phase = .start) (next : After)
    (hchk : r.snap.codecCheck = none) (hout : r.task.hasOutput = true) (u : State)
    (hu : u.params = s.params ∧ u.done = s.done ∧ u.err = s.err ∧ u.tail = s.tail ∧ u.cursor = 0 ∧ u.outLen = 0 ∧
      u.tokenCount = 0)
    (ha : Run.afterOk { r with cur := 0, o := 0, t := 0 } next) :
    Run.Ok { r with cur := 0, o := 0, t := 0, phase := next.phase } u := by
  have hj := h.phase
  simp only [Run.phaseOk, hst] at hj
  obtain ⟨h1, h2, h3, h4, h5, h6, h7⟩ := hu
  obtain ⟨c1, c2, c3⟩ := Params.codecCheck_none hchk
  exact
    { snap := h.snap.trans h1.symm
      status := ⟨h2.trans h.status.1, (h3.trans h.status.2).trans (by simp [hst])⟩
      tail := fun h' => by
        rw [h4, h.tail_eq_false (by simp [hst])] at h'
        cases h'
      inRange := fun _ _ => c1
      outRange := fun _ _ => c2
      apart := fun _ _ => c3
      progress := fun _ _ => by
        have := Run.settled_after { r with cur := 0, o := 0, t := 0 } next u
        rw [this]
        exact ⟨h5, h6, h7⟩
      cursor := fun _ _ => Nat.zero_le _
      argument := fun ho => by simp [hout] at ho
      counts := fun _ => ⟨fun _ => rfl, fun _ => rfl⟩
      room := fun _ _ => Nat.zero_le _
      phase := Run.phaseOk_after ha
      journal := fun c hc => by
        have : r.journal = [] := hj
        simp [this] at hc }

/-- The end of a token or record: its counts go on, and their registers with them. -/
theorem State.progress_inv {s : State} {r : Run} (h : s.Inv) (hr : s.engine = some r) (hs : r.phase.underway = true)
    (next : After) (cur o t : Nat) (hout : r.task.hasOutput = true) (hcur : cur ≤ r.snap.n)
    (ho : o ≤ r.snap.outCap.toNat)
    (hc : (r.task.isCompress = true → o = 4 * t) ∧ (r.task = .decompress → cur = 4 * t))
    (ha : Run.afterOk { r with cur := cur, o := o, t := t } next) :
    (s.updates { r with cur := cur, o := o, t := t } (Run.progress { r with cur := cur, o := o, t := t }) next).Inv := by
  have hk := h.engine r hr
  have hns := Phase.begun_of_underway hs
  have ht := hk.tail_of_underway hs
  refine State.updates_inv h.memory h.index ht (Run.progress_okFor r _ hout) ?_ ha
  rw [Run.progress_fold]
  exact
    { hk with
      status := ⟨hk.status.1, (hk.err_of_underway hs).trans next.phase_err.symm⟩
      tail := fun h' => by
        have h'' : s.tail = true := h'
        simp [ht] at h''
      inRange := fun _ => hk.inRange hns
      outRange := fun _ => hk.outRange hns
      apart := fun _ => hk.apart hns
      progress := fun _ _ => by
        rw [show ∀ u, Run.settled { r with cur := cur, o := o, t := t, phase := next.phase } u = u from
          Run.settled_after { r with cur := cur, o := o, t := t } next]
        exact ⟨rfl, rfl, rfl⟩
      cursor := fun _ _ => hcur
      argument := fun hno => by simp [hout] at hno
      counts := fun _ => hc
      room := fun _ _ => ho
      phase := Run.phaseOk_after ha
      journal := fun c hc => ⟨hout, Run.begun_after ha, (hk.journal c hc).2.2⟩ }

/-- Every engine step keeps the invariant. -/
theorem State.stepPhase_inv {s : State} {r : Run} (h : s.Inv) (hr : s.engine = some r) : (s.stepPhase r).Inv := by
  have hk := h.engine r hr
  have hpo := hk.phase
  have hidle : ∀ e, r.phase.underway = true → (s.finish r e).Inv := fun e hs =>
    State.finish_inv e h.memory h.index (fun h' => by simp [hk.tail_of_underway hs] at h')
      (fun _ => hk.outRange (Phase.begun_of_underway hs))
  unfold State.stepPhase
  cases hp : r.phase with
  | start =>
    have htail : s.tail = false := hk.tail_eq_false (by simp [hp])
    simp only [State.stepStart]
    cases ht : r.task
    case nop =>
      exact State.finish_inv _ h.memory h.index (fun _ => rfl) (by simp [ht, Task.hasOutput])
    case indexClear =>
      exact State.finish_inv (s := { s with index := [] }) _ h.memory Index.wf_empty (fun _ => rfl)
        (by simp [ht, Task.hasOutput])
    case compressLin | compressHc =>
      simp only [State.startCompress]
      have hout : r.task.hasOutput = true := by rw [ht]; rfl
      have hcmp : r.task.isCompress = true := by rw [ht]; rfl
      split
      · rename_i e hchk
        have := Params.codecCheck_some hchk hout
        exact State.raise_inv_of_start _ h hr hp this.1 this.2
      · rename_i hchk
        refine State.updates_inv h.memory h.index htail ?_
          (hk.startedCodec hp .encodeTop hchk hout _ ⟨rfl, rfl, rfl, rfl, rfl, rfl, rfl⟩ hcmp) hcmp
        intro u hu
        rcases List.mem_cons.1 hu with rfl | hu
        · exact hcmp
        · exact Run.progress_okFor r _ hout u hu
    case decompress =>
      simp only [State.startDecompress]
      have hout : r.task.hasOutput = true := by rw [ht]; rfl
      split
      · rename_i e hchk
        have := Params.codecCheck_some hchk hout
        exact State.raise_inv_of_start _ h hr hp this.1 this.2
      · rename_i hchk
        exact State.updates_inv h.memory h.index htail (Run.progress_okFor r _ hout)
          (hk.startedCodec hp .recordRead hchk hout _ ⟨rfl, rfl, rfl, rfl, rfl, rfl, rfl⟩ ht) ht
    case findLinear | findHc =>
      have hno : r.task.hasOutput = false := by simp [ht, Task.hasOutput]
      have hq : r.finding := .inr (by rw [ht]; rfl)
      simp only [State.startFind]
      split
      · rename_i e hchk
        have := Params.queryCheck_some (t := r.task) hchk (by rw [ht]; rfl)
        exact State.raise_inv_of_start _ h hr hp this.1 this.2
      · rename_i hchk
        have hin := Params.queryCheck_none hchk
        have hgo : ∀ (bd bl : Nat) (ph : Phase), ph.err = .none → Run.phaseOk { r with bestDist := bd, bestLen := bl, phase := ph } →
            (s.goto { r with bestDist := bd, bestLen := bl } ph).Inv := by
          refine fun bd bl ph he hp' => ⟨h.memory, h.index, h.tail, fun r' hr' => ?_⟩
          obtain rfl : _ = r' := Option.some.inj hr'
          exact hk.started hp ph he hin hno bd bl _ ⟨rfl, rfl, rfl, rfl, rfl⟩ hp'
        unfold State.callFinder
        split
        · rename_i hc
          split
          · rename_i h3
            exact hgo r.bestDist r.bestLen _ rfl ⟨.inl ⟨hc, hq⟩, h3, by simp⟩
          · exact hgo r.bestDist r.bestLen _ rfl hq
        · exact hgo 0 0 _ rfl hq
    case hash3 =>
      have hno : r.task.hasOutput = false := by simp [ht, Task.hasOutput]
      simp only [State.startHash3]
      split
      · rename_i e hchk
        have := Params.queryCheck_some (t := r.task) hchk (by rw [ht]; rfl)
        exact State.raise_inv_of_start _ h hr hp this.1 this.2
      · rename_i hchk
        have hin := Params.queryCheck_none hchk
        split
        · rename_i h3
          refine ⟨h.memory, h.index, h.tail, fun r' hr' => ?_⟩
          obtain rfl : _ = r' := Option.some.inj hr'
          exact hk.started hp (.hashRead []) rfl hin hno r.bestDist r.bestLen _ ⟨rfl, rfl, rfl, rfl, rfl⟩
            ⟨.inr ht, h3, by simp⟩
        · refine State.updates_inv h.memory h.index htail ?_
            (hk.started hp (.ending .none) rfl hin hno r.bestDist r.bestLen _ ⟨rfl, rfl, rfl, rfl, rfl⟩
              (Task.none_mem_errors _)) trivial
          intro u hu
          obtain rfl : u = _ := List.mem_singleton.1 hu
          simp [Update.okFor, ht, Task.results]
  | encodeTop =>
    have hs : r.phase.underway = true := by rw [hp]; rfl
    simp only [Run.phaseOk, hp] at hpo
    simp only [State.stepEncodeTop]
    split
    · rename_i hc
      split
      · exact State.raise_inv _ h hr hs ⟨by cases ht : r.task <;> simp [ht, Task.isCompress] at hpo <;> decide, by simp⟩ rfl
      · rename_i hcap
        exact State.callFinder_inv h hr hs (.inl ⟨hpo, hc, by simpa [Config.tokenBytes] using hcap⟩)
    · exact hidle _ hs
  | hashRead bytes =>
    have hs : r.phase.underway = true := by rw [hp]; rfl
    simp only [Run.phaseOk, hp] at hpo
    obtain ⟨ht, h3, hl⟩ := hpo
    simp only [State.stepHashRead]
    refine State.fetch_inv h hr hs fun b n => ?_
    split
    · rename_i hlen
      exact h.goto hr hs _ rfl n ⟨ht, h3, by simpa [Config.hashBytes] using hlen⟩
    · split
      · rename_i hh
        refine h.updates hr hs _ _ n ?_ (fun ho => by simp [hh, Task.hasOutput] at ho) trivial
        intro u hu
        obtain rfl : u = _ := List.mem_singleton.1 hu
        simp [Update.okFor, hh, Task.results]
      · rename_i hh
        refine h.move hr hs 0 0 (hashBytes (bytes ++ [b])) _ rfl n ?_
        rcases ht with ht | ht
        · exact ht.2
        · exact absurd ht hh
  | candidates left =>
    have hs : r.phase.underway = true := by rw [hp]; rfl
    simp only [Run.phaseOk, hp] at hpo
    cases left with
    | nil =>
      simp only [State.stepCandidates, State.searchDone]
      split
      · split
        · rename_i hc _
          exact State.raise_inv _ h hr hs ⟨by cases ht : r.task <;> simp [ht, Task.usesChain] at hc <;> decide, by simp⟩ rfl
        · rename_i hc _
          refine h.updates hr hs _ _ s.freeTick ?_ ?_ (by split <;> exact hpo)
          · intro u hu
            unfold chainUpdates at hu
            split at hu <;> simp only [List.mem_cons, List.not_mem_nil, or_false] at hu
            · rcases hu with rfl | rfl <;> exact hc
            · obtain rfl := hu
              exact hc
          · intro _ u hu reg v
            unfold chainUpdates at hu
            split at hu <;> simp only [List.mem_cons, List.not_mem_nil, or_false] at hu
            · rcases hu with rfl | rfl <;> simp
            · simp [hu]
      · exact h.goto hr hs _ rfl s.freeTick hpo
    | cons p left =>
      simp only [State.stepCandidates]
      split
      · rename_i hw
        simp only [inWindow, Bool.and_eq_true, decide_eq_true_eq] at hw
        exact h.goto hr hs _ rfl s.freeTick ⟨hpo, hw.2⟩
      · exact h.goto hr hs _ rfl s.freeTick hpo
  | matching p k left =>
    have hs : r.phase.underway = true := by rw [hp]; rfl
    simp only [Run.phaseOk, hp] at hpo
    simp only [State.stepMatching]
    split
    · rename_i hc
      exact State.fetch_inv h hr hs fun v n => h.goto hr hs _ rfl n ⟨hpo.1, hpo.2, hc.2⟩
    · exact State.candidateDone_inv h hr hs hpo.1 p k left s.freeTick
  | comparing p k v left =>
    have hs : r.phase.underway = true := by rw [hp]; rfl
    simp only [Run.phaseOk, hp] at hpo
    simp only [State.stepComparing]
    refine State.fetch_inv h hr hs fun v' n => ?_
    split
    · exact h.goto hr hs _ rfl n ⟨hpo.1, hpo.2.1⟩
    · exact State.candidateDone_inv h hr hs hpo.1 p k left n
  | found d k =>
    have hs : r.phase.underway = true := by rw [hp]; rfl
    simp only [Run.phaseOk, hp] at hpo
    simp only [State.stepFound]
    split
    · rename_i hc
      have hroom : r.cur < r.snap.n ∧ r.o + 4 ≤ r.snap.outCap.toNat := by
        rcases hpo with hpo | hpo
        · exact hpo.2
        · simp [(Task.not_hasOutput_of_isQuery hpo).2] at hc
      split
      · rename_i hq
        simp only [Run.qualifies, Bool.and_eq_true, decide_eq_true_eq] at hq
        have hn : r.snap.n = r.snap.inLen.toNat := rfl
        exact State.fetch_inv h hr hs fun v n => h.goto hr hs _ rfl n ⟨hc, by dsimp only; omega, hroom.2, by omega⟩
      · exact State.fetch_inv h hr hs fun v n => h.goto hr hs _ rfl n ⟨hc, by dsimp only; omega, hroom.2, by omega⟩
    · rename_i hnc
      have hq : r.task.isQuery = true := by
        rcases hpo with hpo | hpo
        · exact absurd hpo.1 hnc
        · exact hpo
      refine h.updates hr hs _ _ s.freeTick ?_ (fun ho => by simp [(Task.not_hasOutput_of_isQuery hq).1] at ho) trivial
      intro u hu
      simp only [List.mem_cons, List.not_mem_nil, or_false] at hu
      cases ht : r.task <;> simp [ht, Task.isQuery] at hq <;> rcases hu with rfl | rfl <;>
        simp [Update.okFor, Task.results]
  | emit w k j =>
    have hs : r.phase.underway = true := by rw [hp]; rfl
    simp only [Run.phaseOk, hp] at hpo
    obtain ⟨hc, hcur, ho, hj⟩ := hpo
    have hout := Task.hasOutput_of_isCompress hc
    simp only [State.stepEmit]
    split
    · rename_i hj'
      simp only [Config.tokenBytes] at hj'
      exact State.store_inv h hr hs rfl hout (Params.inOutput_outAddr (by omega))
        fun _ => ⟨hc, hcur, ho, by omega⟩
    · have hc4 := (hk.counts (Phase.begun_of_underway hs)).1
      refine State.progress_inv h hr hs .encodeTop _ _ _ hout hcur ho ⟨fun hc => ?_, fun hd => ?_⟩ hc
      · have := hc4 hc
        simp only [Config.tokenBytes]
        omega
      · simp [hd, Task.isCompress] at hc
  | recordRead bytes =>
    have hs : r.phase.underway = true := by rw [hp]; rfl
    simp only [Run.phaseOk, hp] at hpo
    obtain ⟨ht, hl, hroom⟩ := hpo
    simp only [State.stepRecordRead]
    split
    · split
      · exact h.goto hr hs .trailing rfl s.freeTick ht
      · exact hidle _ hs
    · rename_i hc
      have h4 : r.cur + 4 ≤ r.snap.n := by
        by_cases hb : bytes = []
        · by_contra hn
          exact hc ⟨hb, hn⟩
        · exact hroom hb
      refine State.fetch_inv h hr hs fun b n => ?_
      match bytes, hl with
      | [], _ => exact h.goto hr hs _ rfl n ⟨ht, by simp, fun _ => h4⟩
      | [b0], _ => exact h.goto hr hs _ rfl n ⟨ht, by simp, fun _ => h4⟩
      | [b0, b1], _ => exact h.goto hr hs _ rfl n ⟨ht, by simp, fun _ => h4⟩
      | b0 :: b1 :: b2 :: bs, _ => exact h.goto hr hs _ rfl n ⟨ht, h4⟩
  | record w =>
    have hs : r.phase.underway = true := by rw [hp]; rfl
    simp only [Run.phaseOk, hp] at hpo
    obtain ⟨ht, h4⟩ := hpo
    simp only [State.stepRecord, State.startRecord]
    split
    · exact State.raise_inv _ h hr hs ⟨by rw [ht]; decide, by simp⟩ rfl
    · rename_i hcap
      refine h.goto hr hs _ rfl s.freeTick ⟨ht, h4, ?_⟩
      unfold copyCount at hcap
      dsimp only
      split at hcap
      · left
        omega
      · by_cases hoff : (recordOffset w).toNat = 0
        · right; omega
        · by_cases ho : r.o = 0
          · right; omega
          · left
            omega
  | copy start len lit i a =>
    have hs : r.phase.underway = true := by rw [hp]; rfl
    simp only [Run.phaseOk, hp] at hpo
    obtain ⟨ht, h4, hroom⟩ := hpo
    have hout : r.task.hasOutput = true := by simp [ht, Task.hasOutput]
    simp only [State.stepCopy]
    split
    · split
      · refine State.fetch_inv h hr hs fun v n => h.goto hr hs _ rfl n ⟨ht, h4, ?_⟩
        dsimp only
        omega
      · refine h.goto hr hs _ rfl s.freeTick ⟨ht, h4, ?_⟩
        dsimp only
        omega
    · refine State.store_inv h hr hs rfl hout (Params.inOutput_outAddr (by omega)) fun _ => ⟨ht, h4, by omega, ?_⟩
      dsimp only
      omega
  | copyWrite start len lit i a v =>
    have hs : r.phase.underway = true := by rw [hp]; rfl
    simp only [Run.phaseOk, hp] at hpo
    obtain ⟨ht, h4, hlt, ha, hi, hroom⟩ := hpo
    have hout : r.task.hasOutput = true := by simp [ht, Task.hasOutput]
    simp only [State.stepCopyWrite]
    refine State.store_inv h hr hs rfl hout (Params.inOutput_outAddr (by omega)) fun _ => ⟨ht, h4, ?_⟩
    left
    dsimp only
    omega
  | recordEnd a =>
    have hs : r.phase.underway = true := by rw [hp]; rfl
    simp only [Run.phaseOk, hp] at hpo
    obtain ⟨ht, h4, h1, hroom⟩ := hpo
    have hout : r.task.hasOutput = true := by simp [ht, Task.hasOutput]
    have hnc : r.task.isCompress = false := by simp [ht, Task.isCompress]
    simp only [State.stepRecordEnd]
    have hc4 := (hk.counts (Phase.begun_of_underway hs)).2
    refine State.progress_inv h hr hs .recordRead _ _ _ hout h4 hroom ⟨fun hc => by simp [hnc] at hc, fun hd => ?_⟩ ht
    have := hc4 hd
    simp only [Config.tokenBytes]
    omega
  | trailing =>
    have hs : r.phase.underway = true := by rw [hp]; rfl
    simp only [Run.phaseOk, hp] at hpo
    simp only [State.stepTrailing]
    refine ⟨h.memory, h.index, fun _ => hk.err_of_underway hs, fun r' hr' => ?_⟩
    obtain rfl : _ = r' := Option.some.inj hr'
    refine hk.rephase (Phase.begun_of_underway hs) (.ending .none) (by simp) r.bestDist r.bestLen r.hash r.regJournal _
      ⟨rfl, rfl, hk.err_of_underway hs⟩ (fun _ => ⟨hpo, rfl⟩) (fun q hq _ => ?_) (fun _ => rfl) (Task.none_mem_errors _)
    rw [Run.settled_of_underway hs, Run.settled, Run.todo, hq]
    exact ⟨rfl, rfl, rfl⟩
  | update u rest next => exact State.stepUpdate_inv h hr hp
  | raising e => exact State.stepRaising_inv h hr hp
  | ending e =>
    refine State.finish_inv e h.memory h.index (fun ht => ?_) (fun hat => hk.outRange (by simp [hp, hat]))
    have := (hk.tail ht).2
    rw [hp] at this
    exact Phase.ending.inj this

end Sys2Proof.Machine
end

