-- ==== Sys2Proof/Laws/Frame.lean ====
section
/-! SUPPORT. What a running command leaves alone (10_state.md R64, 20_memory.md R111), for one engine step and for any number
of them. -/

namespace Sys2Proof.Machine

/-- Whether a command may change the hash index (R64, R82). -/
def Task.writesIndex : Task → Bool
  | .compressLin | .compressHc | .findHc | .indexClear => true
  | .nop | .decompress | .findLinear | .hash3 => false

/-- `t` differs from `s` only where a command of this task with these parameters may write (R64, R111). -/
structure Frame (task : Task) (snap : Params) (s t : State) : Prop where
  irqEn : t.irqEn = s.irqEn
  ign : t.ign = s.ign
  params : t.params = s.params
  platform : t.platform = s.platform
  pending : t.pending = s.pending
  readback : t.readback = s.readback
  stale : t.stale = s.stale
  memory : ∀ a, (task.hasOutput = true → snap.inOutput a = false) → Memory.read t.mem a = Memory.read s.mem a
  counts : task.hasOutput = false →
    t.cursor = s.cursor ∧ t.outLen = s.outLen ∧ t.tokenCount = s.tokenCount ∧ t.mem = s.mem
  matches_ : task.isQuery = false → t.matchDist = s.matchDist ∧ t.matchLen = s.matchLen
  hash : task ≠ .hash3 → t.hashValue = s.hashValue ∧ t.hashValid = s.hashValid
  index : task.writesIndex = false → t.index = s.index
  engine : ∀ r, t.engine = some r → r.task = task ∧ r.snap = snap

theorem Frame.trans {task : Task} {snap : Params} {s t u : State} (h : Frame task snap s t) (h' : Frame task snap t u) :
    Frame task snap s u where
  irqEn := h'.irqEn.trans h.irqEn
  ign := h'.ign.trans h.ign
  params := h'.params.trans h.params
  platform := h'.platform.trans h.platform
  pending := h'.pending.trans h.pending
  readback := h'.readback.trans h.readback
  stale := h'.stale.trans h.stale
  memory a ha := (h'.memory a ha).trans (h.memory a ha)
  counts ht := by
    obtain ⟨a1, a2, a3, a4⟩ := h.counts ht
    obtain ⟨b1, b2, b3, b4⟩ := h'.counts ht
    exact ⟨b1.trans a1, b2.trans a2, b3.trans a3, b4.trans a4⟩
  matches_ ht := ⟨(h'.matches_ ht).1.trans (h.matches_ ht).1, (h'.matches_ ht).2.trans (h.matches_ ht).2⟩
  hash ht := ⟨(h'.hash ht).1.trans (h.hash ht).1, (h'.hash ht).2.trans (h.hash ht).2⟩
  index ht := (h'.index ht).trans (h.index ht)
  engine := h'.engine

theorem Frame.of_end {s t : State} {r : Run} (h : EndFrame s t r) (ht : t.engine = none) : Frame r.task r.snap s t :=
  { h with
    matches_ := fun hq => h.matches_ (by rintro h'; simp [h', Task.isQuery] at hq) (by rintro h'; simp [h', Task.isQuery] at hq)
    index := fun _ => h.index
    engine := fun r' h' => by simp [ht] at h' }

/-- The end of a command whose last register writes are within its frame. -/
theorem State.finish_inFrame {s s' : State} {r : Run} (e : ErrCode) (h : Frame r.task r.snap s s') :
    Frame r.task r.snap s (s'.finish r e) :=
  h.trans (Frame.of_end (State.finish_frame s' r e) (by simp))

theorem State.goto_inFrame {s s' : State} {r r' : Run} (ph : Phase) (h : Frame r.task r.snap s s')
    (ht : r'.task = r.task) (hs : r'.snap = r.snap) : Frame r.task r.snap s (s'.goto r' ph) :=
  { h with
    engine := fun q hq => by
      obtain rfl : _ = q := Option.some.inj hq
      exact ⟨ht, hs⟩ }

theorem Frame.refl {s : State} {r : Run} (hr : s.engine = some r) : Frame r.task r.snap s s where
  irqEn := rfl
  ign := rfl
  params := rfl
  platform := rfl
  pending := rfl
  readback := rfl
  stale := rfl
  memory _ _ := rfl
  counts _ := ⟨rfl, rfl, rfl, rfl⟩
  matches_ _ := ⟨rfl, rfl⟩
  hash _ := ⟨rfl, rfl⟩
  index _ := rfl
  engine q hq := by
    obtain rfl : r = q := Option.some.inj (hr.symm.trans hq)
    exact ⟨rfl, rfl⟩

/-- The values another choice of the counter leaves in place. -/
theorem Frame.tick {task : Task} {snap : Params} {s t : State} (h : Frame task snap s t) (n : Nat) :
    Frame task snap s { t with freeTick := n } := { h with }

theorem Task.writesIndex_of_usesChain {t : Task} (h : t.usesChain = true) : t.writesIndex = true := by
  cases t <;> simp_all [Task.usesChain, Task.writesIndex]

theorem Task.writesIndex_of_isCompress {t : Task} (h : t.isCompress = true) : t.writesIndex = true := by
  cases t <;> simp_all [Task.isCompress, Task.writesIndex]

/-- An update stays within the frame of a task that may make it. -/
theorem State.update_inFrame {s s' : State} {task : Task} {snap : Params} {u : Update} {next : After}
    (h : Frame task snap s s') (hu : u.okFor task next = true) : Frame task snap s (s'.update u) := by
  cases u with
  | result reg v =>
    simp only [Update.okFor, Bool.and_eq_true, decide_eq_true_eq] at hu
    have hmem := hu.1
    cases reg <;> exact
      { h with
        counts := fun ho => by
          first | exact h.counts ho | (cases task <;> simp [Task.results, Task.hasOutput] at hmem ho)
        matches_ := fun hq => by
          first | exact h.matches_ hq | (cases task <;> simp [Task.results, Task.isQuery] at hmem hq)
        hash := fun hh => by
          first | exact h.hash hh | (cases task <;> simp [Task.results] at hmem hh) }
  | clearIndex =>
    exact { h with index := fun h' => by simp [Task.writesIndex_of_isCompress hu] at h' }
  | bucket k ps =>
    exact { h with index := fun h' => by simp [Task.writesIndex_of_usesChain hu] at h' }

/-- The engine that has a row of updates before it. -/
theorem State.updates_inFrame {s s' : State} {r r' : Run} (us : List Update) (next : After)
    (h : Frame r.task r.snap s s') (ht : r'.task = r.task) (hs : r'.snap = r.snap) :
    Frame r.task r.snap s (s'.updates r' us next) := by
  cases us <;> exact State.goto_inFrame _ h ht hs

theorem State.raiseBus_inFrame {s : State} {r : Run} (a : Nat) (h : s.Inv) (hr : s.engine = some r) :
    Frame r.task r.snap s (s.raiseBus r a) := by
  have hb := fun b => State.failingBytes_spec (s := s) (b := b) (h.engine r hr)
  obtain ⟨m, n, j, he, -, hread, -, hnone⟩ := State.raiseBus_spec s r a
  rw [he]
  refine State.goto_inFrame (r := r) _ ?_ rfl rfl
  refine
    { Frame.refl hr with
      memory := fun x hx => ?_
      counts := fun hno => ?_ }
  · refine hread x fun b hbm hbx => ?_
    obtain ⟨-, ho, -, hin⟩ := hb b hbm
    have := hx ho
    rw [← hbx, hin] at this
    exact absurd this (by simp)
  · have : s.failingBytes r = [] := by
      rcases hl : s.failingBytes r with _ | ⟨b, l⟩
      · rfl
      · have := (hb b (by simp [hl])).2.1
        simp [hno] at this
    exact ⟨rfl, rfl, rfl, (hnone this).1⟩

theorem State.fetch_inFrame {s : State} {r : Run} {a : Nat} {k : Byte → State → State} (h : s.Inv)
    (hr : s.engine = some r) (hk : ∀ v n, Frame r.task r.snap s (k v { s with freeTick := n })) :
    Frame r.task r.snap s (s.fetch r a k) := by
  rcases State.fetch_spec s r a k with ⟨-, he⟩ | ⟨-, v, n, he, -⟩
  · rw [he]
    exact State.raiseBus_inFrame a h hr
  · rw [he]; exact hk v n

theorem State.store_inFrame {s : State} {r : Run} {a : Nat} {v : Byte} {ph : Phase} (h : s.Inv) (hr : s.engine = some r)
    (ho : r.task.hasOutput = true) (ha : r.snap.inOutput a = true) :
    Frame r.task r.snap s (s.store r a v fun r s => s.goto r ph) := by
  rcases State.store_spec s r a v (fun r s => s.goto r ph) with ⟨-, he⟩ | ⟨-, v', n, he, -⟩
  · rw [he]
    exact State.raiseBus_inFrame a h hr
  · rw [he]
    refine State.goto_inFrame (r := r) ph ?_ rfl rfl
    refine
      { Frame.refl hr with
        memory := fun x hx => Memory.read_write_ne _ _ ?_
        counts := fun hno => by simp [ho] at hno }
    rintro rfl
    have := hx ho
    rw [ha] at this
    exact absurd this (by simp)

theorem State.raise_inFrame {s : State} {r : Run} (e : ErrCode) (hr : s.engine = some r) :
    Frame r.task r.snap s (s.raise r e) :=
  State.goto_inFrame _ (Frame.refl hr) rfl rfl

theorem State.callFinder_inFrame {s : State} {r : Run} (hr : s.engine = some r) :
    Frame r.task r.snap s (s.callFinder r) := by
  unfold State.callFinder State.search
  split
  · split <;> exact State.goto_inFrame _ (Frame.refl hr) rfl rfl
  · exact State.goto_inFrame _ (Frame.refl hr) rfl rfl

theorem State.candidateDone_inFrame {s : State} {r : Run} (hr : s.engine = some r) (p k : Nat) (left : List Nat) (n : Nat) :
    Frame r.task r.snap s (State.candidateDone { s with freeTick := n } r p k left) := by
  unfold State.candidateDone
  split <;> exact State.goto_inFrame _ ((Frame.refl hr).tick n) rfl rfl

/-- The first step of a command stays within its frame. -/
theorem State.stepStart_inFrame {s : State} {r : Run} (hr : s.engine = some r) :
    Frame r.task r.snap s (s.stepStart r) := by
  have hrefl := Frame.refl hr
  have hcompress : r.task.isCompress = true → Frame r.task r.snap s (s.startCompress r) := by
    intro ht
    unfold State.startCompress
    split
    · exact State.raise_inFrame _ hr
    · exact State.updates_inFrame _ _ hrefl rfl rfl
  have hdecompress : r.task = .decompress → Frame r.task r.snap s (s.startDecompress r) := by
    intro ht
    unfold State.startDecompress
    split
    · exact State.raise_inFrame _ hr
    · exact State.updates_inFrame _ _ hrefl rfl rfl
  have hfind : Frame r.task r.snap s (s.startFind r) := by
    unfold State.startFind
    split
    · exact State.raise_inFrame _ hr
    · exact State.callFinder_inFrame hr
  have hhash : r.task = .hash3 → Frame r.task r.snap s (s.startHash3 r) := by
    intro ht
    unfold State.startHash3
    split
    · exact State.raise_inFrame _ hr
    · split
      · exact State.goto_inFrame _ hrefl rfl rfl
      · exact State.updates_inFrame _ _ hrefl rfl rfl
  have hclear : r.task = .indexClear → Frame r.task r.snap s (State.finish { s with index := [] } r .none) := by
    intro ht
    exact State.finish_inFrame _ { hrefl with index := fun h' => by simp [ht, Task.writesIndex] at h' }
  unfold State.stepStart
  split
  · exact State.finish_inFrame _ hrefl
  · exact hclear ‹_›
  · exact hcompress (by simp [*, Task.isCompress])
  · exact hcompress (by simp [*, Task.isCompress])
  · exact hdecompress ‹_›
  · exact hfind
  · exact hfind
  · exact hhash ‹_›

/-- One engine step stays within the running command's frame. -/
theorem State.stepPhase_inFrame {s : State} {r : Run} (h : s.Inv) (hr : s.engine = some r) :
    Frame r.task r.snap s (s.stepPhase r) := by
  have hpo := (h.engine r hr).phase
  have hrefl := Frame.refl hr
  unfold State.stepPhase
  cases hp : r.phase with
  | start => exact State.stepStart_inFrame hr
  | encodeTop =>
    simp only [State.stepEncodeTop]
    split
    · split
      · exact State.raise_inFrame _ hr
      · exact State.callFinder_inFrame hr
    · exact State.finish_inFrame _ hrefl
  | hashRead bytes =>
    simp only [State.stepHashRead]
    refine State.fetch_inFrame h hr fun b n => ?_
    split
    · exact State.goto_inFrame _ (hrefl.tick n) rfl rfl
    · split
      · exact State.updates_inFrame (r := r) _ _ (hrefl.tick n) rfl rfl
      · exact State.goto_inFrame (r := r) _ (hrefl.tick n) rfl rfl
  | candidates left =>
    cases left with
    | nil =>
      simp only [State.stepCandidates, State.searchDone]
      split
      · split
        · exact State.raise_inFrame _ hr
        · exact State.updates_inFrame _ _ hrefl rfl rfl
      · exact State.goto_inFrame _ hrefl rfl rfl
    | cons p left =>
      simp only [State.stepCandidates]
      split <;> exact State.goto_inFrame _ hrefl rfl rfl
  | matching p k left =>
    simp only [State.stepMatching]
    split
    · exact State.fetch_inFrame h hr fun v n => State.goto_inFrame _ (hrefl.tick n) rfl rfl
    · exact State.candidateDone_inFrame hr p k left s.freeTick
  | comparing p k v left =>
    simp only [State.stepComparing]
    refine State.fetch_inFrame h hr fun v' n => ?_
    split
    · exact State.goto_inFrame _ (hrefl.tick n) rfl rfl
    · exact State.candidateDone_inFrame hr p k left n
  | found d k =>
    simp only [Run.phaseOk, hp] at hpo
    simp only [State.stepFound]
    split
    · split <;> exact State.fetch_inFrame h hr fun v n => State.goto_inFrame _ (hrefl.tick n) rfl rfl
    · exact State.updates_inFrame _ _ hrefl rfl rfl
  | emit w k j =>
    simp only [Run.phaseOk, hp] at hpo
    obtain ⟨hc, -, ho, hj⟩ := hpo
    have hout := Task.hasOutput_of_isCompress hc
    simp only [State.stepEmit]
    split
    · rename_i hj'
      simp only [Config.tokenBytes] at hj'
      exact State.store_inFrame h hr hout (Params.inOutput_outAddr (by omega))
    · exact State.updates_inFrame (r := r) _ _ hrefl rfl rfl
  | recordRead bytes =>
    simp only [State.stepRecordRead]
    split
    · split
      · exact State.goto_inFrame _ hrefl rfl rfl
      · exact State.finish_inFrame _ hrefl
    · refine State.fetch_inFrame h hr fun b n => ?_
      split <;> exact State.goto_inFrame _ (hrefl.tick n) rfl rfl
  | record w =>
    simp only [State.stepRecord, State.startRecord]
    split
    · exact State.raise_inFrame _ hr
    · exact State.goto_inFrame _ hrefl rfl rfl
  | copy start len lit i a =>
    simp only [Run.phaseOk, hp] at hpo
    obtain ⟨ht, -, hroom⟩ := hpo
    have hout : r.task.hasOutput = true := by simp [ht, Task.hasOutput]
    simp only [State.stepCopy]
    split
    · split
      · exact State.fetch_inFrame h hr fun v n => State.goto_inFrame _ (hrefl.tick n) rfl rfl
      · exact State.goto_inFrame _ hrefl rfl rfl
    · exact State.store_inFrame h hr hout (Params.inOutput_outAddr (by omega))
  | copyWrite start len lit i a v =>
    simp only [Run.phaseOk, hp] at hpo
    have hout : r.task.hasOutput = true := by simp [hpo.1, Task.hasOutput]
    simp only [State.stepCopyWrite]
    exact State.store_inFrame h hr hout (Params.inOutput_outAddr (by omega))
  | recordEnd a =>
    simp only [State.stepRecordEnd]
    exact State.updates_inFrame (r := r) _ _ hrefl rfl rfl
  | trailing => exact State.goto_inFrame (s' := { s with tail := true }) _ { hrefl with } rfl rfl
  | update u rest next =>
    simp only [Run.phaseOk, hp] at hpo
    obtain ⟨regs, hn⟩ := Run.note_eq r s u
    simp only [State.stepUpdate, hn]
    exact State.updates_inFrame _ _ (State.update_inFrame hrefl (hpo.1 u List.mem_cons_self)) rfl rfl
  | raising e => exact State.goto_inFrame (s' := { s with err := e }) _ { hrefl with } rfl rfl
  | ending e => exact State.finish_inFrame e hrefl

/-- Any number of engine steps keeps the invariant and stays within the running command's frame. -/
theorem State.runSteps_inFrame {s : State} {r : Run} (h : s.Inv) (hr : s.engine = some r) (k : Nat) :
    (State.runSteps k s).Inv ∧ Frame r.task r.snap s (State.runSteps k s) := by
  induction k generalizing s r with
  | zero => exact ⟨h, Frame.refl hr⟩
  | succ k ih =>
    have hb : s.busy = true := State.busy_iff.2 ⟨r, hr⟩
    simp only [State.runSteps, hb, if_true, State.engineStep_busy hr]
    have hi := State.stepPhase_inv h hr
    have hf := State.stepPhase_inFrame h hr
    rcases he : (s.stepPhase r).engine with _ | r'
    · have hidle : State.runSteps k (s.stepPhase r) = s.stepPhase r := by
        rw [State.runSteps_eq_iterate, State.iterate_idle he]
      rw [hidle]
      exact ⟨hi, hf⟩
    · obtain ⟨ht, hs⟩ := hf.engine r' he
      obtain ⟨h1, h2⟩ := ih hi he
      rw [ht, hs] at h2
      exact ⟨h1, hf.trans h2⟩

end Sys2Proof.Machine
end

