-- ==== Sys2Proof/Laws/Run.lean ====
section
/-! SUPPORT. A command runs to its end (45_control.md R360, 70_reset_and_hazards.md R470): the engine falls idle within the
bound, so what a command leaves is any idle state its engine steps reach. -/

namespace Sys2Proof.Machine

/-- R470: within the bound the engine falls idle. -/
theorem State.runSteps_idle {s : State} (h : s.Inv) (k : Nat) (hk : s.stepsBound ≤ k) :
    (State.runSteps k s).engine = none := by
  induction k generalizing s with
  | zero =>
    rcases hr : s.engine with _ | r
    · exact hr
    · have hb := State.stepPhase_bound s r h.index
      have : s.stepsBound = r.stepsBound s := by simp [State.stepsBound, hr]
      omega
  | succ k ih =>
    rcases hr : s.engine with _ | r
    · rw [State.runSteps_eq_iterate, State.iterate_idle hr]
      exact hr
    · have hb := State.stepPhase_bound s r h.index
      have he : s.stepsBound = r.stepsBound s := by simp [State.stepsBound, hr]
      simp only [State.runSteps, State.busy_iff.2 ⟨r, hr⟩, if_true, State.engineStep_busy hr]
      exact ih (State.stepPhase_inv h hr) (by omega)

theorem State.runToEnd_idle {s : State} (h : s.Inv) : s.runToEnd.engine = none :=
  State.runSteps_idle h _ le_rfl

theorem State.reaches_runSteps (s : State) (k : Nat) : State.Reaches s (State.runSteps k s) :=
  ⟨k, (State.runSteps_eq_iterate k s).symm⟩

/-- What a command leaves is the idle state its steps reach. -/
theorem State.runToEnd_eq {s t : State} (h : s.Inv) (hr : State.Reaches s t) (ht : t.engine = none) : s.runToEnd = t :=
  State.Reaches.idle_unique (State.reaches_runSteps s _) hr (State.runToEnd_idle h) ht

/-- The engine that runs to its end, run on from any point of the way, ends the same. -/
theorem State.runToEnd_reaches {s t : State} (h : s.Inv) (h' : t.Inv) (hr : State.Reaches s t) :
    s.runToEnd = t.runToEnd :=
  State.runToEnd_eq h (hr.trans (State.reaches_runSteps t _)) (State.runToEnd_idle h')

theorem State.advance_waits {s : State} (h : s.hostWaits = true) : s.advance = s.runToEnd := by
  unfold State.advance State.hostWaits at *
  rcases hp : s.pending with _ | ⟨e, rest⟩
  · rfl
  · simp only [hp] at h ⊢
    rcases hd : e.delay with _ | k
    · rfl
    · simp [hd] at h

theorem State.advance_steps (s : State) : ∃ k, s.advance = State.runSteps k s := by
  unfold State.advance
  split
  · exact ⟨_, rfl⟩
  · split
    · exact ⟨_, rfl⟩
    · exact ⟨_, rfl⟩

/-- An accepted command starts within the invariant. -/
theorem State.accept_inv {s : State} (h : s.Inv) (task : Task) : (s.accept task).Inv where
  memory := h.memory
  index := h.index
  tail := by simp
  engine r hr := by
    obtain rfl : Run.init task s = r := Option.some.inj hr
    exact
      { snap := rfl
        status := ⟨rfl, rfl⟩
        tail := fun h' => by simp at h'
        inRange := nofun
        outRange := nofun
        apart := nofun
        progress := nofun
        cursor := nofun
        argument := fun _ => rfl
        counts := nofun
        room := nofun
        phase := rfl
        journal := fun c hc => by simp [Run.init] at hc }

theorem State.offer_idle {s : State} (h : s.busy = false) (task : Task) : s.offer task = s.accept task := by
  simp [State.offer, h]

/-- A command offered to an idle block whose host waits leaves the idle state its engine steps reach. -/
theorem State.offer_advance {s t : State} {task : Task} (h : s.Inv) (hb : s.busy = false) (hw : s.hostWaits = true)
    (hr : State.Reaches (s.accept task) t) (ht : t.engine = none) : (s.offer task).advance = t := by
  rw [State.offer_idle hb, State.advance_waits (by simpa [State.hostWaits] using hw),
    State.runToEnd_eq (State.accept_inv h task) hr ht]

/-- The invariant is kept over any number of engine steps. -/
theorem State.runSteps_inv {s : State} (h : s.Inv) (k : Nat) : (State.runSteps k s).Inv := by
  induction k generalizing s with
  | zero => exact h
  | succ k ih =>
    rcases hr : s.engine with _ | r
    · rwa [State.runSteps_eq_iterate, State.iterate_idle hr]
    · simp only [State.runSteps, State.busy_iff.2 ⟨r, hr⟩, if_true, State.engineStep_busy hr]
      exact ih (State.stepPhase_inv h hr)

/-- A command whose first step ends it. -/
theorem State.runToEnd_start {s : State} {r : Run} (hr : s.engine = some r) (hp : r.phase = .start)
    (h : (s.stepPhase r).engine = none) : s.runToEnd = s.stepPhase r := by
  have hb : ∃ n, s.stepsBound = n + 1 :=
    ⟨s.stepsBound - 1, by
      have : 0 < s.stepsBound := by simp [State.stepsBound, hr, Run.stepsBound, hp]
      omega⟩
  obtain ⟨n, hn⟩ := hb
  rw [State.runToEnd, hn, State.runSteps, if_pos (State.busy_iff.2 ⟨r, hr⟩), State.engineStep_busy hr,
    State.runSteps_eq_iterate, State.iterate_idle h]

/-- The same of a command offered to an idle block whose host waits. -/
theorem State.offer_advance_start {s : State} {task : Task} (h : s.Ready)
    (he : ((s.accept task).stepPhase (Run.init task s)).engine = none) :
    (s.offer task).advance = (s.accept task).stepPhase (Run.init task s) := by
  rw [State.offer_idle h.idle, State.advance_waits (by simpa [State.hostWaits] using h.waits)]
  exact State.runToEnd_start rfl rfl he

end Sys2Proof.Machine
end

