-- ==== Sys2Proof/Laws/Host.lean ====
section
/-! SUPPORT. The engine depends on no coming host access but for how long it runs, and on no value the host has read
(60_exceptions.md R413); the polling loop of WAIT (30_encoding.md R170) ends with the running command. -/

namespace Sys2Proof.Machine

/-! ### The engine does not look at the host -/

/-- The state with other coming accesses and other values read. -/
def State.hosted (s : State) (p : List HostEvent) (rb : List ReadRecord) : State := { s with pending := p, readback := rb }

variable (s : State) (p : List HostEvent) (rb : List ReadRecord)

theorem State.hosted_choose {α : Type} (v : α) (os : List α) :
    (s.hosted p rb).choose v os = ((s.choose v os).1, (s.choose v os).2.hosted p rb) := by
  cases os <;> rfl

theorem State.hosted_blur (bs : List Blur) : (s.hosted p rb).blur bs = (s.blur bs).hosted p rb := by
  induction bs generalizing s with
  | nil => rfl
  | cons b bs ih =>
    exact ih { s with
      mem := Memory.write s.mem b.addr (if Config.freeBool s.freeTick then b.new else b.old)
      freeTick := s.freeTick + 1 }

theorem State.hosted_scrambleBytes (a n : Nat) : (s.hosted p rb).scrambleBytes a n = (s.scrambleBytes a n).hosted p rb := by
  induction n generalizing s a with
  | zero => rfl
  | succ n ih =>
    exact ih { s with mem := Memory.write s.mem a (Config.freeByte s.freeTick), freeTick := s.freeTick + 1 } (a + 1)

theorem State.hosted_setResult (reg : ResultReg) (v : Word) :
    (s.hosted p rb).setResult reg v = (s.setResult reg v).hosted p rb := by cases reg <;> rfl

theorem State.hosted_result (reg : ResultReg) : (s.hosted p rb).result reg = s.result reg := by cases reg <;> rfl

theorem State.hosted_scrambleResults (regs : List ResultReg) :
    (s.hosted p rb).scrambleResults regs = (s.scrambleResults regs).hosted p rb := by
  induction regs generalizing s with
  | nil => rfl
  | cons reg regs ih =>
    rw [State.scrambleResults, State.scrambleResults, ← ih, ← State.hosted_setResult]
    rfl

theorem State.hosted_scramble (r : Run) : (s.hosted p rb).scramble r = (s.scramble r).hosted p rb := by
  unfold State.scramble
  dsimp only
  have h := fun t : State => State.hosted_scrambleResults t p rb r.task.results
  split
  · rw [← State.hosted_scrambleBytes, ← h]; rfl
  · rw [← h]; rfl

theorem State.hosted_finish (r : Run) (e : ErrCode) : (s.hosted p rb).finish r e = (s.finish r e).hosted p rb := by
  unfold State.finish
  dsimp only
  split
  · rfl
  · have h := State.hosted_scramble
      { s with
        engine := none, done := true, err := e
        unseen := Unseen.append { cells := r.journal, regs := r.regJournal } s.unseen } p rb r
    have hb : ∀ t : State, (t.hosted p rb).beforeScramble r = t.beforeScramble r := by
      intro t
      simp only [State.beforeScramble, State.hosted_result]
      rfl
    have hb := hb { s with
        engine := none, done := true, err := e
        unseen := Unseen.append { cells := r.journal, regs := r.regJournal } s.unseen }
    simp only [State.hosted] at h hb ⊢
    rw [h, hb]

theorem State.hosted_update (u : Update) : (s.hosted p rb).update u = (s.update u).hosted p rb := by
  cases u
  · exact State.hosted_setResult ..
  · rfl
  · rfl

theorem Run.note_hosted (r : Run) (u : Update) : r.note (s.hosted p rb) u = r.note s u := by
  cases u
  · simp [Run.note, State.hosted_result]
  · rfl
  · rfl

theorem State.hosted_updates (r : Run) (us : List Update) (next : After) :
    (s.hosted p rb).updates r us next = (s.updates r us next).hosted p rb := by cases us <;> rfl

theorem State.hosted_raiseBus (r : Run) (a : Nat) : (s.hosted p rb).raiseBus r a = (s.raiseBus r a).hosted p rb := by
  have h : (s.hosted p rb).passSupposed r = (s.passSupposed r).hosted p rb := by
    unfold State.passSupposed; split <;> rfl
  have hb : (s.hosted p rb).failingBytes r = s.failingBytes r := rfl
  unfold State.raiseBus
  dsimp only
  rw [h, hb, State.hosted_blur, State.hosted_updates]
  rfl

theorem State.hosted_fetch {r : Run} {a : Nat} {k k' : Byte → State → State} (hk : ∀ v t, k v (t.hosted p rb) = (k' v t).hosted p rb) :
    (s.hosted p rb).fetch r a k = (s.fetch r a k').hosted p rb := by
  have ho : (s.hosted p rb).observe r a = ((s.observe r a).1, (s.observe r a).2.hosted p rb) := by
    unfold State.observe
    show (if s.platform.hasSideEffects a = true then _ else _) = _
    split
    · rfl
    · split
      · rfl
      · exact State.hosted_choose ..
  unfold State.fetch
  show (if s.platform.admits a .read = true then _ else _) = _
  split
  · rw [ho]; exact hk _ _
  · exact State.hosted_raiseBus ..

theorem State.hosted_store {r : Run} {a : Nat} {v : Byte} {k k' : Run → State → State} (hk : ∀ q t, k q (t.hosted p rb) = (k' q t).hosted p rb) :
    (s.hosted p rb).store r a v k = (s.store r a v k').hosted p rb := by
  unfold State.store
  show (if s.platform.admits a .write = true then _ else _) = _
  split
  · show (if s.platform.hasSideEffects a = true then _ else _) = _
    dsimp only
    split
    · exact hk { r with journal := (a, Memory.read s.mem a) :: r.journal }
        { s with mem := Memory.write s.mem a (Config.freeByte s.freeTick), freeTick := s.freeTick + 1 }
    · exact hk { r with journal := (a, Memory.read s.mem a) :: r.journal } { s with mem := Memory.write s.mem a v }
  · exact State.hosted_raiseBus ..

theorem State.hosted_callFinder (r : Run) : (s.hosted p rb).callFinder r = (s.callFinder r).hosted p rb := by
  unfold State.callFinder; repeat' split
  all_goals rfl

theorem State.hosted_stepPhase (r : Run) : (s.hosted p rb).stepPhase r = (s.stepPhase r).hosted p rb := by
  unfold State.stepPhase
  split
  · unfold State.stepStart
    split
    · exact State.hosted_finish ..
    · exact State.hosted_finish { s with index := [] } ..
    · unfold State.startCompress; split; rfl; rfl
    · unfold State.startCompress; split; rfl; rfl
    · unfold State.startDecompress; split; rfl; rfl
    · unfold State.startFind; split; rfl; exact State.hosted_callFinder ..
    · unfold State.startFind; split; rfl; exact State.hosted_callFinder ..
    · unfold State.startHash3; repeat' split
      all_goals rfl
  · unfold State.stepEncodeTop; repeat' split
    · rfl
    · exact State.hosted_callFinder ..
    · exact State.hosted_finish ..
  · refine State.hosted_fetch s p rb fun v t => ?_
    repeat' split
    all_goals rfl
  · rename_i left _
    cases left with
    | nil =>
      simp only [State.stepCandidates, State.searchDone]
      have : (s.hosted p rb).indexFull = s.indexFull := rfl
      rw [this]
      repeat' split
      all_goals rfl
    | cons q left =>
      simp only [State.stepCandidates]; split <;> rfl
  · unfold State.stepMatching; split
    · exact State.hosted_fetch s p rb fun v t => rfl
    · rfl
  · refine State.hosted_fetch s p rb fun v t => ?_
    split <;> rfl
  · unfold State.stepFound; repeat' split
    · exact State.hosted_fetch s p rb fun v t => rfl
    · exact State.hosted_fetch s p rb fun v t => rfl
    · rfl
  · unfold State.stepEmit; split
    · exact State.hosted_store s p rb fun v t => rfl
    · rfl
  · unfold State.stepRecordRead; repeat' split
    · rfl
    · exact State.hosted_finish ..
    · exact State.hosted_fetch s p rb fun v t => rfl
    · exact State.hosted_fetch s p rb fun v t => rfl
  · unfold State.stepRecord State.startRecord; split <;> rfl
  · unfold State.stepCopy; repeat' split
    · exact State.hosted_fetch s p rb fun v t => rfl
    · rfl
    · exact State.hosted_store s p rb fun v t => rfl
  · exact State.hosted_store s p rb fun v t => rfl
  · rfl
  · rfl
  · rw [State.stepUpdate, State.hosted_update, Run.note_hosted, State.hosted_updates]; rfl
  · rfl
  · exact State.hosted_finish ..

theorem State.hosted_engineStep : (s.hosted p rb).engineStep = s.engineStep.hosted p rb := by
  show (match s.engine with
    | none => s.hosted p rb
    | some r => (s.hosted p rb).stepPhase r) = (match s.engine with
    | none => s
    | some r => s.stepPhase r).hosted p rb
  cases s.engine with
  | none => rfl
  | some r => exact State.hosted_stepPhase s p rb r

theorem State.hosted_runSteps (k : Nat) : State.runSteps k (s.hosted p rb) = (State.runSteps k s).hosted p rb := by
  induction k generalizing s with
  | zero => rfl
  | succ k ih =>
    show (if s.busy then _ else _) = (if s.busy then _ else s).hosted p rb
    split
    · rw [State.hosted_engineStep, ih]
    · rfl

theorem State.hosted_foldl_update (us : List Update) :
    us.foldl State.update (s.hosted p rb) = (us.foldl State.update s).hosted p rb := by
  induction us generalizing s with
  | nil => rfl
  | cons u us ih => rw [List.foldl_cons, State.hosted_update, ih, List.foldl_cons]

theorem State.hosted_stepsBound : (s.hosted p rb).stepsBound = s.stepsBound := by
  show (match s.engine with
    | none => 0
    | some r => r.stepsBound (s.hosted p rb)) = (match s.engine with
    | none => 0
    | some r => r.stepsBound s)
  cases s.engine with
  | none => rfl
  | some r =>
    show r.stepsBound (s.hosted p rb) = r.stepsBound s
    unfold Run.stepsBound
    cases r.phase <;> first | rfl | (dsimp only; rw [State.hosted_foldl_update]; rfl)

theorem State.hosted_runToEnd : (s.hosted p rb).runToEnd = s.runToEnd.hosted p rb := by
  rw [State.runToEnd, State.runToEnd, State.hosted_stepsBound, State.hosted_runSteps]

/-- The invariant says nothing of the host's side. -/
theorem State.hosted_inv {s : State} (h : s.Inv) : (s.hosted p rb).Inv := by
  refine ⟨h.memory, h.index, h.tail, fun r hr => ?_⟩
  have hk := h.engine r hr
  have hs : r.settled (s.hosted p rb) = (r.settled s).hosted p rb := State.hosted_foldl_update s p rb r.todo
  exact { hk with progress := by rw [hs]; exact hk.progress }

/-! ### The polling loop -/

theorem steps_succ {s t : State} (h : step s = .next t) (k : Nat) : steps (k + 1) s = steps k t := by
  simp only [steps, h]

/-- With BUSY = 1 the read of a polling loop gives STATUS to the host, and the loop goes on. -/
theorem State.pollStatus_busy {s : State} (h : s.busy = true) (gaps : List Nat) :
    s.pollStatus gaps = s.hosted (nextPoll gaps :: s.pending) (.reg 0x0C s.statusWord :: s.readback) := by
  rw [State.pollStatus, if_pos h]
  have : ¬ (RegName.ofOffset (RegName.offset .status) = some .status ∧ s.busy = false ∧ s.done = true) := by simp [h]
  rw [State.hostRead, show s.hostReadValue (RegName.offset .status) = (s.statusWord, s) from rfl]
  dsimp only
  rw [if_neg this]
  rfl

/-- With BUSY = 0 it is the last. -/
theorem State.pollStatus_idle {s : State} (h : s.busy = false) (gaps : List Nat) :
    s.pollStatus gaps = s.hostRead 0x0C := by
  rw [State.pollStatus, if_neg (by simp [h])]
  rfl

end Sys2Proof.Machine
end

