-- ==== Sys2Proof/Laws/PerInstr.lean ====
section
/-! SUPPORT. A statement made for every instruction: the form of its encoding. -/

namespace Sys2Proof.Laws

/-- R153, R163: a command's word is legal; a token's word is its offset, length and literal packed. -/
def EncodedForm.Statement (i : Instr) : Prop :=
  (i.isCommand = true → legalWord (encode i) = true) ∧
  ∀ off len lit, i.tokenFields = some (off, len, lit) → encode i = packToken off len lit

theorem EncodedForm.nop : EncodedForm.Statement .nop := ⟨by decide, nofun⟩
theorem EncodedForm.compressLin : EncodedForm.Statement .compressLin := ⟨by decide, nofun⟩
theorem EncodedForm.compressHc : EncodedForm.Statement .compressHc := ⟨by decide, nofun⟩
theorem EncodedForm.decompress : EncodedForm.Statement .decompress := ⟨by decide, nofun⟩
theorem EncodedForm.findLinear : EncodedForm.Statement .findLinear := ⟨by decide, nofun⟩
theorem EncodedForm.findHc : EncodedForm.Statement .findHc := ⟨by decide, nofun⟩
theorem EncodedForm.hash3 : EncodedForm.Statement .hash3 := ⟨by decide, nofun⟩
theorem EncodedForm.indexClear : EncodedForm.Statement .indexClear := ⟨by decide, nofun⟩
theorem EncodedForm.reset : EncodedForm.Statement .reset := ⟨by decide, nofun⟩
theorem EncodedForm.tokenLit (lit : Byte) : EncodedForm.Statement (.tokenLit lit) :=
  ⟨nofun, fun _ _ _ h => by cases h; rfl⟩
theorem EncodedForm.tokenCopy (off : Half) (len lit : Byte) : EncodedForm.Statement (.tokenCopy off len lit) :=
  ⟨nofun, fun _ _ _ h => by cases h; rfl⟩
theorem EncodedForm.tokenZoff (len lit : Byte) : EncodedForm.Statement (.tokenZoff len lit) :=
  ⟨nofun, fun _ _ _ h => by cases h; rfl⟩
theorem EncodedForm.tokenZlen (off : Half) (lit : Byte) : EncodedForm.Statement (.tokenZlen off lit) :=
  ⟨nofun, fun _ _ _ h => by cases h; rfl⟩

end Sys2Proof.Laws
end

