-- ==== Sys2Proof/Laws/Reference.lean ====
section
/-! SUPPORT. What the reference functions of the finders compute (41_linear_finder.md, 42_hash_chain.md): the one lemma of
each that the claims cite. -/

namespace Sys2Proof.Machine

/-- matchLen's loop from `k` on (R200, R201). -/
theorem Ref.matchFrom_spec (inp : Nat → Byte) (n L p c fuel k : Nat) (hk : k ≤ L) (hf : L ≤ k + fuel)
    (hb : ∀ j < k, inp (p + j) = inp (c + j)) (hn : k = 0 ∨ c + k ≤ n) :
    let m := Ref.matchFrom inp n L p c fuel k
    k ≤ m ∧ m ≤ L ∧ (m = 0 ∨ c + m ≤ n) ∧ (∀ j < m, inp (p + j) = inp (c + j)) ∧
      (m = L ∨ n ≤ c + m ∨ inp (p + m) ≠ inp (c + m)) := by
  induction fuel generalizing k with
  | zero => exact ⟨le_refl _, hk, hn, hb, .inl (by simp [Ref.matchFrom]; omega)⟩
  | succ fuel ih =>
    simp only [Ref.matchFrom]
    split
    · rename_i h
      have := ih (k + 1) (by omega) (by omega) (fun j hj => by
        rcases Nat.lt_succ_iff_lt_or_eq.1 hj with h' | rfl
        · exact hb j h'
        · exact h.2.2) (by omega)
      exact ⟨by have := this.1; omega, this.2⟩
    · rename_i h
      refine ⟨le_refl _, hk, hn, hb, ?_⟩
      by_cases h1 : k < L
      · by_cases h2 : c + k < n
        · exact .inr (.inr fun h3 => h ⟨h1, h2, h3⟩)
        · exact .inr (.inl (by omega))
      · exact .inl (by omega)

/-- All that a match length is (R201). -/
theorem Ref.matchLen_spec (inp : Nat → Byte) (n p c L : Nat) :
    let m := Ref.matchLen inp n p c L
    m ≤ L ∧ (m = 0 ∨ c + m ≤ n) ∧ (∀ j < m, inp (p + j) = inp (c + j)) ∧
      (m = L ∨ n ≤ c + m ∨ inp (p + m) ≠ inp (c + m)) :=
  (Ref.matchFrom_spec inp n L p c L 0 (by omega) (by omega) (by simp) (.inl rfl)).2

/-- What a finder's loop over candidates returns, in either order of preference. -/
theorem Ref.visit_spec (better : Nat → Nat → Bool) (hb : ∀ b k, b < k → better b k = true) (hb' : ∀ b k, better b k = true → b ≤ k)
    (inp : Nat → Byte) (n c w L : Nat) (ps : List Nat) (best : Nat × Nat) :
    let m := fun p => Ref.matchLen inp n p c L
    let r := Ref.visit better inp n c w L ps best
    best.2 ≤ r.2 ∧ (∀ p ∈ ps, inWindow c w p = true → m p ≤ r.2) ∧
      (r = best ∨ ∃ p ∈ ps, inWindow c w p = true ∧ r = (c - p, m p)) := by
  induction ps generalizing best with
  | nil => exact ⟨le_refl _, by simp, .inl rfl⟩
  | cons p ps ih =>
    intro m r
    have h := ih (if inWindow c w p && better best.2 (Ref.matchLen inp n p c L) then (c - p, Ref.matchLen inp n p c L) else best)
    dsimp only at h
    change _ ∧ _ ∧ _ at h
    have hr : r = Ref.visit better inp n c w L ps (if inWindow c w p && better best.2 (Ref.matchLen inp n p c L) then
      (c - p, Ref.matchLen inp n p c L) else best) := rfl
    rw [← hr] at h
    obtain ⟨h1, h2, h3⟩ := h
    by_cases hc : (inWindow c w p && better best.2 (Ref.matchLen inp n p c L)) = true
    · rw [if_pos hc] at h1 h3
      simp only [Bool.and_eq_true] at hc
      have := hb' _ _ hc.2
      refine ⟨le_trans this h1, ?_, ?_⟩
      · intro q hq hw
        rcases List.mem_cons.1 hq with rfl | hq
        · exact h1
        · exact h2 q hq hw
      · right
        rcases h3 with h3 | ⟨q, hq, hw, h3⟩
        · exact ⟨p, List.mem_cons_self, hc.1, h3⟩
        · exact ⟨q, List.mem_cons_of_mem _ hq, hw, h3⟩
    · rw [if_neg hc] at h1 h3
      refine ⟨h1, ?_, ?_⟩
      · intro q hq hw
        rcases List.mem_cons.1 hq with rfl | hq
        · have : ¬ best.2 < Ref.matchLen inp n q c L := fun hlt => hc (by rw [hw, hb _ _ hlt]; rfl)
          show Ref.matchLen inp n q c L ≤ r.2
          omega
        · exact h2 q hq hw
      · rcases h3 with h3 | ⟨q, hq, hw, h3⟩
        · exact .inl h3
        · exact .inr ⟨q, List.mem_cons_of_mem _ hq, hw, h3⟩

/-- A search in two parts. -/
theorem Ref.visit_append (better : Nat → Nat → Bool) (inp : Nat → Byte) (n c w L : Nat) (ps qs : List Nat) (best : Nat × Nat) :
    Ref.visit better inp n c w L (ps ++ qs) best = Ref.visit better inp n c w L qs (Ref.visit better inp n c w L ps best) := by
  induction ps generalizing best with
  | nil => rfl
  | cons p ps ih => exact ih _

/-- No candidate of the rest replaces the best pair so far. -/
theorem Ref.visit_keep (better : Nat → Nat → Bool) (inp : Nat → Byte) (n c w L : Nat) (ps : List Nat) (best : Nat × Nat)
    (h : ∀ p ∈ ps, inWindow c w p = true → better best.2 (Ref.matchLen inp n p c L) = false) :
    Ref.visit better inp n c w L ps best = best := by
  induction ps with
  | nil => rfl
  | cons p ps ih =>
    have : (inWindow c w p && better best.2 (Ref.matchLen inp n p c L)) = false := by
      by_cases hw : inWindow c w p = true
      · rw [hw, h p List.mem_cons_self hw]; rfl
      · simp only [Bool.not_eq_true] at hw
        rw [hw]; rfl
    simp only [Ref.visit, this]
    exact ih fun p hp => h p (List.mem_cons_of_mem _ hp)

/-- The winning candidate: it replaces all before it, none after replaces it. -/
theorem Ref.visit_winner (better : Nat → Nat → Bool) (hb : ∀ b k, b < k → better b k = true) (hb' : ∀ b k, better b k = true → b ≤ k)
    (inp : Nat → Byte) (n c w L : Nat) (pre post : List Nat) (q : Nat)
    (hq : inWindow c w q = true)
    (hpre : ∀ p ∈ pre, inWindow c w p = true → better (Ref.matchLen inp n p c L) (Ref.matchLen inp n q c L) = true)
    (h0 : better 0 (Ref.matchLen inp n q c L) = true)
    (hpost : ∀ p ∈ post, inWindow c w p = true → better (Ref.matchLen inp n q c L) (Ref.matchLen inp n p c L) = false) :
    Ref.visit better inp n c w L (pre ++ q :: post) (0, 0) = (c - q, Ref.matchLen inp n q c L) := by
  rw [Ref.visit_append]
  obtain ⟨-, -, h3⟩ := Ref.visit_spec better hb hb' inp n c w L pre (0, 0)
  have hbet : better (Ref.visit better inp n c w L pre (0, 0)).2 (Ref.matchLen inp n q c L) = true := by
    rcases h3 with h3 | ⟨p, hp, hw, h3⟩
    · rw [h3]; exact h0
    · rw [h3]; exact hpre p hp hw
  simp only [Ref.visit, hq, hbet, Bool.and_self, if_true]
  exact Ref.visit_keep _ _ _ _ _ _ _ _ hpost

/-- The linear finder's candidates (R202). -/
theorem mem_linearCandidates {c w p : Nat} : p ∈ linearCandidates c w ↔ c - w ≤ p ∧ p < c := by
  unfold linearCandidates
  rw [List.mem_range'_1]
  omega

/-- The window (R240). -/
theorem inWindow_iff {c w p : Nat} : inWindow c w p = true ↔ c ≤ p + w ∧ p < c := by
  simp [inWindow]

/-- What a search of a bucket returns. -/
theorem Ref.searchBucket_spec (inp : Nat → Byte) (n c w L : Nat) (bucket : List Nat) :
    (∀ p ∈ bucket, inWindow c w p = true → Ref.matchLen inp n p c L ≤ (Ref.searchBucket inp n c w L bucket).2) ∧
      (Ref.searchBucket inp n c w L bucket = (0, 0) ∨
        ∃ p ∈ bucket, inWindow c w p = true ∧ Ref.searchBucket inp n c w L bucket = (c - p, Ref.matchLen inp n p c L)) :=
  (Ref.visit_spec (fun b k => decide (b ≤ k)) (by simp; omega) (by simp) inp n c w L bucket (0, 0)).2

/-- The winner of a search of a bucket (R242). -/
theorem Ref.searchBucket_winner (inp : Nat → Byte) (n c w L : Nat) (pre post : List Nat) (q : Nat)
    (hq : inWindow c w q = true)
    (hpre : ∀ p ∈ pre, inWindow c w p = true → Ref.matchLen inp n p c L ≤ Ref.matchLen inp n q c L)
    (hpost : ∀ p ∈ post, inWindow c w p = true → Ref.matchLen inp n p c L < Ref.matchLen inp n q c L) :
    Ref.searchBucket inp n c w L (pre ++ q :: post) = (c - q, Ref.matchLen inp n q c L) := by
  refine Ref.visit_winner _ (by simp; omega) (by simp) inp n c w L pre post q hq ?_ (by simp) ?_
  · intro p hp hw; simpa using hpre p hp hw
  · intro p hp hw; simpa using hpost p hp hw

/-- Equal bytes have equal hashes. -/
theorem Ref.hashAt_eq (inp : Nat → Byte) (c p : Nat) (h0 : inp p = inp c) (h1 : inp (p + 1) = inp (c + 1)) (h2 : inp (p + 2) = inp (c + 2)) :
    Ref.hashAt inp p = Ref.hashAt inp c := by simp [Ref.hashAt, h0, h1, h2]

/-- Three equal bytes are a match of at least 3. -/
theorem Ref.matchLen_ge {inp : Nat → Byte} {n p c L : Nat} (h0 : inp p = inp c) (h1 : inp (p + 1) = inp (c + 1))
    (h2 : inp (p + 2) = inp (c + 2)) (h3 : c + 3 ≤ n) (hL : 3 ≤ L) : 3 ≤ Ref.matchLen inp n p c L := by
  have hm := Ref.matchLen_spec inp n p c L
  dsimp only at hm
  obtain ⟨m1, m2, m3, m4⟩ := hm
  by_contra hlt
  rcases m4 with h | h | h
  · omega
  · omega
  · have : Ref.matchLen inp n p c L = 0 ∨ Ref.matchLen inp n p c L = 1 ∨ Ref.matchLen inp n p c L = 2 := by omega
    rcases this with h' | h' | h' <;> rw [h'] at h <;> simp_all

theorem Ref.insertHc_short {inp : Nat → Byte} {n c w : Nat} {idx : List (Nat × List Nat)} (h : n < c + 3) :
    Ref.insertHc inp n c w idx = idx := by
  rw [Ref.insertHc, if_neg (by omega)]

theorem Ref.insertHc_bucket {inp : Nat → Byte} {n c w : Nat} {idx : List (Nat × List Nat)} (h : c + 3 ≤ n)
    (hwf : Index.wf idx = true) :
    Index.bucket (Ref.insertHc inp n c w idx) (Ref.hashAt inp c) =
      chainBucket c w (Index.bucket idx (Ref.hashAt inp c)) := by
  rw [Ref.insertHc, if_pos h, Index.bucket_setBucket_self hwf]

theorem Ref.insertHc_bucket_ne {inp : Nat → Byte} {n c w h : Nat} {idx : List (Nat × List Nat)}
    (hne : h ≠ Ref.hashAt inp c) : Index.bucket (Ref.insertHc inp n c w idx) h = Index.bucket idx h := by
  unfold Ref.insertHc
  split
  · exact Index.bucket_setBucket_ne _ _ hne
  · rfl

theorem Ref.insertHc_wf {inp : Nat → Byte} {n c w : Nat} {idx : List (Nat × List Nat)} (hwf : Index.wf idx = true) :
    Index.wf (Ref.insertHc inp n c w idx) = true := by
  unfold Ref.insertHc
  split
  · exact Index.wf_setBucket hwf _ _
  · exact hwf

/-- A bucket after an insertion keeps only what was there, in order, and what is in the window (R244, R245). -/
theorem mem_chainBucket {c w p : Nat} {bucket : List Nat} (h : p ∈ chainBucket c w bucket) : p ∈ bucket ∨ p = c := by
  unfold chainBucket at h
  dsimp only at h
  split at h
  · simpa using (List.mem_filter.1 h).1
  · simpa using h

theorem mem_chainBucket_of_inWindow {c w p : Nat} {bucket : List Nat} (h : p ∈ bucket ∨ p = c) (hw : c ≤ p + w) :
    p ∈ chainBucket c w bucket := by
  unfold chainBucket
  dsimp only
  split
  · exact List.mem_filter.2 ⟨by simpa using h, by simpa using hw⟩
  · simpa using h

theorem chainBucket_pairwise {c w : Nat} {bucket : List Nat} (h : bucket.Pairwise (· < ·)) (hc : ∀ p ∈ bucket, p < c) :
    (chainBucket c w bucket).Pairwise (· < ·) := by
  have : (bucket ++ [c]).Pairwise (· < ·) := by
    rw [List.pairwise_append]
    exact ⟨h, by simp, fun p hp q hq => by rw [List.mem_singleton.1 hq]; exact hc p hp⟩
  unfold chainBucket
  dsimp only
  split
  · exact this.filter _
  · exact this

/-- The index after calls of findHC with rising cursors: each bucket rises, its positions are calls with its hash, and no
call that every later window reaches is missing (R247). -/
theorem Ref.index_of_calls (inp : Nat → Byte) (n w : Nat) (calls : List Nat) (hs : calls.Pairwise (· < ·)) :
    let idx := calls.foldl (fun i p => Ref.insertHc inp n p w i) []
    Index.wf idx = true ∧ ∀ h, (Index.bucket idx h).Pairwise (· < ·) ∧
      (∀ p ∈ Index.bucket idx h, p ∈ calls ∧ p + 3 ≤ n ∧ Ref.hashAt inp p = h) ∧
      (∀ p ∈ calls, p + 3 ≤ n → Ref.hashAt inp p = h → (∀ c ∈ calls, c ≤ p + w) → p ∈ Index.bucket idx h) := by
  induction calls using List.reverseRecOn with
  | nil => exact ⟨rfl, fun h => ⟨by simp [Index.bucket, Table.get], by simp [Index.bucket, Table.get], by simp⟩⟩
  | append_singleton calls c ih =>
    rw [List.pairwise_append] at hs
    obtain ⟨hs1, -, hs3⟩ := hs
    obtain ⟨hwf, hb⟩ := ih hs1
    rw [List.foldl_append]
    dsimp only [List.foldl_cons, List.foldl_nil]
    set idx := calls.foldl (fun i p => Ref.insertHc inp n p w i) []
    have hlt : ∀ p ∈ calls, p < c := fun p hp => hs3 p hp c (by simp)
    refine ⟨Ref.insertHc_wf hwf, fun h => ?_⟩
    obtain ⟨b1, b2, b3⟩ := hb h
    by_cases hh : c + 3 ≤ n ∧ h = Ref.hashAt inp c
    · obtain ⟨h3, rfl⟩ := hh
      rw [Ref.insertHc_bucket h3 hwf]
      refine ⟨chainBucket_pairwise b1 fun p hp => hlt p (b2 p hp).1, fun p hp => ?_, fun p hp hn hh hw => ?_⟩
      · rcases mem_chainBucket hp with hp | rfl
        · exact ⟨List.mem_append_left _ (b2 p hp).1, (b2 p hp).2⟩
        · exact ⟨by simp, h3, rfl⟩
      · refine mem_chainBucket_of_inWindow ?_ (hw c (by simp))
        rcases List.mem_append.1 hp with hp | hp
        · exact .inl (b3 p hp hn hh fun c' hc' => hw c' (List.mem_append_left _ hc'))
        · exact .inr (by simpa using hp)
    · have he : Index.bucket (Ref.insertHc inp n c w idx) h = Index.bucket idx h := by
        by_cases h3 : c + 3 ≤ n
        · exact Ref.insertHc_bucket_ne fun h' => hh ⟨h3, h'⟩
        · rw [Ref.insertHc_short (by omega)]
      rw [he]
      refine ⟨b1, fun p hp => ⟨List.mem_append_left _ (b2 p hp).1, (b2 p hp).2⟩, fun p hp hn hh' hw => ?_⟩
      rcases List.mem_append.1 hp with hp | hp
      · exact b3 p hp hn hh' fun c' hc' => hw c' (List.mem_append_left _ hc')
      · rw [List.mem_singleton.1 hp] at hn hh'
        exact absurd ⟨hn, hh'.symm⟩ hh

end Sys2Proof.Machine
end

