-- ==== Sys2Proof/Laws/Refine.lean ====
section
/-! SUPPORT. The engine computes the spec's functions: from each phase of a command whose buffers are ordinary memory, the
engine's steps lead to the state that Machine/Reference.lean's functions describe, unless the platform refuses an access. -/

namespace Sys2Proof.Machine

/-- The engine's steps lead from `s` to `t`, or, which `bad` must then allow, to an end by BUS. -/
def State.Leads (bad : Prop) (s t : State) : Prop :=
  State.Reaches s t ∨ (bad ∧ ∃ e, State.Reaches s e ∧ e.engine = none ∧ e.err = .bus)

theorem State.Leads.refl {bad : Prop} (s : State) : State.Leads bad s s := .inl (State.Reaches.refl s)

theorem State.Leads.of_eq {bad : Prop} {s t : State} (h : s = t) : State.Leads bad s t := h ▸ State.Leads.refl s

theorem State.Leads.trans {bad : Prop} {s t u : State} (h : State.Leads bad s t) (h' : State.Leads bad t u) :
    State.Leads bad s u := by
  rcases h with h | h
  · rcases h' with h' | ⟨hb, e, he, h1, h2⟩
    · exact .inl (h.trans h')
    · exact .inr ⟨hb, e, h.trans he, h1, h2⟩
  · exact .inr h

theorem State.Leads.step {bad : Prop} {s t : State} {r : Run} (hr : s.engine = some r)
    (h : State.Leads bad (s.stepPhase r) t) : State.Leads bad s t :=
  State.Leads.trans (.inl (State.Reaches.step hr (State.Reaches.refl _))) h

theorem State.Leads.reaches {s t : State} (h : State.Leads False s t) : State.Reaches s t := by
  rcases h with h | ⟨h, -⟩
  · exact h
  · exact h.elim

/-- `raise Err(e)` is two engine steps: ERR, and then BUSY and DONE; nothing else is changed (R410). -/
theorem State.raise_steps (s : State) (r : Run) (e : ErrCode) (hf : r.foreign = [] ∨ e.atStart = true) :
    State.engineStep^[2] (s.raise r e) = { s with
      engine := none, done := true, err := e
      unseen := Unseen.append { cells := r.journal, regs := r.regJournal } s.unseen } := by
  have h : State.engineStep^[2] (s.raise r e) =
      State.finish (State.stepRaising (s.raise r e) { r with phase := .raising e } e) { r with phase := .ending e } e := rfl
  rw [h, State.finish, if_pos (by exact hf)]
  rfl

theorem State.raise_reaches (s : State) (r : Run) (e : ErrCode) (hf : r.foreign = [] ∨ e.atStart = true) :
    State.Reaches (s.raise r e) { s with
      engine := none, done := true, err := e
      unseen := Unseen.append { cells := r.journal, regs := r.regJournal } s.unseen } :=
  ⟨2, State.raise_steps s r e hf⟩

/-- A command whose start check fails with `e`, offered to an idle block whose host waits, changes nothing but STATUS
(R402, R403). -/
theorem State.offer_refused {s : State} {task : Task} {e : ErrCode} (h : s.Ready)
    (he : (s.accept task).stepPhase (Run.init task s) = (s.accept task).raise (Run.init task s) e)
    (hat : e.atStart = true) : (s.offer task).advance = s.ended e := by
  have hi := State.not_busy_iff.1 h.idle
  obtain ⟨k, hk⟩ : ∃ k, (s.accept task).stepsBound = k + 3 :=
    ⟨(s.accept task).stepsBound - 3, by
      have : 3 ≤ (s.accept task).stepsBound := by
        simp only [State.stepsBound, State.accept, Run.init, Run.stepsBound]
        omega
      omega⟩
  have h3 : State.engineStep^[3] (s.accept task) = s.ended e := by
    have h1 : (s.accept task).engineStep = (s.accept task).raise (Run.init task s) e := he
    rw [Function.iterate_succ_apply, h1, State.raise_steps _ _ _ (.inr hat)]
    simp only [State.ended, State.accept, State.retire, Run.init, hi]
    rfl
  rw [State.offer_idle h.idle, State.advance_waits (by simpa [State.hostWaits] using h.waits), State.runToEnd, hk,
    State.runSteps_eq_iterate, Function.iterate_add_apply, h3, State.iterate_idle (by simp [State.ended, hi])]

/-- The same as the end that has ERR = `e`. -/
theorem State.raise_leads {bad : Prop} (s : State) (r : Run) (e : ErrCode) (hf : r.foreign = []) :
    State.Leads bad (s.raise r e) (s.finish r e) := by
  rw [State.finish_clean s r e hf]
  exact .inl (State.raise_reaches s r e (.inl hf))

/-- After a refused access the engine ends with BUS. -/
theorem State.raiseBus_reaches {s : State} {r : Run} (a : Nat) (hf : r.foreign = []) :
    ∃ e, State.Reaches (s.raiseBus r a) e ∧ e.engine = none ∧ e.err = .bus := by
  obtain ⟨m, n, j, he, -⟩ := State.raiseBus_spec s r a
  rw [he]
  exact ⟨_, State.Reaches.step rfl (State.raise_reaches _ _ _ (.inl hf)), rfl, rfl⟩

/-- What the running command records of what the host may not have seen. -/
def Run.noting (r : Run) (seen : Unseen) : Run :=
  { r with journal := seen.cells ++ r.journal, regJournal := seen.regs ++ r.regJournal }

/-- The old values that a row of updates leaves for the host to see (R122), latest first. -/
def State.notes (s : State) : List Update → List (ResultReg × Word)
  | [] => []
  | .result reg v :: us => State.notes (s.update (.result reg v)) us ++ [(reg, s.result reg)]
  | .clearIndex :: us => State.notes (s.update .clearIndex) us
  | .bucket h ps :: us => State.notes (s.update (.bucket h ps)) us

theorem State.mem_notes {s : State} {us : List Update} {c : ResultReg × Word} (h : c ∈ s.notes us) :
    ∃ v, Update.result c.1 v ∈ us := by
  induction us generalizing s with
  | nil => cases h
  | cons u us ih =>
    cases u with
    | result reg v =>
      rcases List.mem_append.1 h with h | h
      · obtain ⟨v', hv'⟩ := ih h
        exact ⟨v', List.mem_cons_of_mem _ hv'⟩
      · obtain rfl := List.mem_singleton.1 h
        exact ⟨v, List.mem_cons_self⟩
    | clearIndex | bucket =>
      obtain ⟨v', hv'⟩ := ih h
      exact ⟨v', List.mem_cons_of_mem _ hv'⟩

/-- The engine makes a row of updates, and goes on where it leads. -/
theorem State.updates_reaches (s : State) (r : Run) (us : List Update) (next : After) :
    State.Reaches (s.updates r us next)
      ((us.foldl State.update s).goto (r.noting { cells := [], regs := s.notes us }) next.phase) := by
  induction us generalizing s r with
  | nil => exact State.Reaches.refl _
  | cons u us ih =>
    have hl := ih (s.update u) (r.note s u)
    have hstep : State.Reaches (s.updates r (u :: us) next) ((s.update u).updates (r.note s u) us next) := by
      refine State.Reaches.step rfl ?_
      have : State.stepPhase (s.updates r (u :: us) next) { r with phase := .update u us next } =
          (s.update u).updates (r.note s u) us next := by
        change State.updates ((s.goto r _).update u) (Run.note { r with phase := _ } (s.goto r _) u) us next = _
        rw [State.update_goto, State.updates_goto, Run.note_goto, State.updates_rephase]
      rw [this]
      exact State.Reaches.refl _
    have hl := hstep.trans hl
    cases u with
    | result reg v => simpa [Run.noting, Run.note, State.notes] using hl
    | clearIndex | bucket => exact hl

/-- The engine makes a row of updates and ends. -/
theorem State.updates_end (s : State) (r : Run) (us : List Update) (hf : r.foreign = []) :
    State.Reaches (s.updates r us .ending)
      { us.foldl State.update s with
        engine := none, done := true, err := .none
        unseen := Unseen.append { cells := r.journal, regs := s.notes us ++ r.regJournal }
          (us.foldl State.update s).unseen } := by
  refine (State.updates_reaches s r us .ending).trans (State.Reaches.step rfl ?_)
  change State.Reaches (State.finish _ _ ErrCode.none) _
  rw [State.finish_clean _ _ _ (by exact hf)]
  exact State.Reaches.refl _

/-- The registers that count a codec's progress (R70). -/
def progressRegs : List ResultReg := [.cursor, .outLen, .tokenCount]

/-- The progress registers follow the counts, and the engine goes on. -/
theorem State.progress_leads {bad : Prop} (s : State) (r : Run) (next : After) :
    ∃ regs : List (ResultReg × Word), (∀ c ∈ regs, c.1 ∈ progressRegs) ∧
      State.Leads bad (s.updates r r.progress next)
        (State.goto
          { s with
            cursor := BitVec.ofNat 32 r.cur, outLen := BitVec.ofNat 32 r.o, tokenCount := BitVec.ofNat 32 r.t }
          (r.noting { cells := [], regs := regs }) next.phase) := by
  refine ⟨_, fun c hc => ?_, .inl (State.updates_reaches s r r.progress next)⟩
  obtain ⟨v, hv⟩ := State.mem_notes hc
  simp only [Run.progress, List.mem_cons, Update.result.injEq, List.not_mem_nil, or_false] at hv
  rcases hv with ⟨h, -⟩ | ⟨h, -⟩ | ⟨h, -⟩ <;> simp [progressRegs, h]

/-- A step that reads the byte at `a` of ordinary memory goes on with the byte memory holds, unless it is refused. -/
theorem State.fetch_leads {bad : Prop} {s t : State} {r : Run} {a : Nat} {k : Byte → State → State}
    (hf : r.foreign = []) (hs : s.platform.hasSideEffects a = false)
    (ha : s.platform.admits a .read = true ∨ bad) (h : State.Leads bad (k (Memory.read s.mem a) s) t) :
    State.Leads bad (s.fetch r a k) t := by
  by_cases hadm : s.platform.admits a .read = true
  · rw [State.fetch_plain k hadm hs hf]
    exact h
  · have hb : bad := ha.resolve_left hadm
    have : s.fetch r a k = s.raiseBus r a := by simp [State.fetch, hadm]
    rw [this]
    exact .inr ⟨hb, State.raiseBus_reaches a hf⟩

/-- A step that writes the byte at `a` of ordinary memory goes on with the byte stored, unless it is refused. -/
theorem State.store_leads {bad : Prop} {s t : State} {r : Run} {a : Nat} {v : Byte} {k : Run → State → State}
    (hf : r.foreign = []) (hs : s.platform.hasSideEffects a = false)
    (ha : s.platform.admits a .write = true ∨ bad)
    (h : State.Leads bad (k { r with journal := (a, Memory.read s.mem a) :: r.journal }
      { s with mem := Memory.write s.mem a v }) t) :
    State.Leads bad (s.store r a v k) t := by
  by_cases hadm : s.platform.admits a .write = true
  · rw [State.store_plain k hadm hs]
    exact h
  · have hb : bad := ha.resolve_left hadm
    have : s.store r a v k = s.raiseBus r a := by simp [State.store, hadm]
    rw [this]
    exact .inr ⟨hb, State.raiseBus_reaches a hf⟩

/-- The input buffer is ordinary memory, which the platform lets the engine read unless `bad`. -/
def State.Readable (bad : Prop) (s : State) (p : Params) : Prop :=
  ∀ i < p.n, s.platform.hasSideEffects (p.inAddr i) = false ∧ (s.platform.admits (p.inAddr i) .read = true ∨ bad)

/-- The output buffer's first `m` bytes are ordinary memory, which the platform lets the engine write unless `bad`. -/
def State.Writable (bad : Prop) (s : State) (p : Params) (m : Nat) : Prop :=
  ∀ j < m, s.platform.hasSideEffects (p.outAddr j) = false ∧ (s.platform.admits (p.outAddr j) .write = true ∨ bad)

/-- `In[i]` as the engine finds it in memory. -/
def State.inputOf (s : State) (p : Params) (i : Nat) : Byte := Memory.read s.mem (p.inAddr i)

/-- The end of a query: MATCH_DIST and MATCH_LEN take the finder's result (R210, R250). -/
theorem State.found_query {s : State} {r : Run} (d k : Nat) (hc : r.task.isCompress = false) (hf : r.foreign = []) :
    State.Reaches (s.goto r (.found d k))
      { s with
        engine := none, done := true, err := .none, matchDist := BitVec.ofNat 16 d, matchLen := BitVec.ofNat 16 k
        unseen := Unseen.append
          { cells := r.journal, regs := s.oldResults [.matchLen, .matchDist] ++ r.regJournal } s.unseen } := by
  refine State.Reaches.step rfl ?_
  simp only [State.stepPhase, State.stepFound]
  rw [if_neg (by simpa using hc), State.updates_goto, State.updates_rephase]
  have h := State.updates_end s r
    [.result .matchDist ((BitVec.ofNat 16 d).setWidth 32), .result .matchLen ((BitVec.ofNat 16 k).setWidth 32)] hf
  have e : ∀ n, ((BitVec.ofNat 16 n).setWidth 32).setWidth 16 = BitVec.ofNat 16 n := fun n => by simp
  simp only [List.foldl_cons, List.foldl_nil, State.update, State.setResult, e] at h
  exact h

/-- The end of HASH3: HASH takes the word (R233). -/
theorem State.hash_end {s : State} {r : Run} (v : Word) (hf : r.foreign = []) :
    State.Reaches (s.updates r [.result .hash v] .ending)
      { s with
        engine := none, done := true, err := .none, hashValue := v.setWidth 18, hashValid := v.getLsbD 31
        unseen := Unseen.append { cells := r.journal, regs := s.oldResults [.hash] ++ r.regJournal } s.unseen } :=
  State.updates_end s r [.result .hash v] hf

/-- The order in which a finder prefers matches (R202, R240). -/
def Ref.better (chain : Bool) (b k : Nat) : Bool := if chain then decide (b ≤ k) else decide (b < k)

/-! ### The finders -/

theorem State.candidateDone_goto (s : State) (q r : Run) (ph ph' : Phase) (p k : Nat) (left : List Nat) :
    (s.goto q ph).candidateDone { r with phase := ph' } p k left = s.candidateDone r p k left := by
  unfold State.candidateDone
  by_cases h : r.improves k = true
  · have h' : Run.improves { r with phase := ph' } k = true := h
    rw [if_pos h, if_pos h']
    rfl
  · have h' : ¬ Run.improves { r with phase := ph' } k = true := h
    rw [if_neg h, if_neg h']
    rfl

theorem State.matching_leads {bad : Prop} {s : State} {r : Run} (hf : r.foreign = []) (hin : r.cur < r.snap.n → s.Readable bad r.snap)
    {p : Nat} (hp : p < r.cur) (left : List Nat) (fuel k : Nat) (hk : r.snap.L ≤ k + fuel) :
    State.Leads bad (s.goto r (.matching p k left))
      (s.candidateDone r p (Ref.matchFrom (s.inputOf r.snap) r.snap.n r.snap.L p r.cur fuel k) left) := by
  induction fuel generalizing k with
  | zero =>
    refine State.Leads.step rfl ?_
    have : ¬ (k < r.snap.L ∧ r.cur + k < r.snap.n) := by omega
    simp only [State.stepPhase, State.stepMatching, this, if_false, Ref.matchFrom]
    rw [State.candidateDone_goto]
    exact State.Leads.refl _
  | succ fuel ih =>
    refine State.Leads.step rfl ?_
    by_cases hc : k < r.snap.L ∧ r.cur + k < r.snap.n
    · simp only [State.stepPhase, State.stepMatching]
      rw [if_pos hc]
      obtain ⟨h1, h2⟩ := hin (by omega) (p + k) (by omega)
      refine State.fetch_leads hf h1 h2 ?_
      refine State.Leads.step rfl ?_
      simp only [State.stepPhase, State.stepComparing]
      obtain ⟨h1, h2⟩ := hin (by omega) (r.cur + k) hc.2
      refine State.fetch_leads hf h1 h2 ?_
      split
      · have he : s.inputOf r.snap (p + k) = s.inputOf r.snap (r.cur + k) := ‹_›
        have hm : Ref.matchFrom (s.inputOf r.snap) r.snap.n r.snap.L p r.cur (fuel + 1) k =
            Ref.matchFrom (s.inputOf r.snap) r.snap.n r.snap.L p r.cur fuel (k + 1) := by
          rw [Ref.matchFrom, if_pos ⟨hc.1, hc.2, he⟩]
        rw [hm]
        exact ih (k + 1) (by omega)
      · have he : ¬ s.inputOf r.snap (p + k) = s.inputOf r.snap (r.cur + k) := ‹_›
        have hm : Ref.matchFrom (s.inputOf r.snap) r.snap.n r.snap.L p r.cur (fuel + 1) k = k := by
          rw [Ref.matchFrom, if_neg (fun h => he h.2.2)]
        rw [hm, State.candidateDone_goto, State.candidateDone_goto]
        exact State.Leads.refl _
    · have hm : Ref.matchFrom (s.inputOf r.snap) r.snap.n r.snap.L p r.cur (fuel + 1) k = k := by
        rw [Ref.matchFrom, if_neg (fun h => hc ⟨h.1, h.2.1⟩)]
      simp only [State.stepPhase, State.stepMatching]
      rw [if_neg hc, hm, State.candidateDone_goto]
      exact State.Leads.refl _

/-- The run after a finder's loop, with the best pair so far. -/
def Run.withBest (r : Run) (best : Nat × Nat) : Run := { r with bestDist := best.1, bestLen := best.2 }

theorem State.candidates_leads {bad : Prop} {s : State} {r : Run} (hf : r.foreign = []) (hin : r.cur < r.snap.n → s.Readable bad r.snap)
    (left : List Nat) (best : Nat × Nat) :
    State.Leads bad (s.goto (r.withBest best) (.candidates left))
      (s.goto (r.withBest (Ref.visit (Ref.better r.task.usesChain) (s.inputOf r.snap) r.snap.n r.cur r.snap.w r.snap.L
        left best)) (.candidates [])) := by
  induction left generalizing best with
  | nil => exact State.Leads.refl _
  | cons p left ih =>
    refine State.Leads.step rfl ?_
    simp only [State.stepPhase, State.stepCandidates, Ref.visit, Run.withBest]
    by_cases hw : inWindow r.cur r.snap.w p = true
    · have hp : p < r.cur := by
        simp only [inWindow, Bool.and_eq_true, decide_eq_true_eq] at hw
        exact hw.2
      simp only [hw, if_true, Bool.true_and]
      refine State.Leads.trans (State.matching_leads (r := r.withBest best) hf hin hp left r.snap.L 0 (by simp [Run.withBest])) ?_
      have hi : (r.withBest best).improves (Ref.matchLen (s.inputOf r.snap) r.snap.n p r.cur r.snap.L) =
          Ref.better r.task.usesChain best.2 (Ref.matchLen (s.inputOf r.snap) r.snap.n p r.cur r.snap.L) := rfl
      have hcd : s.candidateDone (r.withBest best) p (Ref.matchLen (s.inputOf r.snap) r.snap.n p r.cur r.snap.L) left =
          s.goto (r.withBest
            (if Ref.better r.task.usesChain best.2 (Ref.matchLen (s.inputOf r.snap) r.snap.n p r.cur r.snap.L) = true
              then (r.cur - p, Ref.matchLen (s.inputOf r.snap) r.snap.n p r.cur r.snap.L) else best))
            (.candidates left) := by
        unfold State.candidateDone
        rw [hi]
        split <;> rfl
      have := ih (if Ref.better r.task.usesChain best.2 (Ref.matchLen (s.inputOf r.snap) r.snap.n p r.cur r.snap.L) = true
              then (r.cur - p, Ref.matchLen (s.inputOf r.snap) r.snap.n p r.cur r.snap.L) else best)
      rw [← hcd] at this
      exact this
    · have hw' : inWindow r.cur r.snap.w p = false := by simpa using hw
      simp only [hw', Bool.false_and]
      exact ih best

/-- A run of the same command, up to the finder's best pair and hash value, which nothing later reads. -/
def Run.Same (r r' : Run) : Prop := ∃ bd bl hh, r' = { r with bestDist := bd, bestLen := bl, hash := hh }

/-- The linear finder. -/
theorem State.callFinder_linear {bad : Prop} {s : State} {r : Run} (hf : r.foreign = []) (hin : r.cur < r.snap.n → s.Readable bad r.snap)
    (ht : r.task.usesChain = false) :
    ∃ r', r.Same r' ∧ State.Leads bad (s.callFinder r)
      (s.goto r' (.found (Ref.findLinear (s.inputOf r.snap) r.snap.n r.cur r.snap.w r.snap.L).1
        (Ref.findLinear (s.inputOf r.snap) r.snap.n r.cur r.snap.w r.snap.L).2)) := by
  have hv : Ref.visit (Ref.better r.task.usesChain) (s.inputOf r.snap) r.snap.n r.cur r.snap.w r.snap.L
      (linearCandidates r.cur r.snap.w) (0, 0) =
      Ref.findLinear (s.inputOf r.snap) r.snap.n r.cur r.snap.w r.snap.L := by
    have : Ref.better r.task.usesChain = fun b k => decide (b < k) := by
      funext b k
      simp [Ref.better, ht]
    rw [this, Ref.findLinear]
  have h := State.candidates_leads (s := s) hf hin (linearCandidates r.cur r.snap.w) (0, 0)
  rw [hv] at h
  refine ⟨r.withBest (Ref.findLinear (s.inputOf r.snap) r.snap.n r.cur r.snap.w r.snap.L), ⟨_, _, r.hash, rfl⟩, ?_⟩
  unfold State.callFinder
  rw [ht]
  simp only [Bool.false_eq_true, if_false, State.search]
  refine State.Leads.trans h (State.Leads.step rfl ?_)
  simp only [State.stepPhase, State.stepCandidates, State.searchDone]
  have : (r.withBest (Ref.findLinear (s.inputOf r.snap) r.snap.n r.cur r.snap.w r.snap.L)).task.usesChain = false := ht
  simp only [this, Bool.false_eq_true, if_false]
  exact State.Leads.refl _

/-- The three reads of a hash. -/
theorem State.hashRead_leads {bad : Prop} {s t : State} {r : Run} (hf : r.foreign = []) (hin : s.Readable bad r.snap)
    (h3 : r.cur + 3 ≤ r.snap.n)
    (h : State.Leads bad
      (if r.task = .hash3 then s.hash3Done r [s.inputOf r.snap r.cur, s.inputOf r.snap (r.cur + 1), s.inputOf r.snap (r.cur + 2)]
        else s.search { r with hash := Ref.hashAt (s.inputOf r.snap) r.cur }
          (Index.bucket s.index (Ref.hashAt (s.inputOf r.snap) r.cur))) t) :
    State.Leads bad (s.goto r (.hashRead [])) t := by
  have hstep : ∀ (bytes : List Byte), bytes.length + 1 < 3 →
      State.Leads bad (s.goto r (.hashRead bytes))
        (s.goto r (.hashRead (bytes ++ [s.inputOf r.snap (r.cur + bytes.length)]))) := by
    intro bytes hb
    refine State.Leads.step rfl ?_
    simp only [State.stepPhase, State.stepHashRead]
    obtain ⟨h1, h2⟩ := hin (r.cur + bytes.length) (by omega)
    refine State.fetch_leads hf h1 h2 ?_
    rw [if_pos (show bytes.length + 1 < Config.hashBytes from hb)]
    exact State.Leads.refl _
  have h01 : State.Leads bad (s.goto r (.hashRead [])) (s.goto r (.hashRead [s.inputOf r.snap r.cur])) :=
    hstep [] (by simp)
  have h12 : State.Leads bad (s.goto r (.hashRead [s.inputOf r.snap r.cur]))
      (s.goto r (.hashRead [s.inputOf r.snap r.cur, s.inputOf r.snap (r.cur + 1)])) := hstep [_] (by simp)
  refine State.Leads.trans h01 (State.Leads.trans h12 (State.Leads.step rfl ?_))
  simp only [State.stepPhase, State.stepHashRead]
  obtain ⟨h1, h2⟩ := hin (r.cur + 2) (by omega)
  refine State.fetch_leads hf h1 h2 ?_
  rw [if_neg (show ¬ ([s.inputOf r.snap r.cur, s.inputOf r.snap (r.cur + 1)].length + 1 < Config.hashBytes) by
    simp [Config.hashBytes])]
  by_cases ht : r.task = .hash3
  · rw [if_pos ht] at h
    rw [if_pos ht]
    exact h
  · rw [if_neg ht] at h
    rw [if_neg ht]
    exact h

/-- The hash-chain finder. -/
theorem State.callFinder_chain {bad : Prop} {s : State} {r : Run} (hf : r.foreign = []) (hin : r.cur + 3 ≤ r.snap.n → s.Readable bad r.snap)
    (ht : r.task.usesChain = true) :
    ∃ r', r.Same r' ∧ State.Leads bad (s.callFinder r)
      (if Ref.fullAt s.platform.indexCap r.snap.n r.cur s.index = true then s.finish r' .indexFull
      else State.goto { s with index := Ref.insertHc (s.inputOf r.snap) r.snap.n r.cur r.snap.w s.index } r'
        (.found (Ref.findHc (s.inputOf r.snap) r.snap.n r.cur r.snap.w r.snap.L s.index).1
          (Ref.findHc (s.inputOf r.snap) r.snap.n r.cur r.snap.w r.snap.L s.index).2)) := by
  have hne : r.task ≠ .hash3 := by rintro h; simp [h, Task.usesChain] at ht
  by_cases h3 : r.cur + 3 ≤ r.snap.n
  · have hc : s.callFinder r = s.goto r (.hashRead []) := by
      unfold State.callFinder
      rw [if_pos ht, if_pos (show r.cur + Config.hashBytes ≤ r.snap.n from h3)]
    rw [hc]
    generalize hh : Ref.hashAt (s.inputOf r.snap) r.cur = h
    generalize hb : Ref.searchBucket (s.inputOf r.snap) r.snap.n r.cur r.snap.w r.snap.L (Index.bucket s.index h) = best
    refine ⟨Run.withBest { r with hash := h } best, ⟨_, _, _, rfl⟩, ?_⟩
    refine State.hashRead_leads hf (hin h3) h3 ?_
    rw [if_neg hne, hh]
    have hv : Ref.visit (Ref.better r.task.usesChain) (s.inputOf r.snap) r.snap.n r.cur r.snap.w r.snap.L
        (Index.bucket s.index h) (0, 0) = best := by
      rw [← hb, ht]
      rfl
    have hl := State.candidates_leads (s := s) (r := { r with hash := h }) hf (fun _ => hin h3) (Index.bucket s.index h) (0, 0)
    have hv' : Ref.visit (Ref.better (Run.task { r with hash := h }).usesChain) (s.inputOf (Run.snap { r with hash := h }))
        (Run.snap { r with hash := h }).n (Run.cur { r with hash := h }) (Run.snap { r with hash := h }).w
        (Run.snap { r with hash := h }).L (Index.bucket s.index h) (0, 0) = best := hv
    rw [hv'] at hl
    refine State.Leads.trans hl (State.Leads.step rfl ?_)
    simp only [State.stepPhase, State.stepCandidates, State.searchDone]
    rw [if_pos (show (Run.withBest { r with hash := h } best).task.usesChain = true from ht)]
    have hfull : State.indexFull (s.goto (Run.withBest { r with hash := h } best) (.candidates [])) =
        Ref.fullAt s.platform.indexCap r.snap.n r.cur s.index := by
      simp only [State.indexFull, Ref.fullAt, h3, decide_true, Bool.true_and, State.goto_platform, State.goto_index]
      cases s.platform.indexCap <;> rfl
    rw [hfull]
    by_cases hF : Ref.fullAt s.platform.indexCap r.snap.n r.cur s.index = true
    · rw [if_pos hF, if_pos hF]
      exact State.raise_leads _ _ _ hf
    · rw [if_neg hF, if_neg hF]
      have hi : Ref.insertHc (s.inputOf r.snap) r.snap.n r.cur r.snap.w s.index =
          Index.setBucket s.index h (chainBucket r.cur r.snap.w (Index.bucket s.index h)) := by
        unfold Ref.insertHc
        rw [if_pos h3, hh]
      have hfd : Ref.findHc (s.inputOf r.snap) r.snap.n r.cur r.snap.w r.snap.L s.index =
          if 3 ≤ best.2 then best else (0, 0) := by
        unfold Ref.findHc
        rw [if_pos h3]
        dsimp only
        rw [hh, hb]
      rw [hi, hfd]
      have hgo : ∀ next : After, State.Leads bad
          ((s.goto (Run.withBest { r with hash := h } best) (.candidates [])).updates
            { (Run.withBest { r with hash := h } best) with phase := .candidates [] }
            (chainUpdates h r.cur r.snap.w (Index.bucket s.index h)) next)
          (State.goto { s with index := Index.setBucket s.index h (chainBucket r.cur r.snap.w (Index.bucket s.index h)) }
            (Run.withBest { r with hash := h } best) next.phase) := by
        intro next
        have hl := State.updates_reaches s (Run.withBest { r with hash := h } best)
          (chainUpdates h r.cur r.snap.w (Index.bucket s.index h)) next
        have hnone : s.notes (chainUpdates h r.cur r.snap.w (Index.bucket s.index h)) = [] := by
          unfold chainUpdates
          split <;> rfl
        rw [hnone] at hl
        rw [chainUpdates_fold] at hl
        rw [State.updates_goto, State.updates_rephase]
        exact .inl hl
      by_cases hm : 3 ≤ best.2
      · rw [if_pos (show Config.minMatch ≤ (Run.withBest { r with hash := h } best).bestLen from hm), if_pos hm]
        exact hgo (.found best.1 best.2)
      · rw [if_neg (show ¬ Config.minMatch ≤ (Run.withBest { r with hash := h } best).bestLen from hm), if_neg hm]
        exact hgo (.found 0 0)
  · refine ⟨r, ⟨r.bestDist, r.bestLen, r.hash, rfl⟩, ?_⟩
    have hc : s.callFinder r = s.goto r (.found 0 0) := by
      unfold State.callFinder
      rw [if_pos ht, if_neg (show ¬ r.cur + Config.hashBytes ≤ r.snap.n from h3)]
    have hF : ¬ Ref.fullAt s.platform.indexCap r.snap.n r.cur s.index = true := by simp [Ref.fullAt, h3]
    rw [hc, if_neg hF, Ref.insertHc, if_neg h3, Ref.findHc, if_neg h3]
    exact State.Leads.refl _

/-! ### The encoder -/

/-- The writes of a record and the progress update. -/
theorem State.emit_leads {bad : Prop} {s : State} {r : Run} (hf : r.foreign = [])
    (hout : ∀ j < 4, s.platform.hasSideEffects (r.snap.outAddr (r.o + j)) = false ∧
      (s.platform.admits (r.snap.outAddr (r.o + j)) .write = true ∨ bad)) (w : Word) (k : Nat) :
    ∃ seen : Unseen, (∀ c ∈ seen.cells, ∃ j < 4, c.1 = r.snap.outAddr (r.o + j)) ∧ (∀ c ∈ seen.regs, c.1 ∈ progressRegs) ∧
      State.Leads bad (s.goto r (.emit w k 0))
        (State.goto
          { s with
            mem := Memory.writeBytes s.mem (r.snap.outAddr r.o) (Ref.recordBytes w)
            cursor := BitVec.ofNat 32 (r.cur + (k + 1))
            outLen := BitVec.ofNat 32 (r.o + 4)
            tokenCount := BitVec.ofNat 32 (r.t + 1) }
          (Run.noting { r with cur := r.cur + (k + 1), o := r.o + 4, t := r.t + 1 } seen) .encodeTop) := by
  have hstep : ∀ (u : State) (q : Run) (j : Nat), u.platform = s.platform → q.foreign = [] → q.snap = r.snap → q.o = r.o →
      j < 4 → State.Leads bad (u.goto q (.emit w k j))
        (State.goto { u with mem := Memory.write u.mem (r.snap.outAddr (r.o + j)) (recordByte w j) }
          { q with journal := (r.snap.outAddr (r.o + j), Memory.read u.mem (r.snap.outAddr (r.o + j))) :: q.journal }
          (.emit w k (j + 1))) := by
    intro u q j hp hq hs ho hj
    refine State.Leads.step rfl ?_
    simp only [State.stepPhase, State.stepEmit]
    rw [if_pos (show j < Config.tokenBytes from hj), hs, ho]
    obtain ⟨h1, h2⟩ := hout j hj
    refine State.store_leads hq (by simpa [hp] using h1) (by simpa [hp] using h2) ?_
    exact State.Leads.refl _
  let a : Nat → Nat := fun j => r.snap.outAddr (r.o + j)
  let m1 := Memory.write s.mem (a 0) (recordByte w 0)
  let m2 := Memory.write m1 (a 1) (recordByte w 1)
  let m3 := Memory.write m2 (a 2) (recordByte w 2)
  let m4 := Memory.write m3 (a 3) (recordByte w 3)
  let cells : List Host.Cell := [(a 3, Memory.read m3 (a 3)), (a 2, Memory.read m2 (a 2)), (a 1, Memory.read m1 (a 1)),
    (a 0, Memory.read s.mem (a 0))]
  let q : Run := { r with
    cur := r.cur + (k + 1), o := r.o + 4, t := r.t + 1, journal := cells ++ r.journal, phase := .emit w k 4 }
  obtain ⟨regs, hregs, hl⟩ := State.progress_leads (bad := bad) { s with mem := m4 } q .encodeTop
  refine ⟨{ cells := cells, regs := regs }, ?_, hregs, ?_⟩
  rotate_left
  · refine State.Leads.trans (hstep s r 0 rfl hf rfl rfl (by omega)) ?_
    refine State.Leads.trans (hstep _ _ 1 rfl (by exact hf) rfl rfl (by omega)) ?_
    refine State.Leads.trans (hstep _ _ 2 rfl (by exact hf) rfl rfl (by omega)) ?_
    refine State.Leads.trans (hstep _ _ 3 rfl (by exact hf) rfl rfl (by omega)) ?_
    refine State.Leads.step rfl ?_
    simp only [State.stepPhase, State.stepEmit]
    rw [if_neg (show ¬ (3 + 1 < Config.tokenBytes) by simp [Config.tokenBytes])]
    rw [State.updates_goto]
    exact hl
  · intro c hc
    simp only [cells, List.mem_cons, List.not_mem_nil, or_false] at hc
    rcases hc with rfl | rfl | rfl | rfl
    · exact ⟨3, by omega, rfl⟩
    · exact ⟨2, by omega, rfl⟩
    · exact ⟨1, by omega, rfl⟩
    · exact ⟨0, by omega, rfl⟩

/-- What the encoder's loop leaves, from its head in the state `s` with the run `r`, when it goes on for the tokens `ts` to
the index `idx` and the error `e`. -/
def State.encoded (s : State) (r : Run) (ts : List Ref.Token) (idx : List (Nat × List Nat)) (e : ErrCode)
    (seen : Unseen) : State :=
  { s with
    engine := none, done := true, err := e
    cursor := BitVec.ofNat 32 (r.cur + Ref.covered ts)
    outLen := BitVec.ofNat 32 (r.o + 4 * ts.length)
    tokenCount := BitVec.ofNat 32 (r.t + ts.length)
    index := idx
    mem := Memory.writeBytes s.mem (r.snap.outAddr r.o) (Ref.streamBytes ts)
    unseen := seen.append s.unseen }

theorem State.encoded_nil {s : State} {r : Run} (e : ErrCode)
    (hprog : s.cursor = BitVec.ofNat 32 r.cur ∧ s.outLen = BitVec.ofNat 32 r.o ∧ s.tokenCount = BitVec.ofNat 32 r.t)
    (hf : r.foreign = []) : s.finish r e = s.encoded r [] s.index e { cells := r.journal, regs := r.regJournal } := by
  rw [State.finish_clean s r e hf]
  obtain ⟨h1, h2, h3⟩ := hprog
  simp only [State.encoded, Ref.covered, Ref.streamBytes, List.map_nil, List.sum_nil, List.length_nil, Nat.mul_zero,
    Nat.add_zero, List.flatMap_nil, Memory.writeBytes, ← h1, ← h2, ← h3]

@[simp] theorem Ref.recordBytes_length (w : Word) : (Ref.recordBytes w).length = 4 := rfl

theorem Memory.inputOf_writeBytes {s : State} {p : Params} {i a : Nat} (bs : List Byte)
    (h : ∀ j < bs.length, p.inAddr i ≠ a + j) :
    Memory.read (Memory.writeBytes s.mem a bs) (p.inAddr i) = s.inputOf p i := by
  refine Memory.read_writeBytes_outside s.mem bs ?_
  by_contra hn
  exact h (p.inAddr i - a) (by omega) (by omega)

/-- matchLen reads nothing outside the input. -/
theorem Ref.matchFrom_congr {f g : Nat → Byte} {n : Nat} (h : ∀ i < n, f i = g i) (L : Nat) {p c : Nat} (hp : p < c)
    (fuel k : Nat) : Ref.matchFrom f n L p c fuel k = Ref.matchFrom g n L p c fuel k := by
  induction fuel generalizing k with
  | zero => rfl
  | succ fuel ih =>
    simp only [Ref.matchFrom]
    by_cases hc : c + k < n
    · rw [h (p + k) (by omega), h (c + k) hc, ih]
    · have : ∀ P : Prop, ¬ (k < L ∧ c + k < n ∧ P) := fun P h => hc h.2.1
      rw [if_neg (this _), if_neg (this _)]

theorem Ref.visit_congr {f g : Nat → Byte} {n : Nat} (h : ∀ i < n, f i = g i) (better : Nat → Nat → Bool) (c w L : Nat)
    (ps : List Nat) (best : Nat × Nat) :
    Ref.visit better f n c w L ps best = Ref.visit better g n c w L ps best := by
  induction ps generalizing best with
  | nil => rfl
  | cons p ps ih =>
    simp only [Ref.visit]
    by_cases hw : inWindow c w p = true
    · have hp : p < c := by
        simp only [inWindow, Bool.and_eq_true, decide_eq_true_eq] at hw
        exact hw.2
      rw [show Ref.matchLen f n p c L = Ref.matchLen g n p c L from Ref.matchFrom_congr h L hp L 0, ih]
    · have hw' : inWindow c w p = false := by simpa using hw
      simp only [hw', Bool.false_and]
      exact ih _

theorem Ref.findLinear_congr {f g : Nat → Byte} {n : Nat} (h : ∀ i < n, f i = g i) (c w L : Nat) :
    Ref.findLinear f n c w L = Ref.findLinear g n c w L := Ref.visit_congr h _ c w L _ _

theorem Ref.hashAt_congr {f g : Nat → Byte} {n c : Nat} (h : ∀ i < n, f i = g i) (hc : c + 3 ≤ n) :
    Ref.hashAt f c = Ref.hashAt g c := by
  simp only [Ref.hashAt, h c (by omega), h (c + 1) (by omega), h (c + 2) (by omega)]

theorem Ref.findHc_congr {f g : Nat → Byte} {n : Nat} (h : ∀ i < n, f i = g i) (c w L : Nat) (idx : List (Nat × List Nat)) :
    Ref.findHc f n c w L idx = Ref.findHc g n c w L idx := by
  unfold Ref.findHc
  split
  · rename_i hc
    rw [Ref.hashAt_congr h hc, show Ref.searchBucket f n c w L = Ref.searchBucket g n c w L from
      funext fun b => Ref.visit_congr h _ c w L b _]
  · rfl

theorem Ref.insertHc_congr {f g : Nat → Byte} {n : Nat} (h : ∀ i < n, f i = g i) (c w : Nat) (idx : List (Nat × List Nat)) :
    Ref.insertHc f n c w idx = Ref.insertHc g n c w idx := by
  unfold Ref.insertHc
  split
  · rename_i hc
    rw [Ref.hashAt_congr h hc]
  · rfl

theorem Ref.find_congr {f g : Nat → Byte} {n : Nat} (h : ∀ i < n, f i = g i) (chain : Bool) (w L c : Nat)
    (idx : List (Nat × List Nat)) : Ref.find chain f n w L c idx = Ref.find chain g n w L c idx := by
  unfold Ref.find
  rw [Ref.findHc_congr h, Ref.insertHc_congr h, Ref.findLinear_congr h]

theorem Ref.choose_congr {f g : Nat → Byte} {n c : Nat} (h : ∀ i < n, f i = g i) (hc : c < n) (found : Nat × Nat) :
    Ref.choose f n c found = Ref.choose g n c found := by
  unfold Ref.choose
  split
  · rename_i hq
    rw [h _ hq.2]
  · rw [h _ hc]

/-- The encoder reads nothing outside the input. -/
theorem Ref.encode_congr {f g : Nat → Byte} {n : Nat} (h : ∀ i < n, f i = g i) (chain : Bool) (cap : Option Nat) (w L : Nat)
    (room c : Nat) (idx : List (Nat × List Nat)) :
    Ref.encode chain cap f n w L room c idx = Ref.encode chain cap g n w L room c idx := by
  induction room generalizing c idx with
  | zero => rfl
  | succ room ih =>
    simp only [Ref.encode]
    split
    · rename_i hc
      rw [Ref.find_congr h, Ref.choose_congr h hc, ih]
    · rfl

/-- A token covers at most what is left of the input (R293). -/
theorem Ref.choose_covers {inp : Nat → Byte} {n c : Nat} (found : Nat × Nat) (hc : c < n) :
    c + ((Ref.choose inp n c found).len + 1) ≤ n := by
  unfold Ref.choose
  split
  · dsimp only
    omega
  · dsimp only
    omega

/-- A finder's result becomes a record: the literal is read, the record written, the progress updated (R282, R286, R290). -/
theorem State.found_leads {bad : Prop} {s : State} {r : Run} (hf : r.foreign = []) (hc : r.task.isCompress = true)
    (hin : s.Readable bad r.snap) (hcur : r.cur < r.snap.n)
    (hout : ∀ j < 4, s.platform.hasSideEffects (r.snap.outAddr (r.o + j)) = false ∧
      (s.platform.admits (r.snap.outAddr (r.o + j)) .write = true ∨ bad)) (d k : Nat) :
    let tok := Ref.choose (s.inputOf r.snap) r.snap.n r.cur (d, k)
    ∃ seen : Unseen, (∀ c ∈ seen.cells, ∃ j < 4, c.1 = r.snap.outAddr (r.o + j)) ∧ (∀ c ∈ seen.regs, c.1 ∈ progressRegs) ∧
      State.Leads bad (s.goto r (.found d k))
        (State.goto
          { s with
            mem := Memory.writeBytes s.mem (r.snap.outAddr r.o) (Ref.recordBytes (Ref.record tok))
            cursor := BitVec.ofNat 32 (r.cur + (tok.len + 1))
            outLen := BitVec.ofNat 32 (r.o + 4)
            tokenCount := BitVec.ofNat 32 (r.t + 1) }
          (Run.noting { r with cur := r.cur + (tok.len + 1), o := r.o + 4, t := r.t + 1 } seen) .encodeTop) := by
  intro tok
  obtain ⟨seen, hseen, hregs, hl⟩ := State.emit_leads (s := s) hf hout (Ref.record tok) tok.len
  refine ⟨seen, hseen, hregs, State.Leads.trans (State.Leads.step rfl ?_) hl⟩
  simp only [State.stepPhase, State.stepFound]
  rw [if_pos hc]
  have hq : Run.qualifies { r with phase := .found d k } k = (decide (k > 0) && decide (r.cur + k < r.snap.n)) := rfl
  by_cases hk : 0 < k ∧ r.cur + k < r.snap.n
  · have htok : tok = ⟨d, k, s.inputOf r.snap (r.cur + k)⟩ := if_pos hk
    rw [if_pos (by rw [hq]; simp [hk])]
    obtain ⟨h1, h2⟩ := hin (r.cur + k) hk.2
    refine State.fetch_leads hf h1 h2 ?_
    rw [htok]
    exact State.Leads.refl _
  · have htok : tok = ⟨0, 0, s.inputOf r.snap r.cur⟩ := if_neg hk
    rw [if_neg (by rw [hq]; simpa using hk)]
    obtain ⟨h1, h2⟩ := hin r.cur hcur
    refine State.fetch_leads hf h1 h2 ?_
    rw [htok]
    exact State.Leads.refl _

/-- The finder of a COMPRESS: INDEX_FULL, or its result with the index it leaves. -/
theorem State.callFinder_leads {bad : Prop} {s : State} {r : Run} (hf : r.foreign = []) (hin : s.Readable bad r.snap) :
    ∃ r', r.Same r' ∧ State.Leads bad (s.callFinder r)
      (if (r.task.usesChain && Ref.fullAt s.platform.indexCap r.snap.n r.cur s.index) = true then s.finish r' .indexFull
      else State.goto
        { s with index := (Ref.find r.task.usesChain (s.inputOf r.snap) r.snap.n r.snap.w r.snap.L r.cur s.index).2 } r'
        (.found (Ref.find r.task.usesChain (s.inputOf r.snap) r.snap.n r.snap.w r.snap.L r.cur s.index).1.1
          (Ref.find r.task.usesChain (s.inputOf r.snap) r.snap.n r.snap.w r.snap.L r.cur s.index).1.2)) := by
  rcases ht : r.task.usesChain with _ | _
  · obtain ⟨r', hs, hl⟩ := State.callFinder_linear (s := s) hf (fun _ => hin) ht
    exact ⟨r', hs, by simpa [Ref.find] using hl⟩
  · obtain ⟨r', hs, hl⟩ := State.callFinder_chain (s := s) hf (fun _ => hin) ht
    exact ⟨r', hs, by simpa [Ref.find] using hl⟩

/-- The encoder's loop computes `Ref.encode` (R290). -/
theorem State.encode_leads {bad : Prop} (room : Nat) {s : State} {r : Run} (hf : r.foreign = [])
    (hc : r.task.isCompress = true) (hin : s.Readable bad r.snap) (hroom : room = (r.snap.outCap.toNat - r.o) / 4)
    (ho : r.o ≤ r.snap.outCap.toNat)
    (hout : ∀ j < r.snap.outCap.toNat, ∀ i < r.snap.n, r.snap.inAddr i ≠ r.snap.outAddr j) (hcur : r.cur ≤ r.snap.n)
    (hprog : s.cursor = BitVec.ofNat 32 r.cur ∧ s.outLen = BitVec.ofNat 32 r.o ∧ s.tokenCount = BitVec.ofNat 32 r.t)
    (res : List Ref.Token × List (Nat × List Nat) × ErrCode)
    (hres : res = Ref.encode r.task.usesChain s.platform.indexCap (s.inputOf r.snap) r.snap.n r.snap.w r.snap.L room r.cur
      s.index)
    (hw : s.Writable bad r.snap (r.o + 4 * res.1.length)) :
    ∃ seen : Unseen,
      (∀ c ∈ seen.cells, c ∈ r.journal ∨ ∃ j, r.o ≤ j ∧ j < r.o + 4 * res.1.length ∧ c.1 = r.snap.outAddr j) ∧
      (∀ c ∈ seen.regs, c ∈ r.regJournal ∨ c.1 ∈ progressRegs) ∧
      State.Leads bad (s.goto r .encodeTop) (s.encoded r res.1 res.2.1 res.2.2 seen) := by
  induction room generalizing s r res with
  | zero =>
    refine ⟨{ cells := r.journal, regs := r.regJournal }, fun c h => .inl h, fun c h => .inl h, State.Leads.step rfl ?_⟩
    subst hres
    simp only [State.stepPhase, State.stepEncodeTop, Ref.encode]
    by_cases hn : r.cur < r.snap.n
    · rw [if_pos hn, if_pos (show r.o + Config.tokenBytes > r.snap.outCap.toNat by simp only [Config.tokenBytes]; omega),
        if_pos hn, ← State.encoded_nil _ hprog hf]
      exact State.raise_leads _ _ _ hf
    · rw [if_neg hn, if_neg hn, ← State.encoded_nil _ hprog hf]
      exact State.Leads.refl _
  | succ room ih =>
    by_cases hn : r.cur < r.snap.n
    swap
    · refine ⟨{ cells := r.journal, regs := r.regJournal }, fun c h => .inl h, fun c h => .inl h, State.Leads.step rfl ?_⟩
      subst hres
      simp only [State.stepPhase, State.stepEncodeTop, Ref.encode]
      rw [if_neg hn, if_neg hn, ← State.encoded_nil _ hprog hf]
      exact State.Leads.refl _
    have htop : State.Leads bad (s.goto r .encodeTop) ((s.goto r .encodeTop).callFinder { r with phase := .encodeTop }) := by
      refine State.Leads.step rfl ?_
      simp only [State.stepPhase, State.stepEncodeTop]
      rw [if_pos hn, if_neg (show ¬ r.o + Config.tokenBytes > r.snap.outCap.toNat by simp only [Config.tokenBytes]; omega)]
      exact State.Leads.refl _
    obtain ⟨r', ⟨bd, bl, hh, hr'⟩, hl⟩ := State.callFinder_leads (s := s.goto r .encodeTop)
      (r := { r with phase := .encodeTop }) (bad := bad) hf hin
    have hl := State.Leads.trans htop hl
    by_cases hfull : (r.task.usesChain && Ref.fullAt s.platform.indexCap r.snap.n r.cur s.index) = true
    · refine ⟨{ cells := r.journal, regs := r.regJournal }, fun c h => .inl h, fun c h => .inl h, State.Leads.trans hl ?_⟩
      have hr : res = ([], s.index, .indexFull) := by
        rw [hres, Ref.encode, if_pos hn, if_pos hfull]
      rw [if_pos (show ((Run.task { r with phase := .encodeTop }).usesChain &&
        Ref.fullAt (s.goto r .encodeTop).platform.indexCap (Run.snap { r with phase := .encodeTop }).n
          (Run.cur { r with phase := .encodeTop }) (s.goto r .encodeTop).index) = true from hfull), hr]
      have : State.finish (s.goto r .encodeTop) r' .indexFull = s.encoded r [] s.index .indexFull { cells := r.journal, regs := r.regJournal } := by
        rw [← State.encoded_nil _ hprog hf, State.finish_clean _ _ _ hf, State.finish_clean _ _ _ (by rw [hr']; exact hf),
          hr']
        rfl
      rw [this]
      exact State.Leads.refl _
    · generalize hfind : Ref.find r.task.usesChain (s.inputOf r.snap) r.snap.n r.snap.w r.snap.L r.cur s.index = found at *
      rw [if_neg (show ¬ ((Run.task { r with phase := .encodeTop }).usesChain &&
        Ref.fullAt (s.goto r .encodeTop).platform.indexCap (Run.snap { r with phase := .encodeTop }).n
          (Run.cur { r with phase := .encodeTop }) (s.goto r .encodeTop).index) = true from hfull)] at hl
      have hfind' : Ref.find (Run.task { r with phase := .encodeTop }).usesChain
          (State.inputOf (s.goto r .encodeTop) (Run.snap { r with phase := .encodeTop }))
          (Run.snap { r with phase := .encodeTop }).n (Run.snap { r with phase := .encodeTop }).w
          (Run.snap { r with phase := .encodeTop }).L (Run.cur { r with phase := .encodeTop })
          (s.goto r .encodeTop).index = found := hfind
      rw [hfind'] at hl
      generalize htok : Ref.choose (s.inputOf r.snap) r.snap.n r.cur found.1 = tok
      generalize hrest : Ref.encode r.task.usesChain s.platform.indexCap (s.inputOf r.snap) r.snap.n r.snap.w r.snap.L room
        (r.cur + (tok.len + 1)) found.2 = rest
      have hr : res = (tok :: rest.1, rest.2) := by
        rw [hres, Ref.encode, if_pos hn, if_neg hfull]
        dsimp only
        rw [hfind, htok, hrest]
      have hcov := Ref.choose_covers (inp := s.inputOf r.snap) found.1 hn
      rw [htok] at hcov
      have hlen : res.1.length = rest.1.length + 1 := by rw [hr]; rfl
      rw [hlen] at hw ⊢
      obtain ⟨seen1, hseen1, hregs1, hl1⟩ := State.found_leads (s := { s with index := found.2 })
        (r := r') (bad := bad) (by rw [hr']; exact hf) (by rw [hr']; exact hc) (by rw [hr']; exact hin)
        (by rw [hr']; exact hn) (by rw [hr']; exact fun j hj => hw (r.o + j) (by omega)) found.1.1 found.1.2
      have htok' : Ref.choose (State.inputOf { s with index := found.2 } r'.snap) r'.snap.n r'.cur
          (found.1.1, found.1.2) = tok := by rw [hr']; exact htok
      rw [htok'] at hl1
      generalize hs1 : ({ s with
            index := found.2
            mem := Memory.writeBytes s.mem (r.snap.outAddr r.o) (Ref.recordBytes (Ref.record tok))
            cursor := BitVec.ofNat 32 (r.cur + (tok.len + 1))
            outLen := BitVec.ofNat 32 (r.o + 4)
            tokenCount := BitVec.ofNat 32 (r.t + 1) } : State) = s1
      generalize hr1 : ({ r' with
            cur := r'.cur + (tok.len + 1), o := r'.o + 4, t := r'.t + 1, journal := seen1.cells ++ r'.journal
            regJournal := seen1.regs ++ r'.regJournal } : Run) = r1
      have hcongr : ∀ i < r.snap.n, s1.inputOf r.snap i = s.inputOf r.snap i := by
        intro i hi
        rw [← hs1]
        refine Memory.inputOf_writeBytes (s := s) _ fun j hj => ?_
        simp only [Ref.recordBytes_length] at hj
        have := hout (r.o + j) (by omega) i hi
        simpa [Params.outAddr, Nat.add_assoc] using this
      have hrest1 : rest = Ref.encode r1.task.usesChain s1.platform.indexCap (s1.inputOf r1.snap) r1.snap.n r1.snap.w
          r1.snap.L room r1.cur s1.index := by
        rw [← hr1, hr']
        dsimp only
        rw [Ref.encode_congr hcongr, ← hs1, ← hrest]
      have hsnap : r1.snap = r.snap := by rw [← hr1, hr']
      obtain ⟨seen2, hseen2, hregs2, hl2⟩ := ih (s := s1) (r := r1) (by rw [← hr1, hr']; exact hf) (by rw [← hr1, hr']; exact hc)
        (by rw [hsnap, ← hs1]; exact hin) (by rw [hsnap, ← hr1, hr']; dsimp only; omega)
        (by rw [hsnap, ← hr1, hr']; dsimp only; omega) (by rw [hsnap]; exact hout)
        (by rw [hsnap, ← hr1, hr']; exact hcov) (by rw [← hs1, ← hr1, hr']; exact ⟨rfl, rfl, rfl⟩) rest hrest1
        (by
          rw [hsnap, ← hr1, hr', ← hs1]
          intro j hj
          exact hw j (by dsimp only at hj; omega))
      refine ⟨seen2, ?_, ?_, ?_⟩
      · intro c hc'
        rcases hseen2 c hc' with hj | ⟨j, h1, h2, h3⟩
        · rw [← hr1, hr'] at hj
          simp only [List.mem_append] at hj
          rcases hj with hj | hj
          · obtain ⟨j, h1, h2⟩ := hseen1 c hj
            rw [hr'] at h2
            exact .inr ⟨r.o + j, by omega, by omega, h2⟩
          · exact .inl hj
        · rw [hsnap] at h3
          rw [← hr1, hr'] at h1 h2
          dsimp only at h1 h2
          exact .inr ⟨j, by omega, by omega, h3⟩
      · intro c hc'
        rcases hregs2 c hc' with hj | hj
        · rw [← hr1, hr'] at hj
          simp only [List.mem_append] at hj
          rcases hj with hj | hj
          · exact .inr (hregs1 c hj)
          · exact .inl hj
        · exact .inr hj
      · have hfin : s1.encoded r1 rest.1 rest.2.1 rest.2.2 seen2 = s.encoded r res.1 res.2.1 res.2.2 seen2 := by
          rw [hr, ← hs1, ← hr1, hr']
          simp only [State.encoded, Ref.covered, Ref.streamBytes, List.map_cons, List.sum_cons, List.length_cons,
            List.flatMap_cons]
          rw [Memory.writeBytes_append]
          simp only [Ref.recordBytes_length, Params.outAddr]
          simp only [State.mk.injEq, and_true, true_and]
          refine ⟨by congr 1; omega, by congr 1; omega, by congr 1; omega, by congr 1⟩
        rw [← hfin]
        refine State.Leads.trans hl (State.Leads.trans ?_ hl2)
        have e1 : State.goto { s.goto r .encodeTop with index := found.2 } r' (.found found.1.1 found.1.2) =
            State.goto { s with index := found.2 } r' (.found found.1.1 found.1.2) := rfl
        rw [e1]
        have hnote : Run.noting { r' with cur := r'.cur + (tok.len + 1), o := r'.o + 4, t := r'.t + 1 } seen1 = r1 := hr1
        rw [hnote] at hl1
        have e2 : State.goto
          { ({ s with index := found.2 } : State) with
            mem := Memory.writeBytes s.mem (r'.snap.outAddr r'.o) (Ref.recordBytes (Ref.record tok))
            cursor := BitVec.ofNat 32 (r'.cur + (tok.len + 1))
            outLen := BitVec.ofNat 32 (r'.o + 4)
            tokenCount := BitVec.ofNat 32 (r'.t + 1) } r1 .encodeTop = s1.goto r1 .encodeTop := by
          rw [← hs1, hr']
        rw [← e2]
        exact hl1

end Sys2Proof.Machine
end

