-- ==== Sys2Proof/Laws/RefineDecoder.lean ====
section
/-! SUPPORT. The engine computes the spec's decoder: DECOMPRESS over ordinary memory leads to what `Ref.decodeWithin` says. -/

namespace Sys2Proof.Machine

/-! ### The decoder's functions (44_decoder.md R321 to R325) -/

/-- R323: once inside the output, every index is copied; at or beyond its end, none is. -/
theorem Ref.copyFrom_skip {start : Nat} (m i : Nat) {out : List Byte} (h : out.length ≤ start + i) :
    Ref.copyFrom start m i out = out := by
  induction m generalizing i with
  | zero => rfl
  | succ m ih =>
    rw [Ref.copyFrom, if_neg (by omega)]
    exact ih (i + 1) (by omega)

theorem Ref.copyFrom_length {start : Nat} (m i : Nat) {out : List Byte} (h : start + i < out.length) :
    (Ref.copyFrom start m i out).length = out.length + m := by
  induction m generalizing i out with
  | zero => rfl
  | succ m ih =>
    rw [Ref.copyFrom, if_pos h, ih (i + 1) (by simp; omega)]
    simp
    omega

theorem Ref.copyFrom_prefix (start m i : Nat) (out : List Byte) : out <+: Ref.copyFrom start m i out := by
  induction m generalizing i out with
  | zero => exact List.prefix_refl _
  | succ m ih =>
    rw [Ref.copyFrom]
    refine List.IsPrefix.trans ?_ (ih (i + 1) _)
    split
    · exact List.prefix_append _ _
    · exact List.prefix_refl _

/-- R323: a record adds `cnt + 1` bytes. -/
theorem Ref.decodeRecord_length (out : List Byte) (w : Word) :
    (Ref.decodeRecord out w).length = out.length + copyCount out.length (recordOffset w) (recordLength w) + 1 := by
  unfold Ref.decodeRecord copyCount
  rw [List.length_append, List.length_singleton]
  by_cases hl : (recordLength w).toNat = 0
  · rw [hl, Ref.copyFrom, if_neg (by omega)]
  by_cases h : out.length - (recordOffset w).toNat < out.length
  · rw [Ref.copyFrom_length _ 0 (by omega), if_pos (by omega)]
  · rw [Ref.copyFrom_skip _ 0 (by omega), if_neg (by omega)]

theorem Ref.prefix_decodeRecord (out : List Byte) (w : Word) : out <+: Ref.decodeRecord out w :=
  List.IsPrefix.trans (Ref.copyFrom_prefix _ _ _ _) (List.prefix_append _ _)

theorem Ref.prefix_decodeWithin (cap : Nat) (ws : List Word) (out : List Byte) :
    out <+: (Ref.decodeWithin cap ws out).1 := by
  induction ws generalizing out with
  | nil => exact List.prefix_refl _
  | cons w ws ih =>
    rw [Ref.decodeWithin]
    split
    · exact List.prefix_refl _
    · exact List.IsPrefix.trans (Ref.prefix_decodeRecord out w) (ih _)

/-! ### The engine -/

/-- The output buffer holds the bytes written so far. -/
def State.Holds (s : State) (p : Params) (out : List Byte) : Prop :=
  ∀ j (h : j < out.length), Memory.read s.mem (p.outAddr j) = out[j]

theorem State.Holds.append {s : State} {p : Params} {out : List Byte} (h : s.Holds p out) (hm : Memory.wf s.mem = true)
    (v : Byte) : State.Holds { s with mem := Memory.write s.mem (p.outAddr out.length) v } p (out ++ [v]) := by
  intro j hj
  simp only [List.length_append, List.length_singleton] at hj
  by_cases hjo : j < out.length
  · rw [List.getElem_append_left hjo]
    exact (Memory.read_write_ne s.mem v (by simp only [Params.outAddr]; omega)).trans (h j hjo)
  · obtain rfl : j = out.length := by omega
    rw [List.getElem_append_right (le_refl _)]
    simpa using Memory.read_write_self hm _ v

/-- The bytes `out'` adds to `out`, written where `out` ends, are the memory that holds `out'`. -/
theorem State.Holds.extend {s : State} {p : Params} {out out' : List Byte} (h : s.Holds p out)
    (hm : Memory.wf s.mem = true) (hp : out <+: out') (hfit : p.outBase.toNat + out'.length ≤ Config.addressSpace) :
    State.Holds { s with mem := Memory.writeBytes s.mem (p.outAddr out.length) (out'.drop out.length) } p out' := by
  obtain ⟨ext, rfl⟩ := hp
  rw [List.drop_left]
  intro j hj
  by_cases hjo : j < out.length
  · rw [List.getElem_append_left hjo, ← h j hjo]
    exact Memory.read_writeBytes_outside s.mem ext (.inl (by simp only [Params.outAddr]; omega))
  · rw [List.getElem_append_right (by omega)]
    have hlt : j - out.length < ext.length := by simp at hj; omega
    have := Memory.read_writeBytes_inside (a := p.outAddr out.length) hm ext hlt
    rw [show p.outAddr out.length + (j - out.length) = p.outAddr j by simp only [Params.outAddr]; omega] at this
    exact this (by simp only [Params.outAddr]; simp at hfit; omega)

/-- The output buffer's first `m` bytes are ordinary memory that the engine may write and read back unless `bad`. -/
def State.OutputOk (bad : Prop) (s : State) (p : Params) (m : Nat) : Prop :=
  s.Writable bad p m ∧ ∀ j < m, s.platform.admits (p.outAddr j) .read = true ∨ bad

theorem State.copy_leads {bad : Prop} {p : Params} {start : Nat} {len lit : Byte} (m : Nat) {s : State} {r : Run} {i a : Nat}
    {out : List Byte} (hf : r.foreign = []) (hs : r.snap = p) (ha : r.o + a = out.length) (hi : i + m = len.toNat)
    (hh : s.Holds p out) (hm : Memory.wf s.mem = true) (hfit : p.outBase.toNat + p.outCap.toNat ≤ Config.addressSpace)
    (hcap : (Ref.copyFrom start m i out).length ≤ p.outCap.toNat)
    (hok : s.OutputOk bad p (Ref.copyFrom start m i out).length) :
    ∃ seen, (∀ c ∈ seen, ∃ j, out.length ≤ j ∧ j < (Ref.copyFrom start m i out).length ∧ c.1 = p.outAddr j) ∧
      State.Leads bad (s.goto r (.copy start len lit i a))
        (State.goto
          { s with mem := Memory.writeBytes s.mem (p.outAddr out.length) ((Ref.copyFrom start m i out).drop out.length) }
          { r with journal := seen ++ r.journal }
          (.copy start len lit len.toNat ((Ref.copyFrom start m i out).length - r.o))) := by
  induction m generalizing s r i a out with
  | zero =>
    subst hs
    refine ⟨[], by simp, ?_⟩
    have hil : i = len.toNat := by omega
    have hao : a = out.length - r.o := by omega
    simp only [Ref.copyFrom, List.drop_length, Memory.writeBytes, List.nil_append]
    rw [← hao, ← hil]
    exact State.Leads.refl _
  | succ m ih =>
    subst hs
    have hilt : i < len.toNat := by omega
    by_cases hc : start + i < out.length
    · have hget : out.getD (start + i) 0 = out[start + i] := by
        simp [List.getD_eq_getElem?_getD, List.getElem?_eq_getElem hc]
      generalize hv : out[start + i] = v at hget
      have hrec : Ref.copyFrom start (m + 1) i out = Ref.copyFrom start m (i + 1) (out ++ [v]) := by
        rw [Ref.copyFrom, if_pos hc, hget]
      have hpre := Ref.copyFrom_prefix start m (i + 1) (out ++ [v])
      have hlen : out.length + 1 ≤ (Ref.copyFrom start m (i + 1) (out ++ [v])).length := by
        simpa using hpre.length_le
      rw [hrec] at hcap hok ⊢
      obtain ⟨hw, hr⟩ := hok
      have hread : State.Leads bad (s.goto r (.copy start len lit i a)) (s.goto r (.copyWrite start len lit i a v)) := by
        refine State.Leads.step rfl ?_
        simp only [State.stepPhase, State.stepCopy]
        rw [if_pos hilt, if_pos (show start + i < r.o + a by omega)]
        refine State.fetch_leads hf (hw _ (by omega)).1 (hr _ (by omega)) ?_
        rw [State.goto_mem, hh _ hc, hv]
        exact State.Leads.refl _
      have hwrite : State.Leads bad (s.goto r (.copyWrite start len lit i a v))
          (State.goto { s with mem := Memory.write s.mem (r.snap.outAddr out.length) v }
            { r with journal := (r.snap.outAddr out.length, Memory.read s.mem (r.snap.outAddr out.length)) :: r.journal }
            (.copy start len lit (i + 1) (a + 1))) := by
        refine State.Leads.step rfl ?_
        simp only [State.stepPhase, State.stepCopyWrite]
        rw [show r.o + a = out.length from ha]
        obtain ⟨h1, h2⟩ := hw out.length (by omega)
        refine State.store_leads hf h1 h2 ?_
        exact State.Leads.refl _
      obtain ⟨seen, hseen, hl⟩ := ih (s := { s with mem := Memory.write s.mem (r.snap.outAddr out.length) v })
        (r := { r with journal := (r.snap.outAddr out.length, Memory.read s.mem (r.snap.outAddr out.length)) :: r.journal })
        (i := i + 1) (a := a + 1) (out := out ++ [v]) hf rfl (by simp; omega) (by omega) (hh.append hm v)
        (Memory.wf_write hm v (by simp only [Params.outAddr]; omega)) hcap ⟨hw, hr⟩
      refine ⟨seen ++ [(r.snap.outAddr out.length, Memory.read s.mem (r.snap.outAddr out.length))], ?_, ?_⟩
      · intro c hcm
        rw [List.mem_append, List.mem_singleton] at hcm
        rcases hcm with hcm | rfl
        · obtain ⟨j, h1, h2, h3⟩ := hseen c hcm
          exact ⟨j, by simp at h1; omega, h2, h3⟩
        · exact ⟨out.length, le_refl _, by omega, rfl⟩
      · refine State.Leads.trans hread (State.Leads.trans hwrite ?_)
        have hmem : Memory.writeBytes (Memory.write s.mem (r.snap.outAddr out.length) v) (r.snap.outAddr (out ++ [v]).length)
              ((Ref.copyFrom start m (i + 1) (out ++ [v])).drop (out ++ [v]).length) =
            Memory.writeBytes s.mem (r.snap.outAddr out.length)
              ((Ref.copyFrom start m (i + 1) (out ++ [v])).drop out.length) := by
          obtain ⟨ext, he⟩ := hpre
          rw [← he, List.drop_left, List.append_assoc, List.drop_left]
          simp only [List.length_append, List.length_singleton, List.singleton_append, Memory.writeBytes, Params.outAddr,
            Nat.add_assoc]
        rw [List.append_assoc, List.singleton_append]
        rw [← hmem]
        exact hl
    · have hrec : Ref.copyFrom start (m + 1) i out = Ref.copyFrom start m (i + 1) out := by
        rw [Ref.copyFrom, if_neg hc]
      rw [hrec] at hcap hok ⊢
      have hskip : State.Leads bad (s.goto r (.copy start len lit i a)) (s.goto r (.copy start len lit (i + 1) a)) := by
        refine State.Leads.step rfl ?_
        simp only [State.stepPhase, State.stepCopy]
        rw [if_pos hilt, if_neg (show ¬ start + i < r.o + a by omega)]
        exact State.Leads.refl _
      obtain ⟨seen, hseen, hl⟩ := ih (s := s) (r := r) (i := i + 1) (a := a) (out := out) hf rfl ha (by omega) hh hm hcap hok
      exact ⟨seen, hseen, State.Leads.trans hskip hl⟩

/-- A record that fits: its copy, its literal, its progress update. -/
theorem State.record_leads {bad : Prop} {p : Params} {s : State} {r : Run} {out : List Byte} (hf : r.foreign = [])
    (hs : r.snap = p) (ha : r.o = out.length) (hh : s.Holds p out) (hm : Memory.wf s.mem = true)
    (hfit : p.outBase.toNat + p.outCap.toNat ≤ Config.addressSpace) (w : Word)
    (hcap : (Ref.decodeRecord out w).length ≤ p.outCap.toNat)
    (hok : s.OutputOk bad p (Ref.decodeRecord out w).length) :
    ∃ seen : Unseen,
      (∀ c ∈ seen.cells, ∃ j, out.length ≤ j ∧ j < (Ref.decodeRecord out w).length ∧ c.1 = p.outAddr j) ∧
      (∀ c ∈ seen.regs, c.1 ∈ progressRegs) ∧
      State.Leads bad (s.goto r (.copy (out.length - (recordOffset w).toNat) (recordLength w) (recordLiteral w) 0 0))
        (State.goto
          { s with
            mem := Memory.writeBytes s.mem (p.outAddr out.length) ((Ref.decodeRecord out w).drop out.length)
            cursor := BitVec.ofNat 32 (r.cur + 4)
            outLen := BitVec.ofNat 32 (Ref.decodeRecord out w).length
            tokenCount := BitVec.ofNat 32 (r.t + 1) }
          (Run.noting { r with cur := r.cur + 4, o := (Ref.decodeRecord out w).length, t := r.t + 1 } seen)
          (.recordRead [])) := by
  subst hs
  generalize hcp : Ref.copyFrom (out.length - (recordOffset w).toNat) (recordLength w).toNat 0 out = cp
  have hd : Ref.decodeRecord out w = cp ++ [recordLiteral w] := by rw [Ref.decodeRecord, hcp]
  have hpre : out <+: cp := by rw [← hcp]; exact Ref.copyFrom_prefix _ _ _ _
  rw [hd] at hcap hok ⊢
  simp only [List.length_append, List.length_singleton] at hcap hok ⊢
  obtain ⟨hw, hr⟩ := hok
  obtain ⟨seen, hseen, hl⟩ := State.copy_leads (bad := bad) (p := r.snap) (start := out.length - (recordOffset w).toNat)
    (len := recordLength w) (lit := recordLiteral w) (recordLength w).toNat (s := s) (r := r) (i := 0) (a := 0) (out := out)
    hf rfl (by omega) (by omega) hh hm hfit (by rw [hcp]; omega)
    (by rw [hcp]; exact ⟨fun j hj => hw j (by omega), fun j hj => hr j (by omega)⟩)
  rw [hcp] at hseen hl
  generalize hs1 : ({ s with mem := Memory.writeBytes s.mem (r.snap.outAddr out.length) (cp.drop out.length) } : State) = s1 at hl
  let cells : List Host.Cell := (r.snap.outAddr cp.length, Memory.read s1.mem (r.snap.outAddr cp.length)) :: seen
  let q : Run := { r with
    cur := r.cur + 4, o := cp.length + 1, t := r.t + 1, journal := cells ++ r.journal
    phase := .recordEnd (cp.length - r.o + 1) }
  let s2 : State := { s1 with mem := Memory.write s1.mem (r.snap.outAddr cp.length) (recordLiteral w) }
  obtain ⟨regs, hregs, hpr⟩ := State.progress_leads (bad := bad) s2 q .recordRead
  refine ⟨{ cells := cells, regs := regs }, ?_, hregs, State.Leads.trans hl ?_⟩
  · intro c hc
    simp only [cells, List.mem_cons] at hc
    rcases hc with rfl | hc
    · exact ⟨cp.length, hpre.length_le, by omega, rfl⟩
    · obtain ⟨j, h1, h2, h3⟩ := hseen c hc
      exact ⟨j, h1, by omega, h3⟩
  · refine State.Leads.step rfl ?_
    simp only [State.stepPhase, State.stepCopy]
    rw [if_neg (by omega), show r.o + (cp.length - r.o) = cp.length by have := hpre.length_le; omega]
    obtain ⟨h1, h2⟩ := hw cp.length (by omega)
    refine State.store_leads hf (by rw [← hs1]; exact h1) (by rw [← hs1]; exact h2) ?_
    refine State.Leads.step rfl ?_
    simp only [State.stepPhase, State.stepRecordEnd]
    have hmem : Memory.write s1.mem (r.snap.outAddr cp.length) (recordLiteral w) =
        Memory.writeBytes s.mem (r.snap.outAddr out.length) ((cp ++ [recordLiteral w]).drop out.length) := by
      obtain ⟨ext, rfl⟩ := hpre
      rw [← hs1, List.append_assoc, List.drop_left, List.drop_left, Memory.writeBytes_append]
      simp only [Memory.writeBytes, List.length_append, Params.outAddr, Nat.add_assoc]
    have hlen : r.o + (cp.length - r.o + 1) = cp.length + 1 := by have := hpre.length_le; omega
    rw [hlen]
    refine State.Leads.trans ?_ (State.Leads.trans hpr (State.Leads.of_eq ?_))
    · rw [State.updates_goto]
      exact State.Leads.refl _
    · have hmem2 : s2.mem = Memory.writeBytes s.mem (r.snap.outAddr out.length) ((cp ++ [recordLiteral w]).drop out.length) := hmem
      change State.goto { s2 with cursor := _, outLen := _, tokenCount := _, mem := s2.mem } _ _ = _
      rw [hmem2]
      simp only [s2, ← hs1]
      rfl

/-- The record at the cursor is read (R320). -/
theorem State.recordRead_leads {bad : Prop} {s : State} {r : Run} (hf : r.foreign = []) (hin : s.Readable bad r.snap)
    (h4 : r.cur + 4 ≤ r.snap.n) :
    State.Leads bad (s.goto r (.recordRead []))
      (s.goto r (.record (recordWord (s.inputOf r.snap r.cur) (s.inputOf r.snap (r.cur + 1)) (s.inputOf r.snap (r.cur + 2))
        (s.inputOf r.snap (r.cur + 3))))) := by
  have hfirst : State.Leads bad (s.goto r (.recordRead [])) (s.goto r (.recordRead [s.inputOf r.snap r.cur])) := by
    refine State.Leads.step rfl ?_
    simp only [State.stepPhase, State.stepRecordRead]
    rw [if_neg (show ¬ (True ∧ ¬ r.cur + Config.tokenBytes ≤ r.snap.n) from fun h => h.2 h4)]
    obtain ⟨h1, h2⟩ := hin r.cur (by omega)
    exact State.fetch_leads hf h1 h2 (State.Leads.refl _)
  have hstep : ∀ (b0 : Byte) (bs : List Byte), bs.length < 2 →
      State.Leads bad (s.goto r (.recordRead (b0 :: bs)))
        (s.goto r (.recordRead ((b0 :: bs) ++ [s.inputOf r.snap (r.cur + (b0 :: bs).length)]))) := by
    intro b0 bs hb
    refine State.Leads.step rfl ?_
    simp only [State.stepPhase, State.stepRecordRead]
    rw [if_neg (fun h => by simp at h)]
    obtain ⟨h1, h2⟩ := hin (r.cur + (b0 :: bs).length) (by simp only [List.length_cons]; omega)
    refine State.fetch_leads hf h1 h2 ?_
    match bs, hb with
    | [], _ => exact State.Leads.refl _
    | [_], _ => exact State.Leads.refl _
  refine State.Leads.trans hfirst (State.Leads.trans (hstep _ [] (by simp)) (State.Leads.trans (hstep _ [_] (by simp)) ?_))
  refine State.Leads.step rfl ?_
  simp only [State.stepPhase, State.stepRecordRead]
  rw [if_neg (fun h => by simp at h)]
  obtain ⟨h1, h2⟩ := hin (r.cur + 3) (by omega)
  refine State.fetch_leads hf h1 h2 ?_
  exact State.Leads.refl _

/-- What the decoder's loop leaves, from its head in the state `s` with the run `r` and the output `out`, when it goes on
for `m` records to the output `out'`. -/
def State.decoded (s : State) (r : Run) (out : List Byte) (fits : Bool) (out' : List Byte) (m : Nat)
    (seen : Unseen) : State :=
  { s with
    engine := none, done := true
    err := if fits then .none else .outOverflow
    tail := s.tail || (fits && decide (r.cur + 4 * m < r.snap.n))
    cursor := BitVec.ofNat 32 (r.cur + 4 * m)
    outLen := BitVec.ofNat 32 out'.length
    tokenCount := BitVec.ofNat 32 (r.t + m)
    mem := Memory.writeBytes s.mem (r.snap.outAddr out.length) (out'.drop out.length)
    unseen := seen.append s.unseen }

theorem Ref.decodeWithin_count_le (cap : Nat) (ws : List Word) (out : List Byte) :
    (Ref.decodeWithin cap ws out).2 ≤ ws.length := by
  induction ws generalizing out with
  | nil => simp [Ref.decodeWithin]
  | cons w ws ih =>
    rw [Ref.decodeWithin]
    split
    · simp
    · simpa using ih _

theorem Ref.decodeWithin_fits {cap : Nat} (ws : List Word) {out : List Byte} (h : out.length ≤ cap) :
    (Ref.decodeWithin cap ws out).1.length ≤ cap := by
  induction ws generalizing out with
  | nil => exact h
  | cons w ws ih =>
    rw [Ref.decodeWithin]
    split
    · exact h
    · exact ih (by omega)

/-- The decoder's loop computes `Ref.decodeWithin` (R330). -/
theorem State.decode_leads {bad : Prop} (k : Nat) {s : State} {r : Run} {q : Nat} {out : List Byte} (hf : r.foreign = [])
    (hin : s.Readable bad r.snap) (hq : r.cur = 4 * q) (hk : k = (r.snap.n - r.cur) / 4) (hcur : r.cur ≤ r.snap.n)
    (hout : ∀ j < r.snap.outCap.toNat, ∀ i < r.snap.n, r.snap.inAddr i ≠ r.snap.outAddr j)
    (ha : r.o = out.length) (hh : s.Holds r.snap out) (hm : Memory.wf s.mem = true)
    (hfit : r.snap.outBase.toNat + r.snap.outCap.toNat ≤ Config.addressSpace) (ho : out.length ≤ r.snap.outCap.toNat)
    (hprog : s.cursor = BitVec.ofNat 32 r.cur ∧ s.outLen = BitVec.ofNat 32 r.o ∧ s.tokenCount = BitVec.ofNat 32 r.t)
    (res : List Byte × Nat)
    (hres : res = Ref.decodeWithin r.snap.outCap.toNat ((List.range' q k).map (Ref.recordAt (s.inputOf r.snap))) out)
    (hok : s.OutputOk bad r.snap res.1.length) :
    ∃ seen : Unseen,
      (∀ c ∈ seen.cells, c ∈ r.journal ∨ ∃ j, out.length ≤ j ∧ j < res.1.length ∧ c.1 = r.snap.outAddr j) ∧
      (∀ c ∈ seen.regs, c ∈ r.regJournal ∨ c.1 ∈ progressRegs) ∧
      State.Leads bad (s.goto r (.recordRead [])) (s.decoded r out (decide (res.2 = k)) res.1 res.2 seen) := by
  induction k generalizing s r q out res with
  | zero =>
    refine ⟨{ cells := r.journal, regs := r.regJournal }, fun c h => .inl h, fun c h => .inl h, State.Leads.step rfl ?_⟩
    obtain rfl : res = (out, 0) := hres
    obtain ⟨h1, h2, h3⟩ := hprog
    simp only [State.stepPhase, State.stepRecordRead]
    rw [if_pos (show True ∧ ¬ r.cur + Config.tokenBytes ≤ r.snap.n from ⟨trivial, by simp only [Config.tokenBytes]; omega⟩)]
    split
    · rename_i hlt
      refine State.Leads.step rfl (State.Leads.step rfl (State.Leads.of_eq ?_))
      change State.finish _ _ ErrCode.none = _
      rw [State.finish_clean _ _ _ (by exact hf)]
      simp only [State.decoded, State.goto, decide_true, if_true, Nat.mul_zero, Nat.add_zero, List.drop_length,
        Memory.writeBytes, ← h1, ← h3, hlt, Bool.and_true, Bool.or_true]
      rw [← ha, ← h2]
      rfl
    · rename_i hlt
      rw [State.finish_clean _ _ _ (by exact hf)]
      refine State.Leads.of_eq ?_
      simp only [State.decoded, State.goto, decide_true, if_true, Nat.mul_zero, Nat.add_zero, List.drop_length,
        Memory.writeBytes, ← h1, ← h3, hlt, decide_false, Bool.and_false, Bool.or_false]
      rw [← ha, ← h2]
  | succ k ih =>
    have h4 : r.cur + 4 ≤ r.snap.n := by omega
    have hrd := State.recordRead_leads (s := s) (bad := bad) hf hin h4
    generalize hw : Ref.recordAt (s.inputOf r.snap) q = w
    have hw' : recordWord (s.inputOf r.snap r.cur) (s.inputOf r.snap (r.cur + 1)) (s.inputOf r.snap (r.cur + 2))
        (s.inputOf r.snap (r.cur + 3)) = w := by rw [← hw, hq]; rfl
    rw [hw'] at hrd
    rw [List.range'_succ, List.map_cons, hw, Ref.decodeWithin] at hres
    have hlen := Ref.decodeRecord_length out w
    by_cases hcap : r.snap.outCap.toNat < (Ref.decodeRecord out w).length
    · rw [if_pos hcap] at hres
      subst hres
      refine ⟨{ cells := r.journal, regs := r.regJournal }, fun c h => .inl h, fun c h => .inl h, State.Leads.trans hrd (State.Leads.step rfl ?_)⟩
      simp only [State.stepPhase, State.stepRecord, State.startRecord]
      rw [if_pos (show r.o + copyCount r.o (recordOffset w) (recordLength w) + 1 > r.snap.outCap.toNat by rw [ha]; omega)]
      refine State.Leads.trans (.inl (State.raise_reaches _ _ _ (.inl hf))) (State.Leads.of_eq ?_)
      obtain ⟨h1, h2, h3⟩ := hprog
      have hk0 : ¬ (0 = k + 1) := by omega
      simp only [State.decoded, State.goto, hk0, decide_false, Nat.mul_zero, Nat.add_zero, List.drop_length,
        Memory.writeBytes, ← h1, ← h3, Bool.false_eq_true, if_false, Bool.false_and, Bool.or_false]
      rw [← ha, ← h2]
    · rw [if_neg hcap] at hres
      have hstart : State.Leads bad (s.goto r (.record w))
          (s.goto r (.copy (out.length - (recordOffset w).toNat) (recordLength w) (recordLiteral w) 0 0)) := by
        refine State.Leads.step rfl ?_
        simp only [State.stepPhase, State.stepRecord, State.startRecord]
        rw [if_neg (show ¬ r.o + copyCount r.o (recordOffset w) (recordLength w) + 1 > r.snap.outCap.toNat by
          rw [ha]; omega)]
        refine State.Leads.of_eq ?_
        change s.goto r (.copy (r.o - (recordOffset w).toNat) (recordLength w) (recordLiteral w) 0 0) = _
        rw [ha]
      generalize hout1 : Ref.decodeRecord out w = out1 at *
      generalize hrest : Ref.decodeWithin r.snap.outCap.toNat
        ((List.range' (q + 1) k).map (Ref.recordAt (s.inputOf r.snap))) out1 = rest at hres
      subst hres
      have hpre : out1 <+: rest.1 := by rw [← hrest]; exact Ref.prefix_decodeWithin _ _ _
      have hpre0 : out <+: out1 := by rw [← hout1]; exact Ref.prefix_decodeRecord _ _
      obtain ⟨hwr, hrr⟩ := hok
      have hle := hpre.length_le
      obtain ⟨seen1, hseen1, hregs1, hl1⟩ := State.record_leads (bad := bad) (p := r.snap) (s := s) (r := r) (out := out) hf rfl ha hh
        hm hfit w (by rw [hout1]; omega)
        (by rw [hout1]; exact ⟨fun j hj => hwr j (by dsimp only; omega), fun j hj => hrr j (by dsimp only; omega)⟩)
      rw [hout1] at hseen1 hl1
      generalize hs1 : ({ s with
            mem := Memory.writeBytes s.mem (r.snap.outAddr out.length) (out1.drop out.length)
            cursor := BitVec.ofNat 32 (r.cur + 4)
            outLen := BitVec.ofNat 32 out1.length
            tokenCount := BitVec.ofNat 32 (r.t + 1) } : State) = s1 at hl1
      generalize hr1 : ({ r with
            cur := r.cur + 4, o := out1.length, t := r.t + 1, journal := seen1.cells ++ r.journal
            regJournal := seen1.regs ++ r.regJournal } : Run) = r1
      have hnote : Run.noting { r with cur := r.cur + 4, o := out1.length, t := r.t + 1 } seen1 = r1 := hr1
      rw [hnote] at hl1
      have hsnap : r1.snap = r.snap := by rw [← hr1]
      have hdrop : (out1.drop out.length).length = out1.length - out.length := by simp
      have hcongr : ∀ i < r.snap.n, s1.inputOf r.snap i = s.inputOf r.snap i := by
        intro i hi
        rw [← hs1]
        refine Memory.inputOf_writeBytes (s := s) _ fun j hj => ?_
        rw [hdrop] at hj
        have := hout (out.length + j) (by omega) i hi
        simpa [Params.outAddr, Nat.add_assoc] using this
      have hrest1 : rest = Ref.decodeWithin r1.snap.outCap.toNat
          ((List.range' (q + 1) k).map (Ref.recordAt (s1.inputOf r1.snap))) out1 := by
        rw [hsnap, ← hrest]
        congr 1
        refine List.map_congr_left fun x hx => ?_
        rw [List.mem_range'_1] at hx
        simp only [Ref.recordAt]
        rw [hcongr _ (by omega), hcongr _ (by omega), hcongr _ (by omega), hcongr _ (by omega)]
      have hh1 : s1.Holds r1.snap out1 := by
        rw [hsnap, ← hs1]
        exact hh.extend hm hpre0 (by omega)
      have hm1 : Memory.wf s1.mem = true := by
        rw [← hs1]
        refine Memory.wf_writeBytes hm _ ?_
        rw [hdrop]
        simp only [Params.outAddr]
        omega
      obtain ⟨seen2, hseen2, hregs2, hl2⟩ := ih (s := s1) (r := r1) (q := q + 1) (out := out1) (by rw [← hr1]; exact hf)
        (by rw [hsnap, ← hs1]; exact hin) (by rw [← hr1]; dsimp only; omega) (by rw [← hr1]; dsimp only; omega)
        (by rw [← hr1]; exact h4) (by rw [hsnap]; exact hout) (by rw [← hr1]) hh1 hm1 (by rw [hsnap]; exact hfit)
        (by rw [hsnap]; omega) (by rw [← hs1, ← hr1]; exact ⟨rfl, rfl, rfl⟩) rest hrest1
        (by rw [hsnap, ← hs1]; exact ⟨hwr, hrr⟩)
      refine ⟨seen2, ?_, ?_, ?_⟩
      · intro c hc
        have hle0 := hpre0.length_le
        rcases hseen2 c hc with hj | ⟨j, h1, h2, h3⟩
        · rw [← hr1] at hj
          simp only [List.mem_append] at hj
          rcases hj with hj | hj
          · obtain ⟨j, h1, h2, h3⟩ := hseen1 c hj
            exact .inr ⟨j, h1, by dsimp only; omega, h3⟩
          · exact .inl hj
        · rw [hsnap] at h3
          exact .inr ⟨j, by omega, h2, h3⟩
      · intro c hc
        rcases hregs2 c hc with hj | hj
        · rw [← hr1] at hj
          simp only [List.mem_append] at hj
          rcases hj with hj | hj
          · exact .inr (hregs1 c hj)
          · exact .inl hj
        · exact .inr hj
      · refine State.Leads.trans hrd (State.Leads.trans hstart (State.Leads.trans hl1 (State.Leads.trans hl2 ?_)))
        refine State.Leads.of_eq ?_
        have hmem : Memory.writeBytes (Memory.writeBytes s.mem (r.snap.outAddr out.length) (out1.drop out.length))
              (r.snap.outAddr out1.length) (rest.1.drop out1.length) =
            Memory.writeBytes s.mem (r.snap.outAddr out.length) (rest.1.drop out.length) := by
          obtain ⟨e0, rfl⟩ := hpre0
          obtain ⟨e1, he1⟩ := hpre
          rw [← he1, List.drop_left, List.drop_left, List.append_assoc, List.drop_left, Memory.writeBytes_append]
          simp only [List.length_append, Params.outAddr, Nat.add_assoc]
        have hdec : decide (rest.2 + 1 = k + 1) = decide (rest.2 = k) := by simp
        have hmul : r.cur + 4 + 4 * rest.2 = r.cur + 4 * (rest.2 + 1) := by omega
        have htc : r.t + 1 + rest.2 = r.t + (rest.2 + 1) := by omega
        rw [← hs1, ← hr1]
        simp only [State.decoded, hdec, hmem, hmul, htc]

end Sys2Proof.Machine
end

