-- ==== Sys2Proof/Laws/Tokens.lean ====
section
/-! SUPPORT. The meaning of a token (30_encoding.md R164): it is the engine's own steps on the record, up to the head of the
decoder's loop (44_decoder.md R330). -/

namespace Sys2Proof.Machine

/-- Every token's meaning is the one operation on its fields. -/
theorem exec_token {i : Instr} {off : Half} {len lit : Byte} (h : i.tokenFields = some (off, len, lit)) (s : State) :
    exec i s = s.runToken off len lit := by
  cases i <;> cases h <;> rfl

theorem decodeToken_fields (w : Word) :
    (decodeToken w).tokenFields = some (recordOffset w, recordLength w, recordLiteral w) := by
  unfold decodeToken
  split <;> split <;> simp_all [Instr.tokenFields]

theorem State.runToken_record {s : State} {r : Run} {w : Word} (hr : s.engine = some r) (hp : r.phase = .record w)
    (off : Half) (len lit : Byte) :
    s.runToken off len lit = .next (State.runRecord (2 * len.toNat + 5) (s.startRecord r off len lit)) := by
  simp [State.runToken, hr, hp]

/-- The steps within a record are engine steps. -/
theorem State.runRecord_reaches (k : Nat) (s : State) : State.Reaches s (State.runRecord k s) := by
  induction k generalizing s with
  | zero => exact State.Reaches.refl s
  | succ k ih =>
    unfold State.runRecord
    split
    · exact State.Reaches.refl s
    · split
      · exact State.Reaches.head (ih _)
      · exact State.Reaches.refl s

theorem State.runRecord_idle {s : State} (h : s.engine = none) (k : Nat) : State.runRecord k s = s := by
  cases k with
  | zero => rfl
  | succ k => simp [State.runRecord, h]

/-- How many steps are left within a record. -/
def Phase.recordSteps : Phase → Nat
  | .copy _ len _ i _ => 2 * (len.toNat - i) + 5
  | .copyWrite _ len _ i _ _ => 2 * (len.toNat - (i + 1)) + 6
  | .recordEnd _ => 4
  | .update _ rest .recordRead => rest.length + 1
  | .update _ rest .ending => rest.length + 2
  | .update _ rest (.raising _) => rest.length + 3
  | .raising _ => 2
  | .ending _ => 1
  | .start | .encodeTop | .hashRead _ | .candidates _ | .matching _ _ _ | .comparing _ _ _ _ | .found _ _
  | .emit _ _ _ | .recordRead _ | .record _ | .trailing | .update _ _ .encodeTop | .update _ _ (.found _ _) => 0

/-- The cursor after the record. -/
def Run.recordCur (r : Run) : Nat :=
  match r.phase with
  | .update _ _ .recordRead => r.cur
  | _ => r.cur + 4

/-- What one step within a record leads to: the command's end, a later place in the record, or the head of the loop. -/
def Run.RecordMove (r : Run) (t : State) : Prop :=
  t.engine = none ∨ ∃ r', t.engine = some r' ∧ r'.snap = r.snap ∧
    ((r'.phase.inRecord = true ∧ r'.recordCur = r.recordCur ∧ r'.phase.recordSteps < r.phase.recordSteps) ∨
      (r'.phase = .recordRead [] ∧ r'.cur = r.recordCur))

theorem State.raiseBus_recordMove {s : State} {r : Run} (a : Nat) (hc : r.recordCur = r.cur + 4)
    (h : 3 < r.phase.recordSteps) : r.RecordMove (s.raiseBus r a) := by
  obtain ⟨m, n, j, he, -⟩ := State.raiseBus_spec s r a
  rw [he]
  exact .inr ⟨_, rfl, rfl, .inl ⟨rfl, hc.symm, h⟩⟩

theorem State.stepPhase_inRecord {s : State} {r : Run} (h : r.phase.inRecord = true) : r.RecordMove (s.stepPhase r) := by
  have hstore : ∀ (a : Nat) (v : Byte) (ph : Phase), r.recordCur = r.cur + 4 → 3 < r.phase.recordSteps →
      ph.inRecord = true → (∀ q : Run, q.phase = ph → q.recordCur = q.cur + 4) → ph.recordSteps < r.phase.recordSteps →
      r.RecordMove (s.store r a v fun r s => s.goto r ph) := by
    intro a v ph hc h2 h1 hq hlt
    rcases State.store_spec s r a v (fun r s => s.goto r ph) with ⟨-, he⟩ | ⟨-, v', n, he, -⟩
    · rw [he]; exact State.raiseBus_recordMove a hc h2
    · rw [he]
      exact .inr ⟨_, rfl, rfl, .inl ⟨h1, (hq _ rfl).trans hc.symm, hlt⟩⟩
  unfold State.stepPhase
  cases hp : r.phase
  case copy start len lit i a =>
    have hc : r.recordCur = r.cur + 4 := by simp [Run.recordCur, hp]
    have h2 : 3 < r.phase.recordSteps := by simp [Phase.recordSteps, hp]
    have hmove : ∀ (n : Nat) (ph : Phase), ph.inRecord = true → (∀ q : Run, q.phase = ph → q.recordCur = q.cur + 4) →
        ph.recordSteps < r.phase.recordSteps → r.RecordMove (State.goto { s with freeTick := n } r ph) :=
      fun n ph h1 hq hlt => .inr ⟨_, rfl, rfl, .inl ⟨h1, (hq _ rfl).trans hc.symm, hlt⟩⟩
    simp only [State.stepCopy]
    split
    · split
      · rcases State.fetch_spec s r (r.snap.outAddr (start + i))
          (fun v s => s.goto r (.copyWrite start len lit i a v)) with ⟨-, he⟩ | ⟨-, v, n, he, -⟩
        · rw [he]; exact State.raiseBus_recordMove _ hc h2
        · rw [he]
          exact hmove n _ rfl (fun q hq => by simp [Run.recordCur, hq]) (by simp only [Phase.recordSteps, hp]; omega)
      · exact hmove s.freeTick _ rfl (fun q hq => by simp [Run.recordCur, hq])
          (by simp only [Phase.recordSteps, hp]; omega)
    · exact hstore _ _ _ hc h2 rfl (fun q hq => by simp [Run.recordCur, hq]) (by simp only [Phase.recordSteps, hp]; omega)
  case copyWrite start len lit i a v =>
    simp only [State.stepCopyWrite]
    exact hstore _ _ _ (by simp [Run.recordCur, hp]) (by simp [Phase.recordSteps, hp]) rfl
      (fun q hq => by simp [Run.recordCur, hq]) (by simp only [Phase.recordSteps, hp]; omega)
  case recordEnd a =>
    exact .inr ⟨_, rfl, rfl, .inl ⟨rfl, by simp [Run.recordCur, hp, Config.tokenBytes],
      by simp [Phase.recordSteps, hp]⟩⟩
  case update u rest next =>
    obtain ⟨regs, hn⟩ := Run.note_eq r s u
    simp only [State.stepUpdate, hn]
    rw [hp] at h
    cases next with
    | encodeTop | found d k => cases h
    | recordRead =>
      cases rest with
      | nil => exact .inr ⟨_, rfl, rfl, .inr ⟨rfl, by simp [Run.recordCur, hp]⟩⟩
      | cons v rest =>
        exact .inr ⟨_, rfl, rfl, .inl ⟨rfl, by simp [Run.recordCur, hp], by simp [Phase.recordSteps, hp]⟩⟩
    | ending | raising e =>
      cases rest with
      | nil =>
        exact .inr ⟨_, rfl, rfl, .inl ⟨rfl, by simp [Run.recordCur, hp, After.phase],
          by simp [Phase.recordSteps, hp, After.phase]⟩⟩
      | cons v rest =>
        exact .inr ⟨_, rfl, rfl, .inl ⟨rfl, by simp [Run.recordCur, hp], by simp [Phase.recordSteps, hp]⟩⟩
  case raising e =>
    exact .inr ⟨_, rfl, rfl, .inl ⟨rfl, by simp [Run.recordCur, hp], by simp [Phase.recordSteps, hp]⟩⟩
  case ending e => exact .inl (State.finish_engine _ _ _)
  all_goals
    rw [hp] at h
    cases h

/-- The steps within a record: they are the record's, up to where it is done, or has ended the command. -/
theorem State.runRecord_spec {s : State} {r : Run} (hr : s.engine = some r) (hin : r.phase.inRecord = true) {k : Nat}
    (hk : r.phase.recordSteps ≤ k) :
    ∃ j, 1 ≤ j ∧ State.runRecord k s = State.engineStep^[j] s ∧
      (∀ i < j, ∃ q, (State.engineStep^[i] s).engine = some q ∧ q.phase.inRecord = true) ∧
      ((State.engineStep^[j] s).engine = none ∨ ∃ q, (State.engineStep^[j] s).engine = some q ∧
        q.phase = .recordRead [] ∧ q.cur = r.recordCur ∧ q.snap = r.snap) := by
  induction k generalizing s r with
  | zero =>
    exfalso
    revert hk hin
    cases hp : r.phase with
    | update u rest next => cases next <;> simp [Phase.inRecord, Phase.recordSteps]
    | _ => simp [Phase.inRecord, Phase.recordSteps]
  | succ k ih =>
    have hstep : State.engineStep^[1] s = s.stepPhase r := State.engineStep_busy hr
    have hrun : State.runRecord (k + 1) s = State.runRecord k (s.stepPhase r) := by
      simp only [State.runRecord, hr, hin, if_true, State.engineStep_busy hr]
    have hzero : ∀ i < 1, ∃ q, (State.engineStep^[i] s).engine = some q ∧ q.phase.inRecord = true := by
      intro i hi
      obtain rfl : i = 0 := by omega
      exact ⟨r, hr, hin⟩
    rcases State.stepPhase_inRecord (s := s) hin with hn | ⟨r', hr', hsn, ⟨hin', hcur', hlt⟩ | ⟨hp', hcur'⟩⟩
    · refine ⟨1, le_rfl, ?_, hzero, .inl (by rw [hstep]; exact hn)⟩
      rw [hrun, hstep, State.runRecord_idle hn]
    · obtain ⟨j, h1, h2, h3, h4⟩ := ih hr' hin' (by omega)
      have hit : ∀ i, State.engineStep^[i + 1] s = State.engineStep^[i] (s.stepPhase r) := fun i => by
        rw [Function.iterate_succ_apply, State.engineStep_busy hr]
      refine ⟨j + 1, by omega, by rw [hrun, hit, h2], fun i hi => ?_, ?_⟩
      · rcases i with _ | i
        · exact ⟨r, hr, hin⟩
        · rw [hit]
          exact h3 i (by omega)
      · rw [hit, ← hcur', ← hsn]
        exact h4
    · refine ⟨1, le_rfl, ?_, hzero, .inr ⟨r', by rw [hstep]; exact hr', hp', hcur', hsn⟩⟩
      rw [hrun, hstep]
      cases k with
      | zero => rfl
      | succ k => simp [State.runRecord, hr', hp', Phase.inRecord]

/-- No number of engine steps raises the bound of R470. -/
theorem State.iterate_bound (j : Nat) {u : State} (hu : u.Inv) : (State.engineStep^[j] u).stepsBound ≤ u.stepsBound := by
  induction j generalizing u with
  | zero => exact le_rfl
  | succ j ih =>
    rw [Function.iterate_succ_apply]
    rcases hru : u.engine with _ | ru
    · rw [State.engineStep_idle hru]
      exact ih hu
    · have hb := State.stepPhase_bound u ru hu.index
      have he : u.stepsBound = ru.stepsBound u := by simp [State.stepsBound, hru]
      rw [State.engineStep_busy hru]
      have := ih (State.stepPhase_inv hu hru)
      omega

theorem State.iterate_inv (j : Nat) {u : State} (hu : u.Inv) : (State.engineStep^[j] u).Inv := by
  rw [← State.runSteps_eq_iterate]
  exact State.runSteps_inv hu j

/-- The steps within a record end where the engine reaches the head of the decoder's loop. -/
theorem State.runRecord_eq {t : State} {rt : Run} (ht : t.engine = some rt) (hpt : rt.phase = .recordRead []) (m : Nat)
    {k : Nat} {s : State} {r : Run} (hI : s.Inv) (hr : s.engine = some r) (hin : r.phase.inRecord = true)
    (hk : r.phase.recordSteps ≤ k) (hcur : rt.cur = r.recordCur) (hsnap : rt.snap = r.snap)
    (hm : State.engineStep^[m] s = t) : State.runRecord k s = t := by
  obtain ⟨j, -, h2, h3, h4⟩ := State.runRecord_spec hr hin hk
  rw [h2]
  have hjm : j ≤ m := by
    by_contra hn
    obtain ⟨q, hq, hqp⟩ := h3 m (by omega)
    rw [hm, ht] at hq
    obtain rfl := Option.some.inj hq
    rw [hpt] at hqp
    cases hqp
  obtain ⟨d, rfl⟩ := Nat.exists_eq_add_of_le' hjm
  rw [Function.iterate_add_apply] at hm
  rcases h4 with hn | ⟨q, hq, hqp, hqc, hqs⟩
  · rw [State.iterate_idle hn] at hm
    exact hm
  · rcases d with _ | d
    · exact hm
    · exfalso
      rw [Function.iterate_succ_apply, State.engineStep_busy hq] at hm
      have hI' := State.iterate_inv j hI
      have hl := State.iterate_bound d (State.stepPhase_inv hI' hq)
      have hb := State.stepPhase_bound _ q hI'.index
      rw [hm] at hl
      have e1 : t.stepsBound = (rt.snap.n - rt.cur) * recordBound + 3 := by
        simp [State.stepsBound, ht, Run.stepsBound, hpt, Run.afterBound]
      have e2 : q.stepsBound (State.engineStep^[j] s) = (q.snap.n - q.cur) * recordBound + 3 := by
        simp [Run.stepsBound, hqp, Run.afterBound]
      rw [e1, hsnap, hcur] at hl
      rw [e2, hqs, hqc] at hb
      omega

end Sys2Proof.Machine
end

