-- ==== Sys2Proof/Machine/Script.lean ====
section
/-! DEFINITION. Host command scripts (30_encoding.md R170, R171) as lists of host accesses. -/

namespace Sys2Proof.Machine

/-- The statements of a script (R170) and its pseudo-instructions (R171). `cmd` takes the instruction whose word it
writes. -/
inductive Stmt where
  /-- `WR <reg>, <value>` -/
  | wr (reg : RegName) (v : Word)
  /-- `RD <reg>` -/
  | rd (reg : RegName)
  /-- `MEM <addr>: <bytes>` -/
  | mem (a : Word) (bytes : List Byte)
  /-- `CMD <mnemonic>` -/
  | cmd (i : Instr)
  /-- `WAIT`: RD STATUS until BUSY = 0 -/
  | wait
  /-- `RUN <op>`: CMD, then WAIT -/
  | run (i : Instr)
  /-- `ACK`: `WR STATUS, 0x0000000A` -/
  | ack
  /-- `SETUP <ib>, <il>, <ob>, <oc>, <w>, <l>` -/
  | setup (ib il ob oc w l : Word)
  deriving DecidableEq, Repr

/-- An access with no engine step before it. -/
def HostAccess.now (access : HostAccess) : HostEvent := { delay := some 0, access := access }

/-- `HostWrite(offset(reg), v)` (R170). -/
def writeReg (reg : RegName) (v : Word) : HostAccess := .regWrite reg.offset 4 v

/-- The bytes of a MEM statement at `a`, `a + 1`, ... (R170). Where they pass 0xFFFFFFFF the spec does not say where they
go; the model goes on at address 0 (log entry 19, DESIGN CHOICE). -/
def memStores (a : Word) : List Byte → List HostAccess
  | [] => []
  | b :: bs => .memWrite a b :: memStores (a + 1) bs

/-- The host accesses of a statement (R170, R171); WAIT is a polling loop with the given gaps between its reads. -/
def Stmt.accesses (gaps : List Nat) : Stmt → List HostAccess
  | .wr reg v => [writeReg reg v]
  | .rd reg => [.regRead reg.offset 4]
  | .mem a bytes => memStores a bytes
  | .cmd i => [writeReg .cmd (encode i)]
  | .wait => [.pollStatus gaps]
  | .run i => [writeReg .cmd (encode i), .pollStatus gaps]
  | .ack => [writeReg .status 0xA]
  | .setup ib il ob oc w l =>
    [writeReg .inBase ib, writeReg .inLen il, writeReg .outBase ob, writeReg .outCap oc, writeReg .window w,
      writeReg .lookahead l]

/-- The script's accesses as events: access number `i` comes `latency i` engine steps after the access before it, and the
WAIT of statement number `j` polls with the gaps `polls j`. Both are open (R413, R462; U13 makes the latency an argument): a
read of STATUS may show the command running or already ended. -/
def scriptEvents (latency : Nat → Nat) (polls : Nat → List Nat) (script : List Stmt) : List HostEvent :=
  ((script.mapIdx fun j stmt => stmt.accesses (polls j)).flatten).mapIdx fun i access =>
    { delay := some (latency i), access := access }

/-- The machine with a script to come, after the accesses that are to come already. With none of those, the engine first
makes the steps that take place before the script's first access. -/
def State.withScript (s : State) (latency : Nat → Nat) (polls : Nat → List Nat) (script : List Stmt) : State :=
  let events := scriptEvents latency polls script
  let t := { s with pending := s.pending ++ events }
  if s.pending = [] ∧ events ≠ [] then t.advance else t

end Sys2Proof.Machine
end

