-- ==== Sys2Proof/Tests/Slice0.lean ====
section
/-! SUPPORT. Tests: well-formedness, decoding of words written out from 30_encoding.md, one-step tests whose expected
values are the vectors of 95_test_vectors.md, and a witness for the hypotheses of every obligation that has some. -/

namespace Sys2Proof.Tests

open Sys2Proof.Machine

/-! ### Well-formedness (30_encoding.md R164): an ill-formed term for each check -/

theorem test_copy_offset_zero : (Instr.tokenCopy 0 9 0x62).wellFormed = false := by decide
theorem test_copy_length_zero : (Instr.tokenCopy 1 0 0x62).wellFormed = false := by decide
theorem test_zoff_length_zero : (Instr.tokenZoff 0 0x62).wellFormed = false := by decide
theorem test_zlen_offset_zero : (Instr.tokenZlen 0 0x71).wellFormed = false := by decide
theorem test_wellFormed :
    Instr.wellFormed .compressHc = true ∧ (Instr.tokenLit 0).wellFormed = true ∧
    (Instr.tokenCopy 1 9 0x62).wellFormed = true ∧ (Instr.tokenZoff 5 0x62).wellFormed = true ∧
    (Instr.tokenZlen 7 0x71).wellFormed = true := by decide

/-! ### Decoding: words written out bit by bit. A command word is {reserved[31:9], FINDER[8], OP[7:0]} (R150 to R152); a
record is the bytes b0, b1 (offset, little-endian), b2 (length), b3 (literal) (R160 to R164). -/

theorem test_decode_nop : decodeCommand 0b00000000000000000000000_0_00000000 = .command .nop := by decide
theorem test_decode_compressLin : decodeCommand 0b00000000000000000000000_0_00000001 = .command .compressLin := by decide
theorem test_decode_compressHc : decodeCommand 0b00000000000000000000000_1_00000001 = .command .compressHc := by decide
theorem test_decode_decompress : decodeCommand 0b00000000000000000000000_0_00000010 = .command .decompress := by decide
theorem test_decode_findLinear : decodeCommand 0b00000000000000000000000_0_00000011 = .command .findLinear := by decide
theorem test_decode_findHc : decodeCommand 0b00000000000000000000000_0_00000100 = .command .findHc := by decide
theorem test_decode_hash3 : decodeCommand 0b00000000000000000000000_0_00000101 = .command .hash3 := by decide
theorem test_decode_indexClear : decodeCommand 0b00000000000000000000000_0_00000110 = .command .indexClear := by decide
theorem test_decode_reset : decodeCommand 0b00000000000000000000000_0_00000111 = .command .reset := by decide
/-- V-CTL-02's words, each with the reason of R154. -/
theorem test_decode_illegal :
    decodeCommand 0x00000008 = .illegal .reservedOpcode ∧ decodeCommand 0x00000009 = .illegal .reservedOpcode ∧
    decodeCommand 0x000000FF = .illegal .reservedOpcode ∧ decodeCommand 0x00000102 = .illegal .finderBit ∧
    decodeCommand 0x00000107 = .illegal .finderBit ∧ decodeCommand 0x00000200 = .illegal .reservedBits ∧
    decodeCommand 0x80000001 = .illegal .reservedBits := by decide
/-- V-DEC-02, V-DEC-08, V-DEC-13, V-DEC-05, V-DEC-06: records as bytes in stream order. -/
theorem test_decode_tokenLit : decodeRecord 0x00 0x00 0x00 0x78 = .tokenLit 0x78 := by decide
theorem test_decode_tokenCopy :
    decodeRecord 0x01 0x00 0x09 0x62 = .tokenCopy 1 9 0x62 ∧ decodeRecord 0x00 0x01 0x02 0x62 = .tokenCopy 256 2 0x62 := by
  decide
theorem test_decode_tokenZoff : decodeRecord 0x00 0x00 0x05 0x62 = .tokenZoff 5 0x62 := by decide
theorem test_decode_tokenZlen : decodeRecord 0x07 0x00 0x00 0x71 = .tokenZlen 7 0x71 := by decide
/-- Every row of the table, as the host numbers its bits; a row's free bits are set so that no word is also a command
word. -/
theorem test_table_words :
    (([0, 1, 0x101, 2, 3, 4, 5, 6, 7, 0x61000000, 0x62090001, 0x62050000, 0x71000007] : List Nat).map
      (decodeTableWord 32) =
      [some .nop, some .compressLin, some .compressHc, some .decompress, some .findLinear, some .findHc, some .hash3,
        some .indexClear, some .reset, some (.tokenLit 0x61), some (.tokenCopy 1 9 0x62), some (.tokenZoff 5 0x62),
        some (.tokenZlen 7 0x71)]) := by decide

/-! ### One-step tests -/

/-- What a step leaves, where it gives a next state. -/
def view {α : Type} (f : State → α) : Host.Outcome State Fault Refusal → Option α
  | .next s => some (f s)
  | .fault _ => none
  | .refused _ => none

/-- The state of section 2's vectors: input at 0x1000, output at 0x2000, the other registers at reset. -/
def loaded (inp : List Byte) (cap : Word) (w L : Half) (c : Word) : State :=
  { State.reset with
    mem := Memory.writeBytes [] 0x1000 inp
    params :=
      { inBase := 0x1000, inLen := BitVec.ofNat 32 inp.length, outBase := 0x2000, outCap := cap, window := w, lookahead := L }
    cursor := c }

/-- The `n` bytes from 0x2000 on. -/
def outBytes (n : Nat) (s : State) : List Byte := (List.range n).map fun j => Memory.read s.mem (0x2000 + j)

/-- STATUS, CURSOR, OUT_LEN and TOKEN_COUNT as numbers. -/
def counts (s : State) : Nat × Nat × Nat × Nat :=
  (s.statusWord.toNat, s.cursor.toNat, s.outLen.toNat, s.tokenCount.toNat)

/-- "abcXabcYabcZ" -/
def xyz : List Byte := [0x61, 0x62, 0x63, 0x58, 0x61, 0x62, 0x63, 0x59, 0x61, 0x62, 0x63, 0x5a]

/-- "abcabcabcX" -/
def abcs : List Byte := [0x61, 0x62, 0x63, 0x61, 0x62, 0x63, 0x61, 0x62, 0x63, 0x58]

/-- A DECOMPRESS that has output `out` and has just read the record `w`. -/
def inRecord (out : List Byte) (cap : Word) (w : Word) : State :=
  let p : Params := { inBase := 0x1000, inLen := 4, outBase := 0x2000, outCap := cap, window := 0, lookahead := 0 }
  { State.reset with
    mem := Memory.writeBytes [] 0x2000 out
    params := p
    outLen := BitVec.ofNat 32 out.length
    engine := some
      { task := .decompress, snap := p, cur := 0, o := out.length, t := 0, bestDist := 0, bestLen := 0, hash := 0
        phase := .record w, journal := [], regJournal := [], foreign := [] } }

/-- V-CTL-01. -/
theorem test_nop :
    view (fun t => (t.statusWord.toNat, decide ({ t with done := false } = State.reset))) (exec .nop State.reset) =
      some (2, true) := by decide
/-- V-ENC-06a: a tie at 8, the oldest wins. -/
theorem test_compressLin :
    view (fun t => (counts t, outBytes 24 t, t.index)) (exec .compressLin (loaded xyz 64 4096 255 0)) =
      some ((2, 12, 24, 6), [0, 0, 0, 0x61, 0, 0, 0, 0x62, 0, 0, 0, 0x63, 0, 0, 0, 0x58, 4, 0, 3, 0x59, 8, 0, 3, 0x5a],
        []) := by decide
/-- V-ERR-10: a refused read of 0x1005. -/
theorem test_compressLin_bus :
    view (fun t => (counts t, t.errAddr.toNat))
      (exec .compressLin
        { loaded abcs 64 4096 255 0 with platform := { Platform.abstract with refusedReads := [⟨0x1005, 1⟩] } }) =
      some ((0x502, 3, 12, 3), 0x1005) := by decide
/-- V-ENC-06b: a tie at 8, the newest wins; the index after. -/
theorem test_compressHc :
    view (fun t => (counts t, outBytes 24 t, t.index)) (exec .compressHc (loaded xyz 64 4096 255 0)) =
      some ((2, 12, 24, 6), [0, 0, 0, 0x61, 0, 0, 0, 0x62, 0, 0, 0, 0x63, 0, 0, 0, 0x58, 4, 0, 3, 0x59, 4, 0, 3, 0x5a],
        [(87673, [3]), (96354, [0, 4, 8]), (97335, [1]), (97964, [2])]) := by decide
/-- V-ERR-12: INDEX_CAP = 2. -/
theorem test_compressHc_full :
    view (fun t => (counts t, t.index))
      (exec .compressHc { loaded abcs 64 4096 255 0 with platform := { Platform.abstract with indexCap := some 2 } }) =
      some ((0x602, 2, 8, 2), [(96354, [0]), (97344, [1])]) := by decide
/-- V-DEC-09 and two trailing bytes (R332): "abababac", TAIL. -/
theorem test_decompress :
    view (fun t => (counts t, outBytes 8 t))
      (exec .decompress (loaded [0, 0, 0, 0x61, 0, 0, 0, 0x62, 2, 0, 5, 0x63, 0, 0] 64 0 0 0)) =
      some ((6, 12, 8, 3), [0x61, 0x62, 0x61, 0x62, 0x61, 0x62, 0x61, 0x63]) := by decide
/-- V-DEC-17: record 2 does not fit. -/
theorem test_decompress_overflow :
    view (fun t => (counts t, outBytes 2 t)) (exec .decompress (loaded [0, 0, 0, 0x61, 1, 0, 9, 0x62] 10 0 0 0)) =
      some ((0x402, 4, 1, 1), [0x61, 0]) := by decide
/-- V-LIN-02: a tie, the oldest wins. -/
theorem test_findLinear :
    view (fun t => (t.statusWord.toNat, t.matchDist.toNat, t.matchLen.toNat, t.cursor.toNat))
      (exec .findLinear (loaded xyz 0 4096 255 8)) = some (2, 8, 3, 8) := by decide
/-- V-LIN-05: the window [4, 8) leaves out position 0. -/
theorem test_findLinear_window :
    view (fun t => (t.matchDist.toNat, t.matchLen.toNat)) (exec .findLinear (loaded xyz 0 4 255 8)) = some (4, 3) := by
  decide
/-- V-HC-01: the last found wins. -/
theorem test_findHc :
    view (fun t => (t.statusWord.toNat, t.matchDist.toNat, t.matchLen.toNat, t.index))
      (exec .findHc { loaded xyz 0 4096 255 8 with index := [(96354, [0, 4])] }) =
      some (2, 4, 3, [(96354, [0, 4, 8])]) := by decide
/-- V-HC-07: a lookahead below 3 returns nothing and still inserts. -/
theorem test_findHc_lookahead :
    view (fun t => (t.matchDist.toNat, t.matchLen.toNat, t.index))
      (exec .findHc { loaded xyz 0 4096 2 8 with index := [(96354, [0, 4])] }) =
      some (0, 0, [(96354, [0, 4, 8])]) := by decide
/-- V-HASH-10. -/
theorem test_hash3 :
    view (fun t => (t.regWord .hash, t.statusWord))
      (exec .hash3 (loaded [0x61, 0x62, 0x63, 0x58, 0x61, 0x62] 0 0 0 3)) = some (0x80015679, 2) := by decide
/-- V-HASH-11: fewer than 3 bytes remain. -/
theorem test_hash3_short :
    view (fun t => t.regWord .hash)
      (exec .hash3
        { loaded [0x61, 0x62, 0x63, 0x58, 0x61, 0x62] 0 0 0 4 with hashValue := 5, hashValid := true }) = some 0 := by decide
/-- V-HC-17, its first half. -/
theorem test_indexClear :
    view (fun t => (t.statusWord, t.index)) (exec .indexClear { loaded xyz 0 0 0 0 with index := [(96354, [0, 4])] }) =
      some (2, []) := by decide
/-- V-CTL-04. -/
theorem test_reset :
    view (fun t => decide (t = State.resetOn Platform.abstract (Memory.writeBytes [] 0x1000 [0x61, 0x62, 0x63])))
      (exec .reset
        { loaded [0x61, 0x62, 0x63] 0 0 0 0 with irqEn := true, done := true, hashValue := 0x17862, hashValid := true }) =
      some true := by decide
/-- V-CTL-08: RESET while a COMPRESS runs. -/
theorem test_reset_running :
    view (fun t => (t.statusWord, t.engine, t.params.inLen))
      (exec .reset ((loaded abcs 64 4096 255 0).accept .compressLin)) = some (0, none, 0) := by decide
/-- V-DEC-02's record. -/
theorem test_tokenLit :
    view (fun t => (t.outLen.toNat, t.cursor.toNat, t.tokenCount.toNat, outBytes 2 t))
      (exec (.tokenLit 0x78) (inRecord [] 1 0x78000000)) = some (1, 4, 1, [0x78, 0]) := by decide
/-- V-DEC-03's second record: the offset clamps. -/
theorem test_tokenCopy_clamp :
    view (fun t => (t.outLen.toNat, outBytes 5 t)) (exec (.tokenCopy 5 3 0x62) (inRecord [0x61] 64 0x62030005)) =
      some (5, [0x61, 0x61, 0x61, 0x61, 0x62]) := by decide
/-- V-DEC-09's third record: an overlapping copy of period 2. -/
theorem test_tokenCopy_overlap :
    view (fun t => (t.outLen.toNat, outBytes 8 t)) (exec (.tokenCopy 2 5 0x63) (inRecord [0x61, 0x62] 8 0x63050002)) =
      some (8, [0x61, 0x62, 0x61, 0x62, 0x61, 0x62, 0x61, 0x63]) := by decide
/-- V-DEC-05's second record. -/
theorem test_tokenZoff :
    view (fun t => (t.outLen.toNat, outBytes 3 t)) (exec (.tokenZoff 5 0x62) (inRecord [0x61] 2 0x62050000)) =
      some (2, [0x61, 0x62, 0]) := by decide
/-- V-DEC-06's record. -/
theorem test_tokenZlen :
    view (fun t => (t.outLen.toNat, outBytes 2 t)) (exec (.tokenZlen 7 0x71) (inRecord [] 1 0x71000007)) =
      some (1, [0x71, 0]) := by decide
/-- R451: every command runs straight from reset, over empty buffers. -/
theorem test_commands_from_reset :
    ([.nop, .compressLin, .compressHc, .decompress, .findLinear, .findHc, .hash3, .indexClear] : List Instr).all
      (fun i => view (fun t => decide ({ t with done := false, unseen := .nothing } = State.reset) && decide (t.statusWord = 2))
        (exec i State.reset) == some true) = true := by decide

/-- Every row of the table runs as the first step after reset. -/
theorem test_table_words_run :
    ([0, 1, 0x101, 2, 3, 4, 5, 6, 7, 0x61000000, 0x62090001, 0x62050000, 0x71000007] : List Nat).all
      (fun w => (view (fun _ => ()) (step (State.reset.withFetchWord 32 w))).isSome) = true := by decide

/-! ### Register accesses -/

/-- A state whose next host access is `a`, with the host waiting after it. -/
def facing (a : HostAccess) (s : State) : State := { s with pending := [HostAccess.now a] }

/-- V-CTL-02: an illegal word. -/
theorem test_illegal_word :
    view (fun t => (t.statusWord, t.cursor)) (step (facing (.regWrite 0x08 4 0x102) { State.reset with cursor := 3 })) =
      some (0x102, 3) := by decide
/-- V-CTL-05, V-CTL-06. -/
theorem test_status_write :
    view State.statusWord (step (facing (.regWrite 0x0C 4 0xA) { State.reset with done := true, ign := true })) = some 0 ∧
    view State.statusWord (step (facing (.regWrite 0x0C 4 0xF05) { State.reset with done := true })) = some 2 := by decide
/-- V-CTL-07, its first write. -/
theorem test_write_while_busy :
    view (fun t => (t.params.inLen, t.ign, t.done, t.outLen))
      (step (facing (.regWrite 0x14 4 5) ((loaded abcs 64 4096 255 0).accept .compressLin))) =
      some (10, true, true, 16) := by decide
/-- V-CTL-10. -/
theorem test_window_bits :
    (State.hostReadValue (State.reset.hostWrite 0x20 0x00011000) 0x20).1 = 0x00001000 := by decide
/-- V-ERR-04, V-ERR-07: the start checks. -/
theorem test_start_checks :
    view (fun t => (t.statusWord, t.cursor))
      (exec .compressLin
        { State.reset with params := { State.reset.params with inBase := 0xFFFFFFF0, inLen := 0x20 }, cursor := 5 }) =
      some (0x202, 5) ∧
    view State.statusWord
      (exec .compressLin
        { State.reset with
          params := { State.reset.params with inBase := 0x1000, inLen := 10, outBase := 0x1009, outCap := 64 } }) =
      some 0x302 := by decide
/-- P5, as the host accesses of its script, with no engine step between two of them; the host polls after 5 steps, and then
waits. -/
theorem test_script_events :
    (State.withScript State.reset (fun _ => 0) (fun _ => [5]) [.wr .cmd 9, .rd .status, .ack, .run .compressHc]).pending =
      [⟨some 0, .regWrite 0x08 4 9⟩, ⟨some 0, .regRead 0x0C 4⟩, ⟨some 0, .regWrite 0x0C 4 0xA⟩,
        ⟨some 0, .regWrite 0x08 4 0x101⟩, ⟨some 0, .pollStatus [5]⟩] := by decide
/-- R170, WAIT: STATUS is read while it shows BUSY = 1, and once more; each read is the host's (V-CTL-01's STATUS at the end). -/
theorem test_wait_polls :
    view (fun t => (t.readback, t.pending))
      (steps 4 (State.withScript { State.reset with params := { State.reset.params with window := 1 } } (fun _ => 0)
        (fun _ => [1]) [.run .compressLin])) =
      some ([.reg 0x0C 2, .reg 0x0C 1, .reg 0x0C 1], []) := by decide
/-- R413: a script that comes to a running command begins after the engine steps before its first access. -/
theorem test_script_while_busy :
    (State.withScript (State.reset.accept .nop) (fun _ => 1) (fun _ => []) [.wait]).statusWord = 2 ∧
    (State.withScript (State.reset.accept .nop) (fun _ => 0) (fun _ => []) [.wait]).statusWord = 1 := by decide

/-- V-DEC-09 and two trailing bytes: R330 sets TAIL before R360 ends the command, so a host may read BUSY = 1 with TAIL = 1
(R413). -/
theorem test_tail_before_the_end :
    (State.engineStep { inRecord [0x61] 64 0 with
        engine := (inRecord [0x61] 64 0).engine.map fun r => { r with phase := .trailing } }).statusWord = 5 := by decide
/-- R410 records ERR before BUSY falls, so a host may read BUSY = 1 with ERR = OUT_OVERFLOW (R413). -/
theorem test_error_before_the_end :
    (State.engineStep { inRecord [0x61] 64 0 with
        engine := (inRecord [0x61] 64 0).engine.map fun r => { r with phase := .raising .outOverflow } }).statusWord = 0x401 := by
  decide
/-- R122: the old value of a result register may be seen until STATUS is read with DONE = 1. -/
theorem test_result_until_status_is_read :
    view (fun t => (t.hiddenResults .hash, (t.hostRead 0x0C).hiddenResults .hash))
      (exec .hash3 { loaded [0x61, 0x62, 0x63] 0 0 0 0 with hashValue := 5, hashValid := true }) =
      some ([0x80000005], []) := by decide

/-- R411, R323: no output precedes the first record, so a BUS while it is read leaves its literal's byte open and no other. -/
theorem test_bus_in_the_first_record :
    let s : State := { loaded abcs 64 0 0 0 with platform := { Platform.abstract with refusedReads := [⟨0x1000, 4⟩] } }
    ((State.failingBytes s { Run.init .decompress s with phase := .recordRead [] }).map Blur.addr) = [0x2000] := by
  decide
/-- R411, R283: with LOOKAHEAD = 0 the token is a literal's whatever the refused read would have given. -/
theorem test_bus_without_lookahead :
    let s : State := { loaded abcs 64 4096 0 0 with platform := { Platform.abstract with refusedReads := [⟨0x1003, 1⟩] } }
    (s.supposedToken { Run.init .compressLin s with cur := 3, phase := .candidates [] }).map (fun t => (t.dist, t.len)) =
      some (0, 0) := by decide
/-- R460, U5: after another agent's write ERR_ADDR is free even where the engine met no error. -/
theorem test_foreign_write_frees_errAddr :
    (State.finish State.reset { Run.init .hash3 State.reset with foreign := [(0x1000, 0)] } .none).errAddr =
      Config.freeValue 2 := rfl
/-- R400's table. -/
theorem test_error_codes :
    [ErrCode.none, .illegalCmd, .range, .overlap, .outOverflow, .bus, .indexFull].map ErrCode.code = [0, 1, 2, 3, 4, 5, 6] := by
  decide

/-! ### Witnesses: states and operands that meet the hypotheses of the obligations -/

/-- The invariant of an idle block. -/
theorem inv_of_idle {s : State} (hm : Memory.wf s.mem = true) (hi : Index.wf s.index = true)
    (ht : s.tail = true → s.err = .none) (he : s.engine = none) : s.Inv :=
  ⟨hm, hi, ht, fun r hr => by rw [he] at hr; cases hr⟩

theorem reset_inv : State.reset.Inv := inv_of_idle rfl rfl nofun rfl

theorem ready_of_idle {s : State} (h : s.engine = none) (hp : s.pending = []) : s.Ready :=
  ⟨State.not_busy_iff.2 h, by simp [State.hostWaits, hp]⟩

/-- "abcabcabcX" with ordinary memory everywhere. -/
abbrev plain : State := loaded abcs 64 4096 255 0

theorem plain_inv : plain.Inv := inv_of_idle (by decide) rfl nofun rfl

theorem plain_ready : plain.Ready := ready_of_idle rfl rfl

/-- A COMPRESS that has run for `k` engine steps. -/
def compressing (k : Nat) : State := State.runSteps k (plain.accept .compressLin)

theorem compressing_inv (k : Nat) : (compressing k).Inv := State.runSteps_inv (State.accept_inv plain_inv _) k

/-- A host access `a` to come. -/
def event (a : HostAccess) : HostEvent := HostAccess.now a

theorem inRecord_inv : (inRecord [0x61] 64 0x62030005).Inv := by
  refine ⟨by decide, rfl, nofun, fun r hr => ?_⟩
  obtain rfl := Option.some.inj hr
  exact
    { snap := rfl, status := ⟨rfl, rfl⟩, tail := nofun, inRange := fun _ _ => by decide, outRange := fun _ _ => by decide
      apart := fun _ _ => by decide, progress := fun _ _ => ⟨rfl, rfl, rfl⟩, cursor := fun _ _ => by decide
      argument := nofun, counts := fun _ => ⟨nofun, fun _ => rfl⟩, room := fun _ _ => by decide
      phase := ⟨rfl, by decide⟩, journal := by simp }

/-- DecodeInvertsEncode: each side of its three clauses. -/
theorem witness_decodeInvertsEncode :
    (Instr.wellFormed .compressHc = true ∧ Instr.isCommand .compressHc = true) ∧
    ((Instr.tokenCopy 65535 255 0xFF).wellFormed = true ∧ (Instr.tokenCopy 65535 255 0xFF).isCommand = false) ∧
    decodeCommand 0x101 = .command .compressHc := by decide

/-- TokenPacking, at the top of the offset's range and with a length that wraps. -/
theorem witness_tokenPacking : (⟨65535, 300, 0x62⟩ : Ref.Token).dist ≤ 65535 := by decide

/-- EveryRecordHasItsClass: a record of each class. -/
theorem witness_recordClasses :
    (recordOffset 0x61000000 = 0 ∧ recordLength 0x61000000 = 0) ∧ (recordOffset 0x62010001 ≠ 0 ∧ recordLength 0x62010001 ≠ 0) ∧
    (recordOffset 0x62FF0000 = 0 ∧ recordLength 0x62FF0000 ≠ 0) ∧ (recordOffset 0x6200FFFF ≠ 0 ∧ recordLength 0x6200FFFF = 0) := by
  decide

/-- StepRunsTheCommandWritten: by offset and by bus address. -/
theorem witness_stepRunsTheCommandWritten :
    decodeCommand 5 = .command .hash3 ∧
    (facing (.regWrite 0x08 4 5) plain).pending = event (.regWrite 0x08 4 5) :: [] ∧
    (facing (.busWrite 0xFFFFFF08 5) plain).pending = event (.busWrite 0xFFFFFF08 5) :: [] ∧
    (0xFFFFFF08 : Word).toNat = plain.platform.mmioBase + 0x08 := by decide

/-- StepRunsTheEngine: a record read, a COMPRESS at its start, an idle engine. -/
theorem witness_stepRunsTheEngine :
    ((inRecord [] 1 7).pending = [] ∧ ((inRecord [] 1 7).engine.map (·.phase)) = some (.record 7)) ∧
    ((compressing 0).pending = [] ∧ ((compressing 0).engine.map (·.phase)) = some .start) ∧
    (State.reset.pending = [] ∧ State.reset.engine = none) := by decide

/-- IllegalWordIsRejected: an idle and a busy block. -/
theorem witness_illegalWord :
    legalWord 8 = false ∧ (facing (.regWrite 0x08 4 8) plain).busy = false ∧
    (facing (.regWrite 0x08 4 8) (compressing 3)).busy = true ∧
    (facing (.regWrite 0x08 4 8) (compressing 3)).pending = event (.regWrite 0x08 4 8) :: [] := by decide

/-- BusyDropsHostWrites, RunningCommandIsBlindToHostWrites and RegisterReads: a busy block, with the invariant; the clauses
differ by the offset alone, and CMD's two by the word. -/
theorem witness_busy :
    (compressing 3).Inv ∧ (compressing 3).busy = true ∧ (0 : Word) ≠ 7 ∧
    (facing (.regWrite 0x28 4 1) (compressing 3)).pending = event (.regWrite 0x28 4 1) :: [] :=
  ⟨compressing_inv 3, by decide⟩

/-- MisshapenRegisterAccessIsRefused: each cause at a boundary, and the block's last word, which is none. -/
theorem witness_registerAccess :
    let base := State.reset.platform.mmioBase
    base = 0xFFFFFF00 ∧ ¬ ((1 : Nat) = 4 ∧ 0x10 % 4 = 0 ∧ 0x10 ≤ 0xFC) ∧ ¬ ((4 : Nat) = 4 ∧ 0x12 % 4 = 0 ∧ 0x12 ≤ 0xFC) ∧
    ¬ ((4 : Nat) = 4 ∧ 0x100 % 4 = 0 ∧ 0x100 ≤ 0xFC) ∧ ((4 : Nat) = 4 ∧ 0xFC % 4 = 0 ∧ 0xFC ≤ 0xFC) ∧
    (base ≤ (0xFFFFFF01 : Word).toNat ∧ ((0xFFFFFF01 : Word).toNat - base) % 4 ≠ 0) ∧ (0xFFFFFEFF : Word).toNat < base ∧
    (step (facing (.regRead 0x12 4) State.reset) matches .refused .registerAccessShape) ∧
    (step (facing (.busRead 0xFFFFFF01) State.reset) matches .refused .registerAccessShape) ∧
    (step (facing (.memRead 0xFFFFFFFF) State.reset) matches .refused .registerAccessShape) ∧
    (step (facing (.busWrite 0xFFFFFEFC 0) State.reset) matches .refused .outsideRegisterBlock) ∧
    (step (facing (.busRead 0xFFFFFFFC) State.reset) matches .next _) := by decide

/-- ReservedReadsZeroIgnoresWrites and ParameterWritesReadBack: offsets of every clause, the last defined register and the
first reserved slot among them. -/
theorem witness_offsets :
    ([0x00, 0x0C, 0x10, 0x24, 0x28, 0x40, 0x44, 0xFC] : List Nat).all (registerAccess · 4) = true ∧
    plain.busy = false := by decide

/-- InterruptLine. -/
theorem witness_interruptLine : (0xA : Word).getLsbD 1 = true := by decide

/-- ResetCommand: idle, and in the middle of a COMPRESS that has written bytes. -/
theorem witness_resetCommand :
    (plain.Inv ∧ plain.engine = none) ∧
    ((compressing 20).Inv ∧ ∃ r, (compressing 20).engine = some r ∧ r.task.hasOutput = true ∧
      r.snap.inOutput 0x1FFF = false ∧ r.foreign = [] ∧ r.journal ≠ []) :=
  ⟨⟨plain_inv, rfl⟩, compressing_inv 20, _, rfl, by decide⟩

/-- InvariantAtReset. -/
theorem witness_memory : Memory.wf [(0x1000, 0x61), (0xFFFFFFFF, 1)] = true := by decide

/-- StepKeepsInvariant: an engine step, a command, a host store into a running command's input. -/
theorem witness_stepKeepsInvariant :
    ((compressing 3).Inv ∧ ∃ t, step (compressing 3) = .next t) ∧
    ((facing (.regWrite 0x08 4 1) plain).Inv ∧ ∃ t, step (facing (.regWrite 0x08 4 1) plain) = .next t) ∧
    ∃ t, step (facing (.memWrite 0x1003 0) (compressing 3)) = .next t :=
  ⟨⟨compressing_inv 3, _, rfl⟩, ⟨inv_of_idle (by decide) rfl nofun rfl, _, rfl⟩, _, rfl⟩

/-- EveryCommandEnds, CommandEndsWithItsOwnErrors, CommandFrame: a running command, and one taken by an idle block. -/
theorem witness_commands :
    ((compressing 3).Inv ∧ (compressing 3).busy = true ∧ ∃ r, (compressing 3).engine = some r) ∧
    (plain.Inv ∧ plain.Ready ∧ Instr.isCommand .decompress = true ∧ Instr.decompress ≠ .reset ∧
      ∃ t, exec .decompress plain = .next t ∧ t.err ≠ .bus) ∧ plain.params.inOutput 0x1FFF = false :=
  ⟨⟨compressing_inv 3, by decide, _, rfl⟩, ⟨plain_inv, plain_ready, rfl, nofun, _, rfl, by decide⟩, by decide⟩

/-- The registers of V-ERR-04 and V-ERR-07 and their like. -/
def buffers (ib il ob oc : Word) : State :=
  { State.reset with params := { State.reset.params with inBase := ib, inLen := il, outBase := ob, outCap := oc } }

/-- FailedStartChecksChangeOnlyStatus: each buffer one byte past the top, and two that share one byte. -/
theorem witness_startChecks :
    (buffers 0xFFFFFFFF 2 0 0).Ready ∧ ((0xFFFFFFFF : Word).toNat + (2 : Word).toNat > 2 ^ 32) ∧
    ((0xFFFFFFFE : Word).toNat + (2 : Word).toNat ≤ 2 ^ 32) ∧
    (let p := (buffers 0x1000 10 0x1009 64).params
     p.inLen.toNat > 0 ∧ p.outCap.toNat > 0 ∧ p.inBase.toNat < p.outBase.toNat + p.outCap.toNat ∧
       p.outBase.toNat < p.inBase.toNat + p.inLen.toNat) :=
  ⟨ready_of_idle rfl rfl, by decide, by decide, by decide⟩

/-- HashCommandCompletes: the last position that can be hashed, and the one after it. -/
theorem witness_hash3 :
    (loaded abcs 0 0 0 7).Inv ∧ (loaded abcs 0 0 0 7).Ready ∧
    (loaded abcs 0 0 0 7).params.inBase.toNat + (loaded abcs 0 0 0 7).params.inLen.toNat ≤ 2 ^ 32 ∧
    ((7 : Word).toNat + 3 ≤ (loaded abcs 0 0 0 7).params.inLen.toNat ∧
      (loaded abcs 0 0 0 7).plainReads (0x1000 + 7) 3) ∧
    (loaded abcs 0 0 0 8).params.inLen.toNat < (8 : Word).toNat + 3 :=
  ⟨inv_of_idle (by decide) rfl nofun rfl, ready_of_idle rfl rfl, by decide, ⟨by decide, by unfold State.plainReads; decide⟩,
    by decide⟩

/-- HashCommandBus: the third read is refused. -/
theorem witness_hash3_bus :
    let s : State := { plain with platform := { Platform.abstract with refusedReads := [⟨0x1002, 1⟩] } }
    s.Inv ∧ s.Ready ∧ s.plainReads 0x1000 2 ∧ s.platform.admits 0x1002 .read = false :=
  ⟨inv_of_idle (by decide) rfl nofun rfl, ready_of_idle rfl rfl, by unfold State.plainReads; decide, by decide⟩

/-- The bytes of "abcXabcYabcZ" as a function of the position. -/
def xyzAt (i : Nat) : Byte := xyz.getD i 0

/-- MatchLengthProperties, LinearFinderClosedForm: no match in a short window; the older of two longest. -/
theorem witness_linear :
    (∀ p, 8 - 3 ≤ p → p < 8 → Ref.matchLen xyzAt 12 p 8 255 = 0) ∧
    (0 < Ref.matchLen xyzAt 12 0 8 255 ∧
      (∀ p, 8 - 4096 ≤ p → p < 8 → Ref.matchLen xyzAt 12 p 8 255 ≤ Ref.matchLen xyzAt 12 0 8 255)) := by
  refine ⟨fun p h1 h2 => ?_, by decide, fun p h1 h2 => ?_⟩ <;> interval_cases p <;> decide

/-- FindLinearCompletes: a cursor inside the input, and one beyond it. -/
theorem witness_findLinear :
    let s := loaded xyz 0 4096 255 8
    s.Inv ∧ s.Ready ∧ s.params.inBase.toNat + s.params.inLen.toNat ≤ 2 ^ 32 ∧
    (s.cursor.toNat < s.params.inLen.toNat ∧ s.plainReads s.params.inBase.toNat s.params.inLen.toNat) ∧
    (loaded xyz 0 4096 255 12).params.inLen.toNat ≤ (12 : Word).toNat :=
  ⟨inv_of_idle (by decide) rfl nofun rfl, ready_of_idle rfl rfl, by decide,
    ⟨by decide, by unfold State.plainReads; decide⟩, by decide⟩

/-- ChainFinderTieBreak: the newest of two longest in a bucket; InsertionAndPruning: a bucket of 99 and one of 100. -/
theorem witness_chain :
    (Index.bucket [(96354, [0, 4])] (Ref.hashAt xyzAt 8) = [0] ++ 4 :: [] ∧ 3 ≤ Ref.matchLen xyzAt 12 4 8 255 ∧
      Ref.matchLen xyzAt 12 0 8 255 ≤ Ref.matchLen xyzAt 12 4 8 255) ∧
    (8 + 3 ≤ 12 ∧ Index.wf [(96354, List.range 99)] = true ∧
      (Index.bucket [(96354, List.range 99)] (Ref.hashAt xyzAt 8)).length < 100) ∧
    (Index.wf [(96354, List.range 100)] = true ∧
      100 ≤ (Index.bucket [(96354, List.range 100)] (Ref.hashAt xyzAt 8)).length) := by decide

/-- ChainFinderClosedForm: the calls at 0 and 4 before one at 8, the newest winning. -/
theorem witness_chainClosedForm :
    ([0, 4] : List Nat).Pairwise (· < ·) ∧ (∀ p ∈ ([0, 4] : List Nat), p < 8) ∧
    (4 ∈ ([0, 4] : List Nat) ∧ 8 ≤ 4 + 4096 ∧ 4 + 3 ≤ 12 ∧ xyzAt 4 = xyzAt 8 ∧ xyzAt 5 = xyzAt 9 ∧ xyzAt 6 = xyzAt 10) ∧
    Ref.matchLen xyzAt 12 0 8 255 ≤ Ref.matchLen xyzAt 12 4 8 255 := by decide

/-- FindHcCompletes: an index with room, and one at its capacity. -/
theorem witness_findHc :
    let s := loaded xyz 0 4096 255 8
    s.Inv ∧ s.Ready ∧ s.params.inBase.toNat + s.params.inLen.toNat ≤ 2 ^ 32 ∧
    s.plainReads s.params.inBase.toNat s.params.inLen.toNat ∧
    Ref.fullAt s.platform.indexCap s.params.n s.cursor.toNat s.index = false ∧
    Ref.fullAt (some 2) 12 8 [(96354, [0, 4])] = true :=
  ⟨inv_of_idle (by decide) rfl nofun rfl, ready_of_idle rfl rfl, by decide, by unfold State.plainReads; decide, by decide,
    by decide⟩

/-- CompressCompletes and CompressIsDeterministic: V-ENC-05, with either finder, in a buffer that fits exactly. -/
theorem witness_compress :
    let s := loaded abcs 16 4096 255 0
    s.Inv ∧ s.Ready ∧ s.params.codecCheck = none ∧ s.plainReads s.params.inBase.toNat s.params.inLen.toNat ∧
    s.plainWrites s.params.outBase.toNat 16 ∧
    (Ref.encode false none s.inByte s.params.n s.params.w s.params.L 4 0 []).1.length = 4 ∧
    (∃ t, exec .compressLin s = .next t ∧ t.err = .none) ∧ ∃ t, exec .compressHc s = .next t ∧ t.err = .none :=
  ⟨inv_of_idle (by decide) rfl nofun rfl, ready_of_idle rfl rfl, by decide, by unfold State.plainReads; decide,
    by unfold State.plainWrites; decide, by decide, ⟨_, rfl, by decide⟩, ⟨_, rfl, by decide⟩⟩

/-- EncoderCoversInput, EmittedTokenInvariants: a stream with a copy in it. -/
theorem witness_tokens :
    1 ≤ 12 ∧ 12 ≤ 12 ∧ Ref.compress true xyzAt 12 4096 255 =
      [⟨0, 0, 0x61⟩, ⟨0, 0, 0x62⟩, ⟨0, 0, 0x63⟩, ⟨0, 0, 0x58⟩] ++ ⟨4, 3, 0x59⟩ :: [⟨4, 3, 0x5a⟩] := by decide

/-- PeriodicCopy: a valid offset and a clamped one, of the full length. -/
theorem witness_periodicCopy :
    0 < (255 : Byte).toNat ∧ 0 < (1 : Half).toNat ∧ 0 < ([0x61, 0x62] : List Byte).length ∧
    (1 : Half).toNat ≤ ([0x61, 0x62] : List Byte).length ∧ ([0x61, 0x62] : List Byte).length < (65535 : Half).toNat := by decide

/-- The stream `00 00 00 61 | 01 00 09 62` at 0x1000. -/
abbrev coded : State := loaded [0, 0, 0, 0x61, 1, 0, 9, 0x62] 11 0 0 0

/-- DecompressCompletes: V-DEC-18, in a buffer that fits exactly. DecoderOutputBound: its room. -/
theorem witness_decompress :
    coded.Inv ∧ coded.Ready ∧ coded.params.codecCheck = none ∧
    coded.plainReads coded.params.inBase.toNat coded.params.inLen.toNat ∧ coded.plainWrites coded.params.outBase.toNat 11 ∧
    coded.plainReads coded.params.outBase.toNat 11 ∧
    (Ref.decodeWithin 11 (Ref.records coded.inByte coded.params.n) []).1.length = 11 ∧ 256 * (8 / 4) ≤ 512 :=
  ⟨inv_of_idle (by decide) rfl nofun rfl, ready_of_idle rfl rfl, by decide, by unfold State.plainReads; decide,
    by unfold State.plainWrites; decide, by unfold State.plainReads; decide, by decide, by decide⟩

/-- RoundTripOnTheMachine: V-ENC-04 and V-DEC-08, the one's output the other's input. -/
theorem witness_roundTrip :
    let s := loaded (List.replicate 10 0x61 ++ [0x62]) 64 4096 255 0
    s.Inv ∧ s.Ready ∧ s.params.lookahead.toNat ≤ 255 ∧
    (∀ i < s.params.n, s.platform.hasSideEffects (s.params.inAddr i) = false) ∧
    (∀ j < s.params.outCap.toNat, s.platform.hasSideEffects (s.params.outAddr j) = false) ∧
    (∃ t, exec .compressLin s = .next t ∧ t.err = .none ∧ coded.params.inLen = t.outLen ∧
      ∀ j < t.outLen.toNat, coded.inByte j = Memory.read t.mem (s.params.outAddr j)) ∧
    s.params.n ≤ coded.params.outCap.toNat ∧ ∃ v, exec .decompress coded = .next v ∧ v.err = .none :=
  ⟨inv_of_idle (by decide) rfl nofun rfl, ready_of_idle rfl rfl, by decide, by decide, by decide,
    ⟨_, rfl, by decide, by decide, by decide⟩, by decide, _, rfl, by decide⟩

/-- TokensComplete and LiteralTokensAppendOneByte: each class on a record just read, at an output of one byte. -/
theorem witness_tokensComplete :
    (inRecord [0x61] 64 0x62030005).Inv ∧
    (∃ r, (inRecord [0x61] 64 0x62030005).engine = some r ∧ r.phase = .record 0x62030005 ∧ r.foreign = [] ∧
      (Ref.decodeRecord (State.outputOf (inRecord [0x61] 64 0x62030005) r.snap r.o) (packToken 5 3 0x62)).length = 5 ∧
      r.o + 1 ≤ r.snap.outCap.toNat) ∧
    (inRecord [0x61] 64 0x62030005).plainWrites 0x2000 5 ∧ (inRecord [0x61] 64 0x62030005).plainReads 0x2000 5 ∧
    (Instr.tokenCopy 5 3 0x62).tokenFields = some (5, 3, 0x62) ∧ (Instr.tokenLit 0x62).tokenFields = some (0, 0, 0x62) ∧
    (Instr.tokenZoff 3 0x62).tokenFields = some (0, 3, 0x62) ∧ (Instr.tokenZlen 5 0x62).tokenFields = some (5, 0, 0x62) :=
  ⟨inRecord_inv, ⟨_, rfl, rfl, rfl, by decide, by decide⟩, by unfold State.plainWrites; decide,
    by unfold State.plainReads; decide, rfl, rfl, rfl, rfl⟩

/-- OutputOverflow: V-ERR-03's buffer; a COMPRESS between two tokens without room; a record that does not fit. -/
theorem witness_outputOverflow :
    (let s := loaded abcs 3 4096 255 0
     s.Inv ∧ s.Ready ∧ s.params.codecCheck = none ∧ s.params.inLen.toNat ≥ 1 ∧ s.params.outCap.toNat < 4) ∧
    (∃ r, (State.runSteps 5 ((loaded abcs 3 4096 255 0).accept .compressLin)).engine = some r ∧ r.phase = .encodeTop ∧
      r.foreign = [] ∧ r.cur < r.snap.n ∧ r.snap.outCap.toNat < r.o + 4) ∧
    (∃ r, (inRecord [0x61] 64 0x62FF0001).engine = some r ∧
      r.snap.outCap.toNat < r.o + (if (255 : Byte).toNat > 0 ∧ (1 : Half).toNat > 0 ∧ r.o > 0 then (255 : Byte).toNat else 0) + 1) :=
  ⟨⟨inv_of_idle (by decide) rfl nofun rfl, ready_of_idle rfl rfl, by decide, by decide, by decide⟩,
    ⟨_, rfl, by decide⟩, _, rfl, by decide⟩

/-- TokenOutsideARecordStops: an idle engine, and a COMPRESS. -/
theorem witness_tokenOutside :
    (Instr.tokenLit 0x61).isCommand = false ∧ State.reset.engine = none ∧
    ∃ r, (compressing 3).engine = some r ∧ ∀ w, r.phase ≠ .record w :=
  ⟨rfl, rfl, _, rfl, by intro w; simp⟩

/-- TokenIsTheEnginesSteps: a copy record at an output of one byte. -/
theorem witness_tokenSteps :
    ∃ r, (inRecord [0x61] 64 0x62030005).engine = some r ∧ r.phase = .record 0x62030005 := ⟨_, rfl, rfl⟩

/-- `plain` on a platform that refuses reads in one range. -/
abbrev refusing (a : Nat) : State := { plain with platform := { Platform.abstract with refusedReads := [⟨a, 1⟩] } }

theorem refusing_inv (a : Nat) : (refusing a).Inv := inv_of_idle plain_inv.memory rfl nofun rfl

/-- A COMPRESS about to read its first byte, which the platform refuses. -/
abbrev atRefusal : State := State.runSteps 7 ((refusing 0x1000).accept .compressLin)

/-- RefusedAccessRaisesBus: a command whose next access is refused; an idle block on a platform that refuses nothing. -/
theorem witness_refusedAccess :
    (atRefusal.Inv ∧ ∃ r, atRefusal.engine = some r ∧ r.foreign = [] ∧ r.nextAccess = some (0x1000, .read) ∧
      atRefusal.platform.admits 0x1000 .read = false) ∧
    plain.Inv ∧ plain.busy = false ∧ plain.platform.refusedReads = [] ∧ plain.platform.refusedWrites = [] ∧
    ∃ t, exec .compressLin plain = .next t :=
  ⟨⟨State.runSteps_inv (State.accept_inv (refusing_inv _) _) 7, _, rfl, by decide, by decide,
    by decide⟩, plain_inv, rfl, rfl, rfl, _, rfl⟩

/-- A DECOMPRESS about to read the first byte of its first record, which the platform refuses. -/
abbrev atRecordRefusal : State := State.runSteps 4 ((refusing 0x1000).accept .decompress)

/-- RefusedAccessRaisesBus: a DECOMPRESS whose next read is refused, with no output yet. -/
theorem witness_refusedRecord :
    atRecordRefusal.Inv ∧ ∃ r, atRecordRefusal.engine = some r ∧ r.foreign = [] ∧
      r.nextAccess = some (0x1000, .read) ∧ r.task = .decompress ∧ r.o = 0 ∧
      atRecordRefusal.platform.admits 0x1000 .read = false :=
  ⟨State.runSteps_inv (State.accept_inv (refusing_inv _) _) 4, _, rfl, rfl, by decide, rfl, rfl, by decide⟩

abbrev refusingWrite : State := { plain with platform := { Platform.abstract with refusedWrites := [⟨0x2000, 1⟩] } }

theorem refusingWrite_inv : refusingWrite.Inv := inv_of_idle plain_inv.memory rfl nofun rfl

/-- A COMPRESS about to write the first byte of its first token, which the platform refuses. -/
abbrev atWriteRefusal : State := State.runSteps 8 (refusingWrite.accept .compressLin)

/-- RefusedAccessRaisesBus: a COMPRESS whose next write is refused. -/
theorem witness_refusedWrite :
    atWriteRefusal.Inv ∧ ∃ r, atWriteRefusal.engine = some r ∧ r.foreign = [] ∧
      r.nextAccess = some (0x2000, .write) ∧ atWriteRefusal.platform.admits 0x2000 .write = false :=
  ⟨State.runSteps_inv (State.accept_inv refusingWrite_inv _) 8, _, rfl, rfl, by decide, by decide⟩

/-- EngineAccessesItsBuffers, EngineMovesOneByte: a COMPRESS about to read, and about to write. -/
theorem witness_nextAccess :
    (∃ r, (compressing 7).engine = some r ∧ r.foreign = [] ∧ r.nextAccess = some (0x1000, .read)) ∧
    (∃ r, (compressing 8).engine = some r ∧ r.foreign = [] ∧ r.nextAccess = some (0x2000, .write)) ∧
    (compressing 7).platform.admits 0x1000 .read = true ∧ (compressing 8).platform.admits 0x2000 .write = true :=
  ⟨⟨_, rfl, by decide, by decide⟩, ⟨_, rfl, by decide, by decide⟩, by decide, by decide⟩

/-- HostViewOfMemory: ordinary memory, and a command that has ended with the interrupt asserted, and an old value of
its own and one of an earlier command to be seen. -/
theorem witness_hostView :
    plain.platform.hasSideEffects (0x2000 : Word).toNat = false ∧
    (let s : State := { plain with
        done := true, irqEn := true, unseen := { cells := [(0x2000, 1)], regs := [] }
        stale := { cells := [(0x2000, 2)], regs := [] } }
     s.busy = false ∧ s.done = true ∧ s.irq = true ∧ s.Inv ∧ s.hiddenValues 0x2000 = [1, 2] ∧
       Memory.valuesAt s.unseen.cells 0x2000 ≠ []) :=
  ⟨by decide, by decide, rfl, by decide, inv_of_idle (by decide) rfl nofun rfl, by decide, by decide⟩

/-- HostViewOfResults: a command that has ended with the interrupt asserted and an old CURSOR still to be seen, over an older
one; and a block that has nothing to be seen, before a command. -/
theorem witness_hostViewOfResults :
    (RegName.ofOffset 0x28 = some .cursor ∧ RegName.resultReg .cursor = some .cursor) ∧
    (let s : State := { plain with
        done := true, irqEn := true, unseen := { cells := [], regs := [(.cursor, 7)] }
        stale := { cells := [], regs := [(.cursor, 9)] } }
     s.busy = false ∧ s.irq = true ∧ s.hiddenResults .cursor = [7, 9] ∧ valuesOf s.unseen.regs .cursor ≠ []) ∧
    (plain.Inv ∧ plain.Ready ∧ Instr.isCommand .compressHc = true ∧ Instr.compressHc ≠ .reset ∧
      plain.unseen = .nothing ∧ plain.stale = .nothing ∧ ∃ t, exec .compressHc plain = .next t) :=
  ⟨by decide, by decide, plain_inv, plain_ready, rfl, nofun, rfl, rfl, _, rfl⟩

/-- StepPerformsTheHostAccess: each kind of access to come, at the ends of the block and just outside it; an idle block. -/
theorem witness_hostAccess :
    (∀ a : HostAccess, (facing a plain).pending = [HostAccess.now a]) ∧ plain.busy = false ∧ plain.pending = [] ∧
    (let base := plain.platform.mmioBase
     (0x00 % 4 = 0 ∧ 0x00 ≤ 0xFC ∧ (0xFFFFFF00 : Word).toNat = base + 0x00) ∧
     (0xFC % 4 = 0 ∧ 0xFC ≤ 0xFC ∧ 0xFC ≠ 0x08 ∧ (0xFFFFFFFC : Word).toNat = base + 0xFC) ∧
     (0xFFFFFEFF : Word).toNat < base) ∧
    (let low : State := { plain with platform := { Platform.abstract with mmioBase := 0 } }
     low.platform.mmioBase + 256 ≤ (0x100 : Word).toNat) :=
  ⟨fun _ => rfl, rfl, rfl, by decide, by decide⟩

/-- WaitPollsUntilTheEnd: a host that polls while a COMPRESS runs, and on an idle block. -/
theorem witness_waitPolls :
    (let s : State := { compressing 3 with pending := [⟨some 0, .pollStatus [4]⟩] }
     s.Inv ∧ s.busy = true ∧ s.pending = [⟨some 0, .pollStatus [4]⟩]) ∧
    (let s : State := { plain with pending := [⟨none, .pollStatus []⟩] }
     s.Inv ∧ s.busy = false ∧ s.pending = [⟨none, .pollStatus []⟩]) :=
  ⟨⟨State.hosted_inv _ _ (compressing_inv 3), rfl, rfl⟩, State.hosted_inv (s := plain) _ _ plain_inv, rfl, rfl⟩

end Sys2Proof.Tests
end

