-- ==== Sys2Proof/Proofs/TokenOutsideRecord.lean ====
section
/-! Tokens where no record has just been read (00_scope.md R2, 30_encoding.md R160; log entry 6). -/

namespace Sys2Proof.Machine

/-- The four token classes are the instructions that carry an offset, a length and a literal (R161, R164). -/
theorem exists_tokenFields {i : Instr} (h : i.isCommand = false) :
    ∃ off len lit, i.tokenFields = some (off, len, lit) := by
  cases i with
  | tokenLit lit => exact ⟨0, 0, lit, rfl⟩
  | tokenCopy off len lit => exact ⟨off, len, lit, rfl⟩
  | tokenZoff len lit => exact ⟨0, len, lit, rfl⟩
  | tokenZlen off lit => exact ⟨off, 0, lit, rfl⟩
  | _ => cases h

theorem State.runToken_idle {s : State} (hs : s.engine = none) (off : Half) (len lit : Byte) :
    s.runToken off len lit = .fault .tokenOutsideRecord := by
  simp [State.runToken, hs]

theorem State.runToken_outside_record {s : State} {r : Run} (hr : s.engine = some r) (hp : ∀ w, r.phase ≠ .record w)
    (off : Half) (len lit : Byte) : s.runToken off len lit = .fault .tokenOutsideRecord := by
  cases hphase : r.phase with
  | record w => exact absurd hphase (hp w)
  | _ => simp [State.runToken, hr, hphase]

/-- Settles O53: every token runs as one operation on its fields, and that operation needs an engine at `.record`. -/
theorem tokenOutsideARecordStops : Obligations.TokenOutsideARecordStops := by
  intro s i hi hs
  obtain ⟨off, len, lit, hfields⟩ := exists_tokenFields hi
  rw [exec_token hfields]
  rcases hs with hidle | ⟨r, hr, hp⟩
  · exact State.runToken_idle hidle off len lit
  · exact State.runToken_outside_record hr hp off len lit

end Sys2Proof.Machine
end

section
/-! ### Command words: what a word written to CMD decodes to, and what its instruction does (30_encoding.md R150 to R153,
45_control.md R360) -/

namespace Sys2Proof

/-- A word of which bits 31:9 are 0 is its OP and FINDER (R150). -/
theorem eq_of_commandFields {v : Word} {op : Nat} {finder : Bool} (hr : commandReserved v = 0) (hop : commandOp v = op)
    (hf : commandFinder v = finder) : v = BitVec.ofNat 32 (op + 256 * finder.toNat) := by
  have hrn : v.toNat / 512 % 8388608 = 0 := by
    simpa [commandReserved, BitVec.extractLsb'_toNat, Nat.shiftRight_eq_div_pow] using congrArg BitVec.toNat hr
  have hopn : v.toNat % 256 = op := by simpa [commandOp, BitVec.extractLsb'_toNat] using hop
  have hfn : v.toNat / 256 % 2 = finder.toNat := by
    rw [← hf, commandFinder, BitVec.getLsbD, Nat.toNat_testBit]
  refine BitVec.eq_of_toNat_eq ?_
  rw [BitVec.toNat_ofNat]
  have := v.isLt
  omega

/-- A legal word decodes to the command whose word it is (R151, R152). -/
theorem command_of_decodeCommand {v : Word} {i : Instr} (h : decodeCommand v = .command i) :
    i.isCommand = true ∧ v = encode i := by
  unfold decodeCommand at h
  split at h
  · cases h
  · rename_i hr
    rw [ne_eq, not_not] at hr
    split at h
    case h_10 => split at h <;> cases h
    all_goals
      rename_i hop hf
      cases h
      exact ⟨rfl, eq_of_commandFields hr hop hf⟩

/-- The task a command word starts; RESET and the tokens start none (R83, R360). -/
def Instr.task : Instr → Option Machine.Task
  | .nop => some .nop
  | .compressLin => some .compressLin
  | .compressHc => some .compressHc
  | .decompress => some .decompress
  | .findLinear => some .findLinear
  | .findHc => some .findHc
  | .hash3 => some .hash3
  | .indexClear => some .indexClear
  | .reset | .tokenLit _ | .tokenCopy _ _ _ | .tokenZoff _ _ | .tokenZlen _ _ => none

namespace Machine

/-- A command that starts a task offers it to the engine, which then runs up to the next host access. -/
theorem exec_of_task {i : Instr} {task : Task} (h : i.task = some task) (s : State) :
    exec i s = .next (s.offer task).advance := by
  cases i <;> cases h <;> rfl

theorem exec_reset (s : State) : exec .reset s = .next s.resetDevice := rfl

theorem task_of_isCommand {i : Instr} (h : i.isCommand = true) (hr : i ≠ .reset) : ∃ task, i.task = some task := by
  cases i with
  | reset => exact absurd rfl hr
  | tokenLit | tokenCopy | tokenZoff | tokenZlen => cases h
  | _ => exact ⟨_, rfl⟩

theorem State.offer_busy {s : State} (h : s.busy = true) (task : Task) : s.offer task = s.drop := by
  simp [State.offer, h]

/-- What a word written to CMD does: the RESET word acts, any other is offered and the engine runs on (R360, R362). -/
theorem commandWrite_cases (v : Word) (s : State) :
    (v = encode .reset ∧ commandWrite v s = .next s.resetDevice) ∨
    (v ≠ encode .reset ∧ ∃ t, commandWrite v s = .next t.advance ∧
      ((s.busy = true ∧ t = s.drop) ∨ (s.busy = false ∧ (t = s.reject ∨ ∃ task, t = s.accept task)))) := by
  unfold commandWrite
  cases hd : decodeCommand v with
  | illegal why =>
    refine .inr ⟨fun he => (by rw [he] at hd; cases hd), s.offerIllegal, rfl, ?_⟩
    cases hb : s.busy <;> simp [State.offerIllegal, hb]
  | command i =>
    obtain ⟨hi, rfl⟩ := command_of_decodeCommand hd
    by_cases hr : i = .reset
    · exact .inl ⟨by rw [hr], by rw [hr]; rfl⟩
    · obtain ⟨task, ht⟩ := task_of_isCommand hi hr
      refine .inr ⟨fun he => ?_, s.offer task, exec_of_task ht s, ?_⟩
      · rw [he] at hd
        cases hd
        exact hr rfl
      · cases hb : s.busy with
        | true => exact .inl ⟨rfl, State.offer_busy hb task⟩
        | false => exact .inr ⟨rfl, .inr ⟨task, State.offer_idle hb task⟩⟩

end Machine
end Sys2Proof
end

section
/-! ### The step of the machine, access by access (60_exceptions.md R413) -/

namespace Sys2Proof.Machine

theorem step_of_commandWord {s : State} {e : HostEvent} {rest : List HostEvent} {v : Word} (hp : s.pending = e :: rest)
    (hv : s.commandWord e.access = some v) : step s = commandWrite v { s with pending := rest } := by
  simp [step, hp, hv]

theorem step_of_hostAccess {s : State} {e : HostEvent} {rest : List HostEvent} (hp : s.pending = e :: rest)
    (hv : s.commandWord e.access = none) : step s = State.hostAccess { s with pending := rest } e.access := by
  simp [step, hp, hv]

/-- With no access to come the machine makes engine steps, and never stops (log entries 6 and 7). -/
theorem step_of_nothing_pending {s : State} (hp : s.pending = []) :
    ∃ t, step s = .next t ∧ State.Reaches s t := by
  have hstep : step s = engineMove s := by simp [step, hp]
  rw [hstep, engineMove]
  cases hr : s.engine with
  | none => exact ⟨s, rfl, State.Reaches.refl s⟩
  | some r =>
    cases hph : r.phase
    case record w =>
      refine ⟨_, ?_, State.Reaches.step hr (State.runRecord_reaches (2 * (recordLength w).toNat + 5) _)⟩
      simp only [exec_token (decodeToken_fields w), State.runToken_record hr hph, State.stepPhase, hph, State.stepRecord]
    all_goals exact ⟨s.engineStep, by simp only [hph], State.Reaches.head (State.Reaches.refl _)⟩

/-! ### The host's accesses -/

/-- What a host write to a register other than CMD does (R51, R54, R56, R57, R71): nothing, CTRL's bit, STATUS's two, the
drop of a busy block, or an idle block's parameter or CURSOR. -/
theorem State.hostWrite_cases (s : State) (off : Nat) (v : Word) :
    s.hostWrite off v = s ∨ (∃ b, s.hostWrite off v = { s with irqEn := b }) ∨
    (∃ a b, s.hostWrite off v = { s with done := s.done && a, ign := b }) ∨
    (s.busy = true ∧ s.hostWrite off v = s.drop) ∨
    (s.busy = false ∧ ∃ p c u u', s.hostWrite off v = { s with params := p, cursor := c, unseen := u, stale := u' }) := by
  have hparam : ∀ update : State → State,
      (∃ p c u u', update s = { s with params := p, cursor := c, unseen := u, stale := u' }) →
      (s.busy = true ∧ s.writeParam update = s.drop) ∨ (s.busy = false ∧
        ∃ p c u u', s.writeParam update = { s with params := p, cursor := c, unseen := u, stale := u' }) := by
    intro update hu
    cases hb : s.busy with
    | true => exact .inl ⟨rfl, by simp [State.writeParam, hb]⟩
    | false => exact .inr ⟨rfl, by simpa [State.writeParam, hb] using hu⟩
  unfold State.hostWrite
  cases hreg : RegName.ofOffset off with
  | none => exact .inl rfl
  | some reg =>
    cases reg with
    | ctrl => exact .inr (.inl ⟨_, rfl⟩)
    | status => exact .inr (.inr (.inl ⟨_, _, rfl⟩))
    | inBase | inLen | outBase | outCap | window | lookahead | cursor =>
      exact .inr (.inr (.inr (hparam _ ⟨_, _, _, _, rfl⟩)))
    | id | cmd | outLen | tokenCount | matchDist | matchLen | hash | errAddr => exact .inl rfl

/-- A host read of a register draws at most a free value. -/
theorem State.hostReadValue_spec (s : State) (off : Nat) : ∃ v n, s.hostReadValue off = (v, { s with freeTick := n }) := by
  unfold State.hostReadValue
  split
  · exact ⟨_, s.freeTick, rfl⟩
  · split
    · exact ⟨_, s.freeTick, rfl⟩
    · split
      · exact ⟨_, _, rfl⟩
      · obtain ⟨v, n, h, -⟩ := State.choose_spec s _ _
        exact ⟨v, n, h⟩

/-- A host read of a register moves what the host has read and what it has been made to see (R52, R112, R122). -/
theorem State.hostRead_spec (s : State) (off : Nat) : ∃ u u' n, s.hostRead off =
    { s with readback := .reg off (s.hostReadValue off).1 :: s.readback, unseen := u, stale := u', freeTick := n } := by
  obtain ⟨v, n, h⟩ := s.hostReadValue_spec off
  unfold State.hostRead
  rw [h]
  dsimp only
  split
  · exact ⟨_, _, n, rfl⟩
  · exact ⟨_, _, n, rfl⟩

/-- A host read of a byte moves what the host has read (R112). -/
theorem State.hostMemRead_spec (s : State) (a : Nat) :
    ∃ rb n, s.hostMemRead a = { s with readback := rb, freeTick := n } := by
  unfold State.hostMemRead
  split
  · exact ⟨_, _, rfl⟩
  · obtain ⟨v, n, h, -⟩ := State.choose_spec s (Memory.read s.mem a) (s.hiddenValues a)
    rw [h]
    exact ⟨_, n, rfl⟩

theorem State.takeIrq_spec (s : State) : ∃ u u', s.takeIrq = { s with unseen := u, stale := u' } := by
  unfold State.takeIrq
  split
  · exact ⟨_, _, rfl⟩
  · exact ⟨s.unseen, s.stale, rfl⟩

/-- A read of a polling loop moves what the host has read, has been made to see and has still to do. -/
theorem State.pollStatus_spec (s : State) (gaps : List Nat) : ∃ p rb u u' n, s.pollStatus gaps =
    { s with pending := p, readback := rb, unseen := u, stale := u', freeTick := n } := by
  obtain ⟨u, u', n, h⟩ := s.hostRead_spec (RegName.offset .status)
  unfold State.pollStatus
  rw [h]
  dsimp only
  split
  · exact ⟨_, _, u, u', n, rfl⟩
  · exact ⟨s.pending, _, u, u', n, rfl⟩

/-! ### The invariant at the host's accesses -/

theorem State.foldl_update_counts (us : List Update) {s t : State}
    (h : t.cursor = s.cursor ∧ t.outLen = s.outLen ∧ t.tokenCount = s.tokenCount) :
    (us.foldl State.update t).cursor = (us.foldl State.update s).cursor ∧
      (us.foldl State.update t).outLen = (us.foldl State.update s).outLen ∧
      (us.foldl State.update t).tokenCount = (us.foldl State.update s).tokenCount := by
  induction us generalizing s t with
  | nil => exact h
  | cons u us ih =>
    refine ih ?_
    obtain ⟨hc, ho, ht⟩ := h
    cases u with
    | result reg v => cases reg <;> simp [State.update, State.setResult, hc, ho, ht]
    | clearIndex | bucket => exact ⟨hc, ho, ht⟩

/-- The invariant does not speak of the host's side of the block. -/
theorem State.Inv.of_hostSide {s : State} (h : s.Inv) (irqEn ign : Bool) (p : List HostEvent) (rb : List ReadRecord)
    (u u' : Unseen) (n : Nat) :
    State.Inv { s with
      irqEn := irqEn, ign := ign, pending := p, readback := rb, unseen := u, stale := u', freeTick := n } := by
  refine ⟨h.memory, h.index, h.tail, fun r hr => ?_⟩
  have hk := h.engine r hr
  obtain ⟨hc, ho, ht⟩ := State.foldl_update_counts r.todo (s := s) (t := { s with
    irqEn := irqEn, ign := ign, pending := p, readback := rb, unseen := u, stale := u', freeTick := n }) ⟨rfl, rfl, rfl⟩
  exact { hk with progress := by unfold Run.settled; rw [hc, ho, ht]; exact hk.progress }

theorem State.Inv.of_idle {s : State} (hm : Memory.wf s.mem = true) (hi : Index.wf s.index = true)
    (ht : s.tail = true → s.err = .none) (he : s.engine = none) : s.Inv :=
  ⟨hm, hi, ht, fun r hr => by rw [he] at hr; cases hr⟩

theorem State.drop_inv {s : State} (h : s.Inv) : s.drop.Inv :=
  h.of_hostSide s.irqEn true s.pending s.readback s.unseen s.stale s.freeTick

/-- DONE is 0 while a command runs (R56, R360). -/
theorem State.Inv.not_done_of_busy {s : State} (h : s.Inv) (hb : s.busy = true) : s.done = false := by
  obtain ⟨r, hr⟩ := State.busy_iff.1 hb
  exact (h.engine r hr).status.1

/-- Of a running command a host write to a register other than CMD moves only CTRL.IRQ_EN and IGN (R71). -/
theorem State.hostWrite_busy {s : State} (h : s.Inv) (hb : s.busy = true) (off : Nat) (v : Word) :
    ∃ irqEn ign, s.hostWrite off v = { s with irqEn := irqEn, ign := ign } := by
  rcases s.hostWrite_cases off v with he | ⟨b, he⟩ | ⟨a, b, he⟩ | ⟨-, he⟩ | ⟨hi, -⟩
  · exact ⟨_, _, he⟩
  · exact ⟨b, _, he⟩
  · refine ⟨s.irqEn, b, he.trans ?_⟩
    rw [h.not_done_of_busy hb, Bool.false_and]
  · exact ⟨_, true, he⟩
  · rw [hb] at hi
    cases hi

theorem State.hostWrite_inv {s : State} (h : s.Inv) (off : Nat) (v : Word) : (s.hostWrite off v).Inv := by
  cases hb : s.busy with
  | true =>
    obtain ⟨irqEn, ign, he⟩ := State.hostWrite_busy h hb off v
    rw [he]
    exact h.of_hostSide irqEn ign s.pending s.readback s.unseen s.stale s.freeTick
  | false =>
    have hn := State.not_busy_iff.1 hb
    rcases s.hostWrite_cases off v with he | ⟨b, he⟩ | ⟨a, b, he⟩ | ⟨-, he⟩ | ⟨-, p, c, u, u', he⟩ <;> rw [he] <;>
      exact State.Inv.of_idle h.memory h.index h.tail hn

theorem State.hostRead_inv {s : State} (h : s.Inv) (off : Nat) : (s.hostRead off).Inv := by
  obtain ⟨u, u', n, he⟩ := s.hostRead_spec off
  rw [he]
  exact h.of_hostSide s.irqEn s.ign s.pending _ u u' n

/-- A store by the host or another agent is inside the address space; of a running command it moves R460's record. -/
theorem State.hostMemWrite_inv {s : State} (h : s.Inv) (a : Word) (v : Byte) : (s.hostMemWrite a.toNat v).Inv := by
  refine ⟨Memory.wf_write h.memory v a.isLt, h.index, h.tail, fun r' hr' => ?_⟩
  obtain ⟨r, hr, rfl⟩ := Option.map_eq_some_iff.1 hr'
  have hk := h.engine r hr
  have hforeign : ∀ f, Run.Ok { r with foreign := f } (s.hostMemWrite a.toNat v) := fun f => by
    obtain ⟨hc, ho, ht⟩ := State.foldl_update_counts r.todo (s := s) (t := s.hostMemWrite a.toNat v) ⟨rfl, rfl, rfl⟩
    exact { hk with
      progress := fun hb hout => by
        have hset : Run.settled { r with foreign := f } (s.hostMemWrite a.toNat v) =
          r.todo.foldl State.update (s.hostMemWrite a.toNat v) := rfl
        rw [hset, hc, ho, ht]
        exact hk.progress hb hout }
  unfold Run.noteForeign
  split
  · exact hforeign _
  · exact hforeign r.foreign

/-- What an abort leaves in memory is in canonical form: the bytes it frees are the running command's own. -/
theorem State.abort_memory_wf {s : State} (h : s.Inv) : Memory.wf s.abort.mem = true := by
  unfold State.abort
  cases hr : s.engine with
  | none => exact h.memory
  | some r =>
    have hk := h.engine r hr
    have hout : r.task.hasOutput = true → r.phase.begun = true →
        r.snap.outBase.toNat + r.snap.outCap.toNat ≤ Config.addressSpace := fun ho hb => by
      simpa [Params.outRangeFails] using hk.outRange hb ho
    obtain ⟨m, n, hblur, -, hwf⟩ := State.blur_spec s
      (r.journal.map fun c => { addr := c.1, old := c.2, new := Memory.read s.mem c.1 })
    have hm : Memory.wf m = true := by
      refine hwf (fun b hb => ?_) h.memory
      obtain ⟨c, hc, rfl⟩ := List.mem_map.1 hb
      obtain ⟨ho, hbegun, hin⟩ := hk.journal c hc
      simp only [Params.inOutput, Region.holds, Bool.and_eq_true, decide_eq_true_eq] at hin
      have := hout ho hbegun
      dsimp only
      omega
    dsimp only
    rw [hblur]
    split
    · exact hm
    · rename_i hn
      simp only [not_or, Bool.not_eq_false] at hn
      obtain ⟨-, ho, hbegun⟩ := hn
      obtain ⟨m', k, he, -, hwf'⟩ := State.scrambleBytes_spec { s with mem := m, freeTick := n }
        r.snap.outBase.toNat r.snap.outCap.toNat
      rw [he]
      exact hwf' (hout ho hbegun) hm

theorem State.resetDevice_inv {s : State} (h : s.Inv) : s.resetDevice.Inv :=
  State.Inv.of_idle (State.abort_memory_wf h) Index.wf_empty nofun rfl

theorem State.advance_inv {s : State} (h : s.Inv) : s.advance.Inv := by
  obtain ⟨k, hk⟩ := State.advance_steps s
  rw [hk]
  exact State.runSteps_inv h k

theorem State.Reaches.inv {s t : State} (h : State.Reaches s t) (hs : s.Inv) : t.Inv := by
  obtain ⟨k, rfl⟩ := h
  exact State.iterate_inv k hs

/-- A word written to CMD keeps the invariant, whatever word it is. -/
theorem commandWrite_inv {s t : State} {v : Word} (h : s.Inv) (ht : commandWrite v s = .next t) : t.Inv := by
  rcases commandWrite_cases v s with ⟨-, he⟩ | ⟨-, u, he, hu⟩ <;> rw [he] at ht <;> cases ht
  · exact State.resetDevice_inv h
  · refine State.advance_inv ?_
    rcases hu with ⟨-, rfl⟩ | ⟨hb, rfl | ⟨task, rfl⟩⟩
    · exact State.drop_inv h
    · exact State.Inv.of_idle h.memory h.index nofun (State.not_busy_iff.1 hb)
    · exact State.accept_inv h task

/-- A host access other than a write to CMD keeps the invariant. -/
theorem State.hostAccess_inv {s t : State} {access : HostAccess} (h : s.Inv) (ht : s.hostAccess access = .next t) :
    t.Inv := by
  have hread : ∀ off width, s.regReadAt off width = .next t → t.Inv := fun off width hr => by
    unfold State.regReadAt at hr
    split at hr <;> cases hr
    exact State.advance_inv (State.hostRead_inv h off)
  have hwrite : ∀ off width v, s.regWriteAt off width v = .next t → t.Inv := fun off width v hw => by
    unfold State.regWriteAt at hw
    split at hw <;> cases hw
    exact State.advance_inv (State.hostWrite_inv h off v)
  cases access with
  | regRead off width => exact hread off width ht
  | regWrite off width v => exact hwrite off width v ht
  | busRead a =>
    rw [State.hostAccess] at ht
    split at ht
    · exact hread _ 4 ht
    · cases ht
  | busWrite a v =>
    rw [State.hostAccess] at ht
    split at ht
    · exact hwrite _ 4 v ht
    · cases ht
  | pollStatus gaps =>
    cases ht
    obtain ⟨p, rb, u, u', n, he⟩ := s.pollStatus_spec gaps
    rw [he]
    exact State.advance_inv (h.of_hostSide s.irqEn s.ign p rb u u' n)
  | memRead a =>
    rw [State.hostAccess] at ht
    split at ht <;> cases ht
    obtain ⟨rb, n, he⟩ := s.hostMemRead_spec a.toNat
    rw [he]
    exact State.advance_inv (h.of_hostSide s.irqEn s.ign s.pending rb s.unseen s.stale n)
  | memWrite a v =>
    rw [State.hostAccess] at ht
    split at ht <;> cases ht
    exact State.advance_inv (State.hostMemWrite_inv h a v)
  | takeIrq =>
    cases ht
    obtain ⟨u, u', he⟩ := s.takeIrq_spec
    rw [he]
    exact State.advance_inv (h.of_hostSide s.irqEn s.ign s.pending s.readback u u' s.freeTick)
  | hardReset =>
    cases ht
    exact State.resetDevice_inv h

/-- Settles O22: engine steps, a word written to CMD and every other host access each keep the invariant. -/
theorem stepKeepsInvariant : Obligations.StepKeepsInvariant := by
  intro s t h ht
  cases hp : s.pending with
  | nil =>
    obtain ⟨u, hu, hreach⟩ := step_of_nothing_pending hp
    rw [hu] at ht
    cases ht
    exact hreach.inv h
  | cons e rest =>
    have h₀ : State.Inv { s with pending := rest } :=
      h.of_hostSide s.irqEn s.ign rest s.readback s.unseen s.stale s.freeTick
    cases hv : s.commandWord e.access with
    | some v => exact commandWrite_inv h₀ (step_of_commandWord hp hv ▸ ht)
    | none => exact State.hostAccess_inv h₀ (step_of_hostAccess hp hv ▸ ht)

end Sys2Proof.Machine
end

section
/-! ### Which host access a step performs, and which it refuses (10_state.md R50, R52, R55, R71) -/

namespace Sys2Proof.Machine

theorem registerAccess_iff {off width : Nat} :
    registerAccess off width = true ↔ width = 4 ∧ off % 4 = 0 ∧ off ≤ 0xFC := by
  simp [registerAccess, and_assoc]

theorem Platform.inBlock_iff {p : Platform} {a : Nat} :
    p.inBlock a = true ↔ p.mmioBase ≤ a ∧ a < p.mmioBase + 256 := by
  simp only [Platform.inBlock, Region.holds, Bool.and_eq_true, decide_eq_true_eq]
  rfl

theorem State.busOffset_of_add {s : State} {a : Word} {off : Nat} (ha : a.toNat = s.platform.mmioBase + off)
    (hoff : off ≤ 0xFC) : s.busOffset a = some off := by
  rw [State.busOffset, if_pos (Platform.inBlock_iff.2 (by omega)), ha, Nat.add_sub_cancel_left]

section
variable {s : State} {e : HostEvent} {rest : List HostEvent} (hp : s.pending = e :: rest)
include hp

theorem step_regRead {off width : Nat} (ha : e.access = .regRead off width) :
    step s = State.regReadAt { s with pending := rest } off width := by
  rw [step_of_hostAccess hp (by rw [ha]; rfl), ha]
  rfl

/-- A write to CMD is the command's, at any other offset the register's (R55). -/
theorem step_regWrite {off width : Nat} {v : Word} (ha : e.access = .regWrite off width v) :
    step s = if registerAccess off width = true ∧ off = 0x08 then commandWrite v { s with pending := rest }
      else State.regWriteAt { s with pending := rest } off width v := by
  have hword : s.commandWord e.access = if registerAccess off width = true ∧ off = 0x08 then some v else none := by
    simp only [ha, State.commandWord, Bool.and_eq_true, decide_eq_true_eq]
    rfl
  split
  · exact step_of_commandWord hp (by rw [hword, if_pos ‹_›])
  · rw [step_of_hostAccess hp (by rw [hword, if_neg ‹_›]), ha]
    rfl

theorem step_busRead {a : Word} {off : Nat} (ha : e.access = .busRead a) (hoff : s.busOffset a = some off) :
    step s = State.regReadAt { s with pending := rest } off 4 := by
  rw [step_of_hostAccess hp (by rw [ha]; rfl), ha, State.hostAccess,
    show State.busOffset { s with pending := rest } a = some off from hoff]

/-- A write by bus address is the write by offset (R50). -/
theorem step_busWrite {a v : Word} {off : Nat} (ha : e.access = .busWrite a v) (hoff : s.busOffset a = some off) :
    step s = if registerAccess off 4 = true ∧ off = 0x08 then commandWrite v { s with pending := rest }
      else State.regWriteAt { s with pending := rest } off 4 v := by
  have hword : s.commandWord e.access = if off = 0x08 then some v else none := by
    simp [ha, State.commandWord, RegName.offset, hoff]
  split
  · rename_i h8
    exact step_of_commandWord hp (by rw [hword, if_pos h8.2])
  · rename_i h8
    have h8' : off ≠ 0x08 := by rintro rfl; exact h8 ⟨rfl, rfl⟩
    rw [step_of_hostAccess hp (by rw [hword, if_neg h8']), ha, State.hostAccess,
      show State.busOffset { s with pending := rest } a = some off from hoff]

theorem step_busOutside {a : Word} (ha : e.access = .busRead a ∨ ∃ v, e.access = .busWrite a v)
    (hout : s.platform.inBlock a.toNat = false) : step s = .refused .outsideRegisterBlock := by
  have hnone : s.busOffset a = none := by simp [State.busOffset, hout]
  rcases ha with ha | ⟨v, ha⟩ <;>
    rw [step_of_hostAccess hp (by simp [ha, State.commandWord, hnone]), ha, State.hostAccess,
      show State.busOffset { s with pending := rest } a = none from hnone]

theorem step_memRead {a : Word} (ha : e.access = .memRead a) :
    step s = if s.platform.inBlock a.toNat then .refused .registerAccessShape
      else .next (State.hostMemRead { s with pending := rest } a.toNat).advance := by
  rw [step_of_hostAccess hp (by rw [ha]; rfl), ha]
  rfl

theorem step_memWrite {a : Word} {v : Byte} (ha : e.access = .memWrite a v) :
    step s = if s.platform.inBlock a.toNat then .refused .registerAccessShape
      else .next (State.hostMemWrite { s with pending := rest } a.toNat v).advance := by
  rw [step_of_hostAccess hp (by rw [ha]; rfl), ha]
  rfl

/-- An aligned write to a register other than CMD. -/
theorem step_regWrite_aligned {off : Nat} {v : Word} (ha : e.access = .regWrite off 4 v)
    (hoff : registerAccess off 4 = true) (h8 : off ≠ 0x08) :
    step s = .next (State.hostWrite { s with pending := rest } off v).advance := by
  rw [step_regWrite hp ha, if_neg (fun h => h8 h.2), State.regWriteAt, if_pos hoff]

theorem step_cmdWrite {v : Word} (ha : e.access = .regWrite 0x08 4 v) :
    step s = commandWrite v { s with pending := rest } := by
  rw [step_regWrite hp ha, if_pos ⟨rfl, rfl⟩]

end

/-- Settles O7: the word is in `State.commandWord` of either form of the write. -/
theorem stepRunsTheCommandWritten : Obligations.StepRunsTheCommandWritten := by
  intro s e rest v i hp hd
  have hexec : commandWrite v { s with pending := rest } = exec i { s with pending := rest } := by
    rw [commandWrite, hd]
  refine ⟨fun ha => by rw [step_cmdWrite hp ha, hexec], fun a ha hbase => ?_⟩
  rw [step_busWrite hp ha (State.busOffset_of_add hbase (by decide)), if_pos ⟨rfl, rfl⟩, hexec]

/-- A busy block drops a write to a parameter register or CURSOR (R71). -/
theorem State.hostWrite_dropped {s : State} (hb : s.busy = true) {off : Nat} (v : Word)
    (hoff : off ∈ ([0x10, 0x14, 0x18, 0x1C, 0x20, 0x24, 0x28] : List Nat)) : s.hostWrite off v = s.drop := by
  have hdrop : ∀ update, s.writeParam update = s.drop := fun update => by simp [State.writeParam, hb]
  simp only [List.mem_cons, List.not_mem_nil, or_false] at hoff
  rcases hoff with rfl | rfl | rfl | rfl | rfl | rfl | rfl <;> (unfold State.hostWrite; exact hdrop _)

/-- Settles O10: a word written to CMD by `commandWrite_cases`, the other registers by what `State.hostWrite` is there. -/
theorem busyDropsHostWrites : Obligations.BusyDropsHostWrites := by
  intro s e rest off v hb hp ha
  have hb₀ : State.busy { s with pending := rest } = true := hb
  refine ⟨?_, fun hoff => ?_, ?_, ?_, ?_⟩
  · rintro rfl hv
    rw [step_cmdWrite hp ha]
    rcases commandWrite_cases v { s with pending := rest } with ⟨he, -⟩ | ⟨-, t, ht, ⟨-, rfl⟩ | ⟨hi, -⟩⟩
    · exact absurd he hv
    · exact ht
    · rw [hb₀] at hi
      cases hi
  · have haligned : ∀ off' ∈ ([0x10, 0x14, 0x18, 0x1C, 0x20, 0x24, 0x28] : List Nat),
        registerAccess off' 4 = true ∧ off' ≠ 0x08 := by decide
    obtain ⟨h4, h8⟩ := haligned off hoff
    rw [step_regWrite_aligned hp ha h4 h8, State.hostWrite_dropped hb₀ v hoff]
    rfl
  · rintro rfl
    exact step_regWrite_aligned hp ha rfl (by decide)
  · rintro rfl
    exact step_regWrite_aligned hp ha rfl (by decide)
  · rintro rfl rfl
    exact step_cmdWrite hp ha

/-! ### Refusals -/

/-- The refusal of a host access, decided by its shape and its address alone (R52, U6; log entry 13). -/
def HostAccess.refusal (p : Platform) : HostAccess → Option Refusal
  | .regRead off width | .regWrite off width _ =>
    if registerAccess off width then none else some .registerAccessShape
  | .busRead a | .busWrite a _ =>
    if p.inBlock a.toNat then
      if registerAccess (a.toNat - p.mmioBase) 4 then none else some .registerAccessShape
    else some .outsideRegisterBlock
  | .memRead a | .memWrite a _ => if p.inBlock a.toNat then some .registerAccessShape else none
  | .pollStatus _ | .takeIrq | .hardReset => none

/-- A step at a host access answers a next state unless the access has a refusal, and then it answers that. -/
def AnswersAs (refusal : Option Refusal) (o : Host.Outcome State Fault Refusal) : Prop :=
  match refusal with
  | some why => o = .refused why
  | none => ∃ t, o = .next t

theorem commandWrite_next (v : Word) (s : State) : ∃ t, commandWrite v s = .next t := by
  rcases commandWrite_cases v s with ⟨-, h⟩ | ⟨-, t, h, -⟩
  · exact ⟨_, h⟩
  · exact ⟨_, h⟩

theorem step_answers {s : State} {e : HostEvent} {rest : List HostEvent} (hp : s.pending = e :: rest) :
    AnswersAs (e.access.refusal s.platform) (step s) := by
  have hread : ∀ (t : State) (off width : Nat),
      AnswersAs (if registerAccess off width then none else some .registerAccessShape) (t.regReadAt off width) := by
    intro t off width
    unfold State.regReadAt
    split
    · exact ⟨_, rfl⟩
    · rfl
  have hwrite : ∀ (t : State) (off width : Nat) (v : Word),
      AnswersAs (if registerAccess off width then none else some .registerAccessShape)
        (if registerAccess off width = true ∧ off = 0x08 then commandWrite v t else t.regWriteAt off width v) := by
    intro t off width v
    unfold State.regWriteAt
    cases registerAccess off width with
    | false => rfl
    | true =>
      by_cases h8 : off = 0x08
      · simpa [h8, AnswersAs] using commandWrite_next v t
      · simp [h8, AnswersAs]
  have hbus : ∀ a : Word, s.platform.inBlock a.toNat = true →
      s.busOffset a = some (a.toNat - s.platform.mmioBase) := fun a hin => if_pos hin
  cases ha : e.access with
  | regRead off width => exact step_regRead hp ha ▸ hread _ off width
  | regWrite off width v => exact step_regWrite hp ha ▸ hwrite _ off width v
  | busRead a =>
    rw [HostAccess.refusal]
    cases hin : s.platform.inBlock a.toNat with
    | true => exact step_busRead hp ha (hbus a hin) ▸ hread _ _ 4
    | false => exact step_busOutside hp (.inl ha) hin
  | busWrite a v =>
    rw [HostAccess.refusal]
    cases hin : s.platform.inBlock a.toNat with
    | true => exact step_busWrite hp ha (hbus a hin) ▸ hwrite _ _ 4 v
    | false => exact step_busOutside hp (.inr ⟨v, ha⟩) hin
  | memRead a =>
    rw [step_memRead hp ha, HostAccess.refusal]
    split
    · rfl
    · exact ⟨_, rfl⟩
  | memWrite a v =>
    rw [step_memWrite hp ha, HostAccess.refusal]
    split
    · rfl
    · exact ⟨_, rfl⟩
  | pollStatus gaps => exact ⟨_, by rw [step_of_hostAccess hp (by rw [ha]; rfl), ha]; rfl⟩
  | takeIrq => exact ⟨_, by rw [step_of_hostAccess hp (by rw [ha]; rfl), ha]; rfl⟩
  | hardReset => exact ⟨_, by rw [step_of_hostAccess hp (by rw [ha]; rfl), ha]; rfl⟩

theorem AnswersAs.refused_iff {refusal : Option Refusal} {o : Host.Outcome State Fault Refusal}
    (h : AnswersAs refusal o) (why : Refusal) : o = .refused why ↔ refusal = some why := by
  cases refusal with
  | none =>
    obtain ⟨t, rfl⟩ := h
    simp
  | some why' =>
    have h : o = .refused why' := h
    simp [h]

/-- Which accesses are refused for their shape (R52, U6). -/
theorem HostAccess.refusal_shape_iff (access : HostAccess) (p : Platform) :
    access.refusal p = some .registerAccessShape ↔
      (∃ off width, (access = .regRead off width ∨ ∃ v, access = .regWrite off width v) ∧
        ¬ (width = 4 ∧ off % 4 = 0 ∧ off ≤ 0xFC)) ∨
      (∃ a : Word, (access = .busRead a ∨ ∃ v, access = .busWrite a v) ∧
        (p.mmioBase ≤ a.toNat ∧ a.toNat < p.mmioBase + 256) ∧ (a.toNat - p.mmioBase) % 4 ≠ 0) ∨
      (∃ a : Word, (access = .memRead a ∨ ∃ v, access = .memWrite a v) ∧
        p.mmioBase ≤ a.toNat ∧ a.toNat < p.mmioBase + 256) := by
  have hbus : ∀ a : Word,
      (if p.inBlock a.toNat then
          if registerAccess (a.toNat - p.mmioBase) 4 then none else some .registerAccessShape
        else some .outsideRegisterBlock) = some Refusal.registerAccessShape ↔
        (p.mmioBase ≤ a.toNat ∧ a.toNat < p.mmioBase + 256) ∧ ¬ (a.toNat - p.mmioBase) % 4 = 0 := by
    intro a
    by_cases hin : p.inBlock a.toNat = true
    · have hlt := Platform.inBlock_iff.1 hin
      have hreg := registerAccess_iff (off := a.toNat - p.mmioBase) (width := 4)
      by_cases h4 : (a.toNat - p.mmioBase) % 4 = 0
      · have := hreg.2 ⟨rfl, h4, by omega⟩
        simp [hin, hlt, h4, this]
      · have : registerAccess (a.toNat - p.mmioBase) 4 = false := by
          rw [← Bool.not_eq_true, hreg]
          exact fun h => h4 h.2.1
        simp [hin, hlt, h4, this]
    · have hlt := mt Platform.inBlock_iff.2 hin
      simp [hin, hlt]
  cases access with
  | busRead a | busWrite a v => simpa [HostAccess.refusal] using hbus a
  | memRead a | memWrite a v => simp [HostAccess.refusal, Platform.inBlock_iff]
  | regRead off width | regWrite off width v => simp [HostAccess.refusal, ← registerAccess_iff]
  | pollStatus | takeIrq | hardReset => simp [HostAccess.refusal]

/-- Which accesses are refused as none of LZMF's (log entry 13). -/
theorem HostAccess.refusal_outside_iff (access : HostAccess) (p : Platform) :
    access.refusal p = some .outsideRegisterBlock ↔
      ∃ a : Word, (access = .busRead a ∨ ∃ v, access = .busWrite a v) ∧
        ¬ (p.mmioBase ≤ a.toNat ∧ a.toNat < p.mmioBase + 256) := by
  have hbus : ∀ (a : Word) (o : Option Refusal), o ≠ some .outsideRegisterBlock →
      ((if p.inBlock a.toNat then o else some .outsideRegisterBlock) = some Refusal.outsideRegisterBlock ↔
        ¬ (p.mmioBase ≤ a.toNat ∧ a.toNat < p.mmioBase + 256)) := by
    intro a o ho
    rw [← Platform.inBlock_iff]
    cases p.inBlock a.toNat <;> simp [ho]
  cases access with
  | busRead a | busWrite a v =>
    rw [HostAccess.refusal, hbus a _ (by split <;> simp)]
    simp
  | memRead | memWrite | regRead | regWrite | pollStatus | takeIrq | hardReset => simp [HostAccess.refusal]

theorem HostAccess.refusal_cases (access : HostAccess) (p : Platform) :
    access.refusal p = some .registerAccessShape ∨ access.refusal p = some .outsideRegisterBlock ∨
      access.refusal p = none := by
  unfold HostAccess.refusal
  cases access <;> dsimp only <;> (repeat' split) <;> simp

/-- Settles O12: whether and how a step stops at a host access is `HostAccess.refusal`'s to say; engine steps never stop. -/
theorem misshapenRegisterAccessIsRefused : Obligations.MisshapenRegisterAccessIsRefused := by
  intro s
  refine ⟨fun hp => ?_, fun e rest hp => ?_⟩
  · obtain ⟨t, ht, -⟩ := step_of_nothing_pending hp
    exact ⟨t, ht⟩
  · have hans := step_answers hp
    refine ⟨(hans.refused_iff _).trans (e.access.refusal_shape_iff s.platform),
      (hans.refused_iff _).trans (e.access.refusal_outside_iff s.platform), ?_⟩
    rw [hans.refused_iff, hans.refused_iff]
    refine (e.access.refusal_cases s.platform).imp_right (Or.imp_right fun hnone => ?_)
    rwa [hnone] at hans

/-- Settles O59: the equations of `step` at each access, and those of `State.advance`. -/
theorem stepPerformsTheHostAccess : Obligations.StepPerformsTheHostAccess := by
  refine ⟨fun s e rest hp => ⟨fun off v h4 hle => ?_, fun a v hout => ?_, fun ha => ?_, fun ha => ?_⟩,
    fun s => ⟨fun hb => ?_, fun hp => ?_, fun e rest hp hd => ?_, fun e rest k hp hd => ?_⟩⟩
  · have haligned : registerAccess off 4 = true := registerAccess_iff.2 ⟨rfl, h4, hle⟩
    refine ⟨fun ha => ?_, fun ha h8 => step_regWrite_aligned hp ha haligned h8, fun a hbase => ⟨fun ha => ?_, fun ha => ?_⟩⟩
    · rw [step_regRead hp ha, State.regReadAt, if_pos haligned]
    · rw [step_busRead hp ha (State.busOffset_of_add hbase hle)]
      exact (step_regRead (s := { s with pending := { e with access := .regRead off 4 } :: rest }) rfl rfl).symm
    · rw [step_busWrite hp ha (State.busOffset_of_add hbase hle)]
      exact (step_regWrite (s := { s with pending := { e with access := .regWrite off 4 v } :: rest }) rfl rfl).symm
  · have hin : ¬ s.platform.inBlock a.toNat = true := fun h => by
      have := Platform.inBlock_iff.1 h
      omega
    exact ⟨fun ha => by rw [step_memRead hp ha, if_neg hin], fun ha => by rw [step_memWrite hp ha, if_neg hin]⟩
  · rw [step_of_hostAccess hp (by rw [ha]; rfl), ha]
    rfl
  · rw [step_of_hostAccess hp (by rw [ha]; rfl), ha]
    rfl
  · obtain ⟨k, hk⟩ := State.advance_steps s
    rw [hk, State.runSteps_eq_iterate, State.iterate_idle (State.not_busy_iff.1 hb)]
  · simp only [State.advance, hp]
  · simp only [State.advance, hp, hd]
  · simp only [State.advance, hp, hd]

end Sys2Proof.Machine
end

section
/-! ### The registers as the host reads and writes them (10_state.md R50 to R59, R72, R90) -/

namespace Sys2Proof.Machine

/-! ### The register map -/

theorem RegName.ofOffset_offset (reg : RegName) : RegName.ofOffset reg.offset = some reg := by cases reg <;> rfl

/-- An aligned offset that names a register is the register's offset. -/
theorem RegName.eq_offset {off : Nat} {reg : RegName} (h4 : off % 4 = 0) (h : RegName.ofOffset off = some reg) :
    off = reg.offset := by
  obtain ⟨k, rfl⟩ := Nat.dvd_of_mod_eq_zero h4
  rw [RegName.ofOffset, Nat.mul_div_cancel_left k (by decide)] at h
  obtain ⟨hk, hreg⟩ := List.getElem?_eq_some_iff.1 h
  have hk : k < 17 := hk
  interval_cases k <;> (cases hreg; rfl)

theorem RegName.ofOffset_eq_none_iff {off : Nat} : RegName.ofOffset off = none ↔ 0x44 ≤ off := by
  rw [RegName.ofOffset, List.getElem?_eq_none_iff]
  have : RegName.map.length = 17 := rfl
  omega

/-- The word of a register that is a result register. -/
theorem State.regWord_result (s : State) {reg : RegName} {res : ResultReg} (h : reg.resultReg = some res) :
    s.regWord reg = s.result res := by
  cases reg <;> cases h <;> rfl

/-! ### What a read gives -/

section
variable (s : State) {off : Nat} {reg : RegName} {res : ResultReg}

theorem State.hostReadValue_reserved (h : RegName.ofOffset off = none) : s.hostReadValue off = (0, s) := by
  simp [State.hostReadValue, h]

theorem State.hostReadValue_plain (h : RegName.ofOffset off = some reg) (hr : reg.resultReg = none) :
    s.hostReadValue off = (s.regWord reg, s) := by
  simp [State.hostReadValue, h, hr]

theorem State.hostReadValue_busy (h : RegName.ofOffset off = some reg) (hr : reg.resultReg = some res)
    (hb : s.busy = true) :
    s.hostReadValue off = (Config.freeValue s.freeTick &&& res.mask, { s with freeTick := s.freeTick + 1 }) := by
  simp [State.hostReadValue, h, hr, hb]

theorem State.hostReadValue_idle (h : RegName.ofOffset off = some reg) (hr : reg.resultReg = some res)
    (hb : s.busy = false) : s.hostReadValue off = s.choose (s.result res) (s.hiddenResults res) := by
  simp [State.hostReadValue, h, hr, hb, s.regWord_result hr]

end

/-- What a choice gives depends on the counter and the values alone. -/
theorem State.choose_fst_congr {α : Type} {s t : State} (h : t.freeTick = s.freeTick) (v : α) (others : List α) :
    (t.choose v others).1 = (s.choose v others).1 := by
  cases others with
  | nil => rfl
  | cons w ws => simp [State.choose, h]

/-- What the value of a read depends on. A result register's counts only with BUSY = 0 (R72). -/
theorem State.hostReadValue_fst_congr {s t : State} {off : Nat} (hb : t.busy = s.busy) (hn : t.freeTick = s.freeTick)
    (hplain : ∀ reg, RegName.ofOffset off = some reg → reg.resultReg = none → t.regWord reg = s.regWord reg)
    (hres : s.busy = false → ∀ reg res, RegName.ofOffset off = some reg → reg.resultReg = some res →
      t.result res = s.result res ∧ t.hiddenResults res = s.hiddenResults res) :
    (t.hostReadValue off).1 = (s.hostReadValue off).1 := by
  cases hreg : RegName.ofOffset off with
  | none => rw [t.hostReadValue_reserved hreg, s.hostReadValue_reserved hreg]
  | some reg =>
    cases hr : reg.resultReg with
    | none => rw [t.hostReadValue_plain hreg hr, s.hostReadValue_plain hreg hr, hplain reg hreg hr]
    | some res =>
      cases hbs : s.busy with
      | true => rw [t.hostReadValue_busy hreg hr (hb.trans hbs), s.hostReadValue_busy hreg hr hbs, hn]
      | false =>
        obtain ⟨h1, h2⟩ := hres hbs reg res hreg hr
        rw [t.hostReadValue_idle hreg hr (hb.trans hbs), s.hostReadValue_idle hreg hr hbs, h1, h2]
        exact State.choose_fst_congr hn _ _

/-! ### Fields and reserved bits (R50, R51) -/

theorem half_and_reserved (x : Half) : x.setWidth 32 &&& (0xFFFF0000 : Word) = 0 := by
  have hx : x.setWidth 32 = 0#16 ++ x := by simp [BitVec.setWidth_eq_append]
  rw [hx]
  show (0#16 ++ x) &&& (0xFFFF#16 ++ 0#16) = 0#(16 + 16)
  rw [BitVec.and_append, BitVec.zero_and, BitVec.and_zero]
  rfl

/-- The reserved bits of STATUS read 0. -/
theorem State.statusWord_and_reserved (s : State) : s.statusWord &&& (0xFFFFF0F0 : Word) = 0 := by
  show (0#20 ++ s.err.code ++ 0#4 ++ BitVec.ofBool s.ign ++ BitVec.ofBool s.tail ++ BitVec.ofBool s.done ++
    BitVec.ofBool s.busy) &&& (0xFFFFF#20 ++ 0#4 ++ 0xF#4 ++ 0#1 ++ 0#1 ++ 0#1 ++ 0#1) = 0
  simp only [BitVec.and_append, BitVec.zero_and, BitVec.and_zero]
  rfl

theorem State.ctrlWord_and_reserved (s : State) : s.ctrlWord &&& (0xFFFFFFFE : Word) = 0 := by
  show (0#31 ++ BitVec.ofBool s.irqEn) &&& (0x7FFFFFFF#31 ++ 0#1) = 0
  rw [BitVec.and_append, BitVec.zero_and, BitVec.and_zero]
  rfl

theorem reservedBits_offset_result {reg : RegName} {res : ResultReg} (h : reg.resultReg = some res) :
    res.mask &&& reservedBits reg.offset = 0 := by
  cases reg <;> cases h <;> rfl

/-- A register's reserved bits are 0 in the word it holds. -/
theorem State.regWord_and_reserved (s : State) (reg : RegName) : s.regWord reg &&& reservedBits reg.offset = 0 := by
  cases reg with
  | cmd => exact BitVec.zero_and
  | ctrl => exact s.ctrlWord_and_reserved
  | status => exact s.statusWord_and_reserved
  | window => exact half_and_reserved s.params.window
  | lookahead => exact half_and_reserved s.params.lookahead
  | matchDist => exact half_and_reserved s.matchDist
  | matchLen => exact half_and_reserved s.matchLen
  | hash =>
    show (BitVec.ofBool s.hashValid ++ 0#13 ++ s.hashValue) &&& (0#1 ++ 0x1FFF#13 ++ 0#18) = 0
    simp only [BitVec.and_append, BitVec.zero_and, BitVec.and_zero]
    rfl
  | id | inBase | inLen | outBase | outCap | cursor | outLen | tokenCount | errAddr => exact BitVec.and_zero

/-- R51: reserved bits read 0, whatever BUSY is and whatever the host has yet to be made to see. -/
theorem State.hostReadValue_and_reserved (s : State) {off : Nat} (h4 : off % 4 = 0) :
    (s.hostReadValue off).1 &&& reservedBits off = 0 := by
  cases hreg : RegName.ofOffset off with
  | none => simp [s.hostReadValue_reserved hreg]
  | some reg =>
    obtain rfl := RegName.eq_offset h4 hreg
    cases hres : reg.resultReg with
    | none => rw [s.hostReadValue_plain hreg hres, s.regWord_and_reserved]
    | some res =>
      have hmasked : ∀ v : Word, v &&& res.mask &&& reservedBits reg.offset = 0 := fun v => by
        rw [BitVec.and_assoc, reservedBits_offset_result hres]
        exact BitVec.and_zero
      cases hb : s.busy with
      | true => rw [s.hostReadValue_busy hreg hres hb, hmasked]
      | false =>
        rw [s.hostReadValue_idle hreg hres hb]
        obtain ⟨v, n, he, -, hv⟩ := s.choose_spec (s.result res) (s.hiddenResults res)
        rw [he]
        rcases List.mem_cons.1 hv with rfl | hv
        · rw [← s.regWord_result hres, s.regWord_and_reserved]
        · obtain ⟨old, -, rfl⟩ := List.mem_map.1 hv
          exact hmasked old

theorem half_and_not_reserved (v : Word) : (v &&& ~~~(0xFFFF0000 : Word)).setWidth 16 = v.setWidth 16 := by
  rw [BitVec.setWidth_and]
  exact BitVec.and_allOnes

/-- R51: reserved bits ignore writes. -/
theorem State.hostWrite_and_not_reserved (s : State) (v : Word) {off : Nat} (h4 : off % 4 = 0) :
    s.hostWrite off v = s.hostWrite off (v &&& ~~~reservedBits off) := by
  cases hreg : RegName.ofOffset off with
  | none => simp [State.hostWrite, hreg]
  | some reg =>
    obtain rfl := RegName.eq_offset h4 hreg
    have hall : v &&& ~~~(0 : Word) = v := BitVec.and_allOnes
    unfold State.hostWrite
    rw [hreg]
    cases reg with
    | ctrl => simp [State.writeCtrl, reservedBits, RegName.ofOffset_offset]
    | status => simp [State.writeStatus, reservedBits, RegName.ofOffset_offset]
    | window | lookahead => simp only [reservedBits, RegName.ofOffset_offset, half_and_not_reserved]
    | inBase | inLen | outBase | outCap | cursor => simp only [reservedBits, RegName.ofOffset_offset, hall]
    | id | cmd | outLen | tokenCount | matchDist | matchLen | hash | errAddr => rfl

/-- R51: the registers the host cannot write. -/
theorem State.hostWrite_readOnly (s : State) (v : Word) {off : Nat}
    (hoff : off ∈ ([0x00, 0x2C, 0x30, 0x34, 0x38, 0x3C, 0x40] : List Nat)) : s.hostWrite off v = s := by
  simp only [List.mem_cons, List.not_mem_nil, or_false] at hoff
  rcases hoff with rfl | rfl | rfl | rfl | rfl | rfl | rfl <;> rfl

/-- Settles O15: reserved bits and slots read 0 and ignore writes, and the read-only registers have no write. -/
theorem reservedReadsZeroIgnoresWrites : Obligations.ReservedReadsZeroIgnoresWrites := by
  intro s off v hoff
  obtain ⟨-, h4, -⟩ := registerAccess_iff.1 hoff
  refine ⟨s.hostReadValue_and_reserved h4, s.hostWrite_and_not_reserved v h4, s.hostWrite_readOnly v, ?_, fun hle => ?_⟩
  · rintro rfl
    show s.writeStatus v = s.writeStatus (v &&& 0x0000000A)
    simp [State.writeStatus]
  · have hnone := RegName.ofOffset_eq_none_iff.2 hle
    exact ⟨by rw [s.hostReadValue_reserved hnone], by simp [State.hostWrite, hnone]⟩

/-! ### STATUS (R56) -/

/-- Bit `i` of STATUS. -/
theorem State.getLsbD_statusWord (s : State) (i : Nat) : s.statusWord.getLsbD i =
    match i with
    | 0 => s.busy
    | 1 => s.done
    | 2 => s.tail
    | 3 => s.ign
    | k + 4 => decide (4 ≤ k) && s.err.code.getLsbD (k - 4) := by
  change BitVec.getLsbD (w := 20 + 4 + 4 + 1 + 1 + 1 + 1) (0#20 ++ s.err.code ++ 0#4 ++ BitVec.ofBool s.ign ++
    BitVec.ofBool s.tail ++ BitVec.ofBool s.done ++ BitVec.ofBool s.busy) i = _
  simp only [BitVec.getLsbD_append]
  rcases i with _ | _ | _ | _ | k
  · simp
  · simp
  · simp
  · simp
  · have hcode : ∀ j, (decide (j < 4) && s.err.code.getLsbD j) = s.err.code.getLsbD j := fun j => by
      by_cases hj : j < 4
      · simp [hj]
      · simp [hj, BitVec.getLsbD_of_ge s.err.code j (by omega)]
    simp [hcode, ← decide_not]

/-- Settles O13: ID, STATUS and CTRL are plain reads; STATUS is the sum of its fields for every value of them. -/
theorem idStatusAndCtrlReads : Obligations.IdStatusAndCtrlReads := by
  intro s
  have hsum : ∀ (code : BitVec 4) (ign tail done busy : Bool),
      (0#20 ++ code ++ 0#4 ++ BitVec.ofBool ign ++ BitVec.ofBool tail ++ BitVec.ofBool done ++
        BitVec.ofBool busy).toNat =
        busy.toNat + 2 * done.toNat + 4 * tail.toNat + 8 * ign.toNat + 256 * code.toNat := by decide
  refine ⟨rfl, rfl, hsum _ _ _ _ _, rfl, ?_, rfl, rfl, rfl, rfl, rfl, rfl, rfl, fun e => ?_⟩
  · cases h : s.irqEn <;> simp [State.ctrlWord, h]
  · cases e <;> decide

/-- Settles O14: bit by bit, only bits 1 and 3 of the value written can clear one of STATUS. -/
theorem statusWriteClearsWrittenOnes : Obligations.StatusWriteClearsWrittenOnes := by
  intro s v
  refine ⟨BitVec.eq_of_getLsbD_eq fun i hi => ?_, rfl⟩
  rw [BitVec.getLsbD_and, BitVec.getLsbD_not, BitVec.getLsbD_and, State.getLsbD_statusWord, State.getLsbD_statusWord]
  have hconst : ∀ k, (0x0000000A : Word).getLsbD (k + 1 + 1 + 1 + 1) = false := fun k =>
    Nat.testBit_lt_two_pow (lt_of_lt_of_le (by decide : 10 < 2 ^ 4) (Nat.pow_le_pow_right (by decide) (by omega)))
  rcases i with _ | _ | _ | _ | k
  · simp; rfl
  · simp; rfl
  · simp; rfl
  · simp; rfl
  · have hkeep : (s.hostWrite 0x0C v).err = s.err := rfl
    simp only [hconst, Bool.and_false, Bool.not_false, hkeep, hi, decide_true, Bool.and_true]

/-! ### Parameters and CURSOR (R57 to R59) -/

theorem valuesOf_forget_self (u : Unseen) (reg : ResultReg) : valuesOf (u.forget reg).regs reg = [] := by
  rw [valuesOf, List.filterMap_eq_nil_iff]
  intro c hc
  simpa using (List.mem_filter.1 hc).2

theorem valuesOf_forget_ne (u : Unseen) {reg res : ResultReg} (h : res ≠ reg) :
    valuesOf (u.forget reg).regs res = valuesOf u.regs res := by
  rw [valuesOf, Unseen.forget, List.filterMap_filter]
  refine List.filterMap_congr fun c _ => ?_
  by_cases hc : c.1 = res
  · simp [hc, h]
  · simp [hc]

/-- CURSOR after a host write that the host sees (R59, R466). -/
theorem State.hiddenResults_writeCursor (s : State) (v : Word) (res : ResultReg) :
    (s.writeCursor v).hiddenResults res = if res = .cursor then [] else s.hiddenResults res := by
  unfold State.hiddenResults State.writeCursor
  dsimp only
  split
  · rename_i h
    rw [h, valuesOf_forget_self, valuesOf_forget_self]
    rfl
  · rename_i h
    rw [valuesOf_forget_ne _ h, valuesOf_forget_ne _ h]

theorem half_setWidth_word (v : Word) : (v.setWidth 16).setWidth 32 = v &&& (0x0000FFFF : Word) := by
  refine BitVec.eq_of_toNat_eq ?_
  have := Nat.and_two_pow_sub_one_eq_mod v.toNat 16
  simp at this ⊢
  omega


theorem State.writeParam_idle {s : State} (hb : s.busy = false) (update : State → State) :
    s.writeParam update = update s := by
  simp [State.writeParam, hb]

theorem State.hostWrite_cursor_idle {s : State} (hb : s.busy = false) (v : Word) :
    s.hostWrite 0x28 v = s.writeCursor v := by
  unfold State.hostWrite
  exact State.writeParam_idle hb _

/-- A parameter write to an idle block changes its parameter and the word of no other register (R57, R58). -/
theorem State.hostWrite_param_idle {s : State} (hb : s.busy = false) {off : Nat} (v : Word)
    (hoff : off ∈ ([0x10, 0x14, 0x18, 0x1C, 0x20, 0x24] : List Nat)) :
    ∃ p, s.hostWrite off v = { s with params := p } ∧
      ∀ reg : RegName, reg.offset ≠ off → State.regWord { s with params := p } reg = s.regWord reg := by
  simp only [List.mem_cons, List.not_mem_nil, or_false] at hoff
  unfold State.hostWrite
  rcases hoff with rfl | rfl | rfl | rfl | rfl | rfl
  · refine ⟨{ s.params with inBase := v }, State.writeParam_idle hb _, fun reg hne => ?_⟩
    cases reg with
    | inBase => exact absurd rfl hne
    | _ => rfl
  · refine ⟨{ s.params with inLen := v }, State.writeParam_idle hb _, fun reg hne => ?_⟩
    cases reg with
    | inLen => exact absurd rfl hne
    | _ => rfl
  · refine ⟨{ s.params with outBase := v }, State.writeParam_idle hb _, fun reg hne => ?_⟩
    cases reg with
    | outBase => exact absurd rfl hne
    | _ => rfl
  · refine ⟨{ s.params with outCap := v }, State.writeParam_idle hb _, fun reg hne => ?_⟩
    cases reg with
    | outCap => exact absurd rfl hne
    | _ => rfl
  · refine ⟨{ s.params with window := v.setWidth 16 }, State.writeParam_idle hb _, fun reg hne => ?_⟩
    cases reg with
    | window => exact absurd rfl hne
    | _ => rfl
  · refine ⟨{ s.params with lookahead := v.setWidth 16 }, State.writeParam_idle hb _, fun reg hne => ?_⟩
    cases reg with
    | lookahead => exact absurd rfl hne
    | _ => rfl

/-- CURSOR reads as the host has written it. -/
theorem State.hostReadValue_writeCursor {s : State} (hb : s.busy = false) (v : Word) :
    ((s.writeCursor v).hostReadValue 0x28).1 = v := by
  rw [State.hostReadValue_idle (s.writeCursor v) (reg := .cursor) (res := .cursor) rfl rfl hb,
    State.hiddenResults_writeCursor, if_pos rfl]
  rfl

/-- No other register reads differently after a write to CURSOR. -/
theorem State.hostReadValue_writeCursor_ne (s : State) (v : Word) {off : Nat} (h4 : off % 4 = 0) (hne : off ≠ 0x28) :
    ((s.writeCursor v).hostReadValue off).1 = (s.hostReadValue off).1 := by
  refine State.hostReadValue_fst_congr rfl rfl (fun reg _ hr => ?_) fun _ reg res hreg hr => ?_
  · cases reg <;> cases hr <;> rfl
  · have hres : res ≠ .cursor := by
      rintro rfl
      rw [RegName.eq_offset h4 hreg] at hne
      cases reg <;> cases hr
      exact hne rfl
    rw [State.hiddenResults_writeCursor, if_neg hres]
    cases res with
    | cursor => exact absurd rfl hres
    | _ => exact ⟨rfl, rfl⟩

/-- Settles O16: a parameter write and a CURSOR write to an idle block, and what each leaves of the other registers' words. -/
theorem parameterWritesReadBack : Obligations.ParameterWritesReadBack := by
  intro s off v hb
  refine ⟨fun hoff => ?_, fun hoff => ?_, fun hoff => ?_⟩
  · simp only [List.mem_cons, List.not_mem_nil, or_false] at hoff
    rcases hoff with rfl | rfl | rfl | rfl | rfl
    case inr.inr.inr.inr =>
      rw [State.hostWrite_cursor_idle hb]
      exact State.hostReadValue_writeCursor hb v
    all_goals
      unfold State.hostWrite
      exact congrArg (fun t => (State.hostReadValue t _).1) (State.writeParam_idle hb _)
  · simp only [List.mem_cons, List.not_mem_nil, or_false] at hoff
    rcases hoff with rfl | rfl
    all_goals
      rw [← half_setWidth_word]
      unfold State.hostWrite
      exact congrArg (fun t => (State.hostReadValue t _).1) (State.writeParam_idle hb _)
  · by_cases h28 : off = 0x28
    · subst h28
      rw [State.hostWrite_cursor_idle hb]
      refine ⟨fun off' ha hne => s.hostReadValue_writeCursor_ne v (registerAccess_iff.1 ha).2.1 hne, rfl⟩
    · have hparam : off ∈ ([0x10, 0x14, 0x18, 0x1C, 0x20, 0x24] : List Nat) := by
        simp only [List.mem_cons, List.not_mem_nil, or_false] at hoff ⊢
        omega
      obtain ⟨p, hw, hword⟩ := State.hostWrite_param_idle hb v hparam
      rw [hw, if_neg h28, if_neg h28]
      refine ⟨fun off' ha hne => State.hostReadValue_fst_congr rfl rfl (fun reg hreg _ => hword reg ?_)
        fun _ reg res _ _ => ⟨by cases res <;> rfl, rfl⟩, rfl⟩
      rw [← RegName.eq_offset (registerAccess_iff.1 ha).2.1 hreg]
      exact hne

/-- The words the registers hold after reset (R90). -/
theorem State.regWord_resetOn (p : Platform) (m : List Host.Cell) (reg : RegName) :
    (State.resetOn p m).regWord reg = if reg = .id then 0x4C5A3737 else 0 := by
  cases reg with
  | ctrl => exact (by decide : (0#31 ++ BitVec.ofBool false) = (0 : Word))
  | status =>
    exact (by decide : (0#20 ++ 0#4 ++ 0#4 ++ BitVec.ofBool false ++ BitVec.ofBool false ++ BitVec.ofBool false ++
      BitVec.ofBool false) = (0 : Word))
  | hash => exact (by decide : (BitVec.ofBool false ++ 0#13 ++ 0#18) = (0 : Word))
  | _ => rfl

/-- Settles O19: every register's word is its reset value, and nothing is hidden from the host. -/
theorem resetState : Obligations.ResetState := by
  intro p m
  refine ⟨fun off hoff => ?_, rfl, rfl, rfl, rfl, rfl⟩
  obtain ⟨-, h4, -⟩ := registerAccess_iff.1 hoff
  cases hreg : RegName.ofOffset off with
  | none =>
    have := RegName.ofOffset_eq_none_iff.1 hreg
    rw [State.hostReadValue_reserved _ hreg, if_neg (by omega)]
  | some reg =>
    obtain rfl := RegName.eq_offset h4 hreg
    have hword := State.regWord_resetOn p m reg
    have hid : (if reg = .id then 0x4C5A3737 else 0 : Word) = if reg.offset = 0 then 0x4C5A3737 else 0 := by
      cases reg <;> rfl
    cases hres : reg.resultReg with
    | none => rw [State.hostReadValue_plain _ hreg hres, hword, hid]
    | some res =>
      have hnone : (State.resetOn p m).hiddenResults res = [] := rfl
      rw [State.hostReadValue_idle _ hreg hres rfl, hnone, ← State.regWord_result _ hres, hword, hid]
      rfl

/-- Settles O21: an idle block keeps the invariant as long as its memory is canonical. -/
theorem invariantAtReset : Obligations.InvariantAtReset :=
  ⟨State.Inv.of_idle Memory.wf_empty Index.wf_empty nofun rfl,
    fun _ _ hm => State.Inv.of_idle hm Index.wf_empty nofun rfl⟩

/-- Settles O17: with BUSY = 1 the value read depends on no result register, and a read moves what `State.hostRead_spec`
names. -/
theorem registerReads : Obligations.RegisterReads := by
  refine ⟨fun s off c o t e d l hv hb hbusy => ⟨?_, fun hoff => ?_⟩, fun s off => s.hostRead_spec off⟩
  · refine State.hostReadValue_fst_congr rfl rfl (fun reg _ hr => ?_) fun hidle => ?_
    · cases reg <;> cases hr <;> rfl
    · rw [hbusy] at hidle
      cases hidle
  · simp only [List.mem_cons, List.not_mem_nil, or_false] at hoff
    rcases hoff with rfl | rfl | rfl <;> rfl

end Sys2Proof.Machine
end

section
/-! ### The running command does not see CTRL and IGN (10_state.md R71, R83)

The engine reads neither CTRL.IRQ_EN nor IGN and writes neither, so each of its operations commutes with a change of the
two, as Laws/Host.lean has it of the coming accesses; the order of the lemmas is that of the definitions. -/

namespace Sys2Proof.Machine

/-- The state with other values of CTRL.IRQ_EN and STATUS.IGN. -/
def State.flagged (s : State) (irqEn ign : Bool) : State := { s with irqEn := irqEn, ign := ign }

section
variable (s : State) (b g : Bool)

theorem State.flagged_blur (cells : List Blur) : (s.flagged b g).blur cells = (s.blur cells).flagged b g := by
  induction cells generalizing s with
  | nil => rfl
  | cons c cells ih =>
    exact ih { s with
      mem := Memory.write s.mem c.addr (if Config.freeBool s.freeTick then c.new else c.old)
      freeTick := s.freeTick + 1 }

theorem State.flagged_scrambleBytes (a n : Nat) :
    (s.flagged b g).scrambleBytes a n = (s.scrambleBytes a n).flagged b g := by
  induction n generalizing s a with
  | zero => rfl
  | succ n ih =>
    exact ih { s with mem := Memory.write s.mem a (Config.freeByte s.freeTick), freeTick := s.freeTick + 1 } (a + 1)

theorem State.flagged_result (reg : ResultReg) : (s.flagged b g).result reg = s.result reg := by cases reg <;> rfl

theorem State.flagged_setResult (reg : ResultReg) (v : Word) :
    (s.flagged b g).setResult reg v = (s.setResult reg v).flagged b g := by cases reg <;> rfl

theorem State.flagged_scrambleResults (regs : List ResultReg) :
    (s.flagged b g).scrambleResults regs = (s.scrambleResults regs).flagged b g := by
  induction regs generalizing s with
  | nil => rfl
  | cons reg regs ih =>
    refine Eq.trans ?_ (ih (State.setResult { s with freeTick := s.freeTick + 1 } reg (Config.freeValue s.freeTick)))
    rw [← State.flagged_setResult]
    rfl

theorem State.flagged_scramble (r : Run) : (s.flagged b g).scramble r = (s.scramble r).flagged b g := by
  unfold State.scramble
  dsimp only
  rw [show (s.flagged b g).freeTick = s.freeTick from rfl]
  split
  · rw [← State.flagged_scrambleBytes, ← State.flagged_scrambleResults]
    rfl
  · rw [← State.flagged_scrambleResults]
    rfl

theorem State.flagged_beforeScramble (r : Run) : (s.flagged b g).beforeScramble r = s.beforeScramble r := by
  simp only [State.beforeScramble, State.flagged_result]
  rfl

theorem State.flagged_finish (r : Run) (e : ErrCode) : (s.flagged b g).finish r e = (s.finish r e).flagged b g := by
  unfold State.finish
  dsimp only
  split
  · rfl
  · have hs := State.flagged_scramble { s with
        engine := none, done := true, err := e
        unseen := Unseen.append { cells := r.journal, regs := r.regJournal } s.unseen } b g r
    have hb := State.flagged_beforeScramble { s with
        engine := none, done := true, err := e
        unseen := Unseen.append { cells := r.journal, regs := r.regJournal } s.unseen } b g r
    simp only [State.flagged] at hs hb ⊢
    rw [hs, hb]

theorem State.flagged_update (u : Update) : (s.flagged b g).update u = (s.update u).flagged b g := by
  cases u with
  | result reg v => exact s.flagged_setResult b g reg v
  | clearIndex | bucket => rfl

theorem State.flagged_foldl_update (us : List Update) :
    us.foldl State.update (s.flagged b g) = (us.foldl State.update s).flagged b g := by
  induction us generalizing s with
  | nil => rfl
  | cons u us ih => rw [List.foldl_cons, State.flagged_update, ih, List.foldl_cons]

theorem State.flagged_updates (r : Run) (us : List Update) (next : After) :
    (s.flagged b g).updates r us next = (s.updates r us next).flagged b g := by cases us <;> rfl

theorem State.flagged_stepUpdate (r : Run) (u : Update) (rest : List Update) (next : After) :
    (s.flagged b g).stepUpdate r u rest next = (s.stepUpdate r u rest next).flagged b g := by
  have hnote : r.note (s.flagged b g) u = r.note s u := by
    cases u with
    | result reg v => simp only [Run.note, State.flagged_result]
    | clearIndex | bucket => rfl
  rw [State.stepUpdate, State.flagged_update, hnote, State.flagged_updates, State.stepUpdate]

theorem State.flagged_raiseBus (r : Run) (a : Nat) : (s.flagged b g).raiseBus r a = (s.raiseBus r a).flagged b g := by
  have hpass : (s.flagged b g).passSupposed r = (s.passSupposed r).flagged b g := by
    unfold State.passSupposed
    split <;> rfl
  unfold State.raiseBus
  dsimp only
  rw [hpass, show (s.flagged b g).failingBytes r = s.failingBytes r from rfl, State.flagged_blur, State.flagged_updates]
  rfl

theorem State.flagged_fetch {r : Run} {a : Nat} {k : Byte → State → State}
    (hk : ∀ v t, k v (State.flagged t b g) = (k v t).flagged b g) :
    (s.flagged b g).fetch r a k = (s.fetch r a k).flagged b g := by
  have hobserve : (s.flagged b g).observe r a = ((s.observe r a).1, (s.observe r a).2.flagged b g) := by
    unfold State.observe
    rw [show (s.flagged b g).platform = s.platform from rfl]
    split
    · rfl
    · cases Memory.valuesAt r.foreign a <;> rfl
  unfold State.fetch
  rw [show (s.flagged b g).platform = s.platform from rfl, hobserve]
  split
  · exact hk _ _
  · exact s.flagged_raiseBus b g r a

theorem State.flagged_store {r : Run} {a : Nat} {v : Byte} {k : Run → State → State}
    (hk : ∀ q t, k q (State.flagged t b g) = (k q t).flagged b g) :
    (s.flagged b g).store r a v k = (s.store r a v k).flagged b g := by
  unfold State.store
  rw [show (s.flagged b g).platform = s.platform from rfl]
  split
  · dsimp only
    split
    · exact hk _ { s with mem := Memory.write s.mem a (Config.freeByte s.freeTick), freeTick := s.freeTick + 1 }
    · exact hk _ { s with mem := Memory.write s.mem a v }
  · exact s.flagged_raiseBus b g r a

theorem State.flagged_callFinder (r : Run) : (s.flagged b g).callFinder r = (s.callFinder r).flagged b g := by
  unfold State.callFinder
  split_ifs <;> rfl

theorem State.flagged_stepStart (r : Run) : (s.flagged b g).stepStart r = (s.stepStart r).flagged b g := by
  unfold State.stepStart
  cases r.task with
  | nop => exact s.flagged_finish b g r .none
  | indexClear => exact State.flagged_finish { s with index := [] } b g r .none
  | compressLin | compressHc =>
    simp only [State.startCompress]
    cases r.snap.codecCheck <;> rfl
  | decompress =>
    simp only [State.startDecompress]
    cases r.snap.codecCheck <;> rfl
  | findLinear | findHc =>
    simp only [State.startFind]
    cases r.snap.queryCheck with
    | none => exact s.flagged_callFinder b g r
    | some e => rfl
  | hash3 =>
    simp only [State.startHash3]
    cases r.snap.queryCheck with
    | none => dsimp only; split_ifs <;> rfl
    | some e => rfl

theorem State.flagged_stepPhase (r : Run) : (s.flagged b g).stepPhase r = (s.stepPhase r).flagged b g := by
  unfold State.stepPhase
  cases r.phase with
  | start => exact s.flagged_stepStart b g r
  | encodeTop =>
    simp only [State.stepEncodeTop]
    split_ifs
    · rfl
    · exact s.flagged_callFinder b g r
    · exact s.flagged_finish b g r .none
  | hashRead bytes => exact s.flagged_fetch b g fun v t => by split_ifs <;> rfl
  | candidates left =>
    cases left with
    | nil =>
      simp only [State.stepCandidates, State.searchDone, show (s.flagged b g).indexFull = s.indexFull from rfl]
      split_ifs <;> rfl
    | cons p left =>
      simp only [State.stepCandidates]
      split_ifs <;> rfl
  | matching p k left =>
    simp only [State.stepMatching]
    split_ifs
    · exact s.flagged_fetch b g fun v t => rfl
    · rfl
  | comparing p k v left => exact s.flagged_fetch b g fun v' t => by split_ifs <;> rfl
  | found d k =>
    simp only [State.stepFound]
    split_ifs
    · exact s.flagged_fetch b g fun v t => rfl
    · exact s.flagged_fetch b g fun v t => rfl
    · rfl
  | emit w k j =>
    simp only [State.stepEmit]
    split_ifs
    · exact s.flagged_store b g fun q t => rfl
    · rfl
  | recordRead bytes =>
    simp only [State.stepRecordRead]
    split_ifs
    · rfl
    · exact s.flagged_finish b g r .none
    · exact s.flagged_fetch b g fun v t => by split <;> rfl
  | record w =>
    simp only [State.stepRecord, State.startRecord]
    split_ifs <;> rfl
  | copy start len lit i a =>
    simp only [State.stepCopy]
    split_ifs
    · exact s.flagged_fetch b g fun v t => rfl
    · rfl
    · exact s.flagged_store b g fun q t => rfl
  | copyWrite start len lit i a v => exact s.flagged_store b g fun q t => rfl
  | update u rest next => exact s.flagged_stepUpdate b g r u rest next
  | ending e => exact s.flagged_finish b g r e
  | recordEnd | trailing | raising => rfl

theorem State.flagged_runSteps (k : Nat) : State.runSteps k (s.flagged b g) = (State.runSteps k s).flagged b g := by
  induction k generalizing s with
  | zero => rfl
  | succ k ih =>
    have hbusy : (s.flagged b g).busy = s.busy := rfl
    have hstep : (s.flagged b g).engineStep = s.engineStep.flagged b g := by
      unfold State.engineStep
      rw [show (s.flagged b g).engine = s.engine from rfl]
      cases s.engine with
      | none => rfl
      | some r => exact s.flagged_stepPhase b g r
    rw [State.runSteps, State.runSteps, hbusy, hstep, ih]
    split <;> rfl

theorem State.flagged_stepsBound : (s.flagged b g).stepsBound = s.stepsBound := by
  unfold State.stepsBound
  rw [show (s.flagged b g).engine = s.engine from rfl]
  cases s.engine with
  | none => rfl
  | some r =>
    dsimp only [Run.stepsBound]
    cases r.phase with
    | update u rest next =>
      dsimp only
      rw [State.flagged_foldl_update]
      rfl
    | _ => rfl

theorem State.flagged_runToEnd : (s.flagged b g).runToEnd = s.runToEnd.flagged b g := by
  rw [State.runToEnd, State.flagged_stepsBound, State.flagged_runSteps, State.runToEnd]

end

/-- Settles O11: of a running command the write moves CTRL.IRQ_EN and IGN alone, and the run to its end sees neither. -/
theorem runningCommandIsBlindToHostWrites : Obligations.RunningCommandIsBlindToHostWrites := by
  intro s off v h hb
  obtain ⟨irqEn, ign, hw⟩ := State.hostWrite_busy h hb off v
  rw [hw]
  exact s.flagged_runToEnd irqEn ign

end Sys2Proof.Machine
end

section
/-! ### What a command leaves alone (10_state.md R64, 20_memory.md R111, R122)

`Frame` (Laws/Frame.lean) says most of it. The rest is bookkeeping that holds of a command whose buffers nobody else
writes: ERR_ADDR changes on BUS only, TAIL is DECOMPRESS's, and nothing is unseen before the end. -/

namespace Sys2Proof.Machine

/-- A row of updates that leads to an error is one update long: the one of ERR_ADDR before a BUS (R404, R410). -/
def Phase.shortRaise : Phase → Prop
  | .update _ rest (.raising _) => rest = []
  | _ => True

/-- Whether the engine is neither in a row of updates nor at an error or an end. -/
def Phase.working (ph : Phase) : Prop := ph = .start ∨ ph.underway = true

/-- What one engine step can do to the registers and to what the host has yet to see. -/
inductive State.Move (s : State) (r : Run) : State → Prop
  /-- it goes on with another phase, having moved memory and the counter at most -/
  | goes {m n r' ph} (hw : r.phase.working) (hf : r'.foreign = r.foreign) (hs : ph.shortRaise) :
    Move s r (State.goto { s with mem := m, freeTick := n } r' ph)
  /-- it makes the update before it -/
  | updates {u rest next} (hp : r.phase = .update u rest next) : Move s r (s.stepUpdate r u rest next)
  /-- it sets TAIL -/
  | trails (hp : r.phase = .trailing) : Move s r (s.stepTrailing r)
  /-- it records ERR -/
  | raises {e} (hp : r.phase = .raising e) : Move s r (s.stepRaising r e)
  /-- it ends the command, INDEX_CLEAR's with the index emptied -/
  | finishes {idx e} (he : (r.phase.working ∧ e = .none) ∨ r.phase = .ending e) :
    Move s r (State.finish { s with index := idx } r e)

section
variable {s : State} {r : Run} (hw : r.phase.working)
include hw

theorem State.updates_move {r' : Run} (us : List Update) {next : After} (n : Nat)
    (hf : r'.foreign = r.foreign := by rfl) (hn : ∀ e, next ≠ .raising e := by simp) :
    State.Move s r (State.updates { s with freeTick := n } r' us next) := by
  cases us with
  | nil => exact .goes (m := s.mem) hw hf (by cases next <;> trivial)
  | cons u rest =>
    refine .goes (m := s.mem) hw hf ?_
    cases next with
    | raising e => exact absurd rfl (hn e)
    | encodeTop | recordRead | found | ending => trivial

theorem State.raiseBus_move (a : Nat) : State.Move s r (s.raiseBus r a) := by
  obtain ⟨m, n, j, he, -⟩ := State.raiseBus_spec s r a
  rw [he]
  exact .goes hw rfl rfl

theorem State.fetch_move (a : Nat) {k : Byte → State → State}
    (hk : ∀ v n, State.Move s r (k v { s with freeTick := n })) : State.Move s r (s.fetch r a k) := by
  rcases State.fetch_spec s r a k with ⟨-, he⟩ | ⟨-, v, n, he, -⟩
  · rw [he]
    exact State.raiseBus_move hw a
  · rw [he]
    exact hk v n

theorem State.store_move (a : Nat) (v : Byte) {ph : Phase} (hs : ph.shortRaise := by trivial) :
    State.Move s r (s.store r a v fun r s => s.goto r ph) := by
  rcases State.store_spec s r a v (fun r s => s.goto r ph) with ⟨-, he⟩ | ⟨-, v', n, he, -⟩
  · rw [he]
    exact State.raiseBus_move hw a
  · rw [he]
    exact .goes hw rfl hs

theorem State.goto_move {r' : Run} {ph : Phase} (n : Nat) (hf : r'.foreign = r.foreign := by rfl)
    (hs : ph.shortRaise := by trivial) :
    State.Move s r (State.goto { s with freeTick := n } r' ph) := .goes (m := s.mem) hw hf hs

theorem State.finish_move : State.Move s r (s.finish r .none) := .finishes (idx := s.index) (.inl ⟨hw, rfl⟩)

theorem State.callFinder_move : State.Move s r (s.callFinder r) := by
  unfold State.callFinder
  split_ifs
  · exact State.goto_move hw s.freeTick
  · exact State.goto_move hw s.freeTick
  · exact State.goto_move hw s.freeTick

theorem State.candidateDone_move (p k : Nat) (left : List Nat) (n : Nat) :
    State.Move s r (State.candidateDone { s with freeTick := n } r p k left) := by
  refine State.goto_move hw n ?_
  split <;> rfl

theorem State.stepStart_move : State.Move s r (s.stepStart r) := by
  have hraise : ∀ e, State.Move s r (s.raise r e) := fun e => State.goto_move hw s.freeTick
  unfold State.stepStart
  cases r.task with
  | nop => exact State.finish_move hw
  | indexClear => exact .finishes (.inl ⟨hw, rfl⟩)
  | compressLin | compressHc =>
    simp only [State.startCompress]
    split
    · exact hraise _
    · exact State.updates_move hw _ s.freeTick
  | decompress =>
    simp only [State.startDecompress]
    split
    · exact hraise _
    · exact State.updates_move hw _ s.freeTick
  | findLinear | findHc =>
    simp only [State.startFind]
    split
    · exact hraise _
    · exact State.callFinder_move hw
  | hash3 =>
    simp only [State.startHash3]
    split
    · exact hraise _
    · split
      · exact State.goto_move hw s.freeTick
      · exact State.updates_move hw _ s.freeTick

end

theorem State.stepPhase_move_of_underway {s : State} {r : Run} (hu : r.phase.underway = true) :
    State.Move s r (s.stepPhase r) := by
  have hw : r.phase.working := .inr hu
  unfold State.stepPhase
  cases hp : r.phase with
  | start | update | raising | ending =>
    rw [hp] at hu
    cases hu
  | trailing => exact .trails hp
  | encodeTop =>
    simp only [State.stepEncodeTop]
    split_ifs
    · exact State.goto_move hw s.freeTick
    · exact State.callFinder_move hw
    · exact State.finish_move hw
  | hashRead bytes =>
    refine State.fetch_move hw _ fun v n => ?_
    split_ifs
    · exact State.goto_move hw n
    · exact State.updates_move hw _ n
    · exact State.goto_move hw n
  | candidates left =>
    cases left with
    | nil =>
      simp only [State.stepCandidates, State.searchDone]
      split_ifs
      · exact State.goto_move hw s.freeTick
      · exact State.updates_move hw _ s.freeTick
      · exact State.updates_move hw _ s.freeTick
      · exact State.goto_move hw s.freeTick
    | cons p left =>
      simp only [State.stepCandidates]
      split_ifs <;> exact State.goto_move hw s.freeTick
  | matching p k left =>
    simp only [State.stepMatching]
    split_ifs
    · exact State.fetch_move hw _ fun v n => State.goto_move hw n
    · exact State.candidateDone_move hw p k left s.freeTick
  | comparing p k v left =>
    refine State.fetch_move hw _ fun v' n => ?_
    split_ifs
    · exact State.goto_move hw n
    · exact State.candidateDone_move hw p k left n
  | found d k =>
    simp only [State.stepFound]
    split_ifs
    · exact State.fetch_move hw _ fun v n => State.goto_move hw n
    · exact State.fetch_move hw _ fun v n => State.goto_move hw n
    · exact State.updates_move hw _ s.freeTick
  | emit w k j =>
    simp only [State.stepEmit]
    split_ifs
    · exact State.store_move hw _ _
    · exact State.updates_move hw _ s.freeTick
  | recordRead bytes =>
    simp only [State.stepRecordRead]
    split_ifs
    · exact State.goto_move hw s.freeTick
    · exact State.finish_move hw
    · refine State.fetch_move hw _ fun v n => ?_
      split <;> exact State.goto_move hw n
  | record w =>
    simp only [State.stepRecord, State.startRecord]
    split_ifs <;> exact State.goto_move hw s.freeTick
  | copy start len lit i a =>
    simp only [State.stepCopy]
    split_ifs
    · exact State.fetch_move hw _ fun v n => State.goto_move hw n
    · exact State.goto_move hw s.freeTick
    · exact State.store_move hw _ _
  | copyWrite start len lit i a v =>
    simp only [State.stepCopyWrite]
    exact State.store_move hw _ _
  | recordEnd a =>
    simp only [State.stepRecordEnd]
    exact State.updates_move hw _ s.freeTick

/-- One engine step makes one of the moves. -/
theorem State.stepPhase_move (s : State) (r : Run) : State.Move s r (s.stepPhase r) := by
  cases hp : r.phase with
  | start =>
    rw [State.stepPhase, hp]
    exact State.stepStart_move (.inl hp)
  | update u rest next =>
    rw [State.stepPhase, hp]
    exact .updates hp
  | raising e =>
    rw [State.stepPhase, hp]
    exact .raises hp
  | ending e =>
    rw [State.stepPhase, hp]
    exact .finishes (idx := s.index) (.inr hp)
  | _ => exact State.stepPhase_move_of_underway (by rw [hp]; rfl)

/-! ### The bookkeeping of a command whose buffers nobody else writes -/

/-- What holds of ERR_ADDR, TAIL and the unseen values in a state `t` of such a command, ERR_ADDR having held `a`. -/
structure State.Clean (task : Task) (a : Word) (t : State) : Prop where
  foreign : ∀ r, t.engine = some r → r.foreign = []
  rows : ∀ r, t.engine = some r → r.phase.shortRaise
  unseen : ∀ r, t.engine = some r → t.unseen = .nothing
  cells : task.hasOutput = false → t.unseen.cells = []
  tail : t.tail = true → task = .decompress
  errAddr : t.errAddr = a ∨ (∃ r, t.engine = some r ∧ (r.phase = .raising .bus ∨ r.phase = .ending .bus)) ∨
    (t.engine = none ∧ t.err = .bus)

theorem State.accept_clean (s : State) (task : Task) : State.Clean task s.errAddr (s.accept task) where
  foreign r hr := by
    cases hr
    rfl
  rows r hr := by
    cases hr
    trivial
  unseen _ _ := rfl
  cells _ := rfl
  tail h := by simp at h
  errAddr := .inl rfl

/-- Before an error is raised and before the end ERR_ADDR is what it was. -/
theorem State.Clean.errAddr_eq {task : Task} {a : Word} {t : State} {r : Run} (h : State.Clean task a t)
    (hr : t.engine = some r) (hp : ∀ e, r.phase ≠ .raising e ∧ r.phase ≠ .ending e) : t.errAddr = a := by
  rcases h.errAddr with h | ⟨r', hr', hb⟩ | ⟨hn, -⟩
  · exact h
  · obtain rfl := Option.some.inj (hr.symm.trans hr')
    rcases hb with hb | hb
    · exact absurd hb (hp .bus).1
    · exact absurd hb (hp .bus).2
  · rw [hr] at hn
    cases hn

theorem Phase.working_ne {ph : Phase} (h : ph.working) (e : ErrCode) : ph ≠ .raising e ∧ ph ≠ .ending e := by
  constructor <;> rintro rfl <;> rcases h with h | h <;> cases h

/-- Only the update of ERR_ADDR changes it. -/
theorem State.update_errAddr (s : State) {u : Update} (h : ∀ v, u ≠ .result .errAddr v) :
    (s.update u).errAddr = s.errAddr := by
  cases u with
  | clearIndex | bucket => rfl
  | result reg v =>
    cases reg with
    | errAddr => exact absurd rfl (h v)
    | _ => rfl

theorem After.phase_shortRaise (next : After) : next.phase.shortRaise := by cases next <;> trivial

theorem State.stepUpdate_clean {a : Word} {t : State} {r : Run} {u : Update} {rest : List Update} {next : After}
    (hI : t.Inv) (hr : t.engine = some r) (h : State.Clean r.task a t) (hp : r.phase = .update u rest next) :
    State.Clean r.task a (t.stepUpdate r u rest next) := by
  have hrow := h.rows r hr
  have hok := (hI.engine r hr).phase
  simp only [Run.phaseOk, hp] at hok
  obtain ⟨hok, -⟩ := hok
  have herr := h.errAddr_eq hr (fun e => by simp [hp])
  obtain ⟨regs, hn⟩ := Run.note_eq r t u
  unfold State.stepUpdate
  rw [hn]
  have hrest : ∀ e, next = .raising e → rest = [] := by
    rintro e rfl
    rwa [hp] at hrow
  have hupd : ∀ q, ((t.update u).updates { r with regJournal := regs } rest next).engine = some q →
      q.foreign = r.foreign ∧ q.phase.shortRaise := by
    intro q hq
    cases rest with
    | nil =>
      cases hq
      exact ⟨rfl, next.phase_shortRaise⟩
    | cons v rest =>
      cases hq
      refine ⟨rfl, ?_⟩
      cases next with
      | raising e => cases hrest e rfl
      | encodeTop | recordRead | found | ending => trivial
  exact
    { foreign := fun q hq => (hupd q hq).1.trans (h.foreign r hr)
      rows := fun q hq => (hupd q hq).2
      unseen := fun _ _ => by simpa using h.unseen r hr
      cells := fun ho => by simpa using h.cells ho
      tail := fun htail => h.tail (by simpa using htail)
      errAddr := by
        by_cases hu : ∃ v, u = .result .errAddr v
        · obtain ⟨v, rfl⟩ := hu
          obtain ⟨-, hnext⟩ : _ ∧ next = .raising .bus := by simpa [Update.okFor] using hok _ List.mem_cons_self
          obtain rfl := hnext
          obtain rfl := hrest _ rfl
          exact .inr (.inl ⟨_, rfl, .inl rfl⟩)
        · rw [not_exists] at hu
          exact .inl (by rw [State.updates_errAddr, State.update_errAddr t hu, herr]) }

/-- Every engine step keeps the bookkeeping. -/
theorem State.stepPhase_clean {a : Word} {t : State} {r : Run} (hI : t.Inv) (hr : t.engine = some r)
    (h : State.Clean r.task a t) : State.Clean r.task a (t.stepPhase r) := by
  have hk := hI.engine r hr
  have hf := h.foreign r hr
  have hu := h.unseen r hr
  generalize ht : t.stepPhase r = t'
  have hm := ht ▸ t.stepPhase_move r
  cases hm with
  | @goes m n r' ph hw hf' hs =>
    exact
      { foreign := fun q hq => by cases hq; exact hf'.trans hf
        rows := fun q hq => by cases hq; exact hs
        unseen := fun _ _ => hu
        cells := h.cells
        tail := h.tail
        errAddr := .inl (h.errAddr_eq hr (Phase.working_ne hw)) }
  | updates hp => exact State.stepUpdate_clean hI hr h hp
  | trails hp =>
    have htask := hk.phase
    simp only [Run.phaseOk, hp] at htask
    exact
      { foreign := fun q hq => by cases hq; exact hf
        rows := fun q hq => by cases hq; trivial
        unseen := fun _ _ => hu
        cells := h.cells
        tail := fun _ => htask
        errAddr := .inl (h.errAddr_eq hr (fun e => by simp [hp])) }
  | @raises e hp =>
    exact
      { foreign := fun q hq => by cases hq; exact hf
        rows := fun q hq => by cases hq; trivial
        unseen := fun _ _ => hu
        cells := h.cells
        tail := h.tail
        errAddr := by
          rcases h.errAddr with h | ⟨q, hq, hb⟩ | ⟨hn, -⟩
          · exact .inl h
          · obtain rfl := Option.some.inj (hr.symm.trans hq)
            rw [hp] at hb
            rcases hb with hb | hb <;> cases hb
            exact .inr (.inl ⟨_, rfl, .inr rfl⟩)
          · rw [hr] at hn
            cases hn }
  | @finishes idx e he =>
    rw [State.finish_clean _ r e hf]
    exact
      { foreign := fun _ hq => by cases hq
        rows := fun _ hq => by cases hq
        unseen := fun _ hq => by cases hq
        cells := fun ho => by
          have hj : r.journal = [] := List.eq_nil_iff_forall_not_mem.2 fun c hc => by
            have := (hk.journal c hc).1
            rw [ho] at this
            cases this
          simp [hj, Unseen.append, h.cells ho]
        tail := h.tail
        errAddr := by
          rcases he with ⟨hw, -⟩ | hp
          · exact .inl (h.errAddr_eq hr (Phase.working_ne hw))
          · rcases h.errAddr with h | ⟨q, hq, hb⟩ | ⟨hn, -⟩
            · exact .inl h
            · obtain rfl := Option.some.inj (hr.symm.trans hq)
              rw [hp] at hb
              rcases hb with hb | hb <;> cases hb
              exact .inr (.inr ⟨rfl, rfl⟩)
            · rw [hr] at hn
              cases hn }

theorem State.runSteps_clean {a : Word} {t : State} {r : Run} (hI : t.Inv) (hr : t.engine = some r)
    (h : State.Clean r.task a t) (k : Nat) : State.Clean r.task a (State.runSteps k t) := by
  induction k generalizing t r with
  | zero => exact h
  | succ k ih =>
    have hi := State.stepPhase_inv hI hr
    have hc := State.stepPhase_clean hI hr h
    rw [State.runSteps, if_pos (State.busy_iff.2 ⟨r, hr⟩), State.engineStep_busy hr]
    cases he : (t.stepPhase r).engine with
    | none =>
      rw [State.runSteps_eq_iterate, State.iterate_idle he]
      exact hc
    | some r' =>
      have htask := ((State.stepPhase_inFrame hI hr).engine r' he).1
      rw [← htask] at hc ⊢
      exact ih hi he hc

/-! ### The frame -/

/-- Of a running command that keeps to the bookkeeping, ERR_ADDR is what it was unless ERR is BUS or about to be. -/
theorem State.Clean.errAddr_of_not_bus {task : Task} {a : Word} {t : State} (h : State.Clean task a t) (hI : t.Inv)
    (he : t.err ≠ .bus) (hp : ∀ r, t.engine = some r → r.phase ≠ .raising .bus) : t.errAddr = a := by
  rcases h.errAddr with h | ⟨r, hr, hb | hb⟩ | ⟨-, hb⟩
  · exact h
  · exact absurd hb (hp r hr)
  · have := (hI.engine r hr).status.2
    rw [hb] at this
    exact absurd this he
  · exact absurd hb he

/-- What a command leaves, wherever the next host access interrupts it, from a block that takes it. -/
theorem exec_task_spec {s t : State} {i : Instr} {task : Task} (h : s.Inv) (hb : s.busy = false)
    (hi : i.task = some task) (ht : exec i s = .next t) :
    t.Inv ∧ Frame task s.params (s.accept task) t ∧ State.Clean task s.errAddr t := by
  rw [exec_of_task hi, State.offer_idle hb] at ht
  cases ht
  obtain ⟨k, hk⟩ := State.advance_steps (s.accept task)
  have hI := State.accept_inv h task
  have hr : (s.accept task).engine = some (Run.init task s) := rfl
  rw [hk]
  exact ⟨State.runSteps_inv hI k, (State.runSteps_inFrame hI hr k).2, State.runSteps_clean hI hr (s.accept_clean task) k⟩

/-! The commands whose tasks write output, MATCH_DIST and MATCH_LEN, or the index (R64). -/

section
variable {i : Instr} {task : Task} (h : i.task = some task)
include h

theorem command_of_hasOutput (ho : task.hasOutput = true) : i = .compressLin ∨ i = .compressHc ∨ i = .decompress := by
  cases i <;> cases h <;> simp [Task.hasOutput] at ho ⊢

theorem command_of_isQuery (hq : task.isQuery = true) : i = .findLinear ∨ i = .findHc := by
  cases i <;> cases h <;> simp [Task.isQuery] at hq ⊢

theorem command_of_writesIndex (hw : task.writesIndex = true) :
    i = .compressLin ∨ i = .compressHc ∨ i = .findHc ∨ i = .indexClear := by
  cases i <;> cases h <;> simp [Task.writesIndex] at hw ⊢

theorem command_of_hash3 (ht : task = .hash3) : i = .hash3 := by
  cases i <;> cases h <;> cases ht
  rfl

theorem command_of_decompress (ht : task = .decompress) : i = .decompress := by
  cases i <;> cases h <;> cases ht
  rfl

end

/-- Settles O25: the parts are `Frame`'s, and ERR_ADDR's, TAIL's and the unseen bytes' are the bookkeeping's. -/
theorem commandFrame : Obligations.CommandFrame := by
  intro s t i h hb hi hreset ht
  obtain ⟨task, htask⟩ := task_of_isCommand hi hreset
  obtain ⟨hI, hf, hc⟩ := exec_task_spec h hb htask ht
  have hout : i ≠ .compressLin → i ≠ .compressHc → i ≠ .decompress → task.hasOutput = false := fun h1 h2 h3 => by
    rw [← Bool.not_eq_true]
    intro ho
    rcases command_of_hasOutput htask ho with rfl | rfl | rfl <;> contradiction
  have hquery : i ≠ .findLinear → i ≠ .findHc → task.isQuery = false := fun h1 h2 => by
    rw [← Bool.not_eq_true]
    intro hq
    rcases command_of_isQuery htask hq with rfl | rfl <;> contradiction
  have hindex : i ≠ .compressLin → i ≠ .compressHc → i ≠ .findHc → i ≠ .indexClear → task.writesIndex = false :=
    fun h1 h2 h3 h4 => by
      rw [← Bool.not_eq_true]
      intro hw
      rcases command_of_writesIndex htask hw with rfl | rfl | rfl | rfl <;> contradiction
  refine ⟨⟨hf.irqEn, hf.ign, hf.params, hf.platform, hf.pending, hf.readback, hf.stale⟩, fun h1 h2 h3 => ?_,
    fun h1 h2 => hf.matches_ (hquery h1 h2), fun h1 => hf.hash (mt (command_of_hash3 htask) h1), fun h1 => ?_,
    hc.errAddr_of_not_bus hI, fun h1 h2 h3 h4 => hf.index (hindex h1 h2 h3 h4), fun a ha => hf.memory a fun _ => ha⟩
  · obtain ⟨hcursor, houtLen, htokens, hmem⟩ := hf.counts (hout h1 h2 h3)
    exact ⟨hcursor, houtLen, htokens, hmem, hc.cells (hout h1 h2 h3)⟩
  · rw [← Bool.not_eq_true]
    exact fun htail => h1 (command_of_decompress htask (hc.tail htail))

end Sys2Proof.Machine
end

section
/-! ### The engine's byte accesses (20_memory.md R110, R111, 60_exceptions.md R413)

Where the engine's next access falls is a matter of its phase. That a step depends on no other byte is shown as
Laws/Host.lean shows it of the coming accesses: each operation commutes with a change of memory elsewhere. -/

namespace Sys2Proof.Machine

/-! ### Which byte the next access is -/

/-- The engine writes in three places: a byte of a token's record, a record's literal, a copied byte. -/
theorem Run.nextAccess_write {r : Run} {a : Nat} (h : r.nextAccess = some (a, .write)) :
    (∃ w k j, r.phase = .emit w k j ∧ j < 4 ∧ a = r.snap.outAddr (r.o + j)) ∨
    (∃ start len lit i b, r.phase = .copy start len lit i b ∧ ¬ i < len.toNat ∧ a = r.snap.outAddr (r.o + b)) ∨
    (∃ start len lit i b v, r.phase = .copyWrite start len lit i b v ∧ a = r.snap.outAddr (r.o + b)) := by
  unfold Run.nextAccess at h
  cases hp : r.phase with
  | emit w k j =>
    rw [hp] at h
    dsimp only at h
    split_ifs at h with hj
    cases h
    exact .inl ⟨w, k, j, rfl, hj, rfl⟩
  | copy start len lit i b =>
    rw [hp] at h
    dsimp only at h
    split_ifs at h with hi
    · cases h
    · cases h
      exact .inr (.inl ⟨start, len, lit, i, b, rfl, hi, rfl⟩)
  | copyWrite start len lit i b v =>
    rw [hp] at h
    cases h
    exact .inr (.inr ⟨start, len, lit, i, b, v, rfl, rfl⟩)
  | matching | found | recordRead =>
    rw [hp] at h
    dsimp only at h
    split_ifs at h
    all_goals cases h
  | _ =>
    rw [hp] at h
    cases h

/-- The engine writes within its output buffer, at or beyond the output that is complete (R405). -/
theorem Run.Ok.write_in_output {s : State} {r : Run} {a : Nat} (hk : r.Ok s) (h : r.nextAccess = some (a, .write)) :
    r.task.hasOutput = true ∧ ∃ j, r.o ≤ j ∧ j < r.snap.outCap.toNat ∧ a = r.snap.outAddr j := by
  have hpo := hk.phase
  rcases Run.nextAccess_write h with ⟨w, k, j, hp, hj, ha⟩ | ⟨start, len, lit, i, b, hp, hi, ha⟩ |
    ⟨start, len, lit, i, b, v, hp, ha⟩ <;> simp only [Run.phaseOk, hp] at hpo
  · exact ⟨Task.hasOutput_of_isCompress hpo.1, _, Nat.le_add_right _ _, by omega, ha⟩
  · exact ⟨by rw [hpo.1]; rfl, _, Nat.le_add_right _ _, by omega, ha⟩
  · exact ⟨by rw [hpo.1]; rfl, _, Nat.le_add_right _ _, by omega, ha⟩

/-- Under COMPRESS a finder's search has a byte to encode (R290). -/
theorem Run.finding.cur_lt {r : Run} (h : r.finding) (hc : r.task.isCompress = true) : r.cur < r.snap.n := by
  rcases h with ⟨-, hlt, -⟩ | hq
  · exact hlt
  · rw [(Task.not_hasOutput_of_isQuery hq).2] at hc
    cases hc

/-- The engine reads a byte of its input, or, in a record's copy, a byte of the output there is (R321, R324). -/
theorem Run.Ok.read_in_buffer {s : State} {r : Run} {a : Nat} (hk : r.Ok s) (h : r.nextAccess = some (a, .read)) :
    (r.task.hasInput = true ∧ ∃ i < r.snap.n, a = r.snap.inAddr i) ∨
    (r.task = .decompress ∧ ∃ start len lit i b, r.phase = .copy start len lit i b ∧
      ∃ j < r.o + b, j < r.snap.outCap.toNat ∧ a = r.snap.outAddr j) := by
  have hpo := hk.phase
  have input : r.phase.underway = true → ∀ {i}, i < r.snap.n → r.snap.inAddr i = a →
      r.task.hasInput = true ∧ ∃ i < r.snap.n, a = r.snap.inAddr i := fun hu i hi ha =>
    ⟨hk.hasInput hu, i, hi, ha.symm⟩
  cases hp : r.phase <;> simp only [Run.nextAccess, Run.phaseOk, hp, Option.ite_none_right_eq_some,
    Option.ite_none_left_eq_some, Option.some.injEq, Prod.mk.injEq, and_true, and_false, reduceCtorEq] at h hpo
  case hashRead bytes => exact .inl (input (by rw [hp]; rfl) (by omega) h)
  case matching p k left => exact .inl (input (by rw [hp]; rfl) (by omega) h.2)
  case comparing p k v left => exact .inl (input (by rw [hp]; rfl) hpo.2.2 h)
  case found d k =>
    refine .inl (input (by rw [hp]; rfl) ?_ h.2)
    split
    · rename_i hq
      simp only [Run.qualifies, Bool.and_eq_true, decide_eq_true_eq] at hq
      exact hq.2
    · exact hpo.cur_lt h.1
  case recordRead bytes =>
    obtain ⟨hne, ha⟩ := h
    refine .inl (input (by rw [hp]; rfl) ?_ ha)
    by_cases hb : bytes = []
    · simp only [hb, true_and, not_not] at hne
      simp only [hb, List.length_nil]
      omega
    · have := hpo.2.2 hb
      omega
  case copy start len lit i b =>
    split_ifs at h with hi hj
    · cases h
      exact .inr ⟨hpo.1, start, len, lit, i, b, rfl, _, hj, by omega, rfl⟩
    · cases h

/-- Settles O55: the phases that read and those that write, each with the bound its `Run.phaseOk` gives. -/
theorem engineAccessesItsBuffers : Obligations.EngineAccessesItsBuffers := by
  intro s r a h hr
  have hk := h.engine r hr
  refine ⟨fun hread => ?_, fun hwrite => ?_⟩
  · rcases hk.read_in_buffer hread with ⟨hin, i, hi, rfl⟩ | ⟨ht, start, len, lit, i, b, hp, j, hj, hcap, rfl⟩
    · exact .inl ⟨hin, Params.inInput_inAddr hi⟩
    · exact .inr ⟨ht, start, len, lit, i, b, hp, j, hj, rfl, Params.inOutput_outAddr hcap⟩
  · obtain ⟨hout, j, hj, hcap, rfl⟩ := hk.write_in_output hwrite
    exact ⟨hout, Params.inOutput_outAddr hcap, j, hj, rfl⟩

/-! ### A step depends on the one byte it reads -/

/-- The state with another memory. -/
def State.withMem (s : State) (m : List Host.Cell) : State := { s with mem := m }

section
variable (s : State) (m : List Host.Cell) {r : Run}

theorem State.withMem_finish (hf : r.foreign = []) (e : ErrCode) :
    (s.withMem m).finish r e = (s.finish r e).withMem m := by
  rw [State.finish_clean _ r e hf, State.finish_clean _ r e hf]
  rfl

theorem State.withMem_stepUpdate (u : Update) (rest : List Update) (next : After) :
    (s.withMem m).stepUpdate r u rest next = (s.stepUpdate r u rest next).withMem m := by
  unfold State.stepUpdate
  cases u with
  | result reg v => cases reg <;> cases rest <;> rfl
  | clearIndex | bucket => cases rest <;> rfl

theorem State.withMem_callFinder : (s.withMem m).callFinder r = (s.callFinder r).withMem m := by
  unfold State.callFinder
  split_ifs <;> rfl

/-- An admitted read in a command whose buffers nobody else wrote gives the same in a memory with the same byte
there. -/
theorem State.withMem_fetch {a : Nat} {k : Byte → State → State} (hf : r.foreign = [])
    (hadm : s.platform.admits a .read = true) (hm : Memory.read m a = Memory.read s.mem a)
    (hk : ∀ v t, k v (State.withMem t m) = (k v t).withMem m) :
    (s.withMem m).fetch r a k = (s.fetch r a k).withMem m := by
  have hobserve : (s.withMem m).observe r a = ((s.observe r a).1, (s.observe r a).2.withMem m) := by
    unfold State.observe
    rw [hf, show (s.withMem m).platform = s.platform from rfl]
    split_ifs
    · rfl
    · exact congrArg (·, s.withMem m) hm
  unfold State.fetch
  rw [show (s.withMem m).platform = s.platform from rfl, hobserve, if_pos hadm, if_pos hadm]
  exact hk _ _

theorem State.withMem_stepStart (hf : r.foreign = []) : (s.withMem m).stepStart r = (s.stepStart r).withMem m := by
  unfold State.stepStart
  cases r.task with
  | nop => exact s.withMem_finish m hf .none
  | indexClear => exact State.withMem_finish { s with index := [] } m hf .none
  | compressLin | compressHc =>
    simp only [State.startCompress]
    cases r.snap.codecCheck <;> rfl
  | decompress =>
    simp only [State.startDecompress]
    cases r.snap.codecCheck <;> rfl
  | findLinear | findHc =>
    simp only [State.startFind]
    cases r.snap.queryCheck with
    | none => exact s.withMem_callFinder m
    | some e => rfl
  | hash3 =>
    simp only [State.startHash3]
    cases r.snap.queryCheck with
    | none => dsimp only; split_ifs <;> rfl
    | some e => rfl

/-- A step that writes no byte does the same in a memory that agrees on the byte it reads. -/
theorem State.withMem_stepPhase (hf : r.foreign = [])
    (hadm : ∀ a, r.nextAccess = some (a, .read) → s.platform.admits a .read = true)
    (hw : ∀ a, r.nextAccess ≠ some (a, .write))
    (hm : ∀ a, r.nextAccess = some (a, .read) → Memory.read m a = Memory.read s.mem a) :
    (s.withMem m).stepPhase r = (s.stepPhase r).withMem m := by
  have hfetch : ∀ {a : Nat} {k : Byte → State → State}, r.nextAccess = some (a, .read) →
      (∀ v t, k v (State.withMem t m) = (k v t).withMem m) →
      (s.withMem m).fetch r a k = (s.fetch r a k).withMem m := fun ha hk =>
    s.withMem_fetch m hf (hadm _ ha) (hm _ ha) hk
  unfold State.stepPhase
  cases hp : r.phase <;> simp only [Run.nextAccess, hp] at hfetch hw
  case start => exact s.withMem_stepStart m hf
  case encodeTop =>
    simp only [State.stepEncodeTop]
    split_ifs
    · rfl
    · exact s.withMem_callFinder m
    · exact s.withMem_finish m hf .none
  case hashRead bytes => exact hfetch rfl fun v t => by split_ifs <;> rfl
  case candidates left =>
    cases left with
    | nil =>
      simp only [State.stepCandidates, State.searchDone, show (s.withMem m).indexFull = s.indexFull from rfl]
      split_ifs <;> rfl
    | cons p left =>
      simp only [State.stepCandidates]
      split_ifs <;> rfl
  case matching p k left =>
    simp only [State.stepMatching]
    split_ifs with hk
    · exact hfetch (if_pos hk) fun v t => rfl
    · rfl
  case comparing p k v left => exact hfetch rfl fun v' t => by split_ifs <;> rfl
  case found d k =>
    simp only [State.stepFound]
    split_ifs with hc hq
    · exact hfetch (by rw [if_pos hc, if_pos hq]) fun v t => rfl
    · exact hfetch (by rw [if_pos hc, if_neg hq]) fun v t => rfl
    · rfl
  case emit w k j =>
    simp only [State.stepEmit]
    split_ifs with hj
    · exact absurd (if_pos hj) (hw _)
    · rfl
  case recordRead bytes =>
    simp only [State.stepRecordRead]
    split_ifs with hend
    · rfl
    · exact s.withMem_finish m hf .none
    · exact hfetch (if_neg hend) fun v t => by split <;> rfl
  case record w =>
    simp only [State.stepRecord, State.startRecord]
    split_ifs <;> rfl
  case copy start len lit i b =>
    simp only [State.stepCopy]
    split_ifs with hi hj
    · exact hfetch (by rw [if_pos hi, if_pos hj]) fun v t => rfl
    · rfl
    · exact absurd (if_neg hi) (hw _)
  case copyWrite start len lit i b v => exact absurd rfl (hw _)
  case update u rest next => exact s.withMem_stepUpdate m u rest next
  case ending e => exact s.withMem_finish m hf e
  case recordEnd | trailing | raising => rfl

end

/-- A step that writes leaves memory with one byte written. -/
theorem State.stepPhase_mem_of_write {s : State} {r : Run} {a : Nat} (h : r.nextAccess = some (a, .write))
    (hadm : s.platform.admits a .write = true) : ∃ v, (s.stepPhase r).mem = Memory.write s.mem a v := by
  have hstore : ∀ (v : Byte) (ph : Phase),
      ∃ v', (s.store r a v fun r s => s.goto r ph).mem = Memory.write s.mem a v' := fun v ph => by
    rcases State.store_spec s r a v (fun r s => s.goto r ph) with ⟨hno, -⟩ | ⟨-, v', n, he, -⟩
    · rw [hadm] at hno
      cases hno
    · exact ⟨v', by rw [he]; rfl⟩
  rcases Run.nextAccess_write h with ⟨w, k, j, hp, hj, rfl⟩ | ⟨start, len, lit, i, b, hp, hi, rfl⟩ |
    ⟨start, len, lit, i, b, v, hp, rfl⟩
  · simp only [State.stepPhase, hp, State.stepEmit, Config.tokenBytes, if_pos hj]
    exact hstore _ _
  · simp only [State.stepPhase, hp, State.stepCopy, if_neg hi]
    exact hstore _ _
  · simp only [State.stepPhase, hp, State.stepCopyWrite]
    exact hstore _ _

/-- Settles O56: a step that writes stores one byte; any other commutes with a change of memory elsewhere, and so leaves
memory as it is. -/
theorem engineMovesOneByte : Obligations.EngineMovesOneByte := by
  intro s r h hr hf hadm
  have hstep : ∀ m, State.engineStep (s.withMem m) = (s.withMem m).stepPhase r := fun m => State.engineStep_busy hr
  have hblind : (∀ a, r.nextAccess ≠ some (a, .write)) →
      ∀ m, (∀ a, r.nextAccess = some (a, .read) → Memory.read m a = Memory.read s.mem a) →
        State.engineStep (s.withMem m) = s.engineStep.withMem m := fun hw m hm => by
    rw [hstep, State.engineStep_busy hr, s.withMem_stepPhase m hf (fun a ha => hadm a _ ha) hw hm]
  refine ⟨fun x hx => ?_, hblind⟩
  by_cases hw : ∃ a, r.nextAccess = some (a, .write)
  · obtain ⟨a, ha⟩ := hw
    obtain ⟨v, hv⟩ := State.stepPhase_mem_of_write ha (hadm a _ ha)
    rw [State.engineStep_busy hr, hv]
    exact Memory.read_write_ne _ _ fun hxa => hx (hxa ▸ ha)
  · have hsame : s.engineStep = s.engineStep.withMem s.mem := hblind (not_exists.1 hw) s.mem fun _ _ => rfl
    rw [hsame]
    rfl

end Sys2Proof.Machine
end

section
/-! ### The host's view of memory and of the results (20_memory.md R121, R122)

Before it has been made to see a command's end the host may read what `State.hiddenValues` or `State.hiddenResults` lists;
`State.sync` empties both but for what an earlier command has left. -/

namespace Sys2Proof.Machine

/-! ### What is hidden from the host -/

theorem valuesOf_eq_nil_iff {κ α : Type} [DecidableEq κ] {entries : List (κ × α)} {k : κ} :
    valuesOf entries k = [] ↔ ∀ e ∈ entries, e.1 ≠ k := by
  simp [valuesOf, List.filterMap_eq_nil_iff]

/-- Of the old values at `k` none is left by a later write there, whose old values are `later`. -/
theorem valuesOf_filter_before {κ α : Type} [DecidableEq κ] {earlier later : List (κ × α)} {k : κ}
    (h : valuesOf earlier k = [] ∨ valuesOf later k ≠ []) :
    valuesOf (earlier.filter fun c => (valuesOf later c.1).isEmpty) k = [] := by
  rw [valuesOf_eq_nil_iff]
  rintro c hc rfl
  obtain ⟨hc, hlater⟩ := List.mem_filter.1 hc
  rcases h with h | h
  · exact valuesOf_eq_nil_iff.1 h c hc rfl
  · exact h (List.isEmpty_iff.1 hlater)

/-- A read of STATUS with BUSY = 0 and DONE = 1 is a point from which the host sees the command's writes (R122). -/
theorem State.hostRead_status {s : State} (hb : s.busy = false) (hd : s.done = true) :
    s.hostRead 0x0C = (s.hosted s.pending (.reg 0x0C s.statusWord :: s.readback)).sync := by
  have hreg : RegName.ofOffset 0x0C = some .status := rfl
  unfold State.hostRead
  rw [State.hostReadValue_plain s hreg rfl]
  exact if_pos ⟨hreg, hb, hd⟩

theorem State.takeIrq_asserted {s : State} (h : s.irq = true) : s.takeIrq = s.sync := if_pos h

theorem State.choose_nil {α : Type} (s : State) (v : α) : s.choose v [] = (v, s) := rfl

/-- Once the host has been made to see the last command's writes, no old value of an idle block's byte is hidden, if no
earlier command left one or the last command wrote the byte too. -/
theorem State.hiddenValues_sync {s : State} {a : Nat} (hb : s.busy = false)
    (h : Memory.valuesAt s.stale.cells a = [] ∨ Memory.valuesAt s.unseen.cells a ≠ []) :
    s.sync.hiddenValues a = [] := by
  have hbefore : Memory.valuesAt (s.unseen.before s.stale).cells a = [] := valuesOf_filter_before h
  simp only [State.hiddenValues, State.sync_engine, State.not_busy_iff.1 hb, State.sync_stale, hbefore,
    State.sync_unseen]
  rfl

/-- As `State.hiddenValues_sync`, of a result register. -/
theorem State.hiddenResults_sync {s : State} {res : ResultReg}
    (h : valuesOf s.stale.regs res = [] ∨ valuesOf s.unseen.regs res ≠ []) : s.sync.hiddenResults res = [] := by
  have hbefore : valuesOf (s.unseen.before s.stale).regs res = [] := valuesOf_filter_before h
  simp only [State.hiddenResults, State.sync_stale, hbefore, State.sync_unseen]
  rfl

/-! ### What a read then gives -/

/-- A read of an ordinary byte of which nothing is hidden gives what memory holds. -/
theorem State.hostMemRead_of_seen {s : State} {a : Nat} (hs : s.platform.hasSideEffects a = false)
    (h : s.hiddenValues a = []) :
    s.hostMemRead a = { s with readback := .mem a (Memory.read s.mem a) :: s.readback } := by
  simp [State.hostMemRead, hs, h, State.choose_nil]

/-- With BUSY = 0 a read of a result register of which nothing is hidden gives what it holds. -/
theorem State.hostReadValue_of_seen {s : State} {off : Nat} {reg : RegName} {res : ResultReg} (hb : s.busy = false)
    (hreg : RegName.ofOffset off = some reg) (hres : reg.resultReg = some res) (h : s.hiddenResults res = []) :
    s.hostReadValue off = (s.result res, s) := by
  rw [State.hostReadValue_idle s hreg hres hb, h, State.choose_nil]

/-- Settles O57: what is hidden is what `State.choose` may give besides memory's byte, and `State.sync` hides nothing that
the last command wrote. -/
theorem hostViewOfMemory : Obligations.HostViewOfMemory := by
  refine ⟨fun s a hs => ?_, fun s hb hd a hs hseen => ⟨?_, fun hirq => ?_⟩, fun s a v h hb => ⟨fun x => ?_, ?_⟩⟩
  · obtain ⟨v, n, hv, -, hmem⟩ := State.choose_spec s (Memory.read s.mem a.toNat) (s.hiddenValues a.toNat)
    exact ⟨v, by simp [State.hostMemRead, hs, hv], List.mem_cons.1 hmem⟩
  · rw [State.hostRead_status hb hd]
    exact State.hostMemRead_of_seen hs (State.hiddenValues_sync hb hseen)
  · rw [State.takeIrq_asserted hirq]
    exact State.hostMemRead_of_seen hs (State.hiddenValues_sync hb hseen)
  · by_cases hx : x = a.toNat
    · rw [if_pos hx, hx]
      exact Memory.read_write_self h.memory a.toNat v
    · rw [if_neg hx]
      exact Memory.read_write_ne s.mem v hx
  · simp [State.hostMemWrite, State.not_busy_iff.1 hb]

/-- R122 of a result register once the host has been made to see the last command's writes. -/
theorem State.hostReadValue_sync {s : State} {off : Nat} {reg : RegName} {res : ResultReg} (hb : s.busy = false)
    (hreg : RegName.ofOffset off = some reg) (hres : reg.resultReg = some res)
    (hseen : valuesOf s.stale.regs res = [] ∨ valuesOf s.unseen.regs res ≠ []) :
    s.sync.hostReadValue off = (s.result res, s.sync) := by
  rw [State.hostReadValue_of_seen (s := s.sync) hb hreg hres (State.hiddenResults_sync hseen)]
  cases res <;> rfl

/-- The same after the host has read STATUS with DONE = 1. -/
theorem State.hostReadValue_after_status {s : State} {off : Nat} {reg : RegName} {res : ResultReg} (hb : s.busy = false)
    (hd : s.done = true) (hreg : RegName.ofOffset off = some reg) (hres : reg.resultReg = some res)
    (hseen : valuesOf s.stale.regs res = [] ∨ valuesOf s.unseen.regs res ≠ []) :
    (s.hostRead 0x0C).hostReadValue off = (s.result res, s.hostRead 0x0C) := by
  have hread := State.hostReadValue_sync (s := s.hosted s.pending (.reg 0x0C s.statusWord :: s.readback)) hb hreg hres
    hseen
  rwa [← State.hostRead_status hb hd, State.hosted_result] at hread

/-! ### A host that waits -/

/-- A step that ends a command sets DONE (R360). -/
theorem State.done_of_stepPhase_idle {s : State} {r : Run} (h : (s.stepPhase r).engine = none) :
    (s.stepPhase r).done = true := by
  generalize ht : s.stepPhase r = t at h ⊢
  have hm := ht ▸ s.stepPhase_move r
  cases hm with
  | finishes => exact State.finish_done _ r _
  | @updates u rest next hp => cases rest <;> cases h
  | goes | trails | raises => cases h

/-- A running command that has come to its end has set DONE. -/
theorem State.done_of_runSteps_idle {s : State} (hb : s.busy = true) (k : Nat)
    (h : (State.runSteps k s).engine = none) : (State.runSteps k s).done = true := by
  induction k generalizing s with
  | zero =>
    rw [State.runSteps, ← State.not_busy_iff, hb] at h
    cases h
  | succ k ih =>
    obtain ⟨r, hr⟩ := State.busy_iff.1 hb
    rw [State.runSteps, if_pos hb, State.engineStep_busy hr] at h ⊢
    cases he : (s.stepPhase r).engine with
    | none =>
      rw [State.runSteps_eq_iterate, State.iterate_idle he]
      exact State.done_of_stepPhase_idle he
    | some r' => exact ih (State.busy_iff.2 ⟨r', he⟩) h

/-- A command whose host waits has ended with DONE = 1 when the next access comes (R365). -/
theorem exec_ready_ends {s t : State} {i : Instr} {task : Task} (h : s.Inv) (hready : s.Ready) (hi : i.task = some task)
    (ht : exec i s = .next t) : t.engine = none ∧ t.done = true := by
  rw [exec_of_task hi, State.offer_idle hready.idle, State.advance_waits (by exact hready.waits)] at ht
  cases ht
  have hidle := State.runToEnd_idle (State.accept_inv h task)
  exact ⟨hidle, State.done_of_runSteps_idle (s.accept_busy task) _ hidle⟩

/-- Settles O58: as `hostViewOfMemory`, of the registers; a waiting host's command leaves nothing stale, for it takes over
what was unseen, and a command does not touch it. -/
theorem hostViewOfResults : Obligations.HostViewOfResults := by
  refine ⟨fun s off reg res hb hreg hres => ?_, fun s off reg res hb hd hreg hres hseen => ⟨?_, fun hirq => ?_⟩,
    fun s t i off reg res h hready hi hreset hunseen hstale hreg hres ht => ?_⟩
  · rw [State.hostReadValue_idle s hreg hres hb]
    obtain ⟨v, n, hv, -, hmem⟩ := State.choose_spec s (s.result res) (s.hiddenResults res)
    exact ⟨v, n, hv, List.mem_cons.1 hmem⟩
  · exact State.hostReadValue_after_status hb hd hreg hres hseen
  · rw [State.takeIrq_asserted hirq]
    exact State.hostReadValue_sync hb hreg hres hseen
  · obtain ⟨task, htask⟩ := task_of_isCommand hi hreset
    obtain ⟨hidle, hdone⟩ := exec_ready_ends h hready htask ht
    obtain ⟨-, hframe, -⟩ := exec_task_spec h hready.idle htask ht
    have hnone : t.stale = .nothing := by rw [hframe.stale, State.accept_stale, hunseen, hstale, Unseen.append_nothing]
    exact State.hostReadValue_after_status (State.not_busy_iff.2 hidle) hdone hreg hres (.inl (by rw [hnone]; rfl))

end Sys2Proof.Machine
end

section
/-! ### Command words and records: decoding and encoding (30_encoding.md)

A command word is legal when its fields say so (R153), and those fields determine it; a record is its three fields packed
(R162, R163), so what a token decodes from or encodes to is read off its fields. -/

namespace Sys2Proof

/-! ### Command words (R150 to R154) -/

/-- The command words, in the order of R151 and R152. -/
def commands : List Instr :=
  [.nop, .compressLin, .decompress, .findLinear, .findHc, .hash3, .indexClear, .reset, .compressHc]

theorem mem_commands {i : Instr} : i ∈ commands ↔ i.isCommand = true := by
  cases i <;> simp [commands, Instr.isCommand]

theorem wellFormed_of_isCommand {i : Instr} (h : i.isCommand = true) : i.wellFormed = true := by
  cases i with
  | tokenLit | tokenCopy | tokenZoff | tokenZlen => cases h
  | _ => rfl

theorem decodeCommand_encode {i : Instr} (h : i.isCommand = true) : decodeCommand (encode i) = .command i := by
  have hall : ∀ i ∈ commands, decodeCommand (encode i) = .command i := by decide
  exact hall i (mem_commands.2 h)

theorem legalWord_encode {i : Instr} (h : i.isCommand = true) : legalWord (encode i) = true := by
  have hall : ∀ i ∈ commands, legalWord (encode i) = true := by decide
  exact hall i (mem_commands.2 h)

theorem commandOp_eq_mod (v : Word) : commandOp v = v.toNat % 256 := by
  simp [commandOp, BitVec.extractLsb'_toNat]

theorem commandReserved_eq_zero_iff (v : Word) : commandReserved v = 0 ↔ v >>> 9 = 0 := by
  have hv := v.isLt
  rw [← BitVec.toNat_inj, ← BitVec.toNat_inj]
  simp only [commandReserved, BitVec.extractLsb'_toNat, BitVec.toNat_ushiftRight, Nat.shiftRight_eq_div_pow,
    BitVec.ofNat_eq_ofNat, BitVec.toNat_ofNat]
  omega

/-- R153 by fields. -/
theorem legalWord_iff_fields (v : Word) : legalWord v = true ↔
    commandReserved v = 0 ∧ commandOp v ≤ 7 ∧ (commandFinder v = false ∨ commandOp v = 1) := by
  simp [legalWord, and_assoc]

/-- The fields of a legal word leave nine words. -/
theorem exists_encode_of_legalWord {v : Word} (h : legalWord v = true) : ∃ i ∈ commands, encode i = v := by
  obtain ⟨hres, hop, hfinder⟩ := (legalWord_iff_fields v).1 h
  have hnine : ∀ op ≤ 7, ∀ finder : Bool, finder = false ∨ op = 1 →
      ∃ i ∈ commands, encode i = BitVec.ofNat 32 (op + 256 * finder.toNat) := by decide
  obtain ⟨i, hi, he⟩ := hnine _ hop _ hfinder
  exact ⟨i, hi, he.trans (eq_of_commandFields hres rfl rfl).symm⟩

theorem legalWord_iff_mem (v : Word) : legalWord v = true ↔ v ∈ commands.map encode := by
  rw [List.mem_map]
  refine ⟨exists_encode_of_legalWord, ?_⟩
  rintro ⟨i, hi, rfl⟩
  exact legalWord_encode (mem_commands.1 hi)

theorem legalWord_iff_decodes (v : Word) : legalWord v = true ↔ ∃ i, decodeCommand v = .command i := by
  constructor
  · intro h
    obtain ⟨i, hi, rfl⟩ := exists_encode_of_legalWord h
    exact ⟨i, decodeCommand_encode (mem_commands.1 hi)⟩
  · rintro ⟨i, h⟩
    obtain ⟨hi, rfl⟩ := command_of_decodeCommand h
    exact legalWord_encode hi

/-! ### Records (R160 to R164) -/

theorem toNat_packToken (off : Half) (len lit : Byte) :
    (packToken off len lit).toNat = off.toNat + 65536 * len.toNat + 16777216 * lit.toNat := by
  have h : (packToken off len lit).toNat = (lit.toNat <<< 8 ||| len.toNat) <<< 16 ||| off.toNat := by
    change BitVec.toNat (w := 8 + 8 + 16) (lit ++ len ++ off) = _
    rw [BitVec.toNat_append, BitVec.toNat_append]
  rw [h, ← Nat.shiftLeft_add_eq_or_of_lt len.isLt, ← Nat.shiftLeft_add_eq_or_of_lt off.isLt, Nat.shiftLeft_eq,
    Nat.shiftLeft_eq]
  omega

/-- Bytes in stream order are the fields' bytes, low byte of the offset first (R160, R162). -/
theorem recordWord_eq_packToken (b0 b1 b2 b3 : Byte) : recordWord b0 b1 b2 b3 = packToken (b1 ++ b0) b2 b3 := by
  change b3 ++ b2 ++ b1 ++ b0 = b3 ++ b2 ++ (b1 ++ b0)
  rw [BitVec.append_assoc]
  rfl

theorem toNat_append_bytes (hi lo : Byte) : (hi ++ lo).toNat = lo.toNat + 256 * hi.toNat := by
  rw [BitVec.toNat_append, ← Nat.shiftLeft_add_eq_or_of_lt lo.isLt, Nat.shiftLeft_eq]
  omega

theorem toNat_recordOffset (w : Word) : (recordOffset w).toNat = w.toNat % 65536 := by
  simp [recordOffset, BitVec.extractLsb'_toNat]

theorem toNat_recordLength (w : Word) : (recordLength w).toNat = w.toNat / 65536 % 256 := by
  simp [recordLength, BitVec.extractLsb'_toNat, Nat.shiftRight_eq_div_pow]

theorem toNat_recordLiteral (w : Word) : (recordLiteral w).toNat = w.toNat / 16777216 := by
  have hw := w.isLt
  simp only [recordLiteral, BitVec.extractLsb'_toNat, Nat.shiftRight_eq_div_pow]
  omega

theorem toNat_recordByte (w : Word) (j : Nat) : (recordByte w j).toNat = w.toNat / 2 ^ (8 * j) % 256 := by
  simp [recordByte, BitVec.extractLsb'_toNat, Nat.shiftRight_eq_div_pow]

/-- The bytes of a packed token in memory order (R163). -/
theorem recordBytes_packToken (off : Half) (len lit : Byte) : Machine.Ref.recordBytes (packToken off len lit) =
    [BitVec.ofNat 8 (off.toNat % 256), BitVec.ofNat 8 (off.toNat / 256), len, lit] := by
  have hoff := off.isLt
  have hlen := len.isLt
  have hlit := lit.isLt
  have hbyte : ∀ (j : Nat) (b : Byte), (packToken off len lit).toNat / 2 ^ (8 * j) % 256 = b.toNat →
      recordByte (packToken off len lit) j = b := fun j b h => BitVec.eq_of_toNat_eq ((toNat_recordByte _ j).trans h)
  rw [toNat_packToken] at hbyte
  change [recordByte _ 0, recordByte _ 1, recordByte _ 2, recordByte _ 3] = _
  rw [hbyte 0 (BitVec.ofNat 8 (off.toNat % 256)) (by rw [BitVec.toNat_ofNat]; omega),
    hbyte 1 (BitVec.ofNat 8 (off.toNat / 256)) (by rw [BitVec.toNat_ofNat]; omega), hbyte 2 len (by omega),
    hbyte 3 lit (by omega)]

/-- A token's word is its fields packed (R163). -/
theorem encode_of_tokenFields {i : Instr} {off : Half} {len lit : Byte} (h : i.tokenFields = some (off, len, lit)) :
    encode i = packToken off len lit := by
  cases i <;> cases h <;> rfl

theorem decodeToken_packToken (off : Half) (len lit : Byte) : decodeToken (packToken off len lit) =
    if off = 0 then if len = 0 then .tokenLit lit else .tokenZoff len lit
    else if len = 0 then .tokenZlen off lit else .tokenCopy off len lit := by
  rw [decodeToken, recordOffset_packToken, recordLength_packToken, recordLiteral_packToken]

/-- A well-formed token is the class of its fields (R164). -/
theorem decodeToken_encode {i : Instr} (hi : i.isCommand = false) (hwf : i.wellFormed = true) :
    decodeToken (encode i) = i := by
  cases i with
  | tokenLit lit => rw [encode_of_tokenFields rfl, decodeToken_packToken, if_pos rfl, if_pos rfl]
  | tokenCopy off len lit =>
    obtain ⟨hoff, hlen⟩ : off ≠ 0 ∧ len ≠ 0 := by simpa [Instr.wellFormed] using hwf
    rw [encode_of_tokenFields rfl, decodeToken_packToken, if_neg hoff, if_neg hlen]
  | tokenZoff len lit =>
    have hlen : len ≠ 0 := by simpa [Instr.wellFormed] using hwf
    rw [encode_of_tokenFields rfl, decodeToken_packToken, if_pos rfl, if_neg hlen]
  | tokenZlen off lit =>
    have hoff : off ≠ 0 := by simpa [Instr.wellFormed] using hwf
    rw [encode_of_tokenFields rfl, decodeToken_packToken, if_neg hoff, if_pos rfl]
  | _ => cases hi

/-- The class of a record is a token whose row's constraint holds (R164, R322). -/
theorem decodeToken_wellFormed (w : Word) : (decodeToken w).isCommand = false ∧ (decodeToken w).wellFormed = true := by
  unfold decodeToken
  split <;> rename_i hoff <;> split <;> rename_i hlen
  · exact ⟨rfl, rfl⟩
  · exact ⟨rfl, by simpa [Instr.wellFormed] using hlen⟩
  · exact ⟨rfl, by simpa [Instr.wellFormed] using hoff⟩
  · exact ⟨rfl, by simpa [Instr.wellFormed] using ⟨hoff, hlen⟩⟩

theorem encode_decodeToken (w : Word) : encode (decodeToken w) = w := by
  rw [encode_of_tokenFields (Machine.decodeToken_fields w), packToken_fields]

/-! ### The obligations -/

/-- Settles O1: the nine commands by their words, a token by its fields. -/
theorem decodeInvertsEncode : Obligations.DecodeInvertsEncode := by
  refine ⟨fun i hwf => ⟨decodeCommand_encode, fun hi => decodeToken_encode hi hwf⟩, fun v i h => ?_, fun w => ?_⟩
  · obtain ⟨hi, hv⟩ := command_of_decodeCommand h
    exact ⟨hi, wellFormed_of_isCommand hi, hv.symm⟩
  · obtain ⟨hi, hwf⟩ := decodeToken_wellFormed w
    exact ⟨hi, hwf, encode_decodeToken w⟩

/-- Settles O2: the fields of a legal word leave the nine encodings, and those are what decodes. -/
theorem legalCommandWords : Obligations.LegalCommandWords := by
  intro v
  refine ⟨?_, ?_, legalWord_iff_decodes v, ?_⟩
  · rw [legalWord_iff_fields, commandReserved_eq_zero_iff, commandOp_eq_mod]
    rfl
  · exact legalWord_iff_mem v
  · rw [← Bool.not_eq_true, legalWord_iff_decodes]
    cases decodeCommand v <;> simp

/-- Settles O3, by decoding each word. -/
theorem wordsWrittenOutDecode : Obligations.WordsWrittenOutDecode := by
  unfold Obligations.WordsWrittenOutDecode
  decide

/-- Settles O4: the record is its fields packed, the offset's two bytes low byte first. -/
theorem recordFieldAssembly : Obligations.RecordFieldAssembly := by
  intro b0 b1 b2 b3
  refine ⟨?_, ?_, ?_, ?_, fun w => ⟨toNat_recordOffset w, toNat_recordLength w, toNat_recordLiteral w⟩⟩
  · rw [recordWord_eq_packToken, recordOffset_packToken, toNat_append_bytes]
  · rw [recordWord_eq_packToken, recordLength_packToken]
  · rw [recordWord_eq_packToken, recordLiteral_packToken]
  · rw [recordWord_eq_packToken, toNat_packToken, toNat_append_bytes]
    omega

/-- Settles O5: packing and its fields, for an offset that fits its 16 bits. -/
theorem tokenPacking : Obligations.TokenPacking := by
  intro t hdist
  have hoff : (BitVec.ofNat 16 t.dist).toNat = t.dist := by
    rw [BitVec.toNat_ofNat]
    exact Nat.mod_eq_of_lt (by omega)
  have hlen : BitVec.ofNat 8 t.len = BitVec.ofNat 8 (t.len % 256) :=
    BitVec.eq_of_toNat_eq (by simp)
  unfold Machine.Ref.record
  refine ⟨?_, ?_, ?_, recordLiteral_packToken ..⟩
  · rw [recordBytes_packToken, hoff, hlen]
  · rw [recordOffset_packToken, hoff]
  · rw [recordLength_packToken, BitVec.toNat_ofNat]

/-- Settles O6, on the four cases of whether the offset and the length are 0. -/
theorem everyRecordHasItsClass : Obligations.EveryRecordHasItsClass := by
  intro w
  refine ⟨Machine.decodeToken_fields w, fun hoff hlen => ?_, fun hoff hlen => ?_, fun hoff hlen => ?_,
    fun hoff hlen => ?_⟩ <;> unfold decodeToken
  · rw [if_pos hoff, if_pos hlen]
  · rw [if_neg hoff, if_neg hlen]
  · rw [if_pos hoff, if_neg hlen]
  · rw [if_neg hoff, if_pos hlen]

end Sys2Proof
end

section
/-! ### The polling loop of WAIT (30_encoding.md R170, 45_control.md R365)

The engine does not see the host (`State.hosted`), so each turn that shows BUSY = 1 leaves the running command where its own
steps lead, and the end that the loop waits for stays the same. -/

namespace Sys2Proof.Machine

theorem step_pollStatus {s : State} {e : HostEvent} {rest : List HostEvent} {gaps : List Nat} (hp : s.pending = e :: rest)
    (ha : e.access = .pollStatus gaps) : step s = .next (State.pollStatus { s with pending := rest } gaps).advance := by
  rw [step_of_hostAccess hp (by rw [ha]; rfl), ha]
  rfl

theorem State.runToEnd_of_idle {s : State} (h : s.busy = false) : s.runToEnd = s := by
  rw [State.runToEnd, State.runSteps_eq_iterate, State.iterate_idle (State.not_busy_iff.1 h)]

theorem State.advance_of_idle {s : State} (h : s.busy = false) : s.advance = s := by
  obtain ⟨k, hk⟩ := s.advance_steps
  rw [hk, State.runSteps_eq_iterate, State.iterate_idle (State.not_busy_iff.1 h)]

/-- Bit 0 of STATUS is BUSY (R56). -/
theorem State.statusWord_busy (s : State) : s.statusWord.getLsbD 0 = s.busy := s.getLsbD_statusWord 0

theorem State.hostRead_status_busy (s : State) : (s.hostRead 0x0C).busy = s.busy := by
  obtain ⟨u, u', n, h⟩ := s.hostRead_spec 0x0C
  rw [h]
  rfl

theorem State.hostRead_status_readback (s : State) :
    (s.hostRead 0x0C).readback = .reg 0x0C s.statusWord :: s.readback := by
  obtain ⟨u, u', n, h⟩ := s.hostRead_spec 0x0C
  rw [h]
  rfl

/-- Engine steps and the host's side of the state do not move the end of the running command. -/
theorem State.runToEnd_hosted_runSteps {s : State} (h : s.Inv) (k : Nat) (p : List HostEvent) (rb : List ReadRecord) :
    ((State.runSteps k s).hosted p rb).runToEnd = s.runToEnd.hosted p rb := by
  rw [State.hosted_runToEnd, ← State.runToEnd_reaches h (State.runSteps_inv h k) (State.reaches_runSteps s k)]

section
variable {s : State} {d : Option Nat} {gaps : List Nat} {rest : List HostEvent}

/-- The last turn: the block is idle, the read shows it, and the host goes on. -/
theorem step_pollStatus_idle (hp : s.pending = { delay := d, access := .pollStatus gaps } :: rest) (hb : s.busy = false) :
    step s = .next (State.hostRead (s.hosted rest s.readback) 0x0C) := by
  rw [step_pollStatus hp rfl, State.pollStatus_idle (by exact hb), State.advance_of_idle]
  · rfl
  · exact (State.hostRead_status_busy _).trans hb

/-- Any other turn: the read shows BUSY = 1, the host gets it, and polls again after the next gap. -/
theorem step_pollStatus_busy (hp : s.pending = { delay := d, access := .pollStatus gaps } :: rest) (hb : s.busy = true) :
    step s = .next (s.hosted (nextPoll gaps :: rest) (.reg 0x0C s.statusWord :: s.readback)).advance := by
  rw [step_pollStatus hp rfl, State.pollStatus_busy (by exact hb)]
  rfl

end

/-- What the polling loop of `s` comes to: the values of the reads that showed BUSY = 1, latest first, and the state after
the read that showed BUSY = 0, at the end of the command. -/
structure State.PollsTo (s : State) (rest : List HostEvent) (reads : List Word) (t : State) : Prop where
  leads : steps (reads.length + 1) s = .next t
  shownBusy : ∀ v ∈ reads, v.getLsbD 0 = true
  none_iff_idle : reads = [] ↔ s.busy = false
  last : t = State.hostRead (s.runToEnd.hosted rest (reads.map (.reg 0x0C ·) ++ s.readback)) 0x0C

theorem State.pollsTo_of_idle {s : State} {d : Option Nat} {gaps : List Nat} {rest : List HostEvent}
    (hp : s.pending = { delay := d, access := .pollStatus gaps } :: rest) (hb : s.busy = false) :
    s.PollsTo rest [] (State.hostRead (s.hosted rest s.readback) 0x0C) where
  leads := steps_succ (step_pollStatus_idle hp hb) 0
  shownBusy := nofun
  none_iff_idle := ⟨fun _ => hb, fun _ => rfl⟩
  last := by rw [State.runToEnd_of_idle hb]; rfl

/-- A turn with BUSY = 1 after which `k` engine steps take place, and then the rest of the loop. -/
theorem State.PollsTo.turn {s t : State} {p rest : List HostEvent} {reads : List Word} {k : Nat} (h : s.Inv)
    (hb : s.busy = true)
    (hstep : step s = .next ((State.runSteps k s).hosted p (.reg 0x0C s.statusWord :: s.readback)))
    (ht : ((State.runSteps k s).hosted p (.reg 0x0C s.statusWord :: s.readback)).PollsTo rest reads t) :
    s.PollsTo rest (reads ++ [s.statusWord]) t where
  leads := by
    rw [List.length_append, List.length_singleton, steps_succ hstep]
    exact ht.leads
  shownBusy v hv := by
    rcases List.mem_append.1 hv with hv | hv
    · exact ht.shownBusy v hv
    · rw [List.mem_singleton.1 hv, State.statusWord_busy, hb]
  none_iff_idle := by simp [hb]
  last := by
    rw [ht.last, State.runToEnd_hosted_runSteps h, List.map_append, List.append_assoc]
    rfl

/-- The polling loop ends, whatever the gaps between its reads: one more read for each gap at most, and one that waits. -/
theorem State.exists_pollsTo {s : State} {d : Option Nat} {gaps : List Nat} {rest : List HostEvent} (h : s.Inv)
    (hp : s.pending = { delay := d, access := .pollStatus gaps } :: rest) :
    ∃ reads t, s.PollsTo rest reads t ∧ reads.length ≤ gaps.length + 1 := by
  cases hb : s.busy with
  | false => exact ⟨[], _, State.pollsTo_of_idle hp hb, Nat.zero_le _⟩
  | true =>
    have hturn := step_pollStatus_busy hp hb
    induction gaps generalizing s d with
    | nil =>
      have hstep : step s = .next (s.runToEnd.hosted ({ delay := none, access := .pollStatus [] } :: rest)
          (.reg 0x0C s.statusWord :: s.readback)) := by
        rw [hturn, ← State.hosted_runToEnd]
        rfl
      refine ⟨_, _, State.PollsTo.turn h hb hstep (State.pollsTo_of_idle rfl ?_), by simp⟩
      exact State.not_busy_iff.2 (State.runToEnd_idle h)
    | cons k gaps ih =>
      have hstep : step s = .next ((State.runSteps k s).hosted ({ delay := some k, access := .pollStatus gaps } :: rest)
          (.reg 0x0C s.statusWord :: s.readback)) := by
        rw [hturn, ← State.hosted_runSteps]
        rfl
      have hI := State.hosted_inv ({ delay := some k, access := .pollStatus gaps } :: rest)
        (.reg 0x0C s.statusWord :: s.readback) (State.runSteps_inv h k)
      cases hk : (State.runSteps k s).busy with
      | false => exact ⟨_, _, State.PollsTo.turn h hb hstep (State.pollsTo_of_idle rfl hk), by simp⟩
      | true =>
        obtain ⟨reads, t, ht, hlen⟩ := ih hI rfl hk (step_pollStatus_busy rfl hk)
        exact ⟨_, t, State.PollsTo.turn h hb hstep ht, by simpa using hlen⟩

/-- Settles O60, by induction over the gaps: after each the engine has run on, and nothing else has changed but what the host
has read. -/
theorem waitPollsUntilTheEnd : Obligations.WaitPollsUntilTheEnd := by
  intro s d gaps rest h hp
  refine ⟨fun k gaps' hb hg => ?_, ?_⟩
  · rw [step_pollStatus_busy hp hb, hg]
    rfl
  · obtain ⟨reads, t, ht, hlen⟩ := State.exists_pollsTo h hp
    refine ⟨reads, t, ht.leads, ht.shownBusy, ht.none_iff_idle, hlen, ht.last, ?_, ?_⟩
    · rw [ht.last, State.hostRead_status_readback]
      rfl
    · rw [State.statusWord_busy]
      exact State.not_busy_iff.2 (State.runToEnd_idle h)

end Sys2Proof.Machine
end

section
/-! ### LIT, ZLEN and ZOFF (30_encoding.md R164, 44_decoder.md R323, R325)

A record that copies nothing: the steps of its copy loop skip every index, then the literal is stored and the progress
registers follow. -/

namespace Sys2Proof.Machine

theorem State.runRecord_step {s : State} {r : Run} (hr : s.engine = some r) (hin : r.phase.inRecord = true) (k : Nat) :
    State.runRecord (k + 1) s = State.runRecord k (s.stepPhase r) := by
  simp only [State.runRecord, hr, hin, if_true, State.engineStep_busy hr]

theorem State.runRecord_outside {s : State} {r : Run} (hr : s.engine = some r) (hin : r.phase.inRecord = false) (k : Nat) :
    State.runRecord k s = s := by
  cases k with
  | zero => rfl
  | succ k => simp [State.runRecord, hr, hin]

/-- From the end of the output on, the copy loop skips every index (R324). -/
theorem State.runRecord_skips (s : State) (r : Run) {start i a m : Nat} {len : Byte} (lit : Byte) (k : Nat)
    (hstart : r.o + a ≤ start) (hm : i + m = len.toNat) :
    State.runRecord (k + m) (s.goto r (.copy start len lit i a)) =
      State.runRecord k (s.goto r (.copy start len lit len.toNat a)) := by
  induction m generalizing i with
  | zero => rw [← hm]; rfl
  | succ m ih =>
    have hskip : (s.goto r (.copy start len lit i a)).stepPhase { r with phase := .copy start len lit i a } =
        s.goto r (.copy start len lit (i + 1) a) := by
      simp only [State.stepPhase, State.stepCopy]
      rw [if_pos (by omega), if_neg (by omega)]
      rfl
    rw [← Nat.add_assoc, State.runRecord_step rfl rfl, hskip]
    exact ih (by omega)

/-- An update of a row is made, and the row goes on (R413). -/
theorem State.stepPhase_updates (s : State) (r : Run) (u : Update) (us : List Update) (next : After) :
    (s.goto r (.update u us next)).stepPhase { r with phase := .update u us next } =
      (s.update u).updates (r.note s u) us next := by
  change State.updates ((s.goto r _).update u) (Run.note { r with phase := _ } (s.goto r _) u) us next = _
  rw [State.update_goto, State.updates_goto, Run.note_goto, State.updates_rephase]

/-- The updates that end a record are made one step each, up to the head of the decoder's loop. -/
theorem State.runRecord_updates (s : State) (r : Run) (us : List Update) (k : Nat) :
    State.runRecord (k + us.length) (s.updates r us .recordRead) =
      (us.foldl State.update s).goto (r.noting { cells := [], regs := s.notes us }) (.recordRead []) := by
  induction us generalizing s r with
  | nil => exact State.runRecord_outside rfl rfl k
  | cons u us ih =>
    rw [List.length_cons, ← Nat.add_assoc, State.updates_cons, State.runRecord_step rfl rfl, State.stepPhase_updates, ih]
    cases u with
    | result reg v => simp [Run.noting, Run.note, State.notes]
    | clearIndex | bucket => rfl

/-- The state at the head of the decoder's loop after a record that has appended its literal and nothing else (R325,
R330). -/
def State.literalAppended (s : State) (r : Run) (lit : Byte) : State :=
  { s with
    mem := Memory.write s.mem (r.snap.outAddr r.o) lit
    cursor := BitVec.ofNat 32 (r.cur + 4)
    outLen := BitVec.ofNat 32 (r.o + 1)
    tokenCount := BitVec.ofNat 32 (r.t + 1)
    engine := some { r with
      cur := r.cur + 4, o := r.o + 1, t := r.t + 1, phase := .recordRead []
      journal := (r.snap.outAddr r.o, Memory.read s.mem (r.snap.outAddr r.o)) :: r.journal
      regJournal := s.oldResults [.tokenCount, .outLen, .cursor] ++ r.regJournal } }

/-- The literal is stored where the output ends, and the record's counts and progress registers follow (R325, R330). -/
theorem State.runRecord_literal {s : State} {r : Run} (start : Nat) (len lit : Byte) (k : Nat)
    (ha : s.platform.admits (r.snap.outAddr r.o) .write = true)
    (hs : s.platform.hasSideEffects (r.snap.outAddr r.o) = false) :
    State.runRecord (k + 5) (s.goto r (.copy start len lit len.toNat 0)) = s.literalAppended r lit := by
  have hstore : (s.goto r (.copy start len lit len.toNat 0)).stepPhase { r with phase := .copy start len lit len.toNat 0 } =
      State.goto { s with mem := Memory.write s.mem (r.snap.outAddr r.o) lit }
        { r with journal := (r.snap.outAddr r.o, Memory.read s.mem (r.snap.outAddr r.o)) :: r.journal } (.recordEnd 1) := by
    simp only [State.stepPhase, State.stepCopy]
    rw [if_neg (lt_irrefl _)]
    exact State.store_plain (s := s.goto r _) (r := { r with phase := _ }) _ ha hs
  rw [State.runRecord_step rfl rfl, hstore, State.runRecord_step rfl rfl]
  exact State.runRecord_updates { s with mem := _ } { r with cur := _, o := _, t := _, journal := _ } (Run.progress _) k

/-- R323: with offset 0 or length 0 a record copies nothing. -/
theorem copyCount_eq_zero (o : Nat) {off : Half} {len : Byte} (h : off = 0 ∨ len = 0) : copyCount o off len = 0 := by
  rcases h with rfl | rfl <;> simp [copyCount]

/-- A record with offset 0 or length 0, where one byte fits (R325). -/
theorem State.runToken_without_copy {s : State} {r : Run} {w : Word} (hr : s.engine = some r) (hp : r.phase = .record w)
    {off : Half} {len : Byte} (lit : Byte) (hcopy : off = 0 ∨ len = 0) (hfit : r.o + 1 ≤ r.snap.outCap.toNat)
    (hout : s.plainWrites (r.snap.outAddr r.o) 1) :
    s.runToken off len lit = .next (s.literalAppended r lit) := by
  obtain ⟨hadmits, hplain⟩ := hout 0 Nat.one_pos
  have hstart : s.startRecord r off len lit = s.goto r (.copy (r.o - off.toNat) len lit 0 0) := by
    rw [State.startRecord, copyCount_eq_zero r.o hcopy, if_neg (by omega)]
  have hskips : State.runRecord (2 * len.toNat + 5) (s.goto r (.copy (r.o - off.toNat) len lit 0 0)) =
      State.runRecord (len.toNat + 5) (s.goto r (.copy (r.o - off.toNat) len lit len.toNat 0)) := by
    rcases hcopy with rfl | rfl
    · rw [show 2 * len.toNat + 5 = len.toNat + 5 + len.toNat by omega]
      exact State.runRecord_skips s r lit _ (by simp) (Nat.zero_add _)
    · rfl
  rw [State.runToken_record hr hp, hstart, hskips, State.runRecord_literal _ _ _ _ hadmits hplain]

/-- Settles O50: each of the three classes is a record with offset 0 or length 0. -/
theorem literalTokensAppendOneByte : Obligations.LiteralTokensAppendOneByte := by
  intro s r w i off len lit _ hr hp _ hi hfit hout
  obtain ⟨off', len', hfields, hcopy⟩ : ∃ off' len', i.tokenFields = some (off', len', lit) ∧ (off' = 0 ∨ len' = 0) := by
    rcases hi with rfl | rfl | rfl
    · exact ⟨0, 0, rfl, .inl rfl⟩
    · exact ⟨off, 0, rfl, .inr rfl⟩
    · exact ⟨0, len, rfl, .inl rfl⟩
  rw [exec_token hfields]
  exact State.runToken_without_copy hr hp lit hcopy hfit hout

end Sys2Proof.Machine
end

section
/-! ### The linear finder (41_linear_finder.md R200 to R210)

`Ref.visit_spec` says what any finder's loop returns. The linear finder's candidates ascend through the window, so the
oldest of the longest matches improves on all before it, and none after it improves on it. -/

namespace Sys2Proof.Machine

/-! ### matchLen (R201) -/

/-- At or beyond the input's end, or without a lookahead, nothing is compared. -/
theorem Ref.matchLen_eq_zero (inp : Nat → Byte) {n c L : Nat} (h : n ≤ c ∨ L = 0) (p : Nat) :
    Ref.matchLen inp n p c L = 0 := by
  obtain ⟨hL, hn, -, -⟩ := Ref.matchLen_spec inp n p c L
  omega

theorem Ref.matchLen_le_rest (inp : Nat → Byte) (n p c L : Nat) : Ref.matchLen inp n p c L ≤ n - c := by
  obtain ⟨-, hn, -, -⟩ := Ref.matchLen_spec inp n p c L
  omega

/-- Settles O31: the loop's invariant `Ref.matchFrom_spec` from its start on. -/
theorem matchLengthProperties : Obligations.MatchLengthProperties := by
  intro inp n p c L _
  obtain ⟨hL, -, heq, hmax⟩ := Ref.matchLen_spec inp n p c L
  exact ⟨hL, fun _ => Ref.matchLen_le_rest inp n p c L, fun h => Ref.matchLen_eq_zero inp h p, heq, hmax⟩

/-! ### The finder's closed form (R203, R204) -/

theorem inWindow_of_mem_linearCandidates {c w p : Nat} (h : p ∈ linearCandidates c w) : inWindow c w p = true := by
  obtain ⟨hlo, hhi⟩ := mem_linearCandidates.1 h
  exact inWindow_iff.2 ⟨by omega, hhi⟩

/-- Around a candidate: the older ones come before it. -/
theorem linearCandidates_split {c w q : Nat} (hlo : c - w ≤ q) (hhi : q < c) :
    ∃ pre post, linearCandidates c w = pre ++ q :: post ∧ ∀ p ∈ pre, p < q := by
  obtain ⟨pre, post, hsplit⟩ := List.append_of_mem (mem_linearCandidates.2 ⟨hlo, hhi⟩)
  have hsorted : (linearCandidates c w).Pairwise (· < ·) := List.pairwise_lt_range'
  rw [hsplit] at hsorted
  obtain ⟨-, -, hacross⟩ := List.pairwise_append.1 hsorted
  exact ⟨pre, post, hsplit, fun p hp => hacross p hp q List.mem_cons_self⟩

theorem Ref.findLinear_eq_zero {inp : Nat → Byte} {n c w L : Nat}
    (h : ∀ p, c - w ≤ p → p < c → Ref.matchLen inp n p c L = 0) : Ref.findLinear inp n c w L = (0, 0) := by
  refine Ref.visit_keep _ inp n c w L _ _ fun p hp _ => ?_
  obtain ⟨hlo, hhi⟩ := mem_linearCandidates.1 hp
  simp [h p hlo hhi]

/-- A cursor at or beyond the input's end matches nothing (R210). -/
theorem Ref.findLinear_past_end (inp : Nat → Byte) {n c : Nat} (h : n ≤ c) (w L : Nat) :
    Ref.findLinear inp n c w L = (0, 0) :=
  Ref.findLinear_eq_zero fun p _ _ => Ref.matchLen_eq_zero inp (.inl h) p

/-- The oldest of the longest matches wins (R203). -/
theorem Ref.findLinear_winner {inp : Nat → Byte} {n c w L q : Nat} (hlo : c - w ≤ q) (hhi : q < c)
    (hpos : 0 < Ref.matchLen inp n q c L)
    (hlongest : ∀ p, c - w ≤ p → p < c → Ref.matchLen inp n p c L ≤ Ref.matchLen inp n q c L)
    (holdest : ∀ p, c - w ≤ p → p < q → Ref.matchLen inp n p c L < Ref.matchLen inp n q c L) :
    Ref.findLinear inp n c w L = (c - q, Ref.matchLen inp n q c L) := by
  obtain ⟨pre, post, hsplit, hbefore⟩ := linearCandidates_split hlo hhi
  have hmem : ∀ p ∈ pre ++ q :: post, c - w ≤ p ∧ p < c := fun p hp => mem_linearCandidates.1 (hsplit ▸ hp)
  rw [Ref.findLinear, hsplit]
  refine Ref.visit_winner _ (fun _ _ => decide_eq_true) (fun _ _ h => (of_decide_eq_true h).le) inp n c w L pre post q
    (inWindow_of_mem_linearCandidates (mem_linearCandidates.2 ⟨hlo, hhi⟩)) (fun p hp _ => ?_) (by simpa using hpos)
    (fun p hp _ => ?_)
  · obtain ⟨hplo, -⟩ := hmem p (List.mem_append_left _ hp)
    simpa using holdest p hplo (hbefore p hp)
  · obtain ⟨hplo, hphi⟩ := hmem p (List.mem_append_right _ (List.mem_cons_of_mem _ hp))
    simpa using hlongest p hplo hphi

/-- The pair returned is `(0, 0)` or that of a candidate. -/
theorem Ref.findLinear_cases (inp : Nat → Byte) (n c w L : Nat) :
    Ref.findLinear inp n c w L = (0, 0) ∨
      ∃ p, c - w ≤ p ∧ p < c ∧ Ref.findLinear inp n c w L = (c - p, Ref.matchLen inp n p c L) := by
  obtain ⟨-, -, hzero | ⟨p, hp, -, hpair⟩⟩ := Ref.visit_spec (fun b k => decide (b < k))
    (fun _ _ => decide_eq_true) (fun _ _ h => (of_decide_eq_true h).le) inp n c w L (linearCandidates c w) (0, 0)
  · exact .inl hzero
  · obtain ⟨hlo, hhi⟩ := mem_linearCandidates.1 hp
    exact .inr ⟨p, hlo, hhi, hpair⟩

/-- The bounds on a match found (R204). -/
theorem Ref.findLinear_bounds {inp : Nat → Byte} {n c w L : Nat} (h : 0 < (Ref.findLinear inp n c w L).2) :
    1 ≤ (Ref.findLinear inp n c w L).1 ∧ (Ref.findLinear inp n c w L).1 ≤ min w c ∧
      (Ref.findLinear inp n c w L).2 ≤ min L (n - c) := by
  obtain hzero | ⟨p, hlo, hhi, hpair⟩ := Ref.findLinear_cases inp n c w L
  · simp [hzero] at h
  · rw [hpair]
    obtain ⟨hL, -, -, -⟩ := Ref.matchLen_spec inp n p c L
    exact ⟨Nat.sub_pos_of_lt hhi, le_min (tsub_le_iff_tsub_le.1 hlo) (Nat.sub_le c p),
      le_min hL (Ref.matchLen_le_rest inp n p c L)⟩

/-- Settles O32, from the winner of the loop over ascending candidates. -/
theorem linearFinderClosedForm : Obligations.LinearFinderClosedForm := by
  intro inp n c w L
  refine ⟨Ref.findLinear_eq_zero, fun q hlo hhi hpos hlongest holdest =>
    Ref.findLinear_winner hlo hhi hpos hlongest holdest, fun h => ?_⟩
  obtain ⟨hpos, hdist, hlen⟩ := Ref.findLinear_bounds h
  exact ⟨hpos, hdist, hlen, fun hw => hdist.trans ((Nat.min_le_left w c).trans hw)⟩

/-! ### FIND_LINEAR (R210) -/

theorem Params.queryCheck_of_inRange {p : Params} (h : p.inBase.toNat + p.inLen.toNat ≤ 2 ^ 32) :
    p.queryCheck = none := by
  rw [Params.queryCheck, if_neg]
  simpa [Params.inRangeFails, Config.addressSpace] using h

theorem State.stepStart_query (s : State) {r : Run} (hq : r.task.isQuery = true) : s.stepStart r = s.startFind r := by
  unfold State.stepStart
  cases ht : r.task with
  | findLinear | findHc => rfl
  | _ => rw [ht] at hq; cases hq

/-- An accepted query whose input lies in the address space calls its finder (R210, R250). -/
theorem State.stepPhase_query {s : State} {r : Run} (hp : r.phase = .start) (hq : r.task.isQuery = true)
    (h : r.snap.inBase.toNat + r.snap.inLen.toNat ≤ 2 ^ 32) : s.stepPhase r = s.callFinder r := by
  simp only [State.stepPhase, hp, State.stepStart_query s hq, State.startFind, Params.queryCheck_of_inRange h]

/-- Ordinary memory that the platform lets the engine read is no occasion for BUS. -/
theorem State.plainReads.readable {s : State} {p : Params} (h : s.plainReads p.inBase.toNat p.inLen.toNat) (bad : Prop) :
    s.Readable bad p := fun i hi =>
  ⟨(h i hi).2, .inl (h i hi).1⟩

/-- An accepted query whose finder has returned `(d, k)` ends with the pair in MATCH_DIST and MATCH_LEN (R210). -/
theorem State.accepted_query_end {s : State} (hidle : s.busy = false) {task : Task} (hq : task.isQuery = true) {r : Run}
    (hr : (Run.init task s).Same r) (d k : Nat) :
    State.Reaches ((s.accept task).goto r (.found d k)) { s.ended .none with
      unseen := { cells := [], regs := s.oldResults [.matchLen, .matchDist] }
      matchDist := BitVec.ofNat 16 d, matchLen := BitVec.ofNat 16 k } := by
  obtain ⟨bd, bl, hh, rfl⟩ := hr
  have hend := State.found_query (s := s.accept task)
    (r := { Run.init task s with bestDist := bd, bestLen := bl, hash := hh }) d k (Task.not_hasOutput_of_isQuery hq).2 rfl
  simp only [State.ended, State.retire, State.not_busy_iff.1 hidle]
  exact hend

/-- FIND_LINEAR's steps from its acceptance to its end: the linear finder, and then its two results. -/
theorem State.accept_findLinear_reaches {s : State} (hidle : s.busy = false)
    (hrange : s.params.inBase.toNat + s.params.inLen.toNat ≤ 2 ^ 32)
    (hin : s.cursor.toNat < s.params.inLen.toNat → s.plainReads s.params.inBase.toNat s.params.inLen.toNat) :
    State.Reaches (s.accept .findLinear) { s.ended .none with
      unseen := { cells := [], regs := s.oldResults [.matchLen, .matchDist] }
      matchDist := BitVec.ofNat 16 (Ref.findLinear s.inByte s.params.n s.cursor.toNat s.params.w s.params.L).1
      matchLen := BitVec.ofNat 16 (Ref.findLinear s.inByte s.params.n s.cursor.toNat s.params.w s.params.L).2 } := by
  refine State.Reaches.step rfl ?_
  rw [State.stepPhase_query (r := Run.init .findLinear s) rfl rfl hrange]
  obtain ⟨r, hsame, hfinder⟩ := State.callFinder_linear (bad := False) (s := s.accept .findLinear)
    (r := Run.init .findLinear s) rfl (fun hc => State.plainReads.readable (hin hc) _) rfl
  exact hfinder.reaches.trans (State.accepted_query_end hidle rfl hsame _ _)

/-- Settles O33: the engine's finder computes `Ref.findLinear` (`State.callFinder_linear`). -/
theorem findLinearCompletes : Obligations.FindLinearCompletes := by
  intro s hinv hready hrange hin
  have hreach := State.accept_findLinear_reaches hready.idle hrange hin
  refine ⟨?_, fun hend => Ref.findLinear_past_end s.inByte hend s.params.w s.params.L⟩
  rw [exec_of_task (i := .findLinear) rfl,
    State.offer_advance hinv hready.idle hready.waits hreach (State.not_busy_iff.1 hready.idle)]

end Sys2Proof.Machine
end

section
/-! ### HASH3 (42_hash_chain.md R230 to R233)

`State.hashRead_reaches` makes the reads that fall on ordinary memory, in order, for any number of them: it leads both to
the third read of a HASH3 that completes and to the read that the platform refuses. -/

namespace Sys2Proof.Machine

/-- R230 for three bytes. -/
theorem hashBytes_three (b0 b1 b2 : Byte) :
    hashBytes [b0, b1, b2] = 961 * b0.toNat + 31 * b1.toNat + b2.toNat := by
  simp only [hashBytes, List.foldl_cons, List.foldl_nil, Config.hashMult, Config.hashInit]
  omega

/-- Settles O28. -/
theorem hashOfThreeBytes : Obligations.HashOfThreeBytes := by
  refine ⟨fun b0 b1 b2 => ?_, by decide, by decide, by decide, by decide, by decide, fun b0 b1 b2 b3 => ?_⟩
  · have h0 := b0.isLt
    have h1 := b1.isLt
    have h2 := b2.isLt
    have hone : hashBytes [b0] = b0.toNat := Nat.zero_add _
    have htwo : hashBytes [b0, b1] = b0.toNat * 31 + b1.toNat := congrArg (· * 31 + b1.toNat) hone
    refine ⟨hashBytes_three b0 b1 b2, ?_, ?_, ?_, by decide⟩
    · rw [hashBytes_three]; omega
    · omega
    · omega
  · rw [hashBytes_three, hashBytes_three]
    push_cast
    ring

/-! ### The reads -/

theorem Params.inAddr_add (p : Params) (i j : Nat) : p.inAddr i + j = p.inAddr (i + j) := Nat.add_assoc _ _ _

/-- The first `j` bytes at the cursor of the running command. -/
def State.bytesAtCursor (s : State) (r : Run) (j : Nat) : List Byte :=
  (List.range j).map fun i => s.inputOf r.snap (r.cur + i)

@[simp] theorem State.bytesAtCursor_length (s : State) (r : Run) (j : Nat) : (s.bytesAtCursor r j).length = j := by
  simp [State.bytesAtCursor]

theorem State.bytesAtCursor_succ (s : State) (r : Run) (j : Nat) :
    s.bytesAtCursor r (j + 1) = s.bytesAtCursor r j ++ [s.inputOf r.snap (r.cur + j)] := by
  simp [State.bytesAtCursor, List.range_succ]

section
variable {s : State} {r : Run}

/-- An admitted read of ordinary memory adds its byte to those read so far. -/
theorem State.stepPhase_hashRead (hf : r.foreign = []) {j : Nat}
    (hread : s.platform.admits (r.snap.inAddr r.cur + j) .read = true ∧
      s.platform.hasSideEffects (r.snap.inAddr r.cur + j) = false) :
    (s.goto r (.hashRead (s.bytesAtCursor r j))).stepPhase { r with phase := .hashRead (s.bytesAtCursor r j) } =
      if j + 1 < 3 then s.goto r (.hashRead (s.bytesAtCursor r (j + 1)))
      else if r.task = .hash3 then s.hash3Done r (s.bytesAtCursor r (j + 1))
      else s.search { r with hash := hashBytes (s.bytesAtCursor r (j + 1)) }
        (Index.bucket s.index (hashBytes (s.bytesAtCursor r (j + 1)))) := by
  rw [Params.inAddr_add] at hread
  obtain ⟨hadmits, hplain⟩ := hread
  simp only [State.stepPhase, State.stepHashRead, State.bytesAtCursor_length, State.bytesAtCursor_succ]
  exact State.fetch_plain (s := s.goto r _) (r := { r with phase := _ }) _ hadmits hplain hf

/-- The reads before the `j`-th, where they fall on ordinary memory (R233, R240 step 1). -/
theorem State.hashRead_reaches (hf : r.foreign = []) {j : Nat} (hj : j < 3)
    (hin : s.plainReads (r.snap.inAddr r.cur) j) :
    State.Reaches (s.goto r (.hashRead [])) (s.goto r (.hashRead (s.bytesAtCursor r j))) := by
  induction j with
  | zero => exact State.Reaches.refl _
  | succ j ih =>
    refine (ih (by omega) fun i hi => hin i (by omega)).trans (State.Reaches.step rfl ?_)
    rw [State.stepPhase_hashRead hf (hin j (Nat.lt_succ_self j)), if_pos hj]
    exact State.Reaches.refl _

/-- HASH3's three reads of ordinary memory lead to its result. -/
theorem State.hashRead_reaches_hash3Done (hf : r.foreign = []) (ht : r.task = .hash3)
    (hin : s.plainReads (r.snap.inAddr r.cur) 3) :
    State.Reaches (s.goto r (.hashRead [])) (s.hash3Done r (s.bytesAtCursor r 3)) := by
  refine (State.hashRead_reaches hf (j := 2) (by decide) fun i hi => hin i (by omega)).trans (State.Reaches.step rfl ?_)
  rw [State.stepPhase_hashRead hf (hin 2 (by decide)), if_neg (by decide), if_pos ht]
  exact State.Reaches.refl _

/-! ### BUS -/

/-- BUS in a task that writes no output changes ERR_ADDR and STATUS alone (R404, R410). -/
theorem State.raiseBus_reaches_errAddr (a : Nat) (hf : r.foreign = []) (ho : r.task.hasOutput = false)
    (hbytes : s.recordBytes r = []) :
    State.Reaches (s.raiseBus r a) { s with
      engine := none, done := true, err := .bus, errAddr := BitVec.ofNat 32 a
      unseen := Unseen.append { cells := r.journal, regs := s.oldResults [.errAddr] ++ r.regJournal } s.unseen } := by
  have hraise : s.raiseBus r a = s.updates r [.result .errAddr (BitVec.ofNat 32 a)] (.raising .bus) := by
    simp [State.raiseBus, State.failingBytes, hbytes, State.passSupposed, ho, State.blur]
  rw [hraise]
  exact (State.updates_reaches s r _ _).trans (State.raise_reaches _ _ .bus (.inl hf))

/-- Of the three reads the platform refuses the one of index `j`, after the ones before it were made (R404). -/
theorem State.hashRead_reaches_bus (hf : r.foreign = []) (ho : r.task.hasOutput = false)
    (hc : r.task.isCompress = false) {j : Nat} (hj : j < 3) (hin : s.plainReads (r.snap.inAddr r.cur) j)
    (hrefused : s.platform.admits (r.snap.inAddr r.cur + j) .read = false) :
    State.Reaches (s.goto r (.hashRead [])) { s with
      engine := none, done := true, err := .bus, errAddr := BitVec.ofNat 32 (r.snap.inAddr r.cur + j)
      unseen := Unseen.append { cells := r.journal, regs := s.oldResults [.errAddr] ++ r.regJournal } s.unseen } := by
  rw [Params.inAddr_add] at hrefused ⊢
  refine (State.hashRead_reaches hf hj hin).trans (State.Reaches.step rfl ?_)
  simp only [State.stepPhase, State.stepHashRead, State.bytesAtCursor_length, State.fetch, State.goto_platform,
    hrefused, Bool.false_eq_true, if_false]
  exact State.raiseBus_reaches_errAddr _ hf ho (by simp [State.recordBytes, hc])

end

/-! ### The command -/

/-- An accepted HASH3 whose input lies in the address space reads its bytes, or has HASH = 0 where fewer than 3 remain
(R233). -/
theorem State.stepPhase_hash3 (s : State) {r : Run} (hp : r.phase = .start) (ht : r.task = .hash3)
    (h : r.snap.inBase.toNat + r.snap.inLen.toNat ≤ 2 ^ 32) :
    s.stepPhase r =
      if r.cur + 3 ≤ r.snap.n then s.goto r (.hashRead []) else s.updates r [.result .hash 0] .ending := by
  simp only [State.stepPhase, hp, State.stepStart, ht, State.startHash3, Params.queryCheck_of_inRange h]
  rfl

/-- The fields of the word that HASH3 writes (R62, R233). -/
theorem hashWord_fields (v : BitVec 18) :
    (1#1 ++ 0#13 ++ v : Word).setWidth 18 = v ∧ (1#1 ++ 0#13 ++ v : Word).getLsbD 31 = true := by
  constructor
  · refine BitVec.eq_of_getLsbD_eq fun i hi => ?_
    rw [BitVec.getLsbD_setWidth, BitVec.getLsbD_append, if_pos hi, decide_eq_true hi, Bool.true_and]
  · rw [BitVec.getLsbD_append]
    rfl

/-- What HASH3's steps after its start check lead to is where it ends. -/
theorem exec_hash3_of_reaches {s t : State} (hinv : s.Inv) (hready : s.Ready)
    (hrange : s.params.inBase.toNat + s.params.inLen.toNat ≤ 2 ^ 32)
    (hreach : State.Reaches (if s.cursor.toNat + 3 ≤ s.params.inLen.toNat then
        (s.accept .hash3).goto (Run.init .hash3 s) (.hashRead [])
      else (s.accept .hash3).updates (Run.init .hash3 s) [.result .hash 0] .ending) t)
    (hend : t.engine = none) : exec .hash3 s = .next t := by
  have hstart := State.stepPhase_hash3 (s.accept .hash3) (r := Run.init .hash3 s) rfl rfl hrange
  have hreach' : State.Reaches ((s.accept .hash3).stepPhase (Run.init .hash3 s)) t := by
    rw [hstart]
    exact hreach
  rw [exec_of_task (i := .hash3) rfl,
    State.offer_advance hinv hready.idle hready.waits (State.Reaches.step rfl hreach') hend]

/-- The end of a command that has changed nothing but STATUS, from its acceptance (R360). -/
theorem State.ended_eq_accept {s : State} (hidle : s.busy = false) (task : Task) (e : ErrCode) :
    s.ended e = { s.accept task with engine := none, done := true, err := e } := by
  simp only [State.ended, State.accept, State.retire, State.not_busy_iff.1 hidle]

/-- Settles O29: three reads lead to `State.hash3Done`, whose word is split into its fields. -/
theorem hashCommandCompletes : Obligations.HashCommandCompletes := by
  intro s hinv hready hrange
  have hended := State.ended_eq_accept hready.idle .hash3 .none
  refine ⟨fun hrest hin => exec_hash3_of_reaches hinv hready hrange ?_ (State.not_busy_iff.1 hready.idle),
    fun hshort => exec_hash3_of_reaches hinv hready hrange ?_ (State.not_busy_iff.1 hready.idle)⟩
  · have hend := (State.hashRead_reaches_hash3Done (s := s.accept .hash3) (r := Run.init .hash3 s) rfl rfl hin).trans
      (State.hash_end _ rfl)
    obtain ⟨hvalue, hvalid⟩ :=
      hashWord_fields (BitVec.ofNat 18 (hashBytes ((s.accept .hash3).bytesAtCursor (Run.init .hash3 s) 3)))
    rw [hvalue, hvalid] at hend
    rw [if_pos hrest, hended, ← hashBytes_three]
    exact hend
  · rw [if_neg (Nat.not_le.2 hshort), hended]
    exact State.hash_end 0 rfl

/-- Settles O30, from the refused read. -/
theorem hashCommandBus : Obligations.HashCommandBus := by
  intro s j hinv hready hrange hrest hj hin hrefused
  refine exec_hash3_of_reaches hinv hready hrange ?_ (State.not_busy_iff.1 hready.idle)
  rw [if_pos hrest, State.ended_eq_accept hready.idle .hash3 .bus]
  exact State.hashRead_reaches_bus (s := s.accept .hash3) (r := Run.init .hash3 s) rfl rfl rfl hj hin hrefused

end Sys2Proof.Machine
end

section
/-! ### The hash-chain finder (42_hash_chain.md R240 to R247)

`Ref.searchBucket_spec` and `Ref.searchBucket_winner` say what the search of a bucket returns. Under rising cursors each
bucket rises too (`Ref.index_of_calls`), so the latest position of a bucket is its newest. -/

namespace Sys2Proof.Machine

/-! ### What it returns (R242, R243) -/

/-- The pair returned is `(0, 0)` or that of a position of the bucket, in the window and at least MIN_MATCH long. -/
theorem Ref.findHc_cases (inp : Nat → Byte) (n c w L : Nat) (idx : List (Nat × List Nat)) :
    Ref.findHc inp n c w L idx = (0, 0) ∨
      ∃ p ∈ Index.bucket idx (Ref.hashAt inp c), inWindow c w p = true ∧ 3 ≤ Ref.matchLen inp n p c L ∧
        Ref.findHc inp n c w L idx = (c - p, Ref.matchLen inp n p c L) := by
  unfold Ref.findHc
  split
  · obtain ⟨-, hzero | ⟨p, hp, hw, hpair⟩⟩ :=
      Ref.searchBucket_spec inp n c w L (Index.bucket idx (Ref.hashAt inp c))
    · exact .inl (by simp [hzero])
    · by_cases h3 : 3 ≤ Ref.matchLen inp n p c L
      · exact .inr ⟨p, hp, hw, h3, by simp [hpair, h3]⟩
      · exact .inl (by simp [hpair, h3])
  · exact .inl rfl

/-- The latest of the longest matches in the bucket wins (R242). -/
theorem Ref.findHc_winner {inp : Nat → Byte} {n c w L q : Nat} {idx : List (Nat × List Nat)} {pre post : List Nat}
    (h3 : c + 3 ≤ n) (hbucket : Index.bucket idx (Ref.hashAt inp c) = pre ++ q :: post) (hq : inWindow c w q = true)
    (hlen : 3 ≤ Ref.matchLen inp n q c L)
    (hpre : ∀ p ∈ pre, inWindow c w p = true → Ref.matchLen inp n p c L ≤ Ref.matchLen inp n q c L)
    (hpost : ∀ p ∈ post, inWindow c w p = true → Ref.matchLen inp n p c L < Ref.matchLen inp n q c L) :
    Ref.findHc inp n c w L idx = (c - q, Ref.matchLen inp n q c L) := by
  have hsearch := Ref.searchBucket_winner inp n c w L pre post q hq hpre hpost
  rw [Ref.findHc, if_pos h3, hbucket]
  simp only [hsearch, if_pos hlen]

theorem Ref.findHc_eq_zero {inp : Nat → Byte} {n c w L : Nat} {idx : List (Nat × List Nat)}
    (h : ∀ p ∈ Index.bucket idx (Ref.hashAt inp c), inWindow c w p = true → Ref.matchLen inp n p c L < 3) :
    Ref.findHc inp n c w L idx = (0, 0) := by
  obtain hzero | ⟨p, hp, hw, hlen, -⟩ := Ref.findHc_cases inp n c w L idx
  · exact hzero
  · exact absurd (h p hp hw) (Nat.not_lt.2 hlen)

/-- With a lookahead below 3, or fewer than 3 bytes left, no match is long enough. -/
theorem Ref.findHc_eq_zero_of_short {inp : Nat → Byte} {n c w L : Nat} (h : L < 3 ∨ n < c + 3)
    (idx : List (Nat × List Nat)) : Ref.findHc inp n c w L idx = (0, 0) := by
  refine Ref.findHc_eq_zero fun p _ _ => ?_
  obtain ⟨hL, hn, -, -⟩ := Ref.matchLen_spec inp n p c L
  omega

/-- The bounds on a match found, and its equal bytes (R243). -/
theorem Ref.findHc_bounds {inp : Nat → Byte} {n c w L : Nat} {idx : List (Nat × List Nat)}
    (h : 0 < (Ref.findHc inp n c w L idx).2) :
    3 ≤ (Ref.findHc inp n c w L idx).2 ∧ 1 ≤ (Ref.findHc inp n c w L idx).1 ∧
      (Ref.findHc inp n c w L idx).1 ≤ min w c ∧ (Ref.findHc inp n c w L idx).2 ≤ min L (n - c) ∧
      ∀ j < (Ref.findHc inp n c w L idx).2, inp (c - (Ref.findHc inp n c w L idx).1 + j) = inp (c + j) := by
  obtain hzero | ⟨p, -, hw, hlen, hpair⟩ := Ref.findHc_cases inp n c w L idx
  · simp [hzero] at h
  · obtain ⟨hlo, hhi⟩ := inWindow_iff.1 hw
    obtain ⟨hL, -, heq, -⟩ := Ref.matchLen_spec inp n p c L
    rw [hpair]
    refine ⟨hlen, Nat.sub_pos_of_lt hhi, le_min (by omega) (Nat.sub_le c p),
      le_min hL (Ref.matchLen_le_rest inp n p c L), fun j hj => ?_⟩
    rw [Nat.sub_sub_self hhi.le]
    exact heq j hj

/-- Settles O34. -/
theorem chainFinderTieBreak : Obligations.ChainFinderTieBreak := by
  intro inp n c w L idx
  refine ⟨fun h3 pre q post hbucket hlo hhi hlen hpre hpost => ?_, fun h => ?_,
    fun h => Ref.findHc_eq_zero_of_short h idx, Ref.findHc_bounds⟩
  · refine Ref.findHc_winner h3 hbucket (inWindow_iff.2 ⟨hlo, hhi⟩) hlen (fun p hp hw => ?_) (fun p hp hw => ?_)
    · obtain ⟨hplo, hphi⟩ := inWindow_iff.1 hw
      exact hpre p hp hplo hphi
    · obtain ⟨hplo, hphi⟩ := inWindow_iff.1 hw
      exact hpost p hp hplo hphi
  · refine Ref.findHc_eq_zero fun p hp hw => ?_
    obtain ⟨hplo, hphi⟩ := inWindow_iff.1 hw
    exact h p hp hplo hphi

/-! ### Insertion and pruning (R244, R245) -/

theorem chainBucket_of_short {c w : Nat} {bucket : List Nat} (h : bucket.length < 100) :
    chainBucket c w bucket = bucket ++ [c] := by
  have hcap : ¬ (bucket ++ [c]).length > Config.chainCap := by
    simp only [List.length_append, List.length_singleton, Config.chainCap]
    omega
  rw [chainBucket, if_neg hcap]

/-- A bucket that the append takes past CHAIN_CAP keeps what is in the window, the new position among it. -/
theorem chainBucket_of_full {c w : Nat} {bucket : List Nat} (h : 100 ≤ bucket.length) :
    chainBucket c w bucket = bucket.filter (fun p => decide (c - w ≤ p)) ++ [c] := by
  have hcap : (bucket ++ [c]).length > Config.chainCap := by
    simp only [List.length_append, List.length_singleton, Config.chainCap]
    omega
  have hwindow : (fun p => decide (c ≤ p + w)) = fun p => decide (c - w ≤ p) := by
    funext p
    exact decide_eq_decide.2 tsub_le_iff_right.symm
  rw [chainBucket, if_pos hcap, hwindow, List.filter_append]
  simp

/-- Settles O35. -/
theorem insertionAndPruning : Obligations.InsertionAndPruning := by
  intro inp n c w idx hwf
  refine ⟨fun h3 hshort => ?_, fun h3 hfull => ?_, fun _ _ hne => Ref.insertHc_bucket_ne hne, Ref.insertHc_short,
    Ref.insertHc_wf hwf⟩
  · rw [Ref.insertHc_bucket h3 hwf, chainBucket_of_short hshort]
  · rw [Ref.insertHc_bucket h3 hwf, chainBucket_of_full hfull]

/-! ### Rising cursors (R247) -/

/-- A match of MIN_MATCH bytes has its first 3 bytes equal. -/
theorem Ref.threeBytes_eq_of_matchLen {inp : Nat → Byte} {n p c L : Nat} (h : 3 ≤ Ref.matchLen inp n p c L) :
    inp p = inp c ∧ inp (p + 1) = inp (c + 1) ∧ inp (p + 2) = inp (c + 2) := by
  obtain ⟨-, -, heq, -⟩ := Ref.matchLen_spec inp n p c L
  exact ⟨heq 0 (by omega), heq 1 (by omega), heq 2 (by omega)⟩

/-- The candidates of R247: the earlier calls in the window with the 3 bytes at the cursor. -/
def Ref.ChainCandidate (inp : Nat → Byte) (n w c : Nat) (calls : List Nat) (p : Nat) : Prop :=
  p ∈ calls ∧ c ≤ p + w ∧ p < c ∧ p + 3 ≤ n ∧ inp p = inp c ∧ inp (p + 1) = inp (c + 1) ∧ inp (p + 2) = inp (c + 2)

section
variable {inp : Nat → Byte} {n w L c : Nat} {calls : List Nat} (hrising : calls.Pairwise (· < ·))
include hrising

/-- A position of the index that matches MIN_MATCH bytes in the window is a candidate. -/
theorem Ref.chainCandidate_of_mem_bucket {p : Nat}
    (hp : p ∈ Index.bucket (calls.foldl (fun i p => Ref.insertHc inp n p w i) []) (Ref.hashAt inp c))
    (hw : inWindow c w p = true) (hlen : 3 ≤ Ref.matchLen inp n p c L) : Ref.ChainCandidate inp n w c calls p := by
  obtain ⟨-, hbuckets⟩ := Ref.index_of_calls inp n w calls hrising
  obtain ⟨-, hfrom, -⟩ := hbuckets (Ref.hashAt inp c)
  obtain ⟨hcall, hend, -⟩ := hfrom p hp
  obtain ⟨hlo, hhi⟩ := inWindow_iff.1 hw
  exact ⟨hcall, hlo, hhi, hend, Ref.threeBytes_eq_of_matchLen hlen⟩

/-- Around a candidate in its bucket: the positions after it are newer. -/
theorem Ref.bucket_split_at_candidate {q : Nat} (hlast : ∀ p ∈ calls, p < c)
    (hq : Ref.ChainCandidate inp n w c calls q) :
    ∃ pre post, Index.bucket (calls.foldl (fun i p => Ref.insertHc inp n p w i) []) (Ref.hashAt inp c) =
      pre ++ q :: post ∧ ∀ p ∈ post, q < p := by
  obtain ⟨hcall, hlo, -, hend, h0, h1, h2⟩ := hq
  obtain ⟨-, hbuckets⟩ := Ref.index_of_calls inp n w calls hrising
  obtain ⟨hsorted, -, hkept⟩ := hbuckets (Ref.hashAt inp c)
  have hmem := hkept q hcall hend (Ref.hashAt_eq inp c q h0 h1 h2) fun p hp => (hlast p hp).le.trans hlo
  obtain ⟨pre, post, hsplit⟩ := List.append_of_mem hmem
  rw [hsplit] at hsorted
  obtain ⟨-, hafter, -⟩ := List.pairwise_append.1 hsorted
  exact ⟨pre, post, hsplit, (List.pairwise_cons.1 hafter).1⟩

end

/-- Settles O36: a position that is no candidate matches fewer than 3 bytes, so only candidates can win. -/
theorem chainFinderClosedForm : Obligations.ChainFinderClosedForm := by
  intro inp n w L c calls hrising hlast idx S
  refine ⟨fun h => ?_, fun h3 hL q hq hlongest hnewest => ?_⟩
  · rcases h with h | h | hnone
    · exact Ref.findHc_eq_zero_of_short (.inr h) idx
    · exact Ref.findHc_eq_zero_of_short (.inl h) idx
    · exact Ref.findHc_eq_zero fun p hp hw => Nat.lt_of_not_le fun hlen =>
        hnone p (Ref.chainCandidate_of_mem_bucket hrising hp hw hlen)
  · have hlen : 3 ≤ Ref.matchLen inp n q c L := by
      obtain ⟨-, -, -, -, h0, h1, h2⟩ := hq
      exact Ref.matchLen_ge h0 h1 h2 h3 hL
    refine ⟨hlen, ?_⟩
    obtain ⟨pre, post, hsplit, hafter⟩ := Ref.bucket_split_at_candidate hrising hlast hq
    have hcandidate : ∀ p ∈ pre ++ q :: post, inWindow c w p = true →
        Ref.matchLen inp n q c L ≤ Ref.matchLen inp n p c L → S p := fun p hp hw hle =>
      Ref.chainCandidate_of_mem_bucket hrising (hsplit ▸ hp) hw (hlen.trans hle)
    have hwindow : inWindow c w q = true := by
      obtain ⟨-, hlo, hhi, -⟩ := hq
      exact inWindow_iff.2 ⟨hlo, hhi⟩
    refine Ref.findHc_winner h3 hsplit hwindow hlen (fun p hp hw => ?_) (fun p hp hw => ?_)
    · by_contra hlt
      exact hlt (hlongest p (hcandidate p (List.mem_append_left _ hp) hw (Nat.lt_of_not_le hlt).le))
    · by_contra hge
      exact hge (hnewest p (hcandidate p (List.mem_append_right _ (List.mem_cons_of_mem _ hp)) hw
        (Nat.le_of_not_lt hge)) (hafter p hp))

/-! ### FIND_HC (R250) -/

/-- FIND_HC's steps from its acceptance: INDEX_FULL where its finder would append to a full index (R246), else the
finder's pair and the index with the cursor inserted. -/
theorem State.accept_findHc_reaches {s : State} (hidle : s.busy = false)
    (hrange : s.params.inBase.toNat + s.params.inLen.toNat ≤ 2 ^ 32)
    (hin : s.cursor.toNat + 3 ≤ s.params.inLen.toNat → s.plainReads s.params.inBase.toNat s.params.inLen.toNat) :
    State.Reaches (s.accept .findHc)
      (if Ref.fullAt s.platform.indexCap s.params.n s.cursor.toNat s.index = true then s.ended .indexFull
      else { s.ended .none with
        unseen := { cells := [], regs := s.oldResults [.matchLen, .matchDist] }
        matchDist := BitVec.ofNat 16 (Ref.findHc s.inByte s.params.n s.cursor.toNat s.params.w s.params.L s.index).1
        matchLen := BitVec.ofNat 16 (Ref.findHc s.inByte s.params.n s.cursor.toNat s.params.w s.params.L s.index).2
        index := Ref.insertHc s.inByte s.params.n s.cursor.toNat s.params.w s.index }) := by
  refine State.Reaches.step rfl ?_
  rw [State.stepPhase_query (r := Run.init .findHc s) rfl rfl hrange]
  obtain ⟨r, hsame, hfinder⟩ := State.callFinder_chain (bad := False) (s := s.accept .findHc)
    (r := Run.init .findHc s) rfl (fun hc => State.plainReads.readable (hin hc) _) rfl
  refine hfinder.reaches.trans ?_
  by_cases hfull : Ref.fullAt s.platform.indexCap s.params.n s.cursor.toNat s.index = true
  · obtain ⟨bd, bl, hh, rfl⟩ := hsame
    rw [if_pos hfull, if_pos (by exact hfull), State.finish_clean _ _ _ rfl,
      State.ended_eq_accept hidle .findHc .indexFull]
    exact State.Reaches.refl _
  · rw [if_neg hfull, if_neg (by exact hfull)]
    exact State.accepted_query_end
      (s := { s with index := Ref.insertHc s.inByte s.params.n s.cursor.toNat s.params.w s.index })
      hidle (task := .findHc) rfl hsame _ _

/-- Settles O37: the engine's finder computes `Ref.findHc` and `Ref.insertHc` (`State.callFinder_chain`). -/
theorem findHcCompletes : Obligations.FindHcCompletes := by
  intro s hinv hready hrange hin
  have hidle := State.not_busy_iff.1 hready.idle
  have hreach := State.accept_findHc_reaches hready.idle hrange hin
  refine ⟨fun hroom => ?_, fun hfull => ?_⟩
  · rw [if_neg (by simp [hroom])] at hreach
    rw [exec_of_task (i := .findHc) rfl, State.offer_advance hinv hready.idle hready.waits hreach hidle]
  · rw [if_pos hfull] at hreach
    rw [exec_of_task (i := .findHc) rfl, State.offer_advance hinv hready.idle hready.waits hreach hidle]

end Sys2Proof.Machine
end

section
/-! ### The encoder's tokens (43_encoder.md R281 to R295)

Every fact about the encoder's loop is an induction along `Ref.encode`'s own recursion: no room left, the index full, a
token and the loop after it, the input covered. -/

namespace Sys2Proof.Machine

/-! ### One token (R281, R282, R295) -/

/-- A finder's result becomes a copy only where it is a match with a literal after it (R281). -/
theorem Ref.choose_cases (inp : Nat → Byte) (n c : Nat) (found : Nat × Nat) :
    (0 < found.2 ∧ c + found.2 < n ∧ Ref.choose inp n c found = ⟨found.1, found.2, inp (c + found.2)⟩) ∨
      Ref.choose inp n c found = ⟨0, 0, inp c⟩ := by
  unfold Ref.choose
  split
  next h => exact .inl ⟨h.1, h.2, rfl⟩
  next => exact .inr rfl

/-- The bytes of the linear finder's match are equal (R204). -/
theorem Ref.findLinear_equal_bytes {inp : Nat → Byte} {n c w L j : Nat} (hj : j < (Ref.findLinear inp n c w L).2) :
    inp (c - (Ref.findLinear inp n c w L).1 + j) = inp (c + j) := by
  obtain hzero | ⟨p, -, hhi, hpair⟩ := Ref.findLinear_cases inp n c w L
  · simp [hzero] at hj
  · obtain ⟨-, -, heq, -⟩ := Ref.matchLen_spec inp n p c L
    rw [hpair] at hj ⊢
    rw [Nat.sub_sub_self hhi.le]
    exact heq j hj

/-- A token that R295 lets the encoder emit at the cursor `c`: the literal there, or a copy from the window with the byte
after its run. -/
def Ref.Token.SoundAt (chain : Bool) (inp : Nat → Byte) (n w L c : Nat) (t : Ref.Token) : Prop :=
  t = ⟨0, 0, inp c⟩ ∨
    (1 ≤ t.dist ∧ t.dist ≤ min w c ∧ 1 ≤ t.len ∧ t.len ≤ min L (n - c - 1) ∧ t.lit = inp (c + t.len) ∧
      (∀ j < t.len, inp (c - t.dist + j) = inp (c + j)) ∧ (chain = true → 3 ≤ t.len))

/-- A match of either finder: its distance, its length, its equal bytes (R204, R243). -/
theorem Ref.find_bounds {chain : Bool} {inp : Nat → Byte} {n w L c : Nat} {idx : List (Nat × List Nat)} {d k : Nat}
    (h : (Ref.find chain inp n w L c idx).1 = (d, k)) (hpos : 0 < k) :
    1 ≤ d ∧ d ≤ min w c ∧ k ≤ min L (n - c) ∧ (∀ j < k, inp (c - d + j) = inp (c + j)) ∧ (chain = true → 3 ≤ k) := by
  cases chain with
  | false =>
    replace h : Ref.findLinear inp n c w L = (d, k) := h
    obtain ⟨hdist, hwindow, hlen⟩ := Ref.findLinear_bounds (by rwa [h])
    have heq : ∀ j < (Ref.findLinear inp n c w L).2, _ := fun _ => Ref.findLinear_equal_bytes
    rw [h] at hdist hwindow hlen heq
    exact ⟨hdist, hwindow, hlen, heq, nofun⟩
  | true =>
    replace h : Ref.findHc inp n c w L idx = (d, k) := h
    obtain ⟨hmin, hdist, hwindow, hlen, heq⟩ := Ref.findHc_bounds (by rwa [h])
    rw [h] at hmin hdist hwindow hlen heq
    exact ⟨hdist, hwindow, hlen, heq, fun _ => hmin⟩

/-- What either finder's result becomes is sound, whatever the index (R295). -/
theorem Ref.choose_soundAt (chain : Bool) (inp : Nat → Byte) (n w L c : Nat) (idx : List (Nat × List Nat)) :
    (Ref.choose inp n c (Ref.find chain inp n w L c idx).1).SoundAt chain inp n w L c := by
  generalize hfind : (Ref.find chain inp n w L c idx).1 = found
  obtain ⟨hpos, hrest, hcopy⟩ | hlit := Ref.choose_cases inp n c found
  · obtain ⟨hdist, hwindow, hlen, heq, hmin⟩ := Ref.find_bounds hfind hpos
    rw [hcopy]
    exact .inr ⟨hdist, hwindow, hpos, by dsimp only; omega, rfl, heq, hmin⟩
  · exact .inl hlit

/-- The fields of a sound token's record with a lookahead of at most 255: none of them is cut (R295). -/
theorem Ref.Token.SoundAt.record_fields {chain : Bool} {inp : Nat → Byte} {n w L c : Nat} {t : Ref.Token}
    (h : t.SoundAt chain inp n w L c) (hL : L ≤ 255) (hw : w ≤ 65535) :
    (recordOffset (Ref.record t)).toNat = t.dist ∧ (recordLength (Ref.record t)).toNat = t.len ∧
      t.len ≤ L ∧ (t.dist = 0 ↔ t.len = 0) := by
  have hbounds : t.dist ≤ 65535 ∧ t.len ≤ L ∧ (t.dist = 0 ↔ t.len = 0) := by
    obtain rfl | ⟨hdist, hwindow, hpos, hlen, -⟩ := h
    · simp
    · omega
  obtain ⟨hdist, hlen, hzero⟩ := hbounds
  simp only [Ref.record, recordOffset_packToken, recordLength_packToken, BitVec.toNat_ofNat]
  exact ⟨Nat.mod_eq_of_lt (by omega), Nat.mod_eq_of_lt (by omega), hlen, hzero⟩

/-! ### Streams of tokens -/

@[simp] theorem Ref.covered_nil : Ref.covered [] = 0 := rfl

@[simp] theorem Ref.covered_cons (t : Ref.Token) (ts : List Ref.Token) :
    Ref.covered (t :: ts) = t.len + 1 + Ref.covered ts := rfl

/-- Every token covers at least one byte (R293). -/
theorem Ref.length_le_covered (ts : List Ref.Token) : ts.length ≤ Ref.covered ts := by
  induction ts with
  | nil => exact le_rfl
  | cons t ts ih =>
    rw [List.length_cons, Ref.covered_cons]
    omega

/-- Every record has four bytes (R291). -/
@[simp] theorem Ref.streamBytes_length (ts : List Ref.Token) : (Ref.streamBytes ts).length = 4 * ts.length := by
  induction ts with
  | nil => rfl
  | cons t ts ih =>
    rw [Ref.streamBytes, List.flatMap_cons, List.length_append, ← Ref.streamBytes, ih, Ref.recordBytes_length,
      List.length_cons]
    omega

/-! ### The encoder's loop -/

section
variable {chain : Bool} {cap : Option Nat} {inp : Nat → Byte} {n w L : Nat}

theorem Ref.encode_length_le_room (room c : Nat) (idx : List (Nat × List Nat)) :
    (Ref.encode chain cap inp n w L room c idx).1.length ≤ room := by
  fun_induction Ref.encode chain cap inp n w L room c idx with
  | case1 | case2 | case4 => exact Nat.zero_le _
  | case3 room c idx hc hfull found tok rest ih => exact Nat.succ_le_succ ih

/-- ERR says whether the tokens cover the input (R293). -/
theorem Ref.encode_err_eq_none_iff (room : Nat) {c : Nat} (idx : List (Nat × List Nat)) (hc : c ≤ n) :
    (Ref.encode chain cap inp n w L room c idx).2.2 = .none ↔
      c + Ref.covered (Ref.encode chain cap inp n w L room c idx).1 = n := by
  fun_induction Ref.encode chain cap inp n w L room c idx with
  | case1 c idx =>
    rw [Ref.covered_nil]
    split
    next hlt => exact iff_of_false nofun (by omega)
    next hge => exact iff_of_true rfl (by omega)
  | case2 room c idx hlt hfull => exact iff_of_false nofun (by rw [Ref.covered_nil]; omega)
  | case3 room c idx hlt hfull found tok rest ih =>
    rw [Ref.covered_cons, ← Nat.add_assoc]
    exact ih (Ref.choose_covers found.1 hlt)
  | case4 room c idx hge => exact iff_of_true rfl (by rw [Ref.covered_nil]; omega)

/-- With room for a token a byte there is no OUT_OVERFLOW (R294). -/
theorem Ref.encode_not_outOverflow (room c : Nat) (idx : List (Nat × List Nat)) (hroom : n ≤ c + room) :
    (Ref.encode chain cap inp n w L room c idx).2.2 ≠ .outOverflow := by
  fun_induction Ref.encode chain cap inp n w L room c idx with
  | case1 c idx => rw [if_neg (by omega)]; exact nofun
  | case2 | case4 => exact nofun
  | case3 room c idx hc hfull found tok rest ih => exact ih (by omega)

/-- An index with no bound is never full (R246). -/
theorem Ref.fullAt_unbounded (n c : Nat) (idx : List (Nat × List Nat)) : Ref.fullAt none n c idx = false :=
  Bool.and_false _

/-- With room for a token a byte and an index with no bound the loop covers the input (R293, R294). -/
theorem Ref.encode_unbounded_err (room c : Nat) (idx : List (Nat × List Nat)) (hroom : n ≤ c + room) :
    (Ref.encode chain none inp n w L room c idx).2.2 = .none := by
  fun_induction Ref.encode chain none inp n w L room c idx with
  | case1 c idx => rw [if_neg (by omega)]
  | case2 room c idx hlt hfull => simp [Ref.fullAt_unbounded] at hfull
  | case3 room c idx hlt hfull found tok rest ih => exact ih (by omega)
  | case4 => rfl

/-- A loop that covers the input emits what it emits with any other room enough and an index with no bound (R296). -/
theorem Ref.encode_of_err_none (room c : Nat) (idx : List (Nat × List Nat)) :
    ∀ room', n ≤ c + room' → (Ref.encode chain cap inp n w L room c idx).2.2 = .none →
      Ref.encode chain none inp n w L room' c idx = Ref.encode chain cap inp n w L room c idx := by
  fun_induction Ref.encode chain cap inp n w L room c idx with
  | case1 c idx =>
    intro room' _ h
    have hge : ¬ c < n := fun hlt => by simp [hlt] at h
    cases room' <;> simp [Ref.encode, hge]
  | case2 => exact nofun
  | case3 room c idx hlt hfull found tok rest ih =>
    intro room' hroom h
    obtain ⟨room', rfl⟩ : ∃ k, room' = k + 1 := Nat.exists_eq_add_one.2 (by omega)
    rw [Ref.encode, if_pos hlt, if_neg (by simp [Ref.fullAt_unbounded])]
    exact congrArg (fun res : List Ref.Token × List (Nat × List Nat) × ErrCode => (tok :: res.1, res.2))
      (ih room' (by omega) h)
  | case4 room c idx hge =>
    intro room' _ _
    cases room' <;> simp [Ref.encode, hge]

/-- The token at a place in the stream is the encoder's step at the cursor that the tokens before it lead to (R295). -/
theorem Ref.encode_token_soundAt (room c : Nat) (idx : List (Nat × List Nat)) : ∀ pre {post : List Ref.Token}
    {t : Ref.Token}, (Ref.encode chain cap inp n w L room c idx).1 = pre ++ t :: post →
      t.SoundAt chain inp n w L (c + Ref.covered pre) := by
  fun_induction Ref.encode chain cap inp n w L room c idx with
  | case1 | case2 | case4 => simp
  | case3 =>
    rename_i room c idx hlt hfull found tok rest ih
    intro pre post t h
    cases pre with
    | nil =>
      obtain ⟨rfl, -⟩ := List.cons.inj h
      exact Ref.choose_soundAt chain inp n w L c idx
    | cons u pre =>
      obtain ⟨rfl, hrest⟩ := List.cons.inj h
      rw [Ref.covered_cons, ← Nat.add_assoc]
      exact ih pre hrest

end

/-- The whole stream covers the input (R293). -/
theorem Ref.covered_compress (chain : Bool) (inp : Nat → Byte) (n w L : Nat) :
    Ref.covered (Ref.compress chain inp n w L) = n := by
  have hcover := (Ref.encode_err_eq_none_iff n [] n.zero_le).1
    (Ref.encode_unbounded_err (chain := chain) (inp := inp) (w := w) (L := L) n 0 [] (n.zero_add.ge))
  rwa [Nat.zero_add] at hcover

/-- Settles O39, along the encoder's loop. -/
theorem encoderCoversInput : Obligations.EncoderCoversInput := by
  intro chain cap inp n w L room res
  have hcovered := Ref.covered_compress chain inp n w L
  refine ⟨hcovered, Ref.encode_length_le_room n 0 [], fun hn => ?_, fun hroom => ?_, ?_, Ref.streamBytes_length _⟩
  · refine List.length_pos_iff.2 fun hnil => ?_
    rw [hnil, Ref.covered_nil] at hcovered
    omega
  · exact Ref.encode_not_outOverflow room 0 [] (by omega)
  · simpa using Ref.encode_err_eq_none_iff (cap := cap) room [] n.zero_le

/-- Settles O41, by the token's place in the stream. -/
theorem emittedTokenInvariants : Obligations.EmittedTokenInvariants := by
  intro chain inp n w L pre post t h c
  have hsound : t.SoundAt chain inp n w L c := by simpa using Ref.encode_token_soundAt n 0 [] pre h
  refine ⟨hsound, fun hL hw => ?_⟩
  obtain ⟨hdist, hlen, hle, hzero⟩ := hsound.record_fields hL hw
  rw [← BitVec.toNat_inj, ← BitVec.toNat_inj, hdist, hlen]
  exact ⟨hzero, hle⟩

end Sys2Proof.Machine
end

section
/-! ### COMPRESS on the machine (43_encoder.md R290, R296; 60_exceptions.md R405, R406, R411)

The engine's loop computes `Ref.encode` (`State.encode_leads`). What stands before it is the start of the command, and after
it the reading of its bytes. -/

namespace Sys2Proof.Machine

/-- The task of COMPRESS with the hash-chain finder or with the linear one (R280). -/
def Task.compress (chain : Bool) : Task := if chain then .compressHc else .compressLin

theorem task_compress (chain : Bool) :
    (if chain then Instr.compressHc else .compressLin).task = some (Task.compress chain) := by cases chain <;> rfl

@[simp] theorem Task.isCompress_compress (chain : Bool) : (Task.compress chain).isCompress = true := by cases chain <;> rfl

@[simp] theorem Task.usesChain_compress (chain : Bool) : (Task.compress chain).usesChain = chain := by cases chain <;> rfl

/-- COMPRESS's result over the parameters and the memory of `s`. -/
def State.compressed (s : State) (chain : Bool) : List Ref.Token × List (Nat × List Nat) × ErrCode :=
  Ref.encode chain s.platform.indexCap s.inByte s.params.n s.params.w s.params.L (s.params.outCap.toNat / 4) 0 []

/-! ### The buffers -/

/-- The tokens emitted fit the output buffer (R405). -/
theorem State.compressed_fits (s : State) (chain : Bool) :
    4 * (s.compressed chain).1.length ≤ s.params.outCap.toNat := by
  have hroom : (s.compressed chain).1.length ≤ s.params.outCap.toNat / 4 := Ref.encode_length_le_room _ 0 []
  omega

theorem Params.inAddr_ne_outAddr {p : Params} (h : p.buffersOverlap = false) {i j : Nat} (hi : i < p.n)
    (hj : j < p.outCap.toNat) : p.inAddr i ≠ p.outAddr j := by
  simp only [Params.buffersOverlap, Params.n, Params.inAddr, Params.outAddr, Bool.and_eq_false_iff,
    decide_eq_false_iff_not] at *
  omega

/-! ### The start -/

theorem State.stepStart_compress (s : State) {r : Run} (hc : r.task.isCompress = true) : s.stepStart r = s.startCompress r := by
  unfold State.stepStart
  cases ht : r.task with
  | compressLin | compressHc => rfl
  | _ => rw [ht] at hc; cases hc

/-- An accepted COMPRESS whose start check fails raises its error at once (R402, R403). -/
theorem State.accept_compress_raises (s : State) (chain : Bool) {e : ErrCode} (h : s.params.codecCheck = some e) :
    (s.accept (Task.compress chain)).stepPhase (Run.init (Task.compress chain) s) =
      (s.accept (Task.compress chain)).raise (Run.init (Task.compress chain) s) e :=
  (State.stepStart_compress _ (Task.isCompress_compress chain)).trans (by simp only [State.startCompress, Run.init, h])

/-- One that passes its start checks empties the index and its counts (R82, R290). -/
theorem State.accept_compress_starts (s : State) (chain : Bool) (h : s.params.codecCheck = none) :
    (s.accept (Task.compress chain)).stepPhase (Run.init (Task.compress chain) s) =
      (s.accept (Task.compress chain)).updates { Run.init (Task.compress chain) s with cur := 0 }
        (.clearIndex :: Run.progress { Run.init (Task.compress chain) s with cur := 0 }) .encodeTop :=
  (State.stepStart_compress _ (Task.isCompress_compress chain)).trans (by simp only [State.startCompress, Run.init, h])

/-- An accepted COMPRESS that passes its start checks comes to the head of its loop with the index and the counts emptied
(R82, R290). -/
theorem State.accept_compress_reaches (s : State) (chain : Bool) (hcheck : s.params.codecCheck = none) :
    ∃ regs : List (ResultReg × Word), (∀ c ∈ regs, c.1 ∈ progressRegs) ∧
      State.Reaches (s.accept (Task.compress chain))
        (State.goto { s.accept (Task.compress chain) with index := [], cursor := 0, outLen := 0, tokenCount := 0 }
          { Run.init (Task.compress chain) s with cur := 0, regJournal := regs } .encodeTop) := by
  refine ⟨_, fun c hc => ?_, State.Reaches.step rfl (s.accept_compress_starts chain hcheck ▸ State.updates_reaches _ _ _ _)⟩
  obtain ⟨v, hv⟩ := State.mem_notes ((List.append_nil _).symm ▸ hc)
  simp only [Run.progress, List.mem_cons, Update.result.injEq, List.not_mem_nil, or_false, reduceCtorEq, false_or] at hv
  rcases hv with ⟨h, -⟩ | ⟨h, -⟩ | ⟨h, -⟩ <;> simp [progressRegs, h]

/-- What COMPRESS leaves when its loop gives `res` and `seen` is what the host has yet to be made to see. -/
def State.compressEnd (s : State) (res : List Ref.Token × List (Nat × List Nat) × ErrCode) (seen : Unseen) : State :=
  { s.ended res.2.2 with
    cursor := BitVec.ofNat 32 (Ref.covered res.1)
    outLen := BitVec.ofNat 32 (4 * res.1.length)
    tokenCount := BitVec.ofNat 32 res.1.length
    index := res.2.1
    mem := Memory.writeBytes s.mem s.params.outBase.toNat (Ref.streamBytes res.1)
    unseen := seen }

/-- An accepted COMPRESS over ordinary memory leads to what the encoder's loop says, unless the platform refuses an access
(R290). -/
theorem State.accept_compress_leads {bad : Prop} {s : State} (chain : Bool) (hidle : s.busy = false)
    (hcheck : s.params.codecCheck = none) (hin : s.Readable bad s.params)
    (hout : s.Writable bad s.params (4 * (s.compressed chain).1.length)) :
    ∃ seen : Unseen, (∀ c ∈ seen.cells, ∃ j < 4 * (s.compressed chain).1.length, c.1 = s.params.outAddr j) ∧
      (∀ c ∈ seen.regs, c.1 ∈ progressRegs) ∧
      State.Leads bad (s.accept (Task.compress chain)) (s.compressEnd (s.compressed chain) seen) := by
  obtain ⟨-, -, hapart⟩ := Params.codecCheck_none hcheck
  obtain ⟨regs, hregs, hstart⟩ := s.accept_compress_reaches chain hcheck
  obtain ⟨seen, hcells, hseen, hloop⟩ := State.encode_leads (bad := bad) (s.params.outCap.toNat / 4)
    (s := { s.accept (Task.compress chain) with index := [], cursor := 0, outLen := 0, tokenCount := 0 })
    (r := { Run.init (Task.compress chain) s with cur := 0, regJournal := regs }) rfl
    (Task.isCompress_compress chain) hin rfl (Nat.zero_le _)
    (fun j hj i hi => Params.inAddr_ne_outAddr hapart hi hj) (Nat.zero_le _) ⟨rfl, rfl, rfl⟩ (s.compressed chain)
    (by rw [show (Run.init (Task.compress chain) s).task.usesChain = chain from Task.usesChain_compress chain]; rfl)
    (by rw [show (Run.init (Task.compress chain) s).o = 0 from rfl, Nat.zero_add]; exact hout)
  refine ⟨seen, fun c hc => ?_, fun c hc => (hseen c hc).elim (hregs c) id, .trans (.inl hstart) ?_⟩
  · obtain hold | ⟨j, -, hj, ha⟩ := hcells c hc
    · cases hold
    · exact ⟨j, by simpa [Run.init] using hj, ha⟩
  · convert hloop using 1
    simp [State.compressEnd, State.encoded, State.ended_eq_accept hidle (Task.compress chain), Run.init, Params.outAddr]

/-- Settles O38: on buffers that the platform refuses nowhere the loop's end is the command's (`State.accept_compress_leads`). -/
theorem compressCompletes : Obligations.CompressCompletes := by
  intro s chain hinv hready hcheck res hin hout
  have hidle := hready.idle
  obtain ⟨seen, hcells, hregs, hleads⟩ := State.accept_compress_leads (bad := False) chain hidle hcheck
    (hin.readable _) fun j hj => ⟨(hout j hj).2, .inl (hout j hj).1⟩
  refine ⟨seen, ?_, hregs, fun c hc => ?_⟩
  · rw [exec_of_task (task_compress chain),
      State.offer_advance hinv hidle hready.waits hleads.reaches (State.not_busy_iff.1 hidle)]
    rfl
  · obtain ⟨j, hj, ha⟩ := hcells c hc
    rw [ha, Params.outAddr]
    exact ⟨Nat.le_add_right _ _, Nat.add_lt_add_left hj _⟩

/-! ### A COMPRESS that ends with ERR = NONE (R296) -/

/-- What a command leaves whose host waits is an idle state that its engine's steps reach (R360, R365). -/
theorem exec_ready_reaches {s t : State} {i : Instr} {task : Task} (h : s.Inv) (hready : s.Ready)
    (hi : i.task = some task) (ht : exec i s = .next t) : State.Reaches (s.accept task) t ∧ t.engine = none := by
  obtain ⟨hidle, -⟩ := exec_ready_ends h hready hi ht
  rw [exec_of_task hi, State.offer_idle hready.idle, State.advance_waits (by exact hready.waits)] at ht
  cases ht
  exact ⟨State.reaches_runSteps _ _, hidle⟩

/-- A COMPRESS over memory without side effects that ends with ERR = NONE has written the whole stream of its input, and
counts it (R290, R293, R296): no access was refused, no start check failed, and the output buffer and the index sufficed. -/
theorem exec_compress_of_err_none {s t : State} {chain : Bool} (hinv : s.Inv) (hready : s.Ready)
    (hin : ∀ i < s.params.n, s.platform.hasSideEffects (s.params.inAddr i) = false)
    (hout : ∀ j < s.params.outCap.toNat, s.platform.hasSideEffects (s.params.outAddr j) = false)
    (ht : exec (if chain then .compressHc else .compressLin) s = .next t) (herr : t.err = .none) :
    let ts := Ref.compress chain s.inByte s.params.n s.params.w s.params.L
    s.params.codecCheck = none ∧ 4 * ts.length ≤ s.params.outCap.toNat ∧
      ∃ seen, t = s.compressEnd (ts, t.index, .none) seen := by
  intro ts
  obtain ⟨hreach, hend⟩ := exec_ready_reaches hinv hready (task_compress chain) ht
  cases hcheck : s.params.codecCheck with
  | some e =>
    obtain ⟨-, hat⟩ := Params.codecCheck_some hcheck (Task.hasOutput_of_isCompress (Task.isCompress_compress chain))
    rw [exec_of_task (task_compress chain), State.offer_refused hready (s.accept_compress_raises chain hcheck) hat] at ht
    cases ht
    cases (herr : e = .none)
    cases hat
  | none =>
    have hlen := s.compressed_fits chain
    obtain ⟨seen, -, -, hloop | ⟨-, u, hbus, hidle, hu⟩⟩ := State.accept_compress_leads (bad := True) chain hready.idle
      hcheck (fun i hi => ⟨hin i hi, .inr trivial⟩) (fun j hj => ⟨hout j (by omega), .inr trivial⟩)
    · obtain rfl := hreach.idle_unique hloop hend (State.not_busy_iff.1 hready.idle)
      have hts : ts = (s.compressed chain).1 := congrArg Prod.fst
        (Ref.encode_of_err_none (s.params.outCap.toNat / 4) 0 [] s.params.n (Nat.le_add_left _ _) herr)
      refine ⟨rfl, hts ▸ hlen, seen, ?_⟩
      rw [hts]
      simp only [State.compressEnd] at herr ⊢
      rw [show (s.compressed chain).2.2 = .none from herr]
    · obtain rfl := hreach.idle_unique hbus hend hidle
      rw [hu] at herr
      cases herr

/-- The bytes that COMPRESS wrote are read back from its output buffer. -/
theorem State.read_compressEnd {s : State} {res : List Ref.Token × List (Nat × List Nat) × ErrCode} (hinv : s.Inv)
    (hcheck : s.params.codecCheck = none) (hlen : 4 * res.1.length ≤ s.params.outCap.toNat) (seen : Unseen) {j : Nat}
    (hj : j < 4 * res.1.length) :
    Memory.read (s.compressEnd res seen).mem (s.params.outAddr j) = (Ref.streamBytes res.1).getD j 0 := by
  obtain ⟨-, hrange, -⟩ := Params.codecCheck_none hcheck
  simp only [Params.outRangeFails, decide_eq_false_iff_not] at hrange
  rw [← Ref.streamBytes_length] at hlen hj
  rw [List.getD_eq_getElem _ _ hj]
  exact Memory.read_writeBytes_inside hinv.memory _ hj (by omega)

/-- What the host finds after a COMPRESS that ends with ERR = NONE: the counts and the bytes of the stream, which the input
bytes, the window, the lookahead and the finder determine (R293, R296). -/
theorem exec_compress_results {s t : State} {chain : Bool} (hinv : s.Inv) (hready : s.Ready)
    (hin : ∀ i < s.params.n, s.platform.hasSideEffects (s.params.inAddr i) = false)
    (hout : ∀ j < s.params.outCap.toNat, s.platform.hasSideEffects (s.params.outAddr j) = false)
    (ht : exec (if chain then .compressHc else .compressLin) s = .next t) (herr : t.err = .none) :
    let ts := Ref.compress chain s.inByte s.params.n s.params.w s.params.L
    t.cursor = s.params.inLen ∧ t.outLen = BitVec.ofNat 32 (4 * ts.length) ∧ t.tokenCount = BitVec.ofNat 32 ts.length ∧
      ∀ j < 4 * ts.length, Memory.read t.mem (s.params.outAddr j) = (Ref.streamBytes ts).getD j 0 := by
  intro ts
  obtain ⟨hcheck, hlen, seen, heq⟩ := exec_compress_of_err_none hinv hready hin hout ht herr
  rw [heq]
  refine ⟨?_, rfl, rfl, fun j hj => State.read_compressEnd hinv hcheck hlen seen hj⟩
  rw [State.compressEnd, Ref.covered_compress, Params.n, BitVec.ofNat_toNat, BitVec.setWidth_eq]

/-- Settles O42: each of the two commands has written the stream of its input, and the encoder reads nothing outside the
input. -/
theorem compressIsDeterministic : Obligations.CompressIsDeterministic := by
  intro s s' t t' chain hinv hinv' hready hready' hn hw hL hbytes hplain ht ht' herr herr'
  have hts : Ref.compress chain s.inByte s.params.n s.params.w s.params.L =
      Ref.compress chain s'.inByte s'.params.n s'.params.w s'.params.L := by
    simp only [Params.n, Params.w, Params.L, hn, hw, hL] at hbytes ⊢
    exact congrArg Prod.fst (Ref.encode_congr hbytes chain none _ _ _ 0 [])
  obtain ⟨hin, hout⟩ := hplain s (.inl rfl)
  obtain ⟨hin', hout'⟩ := hplain s' (.inr rfl)
  obtain ⟨hcursor, houtLen, hcount, hread⟩ := exec_compress_results hinv hready hin hout ht herr
  obtain ⟨hcursor', houtLen', hcount', hread'⟩ := exec_compress_results hinv' hready' hin' hout' ht' herr'
  rw [← hts] at houtLen' hcount' hread'
  refine ⟨by rw [hcursor, hcursor', hn], by rw [houtLen, houtLen'], by rw [hcount, hcount'], fun j hj => ?_⟩
  rw [houtLen, BitVec.toNat_ofNat] at hj
  have hj' := hj.trans_le (Nat.mod_le _ _)
  rw [hread j hj', hread' j hj']

end Sys2Proof.Machine
end

section
/-! ### The decoder over byte sequences (44_decoder.md R321 to R326, R340, R341)

The copy loop appends, at each index, the byte one period back in the output as it grows. From that recurrence follow the
periodic form of R326, and that a copy of a run whose bytes are equal one distance back gives the run. -/

namespace Sys2Proof.Machine

/-! ### One record -/

/-- Settles O43: `Ref.decodeRecord_length` for a packed token; the literal is what the record appends last. Protected,
because `recordLength` is also a record's length field. -/
protected theorem recordLength : Obligations.RecordLength := by
  intro out off len lit out' cnt
  have hlength := Ref.decodeRecord_length out (packToken off len lit)
  rw [recordOffset_packToken, recordLength_packToken] at hlength
  refine ⟨hlength, Ref.prefix_decodeRecord _ _, ?_⟩
  simp [out', Ref.decodeRecord]

/-- Inside the output the copy loop appends the byte it stands on (R324). -/
theorem Ref.copyFrom_succ {start i : Nat} {out : List Byte} (m : Nat) (h : start + i < out.length) :
    Ref.copyFrom start (m + 1) i out = Ref.copyFrom start m (i + 1) (out ++ [out[start + i]]) := by
  rw [Ref.copyFrom, if_pos h, List.getD_eq_getElem _ _ h]

/-- The copied byte is the one that stands `out.length - start` before it in the output as it grows (R324). -/
theorem Ref.copyFrom_getElem? {start : Nat} (m i : Nat) {out : List Byte} (h : start + i < out.length) {j : Nat}
    (hj : j < m) :
    (Ref.copyFrom start m i out)[out.length + j]? = (Ref.copyFrom start m i out)[start + i + j]? := by
  induction m generalizing i j out with
  | zero => omega
  | succ m ih =>
    rw [Ref.copyFrom_succ m h]
    cases j with
    | zero =>
      have hkept := List.prefix_iff_getElem?.1 (Ref.copyFrom_prefix start m (i + 1) (out ++ [out[start + i]]))
      simp only [Nat.add_zero]
      rw [hkept out.length (by simp), hkept (start + i) (by simp; omega)]
      simp [List.getElem_append_left h]
    | succ j =>
      have := ih (i + 1) (out := out ++ [out[start + i]]) (by simp; omega) (j := j) (by omega)
      rw [List.length_append, List.length_singleton] at this
      rw [show out.length + (j + 1) = out.length + 1 + j by omega, this]
      congr 1
      omega

/-- A sequence that repeats itself one period on, for `m` places from `start + P` on, is periodic there (R326). -/
theorem getElem?_periodic {out : List Byte} {start P m : Nat} (hP : 1 ≤ P)
    (h : ∀ i < m, out[start + P + i]? = out[start + i]?) :
    ∀ i < m, out[start + P + i]? = out[start + i % P]? := by
  intro i
  induction i using Nat.strong_induction_on with
  | _ i ih =>
    intro hi
    rw [h i hi]
    by_cases hlt : i < P
    · rw [Nat.mod_eq_of_lt hlt]
    · have := ih (i - P) (by omega) (by omega)
      rw [← Nat.mod_eq_sub_mod (by omega)] at this
      rw [← this]
      congr 1
      omega

/-- Settles O44: the recurrence of the copy loop, and the sequence that it makes periodic. -/
theorem periodicCopy : Obligations.PeriodicCopy := by
  intro out off len lit hlen hoff hout out' s P
  have hcopy : out' = Ref.copyFrom s len.toNat 0 out ++ [lit] := by simp [out', s, Ref.decodeRecord]
  have hlength : (Ref.copyFrom s len.toNat 0 out).length = out.length + len.toNat :=
    Ref.copyFrom_length _ 0 (by omega)
  have hperiod : s + P = out.length := by omega
  refine ⟨by omega, by omega, by omega, by omega, ?_⟩
  rw [← hperiod]
  refine getElem?_periodic (by omega) fun i hi => ?_
  rw [hcopy, List.getElem?_append_left (by omega), List.getElem?_append_left (by omega), hperiod]
  exact Ref.copyFrom_getElem? len.toNat 0 (by omega) hi

/-! ### A stream of records -/

/-- A record adds at most 256 bytes (R323). -/
theorem Ref.decodeRecord_length_le (out : List Byte) (w : Word) : (Ref.decodeRecord out w).length ≤ out.length + 256 := by
  have hlen := (recordLength w).isLt
  rw [Ref.decodeRecord_length, copyCount]
  split <;> omega

theorem Ref.foldl_decodeRecord_length_le (ws : List Word) (out : List Byte) :
    (ws.foldl Ref.decodeRecord out).length ≤ out.length + 256 * ws.length := by
  induction ws generalizing out with
  | nil => exact le_rfl
  | cons w ws ih =>
    have hrecord := Ref.decodeRecord_length_le out w
    have hrest := ih (Ref.decodeRecord out w)
    rw [List.foldl_cons, List.length_cons]
    omega

/-- The loop into a bounded buffer decodes the records that fit (R411). -/
theorem Ref.decodeWithin_eq_foldl_take (cap : Nat) (ws : List Word) (out : List Byte) :
    (Ref.decodeWithin cap ws out).1 = (ws.take (Ref.decodeWithin cap ws out).2).foldl Ref.decodeRecord out := by
  induction ws generalizing out with
  | nil => rfl
  | cons w ws ih =>
    rw [Ref.decodeWithin]
    split
    · rfl
    · exact ih _

/-- With 256 bytes for every record every record fits (R341). -/
theorem Ref.decodeWithin_count_of_room {cap : Nat} (ws : List Word) {out : List Byte}
    (h : out.length + 256 * ws.length ≤ cap) : (Ref.decodeWithin cap ws out).2 = ws.length := by
  induction ws generalizing out with
  | nil => rfl
  | cons w ws ih =>
    have hrecord := Ref.decodeRecord_length_le out w
    rw [List.length_cons] at h
    rw [Ref.decodeWithin, if_neg (by omega)]
    exact congrArg (· + 1) (ih (by omega))

/-- Where every record fits, the output is the whole stream's (R341). -/
theorem Ref.decodeWithin_of_count {cap : Nat} {ws : List Word} (h : (Ref.decodeWithin cap ws []).2 = ws.length) :
    Ref.decodeWithin cap ws [] = (Ref.decode ws, ws.length) := by
  refine Prod.ext ?_ h
  rw [Ref.decodeWithin_eq_foldl_take, h, List.take_length]
  rfl

@[simp] theorem Ref.records_length (inp : Nat → Byte) (m : Nat) : (Ref.records inp m).length = m / 4 := by
  simp [Ref.records]

/-- Settles O46: 256 bytes a record are at least what it adds. -/
theorem decoderOutputBound : Obligations.DecoderOutputBound := by
  intro inp m cap
  have hbound := Ref.foldl_decodeRecord_length_le (Ref.records inp m) []
  rw [List.length_nil, Nat.zero_add, Ref.records_length] at hbound
  refine ⟨hbound, fun hcap => ?_⟩
  rw [Ref.decodeWithin_of_count (Ref.decodeWithin_count_of_room _ (by simpa using hcap)), Ref.records_length]

/-! ### Round trip (R340) -/

/-- The first `c` bytes of the input. -/
def Ref.inputPrefix (inp : Nat → Byte) (c : Nat) : List Byte := (List.range c).map inp

@[simp] theorem Ref.inputPrefix_length (inp : Nat → Byte) (c : Nat) : (Ref.inputPrefix inp c).length = c := by
  simp [Ref.inputPrefix]

theorem Ref.inputPrefix_succ (inp : Nat → Byte) (c : Nat) :
    Ref.inputPrefix inp (c + 1) = Ref.inputPrefix inp c ++ [inp c] := by
  simp [Ref.inputPrefix, List.range_succ]

/-- A copy from an earlier position whose bytes are the ones at the cursor gives those bytes (R324, R340). -/
theorem Ref.copyFrom_inputPrefix {inp : Nat → Byte} {start c : Nat} (hstart : start < c) (m i : Nat)
    (h : ∀ j < i + m, inp (start + j) = inp (c + j)) :
    Ref.copyFrom start m i (Ref.inputPrefix inp (c + i)) = Ref.inputPrefix inp (c + i + m) := by
  induction m generalizing i with
  | zero => rfl
  | succ m ih =>
    have hbyte : (Ref.inputPrefix inp (c + i))[start + i]'(by simp; omega) = inp (c + i) := by
      simpa [Ref.inputPrefix] using h i (by omega)
    rw [Ref.copyFrom_succ m (by simp; omega), hbyte, ← Ref.inputPrefix_succ, Nat.add_assoc c i 1,
      ih (i + 1) fun j hj => h j (by omega)]
    congr 1
    omega

/-- The record of a sound token at the cursor `c` decodes to the bytes that the token covers (R340). -/
theorem Ref.decodeRecord_of_soundAt {chain : Bool} {inp : Nat → Byte} {n w L c : Nat} {t : Ref.Token}
    (h : t.SoundAt chain inp n w L c) (hL : L ≤ 255) (hw : w ≤ 65535) :
    Ref.decodeRecord (Ref.inputPrefix inp c) (Ref.record t) = Ref.inputPrefix inp (c + (t.len + 1)) := by
  obtain ⟨hdist, hlen, -, -⟩ := h.record_fields hL hw
  rw [Ref.decodeRecord, hdist, hlen, Ref.inputPrefix_length, Ref.record, recordLiteral_packToken, ← Nat.add_assoc,
    Ref.inputPrefix_succ]
  obtain rfl | ⟨hpos, hwindow, -, -, hlit, hbytes, -⟩ := h
  · rfl
  · have hcopy := Ref.copyFrom_inputPrefix (start := c - t.dist) (c := c) (by omega) t.len 0
      fun j hj => hbytes j (by omega)
    rw [Nat.add_zero] at hcopy
    rw [hcopy, hlit]

/-- Any first part of the encoder's stream decodes to the bytes that it covers (R340). -/
theorem Ref.decode_compress_prefix {chain : Bool} {inp : Nat → Byte} {n w L : Nat} (hL : L ≤ 255) (hw : w ≤ 65535)
    (pre : List Ref.Token) {post : List Ref.Token} (h : Ref.compress chain inp n w L = pre ++ post) :
    Ref.decode (pre.map Ref.record) = Ref.inputPrefix inp (Ref.covered pre) := by
  induction pre using List.reverseRecOn generalizing post with
  | nil => rfl
  | append_singleton pre t ih =>
    rw [List.append_assoc] at h
    have hsound : t.SoundAt chain inp n w L (Ref.covered pre) := by simpa using Ref.encode_token_soundAt n 0 [] pre h
    have hcovered : Ref.covered (pre ++ [t]) = Ref.covered pre + (t.len + 1) := by simp [Ref.covered]
    rw [List.map_append, Ref.decode, List.foldl_append, ← Ref.decode, ih h, hcovered]
    exact Ref.decodeRecord_of_soundAt hsound hL hw

/-- Settles O47: the whole stream covers the whole input. -/
theorem roundTripOfBytes : Obligations.RoundTripOfBytes := by
  intro chain inp n w L hw hL
  rw [Ref.decode_compress_prefix hL hw _ (List.append_nil _).symm, Ref.covered_compress]
  rfl

end Sys2Proof.Machine
end

section
/-! ### The engine's steps on a record (44_decoder.md R330, 30_encoding.md R164, 60_exceptions.md R413)

A record that the engine takes up puts it inside the record, and the steps within it lead to the head of the decoder's loop
or end the command (`State.runRecord_spec`). -/

namespace Sys2Proof.Machine

/-- Settles O8, by what the engine holds and the phase it stands in. -/
theorem stepRunsTheEngine : Obligations.StepRunsTheEngine := by
  intro s hpending
  have hstep : step s = engineMove s := by rw [step, hpending]
  refine ⟨fun r w hr hp => ?_, fun r hr hp => ?_, fun hidle => ?_⟩ <;> rw [hstep, engineMove]
  · simp only [hr, hp]
  · simp only [hr]
    cases hph : r.phase with
    | record w => exact absurd hph (hp w)
    | _ => rfl
  · simp only [hidle]

/-- The step that takes a record up. -/
theorem State.engineStep_record {s : State} {r : Run} {w : Word} (hr : s.engine = some r) (hp : r.phase = .record w) :
    s.engineStep = s.startRecord r (recordOffset w) (recordLength w) (recordLiteral w) := by
  rw [State.engineStep_busy hr, State.stepPhase, hp]
  rfl

/-- A record taken up is in its copy, or in the error that it raises, at most `2 * len + 5` steps from its end (R330). -/
theorem State.startRecord_inRecord (s : State) (r : Run) (off : Half) (len lit : Byte) :
    ∃ q, (s.startRecord r off len lit).engine = some q ∧ q.phase.inRecord = true ∧
      q.phase.recordSteps ≤ 2 * len.toNat + 5 ∧ q.recordCur = r.cur + 4 := by
  unfold State.startRecord
  split
  · exact ⟨_, rfl, rfl, Nat.le_add_left 2 _, rfl⟩
  · exact ⟨_, rfl, rfl, le_rfl, rfl⟩

/-- Settles O52: the first step takes the record up, and the others are the steps within it. -/
theorem tokenIsTheEnginesSteps : Obligations.TokenIsTheEnginesSteps := by
  intro s r w hr hp
  obtain ⟨q, hq, hin, hsteps, hcur⟩ :=
    s.startRecord_inRecord r (recordOffset w) (recordLength w) (recordLiteral w)
  obtain ⟨j, -, hrun, hinside, hend⟩ := State.runRecord_spec hq hin hsteps
  have hsucc : ∀ i, State.runSteps (i + 1) s =
      State.engineStep^[i] (s.startRecord r (recordOffset w) (recordLength w) (recordLiteral w)) := fun i => by
    rw [State.runSteps_eq_iterate, Function.iterate_succ_apply, State.engineStep_record hr hp]
  refine ⟨j + 1, Nat.le_add_left 1 j, ?_, fun i hpos hi => ?_, ?_⟩
  · rw [exec_token (decodeToken_fields w), State.runToken_record hr hp, hrun, hsucc]
  · obtain ⟨i, rfl⟩ := Nat.exists_eq_add_one.2 hpos
    rw [hsucc]
    exact hinside i (Nat.lt_of_succ_lt_succ hi)
  · rw [hsucc]
    obtain hidle | ⟨q', hq', hhead, hnext, -⟩ := hend
    · exact .inl hidle
    · exact .inr ⟨q', hq', hhead, hnext.trans hcur⟩

/-! ### A record that fits (R321 to R325) -/

@[simp] theorem State.outputOf_length (s : State) (p : Params) (m : Nat) : (s.outputOf p m).length = m := by
  simp [State.outputOf]

theorem State.holds_outputOf (s : State) (p : Params) (m : Nat) : s.Holds p (s.outputOf p m) := fun j _ => by
  simp [State.outputOf]

/-- Ordinary memory that the platform lets the engine write and read back is no occasion for BUS. -/
theorem State.plainWrites.outputOk {s : State} {p : Params} {m : Nat} (hw : s.plainWrites p.outBase.toNat m)
    (hr : s.plainReads p.outBase.toNat m) (bad : Prop) : s.OutputOk bad p m :=
  ⟨fun j hj => ⟨(hw j hj).2, .inl (hw j hj).1⟩, fun j hj => .inl (hr j hj).1⟩

theorem Params.outRangeFails_eq_false {p : Params} :
    p.outRangeFails = false ↔ p.outBase.toNat + p.outCap.toNat ≤ Config.addressSpace := by
  simp [Params.outRangeFails]

/-- What a DECOMPRESS that has just read a record keeps to: its output buffer lies in the address space (R103). -/
theorem State.Inv.outFits_of_record {s : State} {r : Run} {w : Word} (hinv : s.Inv) (hr : s.engine = some r)
    (hp : r.phase = .record w) : r.snap.outBase.toNat + r.snap.outCap.toNat ≤ Config.addressSpace := by
  have hok := hinv.engine r hr
  obtain ⟨htask, -⟩ : r.task = .decompress ∧ r.cur + 4 ≤ r.snap.n := by simpa [Run.phaseOk, hp] using hok.phase
  exact Params.outRangeFails_eq_false.1 (hok.outRange (by simp [hp]) (by simp [htask, Task.hasOutput]))

/-- A record with any fields may be the one just read: taken up, it keeps the invariant. -/
theorem State.Inv.startRecord {s : State} {r : Run} {w : Word} (hinv : s.Inv) (hr : s.engine = some r)
    (hp : r.phase = .record w) (off : Half) (len lit : Byte) : (s.startRecord r off len lit).Inv := by
  have hphase : Run.phaseOk { r with phase := .record (packToken off len lit) } := by
    simpa [Run.phaseOk, hp] using (hinv.engine r hr).phase
  have hrecord := hinv.goto hr (by rw [hp]; rfl) (.record (packToken off len lit)) rfl s.freeTick hphase
  have hstep := State.stepPhase_inv hrecord rfl
  simp only [State.stepPhase, State.stepRecord, recordOffset_packToken, recordLength_packToken,
    recordLiteral_packToken] at hstep
  exact hstep

/-- A record that fits is taken up at its copy loop (R321, R330). -/
theorem State.startRecord_fits {s : State} {r : Run} {off : Half} {len : Byte} (lit : Byte)
    (h : r.o + copyCount r.o off len + 1 ≤ r.snap.outCap.toNat) :
    s.startRecord r off len lit = s.goto r (.copy (r.o - off.toNat) len lit 0 0) := by
  rw [State.startRecord, if_neg (by omega)]

/-- Settles O49: every class has the one operation on its fields, whose steps `State.record_leads` follows to the head of
the decoder's loop. -/
theorem tokensComplete : Obligations.TokensComplete := by
  intro s r w i off len lit hinv hr hp hforeign hfields out out' hfit hwrites hreads
  have hout : out.length = r.o := s.outputOf_length r.snap r.o
  have hlength : out'.length = r.o + copyCount r.o off len + 1 := by
    rw [← hout]
    simpa using Ref.decodeRecord_length out (packToken off len lit)
  have hstart : s.startRecord r off len lit = s.goto r (.copy (r.o - off.toNat) len lit 0 0) :=
    State.startRecord_fits lit (hlength ▸ hfit)
  obtain ⟨seen, hcells, hregs, hleads⟩ := State.record_leads (bad := False) hforeign rfl hout.symm
    (s.holds_outputOf r.snap r.o) hinv.memory (hinv.outFits_of_record hr hp) (packToken off len lit) hfit
    (hwrites.outputOk hreads _)
  rw [recordOffset_packToken, recordLength_packToken, recordLiteral_packToken, hout] at hleads
  rw [hout] at hcells
  obtain ⟨m, hm⟩ := hleads.reaches
  refine ⟨seen, ?_, hregs, hcells⟩
  rw [exec_token hfields, State.runToken_record hr hp, hstart]
  exact congrArg _ (State.runRecord_eq rfl rfl m (hstart ▸ hinv.startRecord hr hp off len lit) rfl rfl le_rfl rfl rfl hm)

end Sys2Proof.Machine
end

section
/-! ### DECOMPRESS on the machine (44_decoder.md R330, R340; 60_exceptions.md R405, R411)

The engine's loop computes `Ref.decodeWithin` (`State.decode_leads`). What stands before it is the start of the command, and
after it, for the round trip, that the input is the stream that a COMPRESS has written. -/

namespace Sys2Proof.Machine

/-- DECOMPRESS's result over the parameters and the memory of `s`. -/
def State.decompressed (s : State) : List Byte × Nat :=
  Ref.decodeWithin s.params.outCap.toNat (Ref.records s.inByte s.params.n) []

/-- The output of the records that fit fits (R405). -/
theorem State.decompressed_fits (s : State) : s.decompressed.1.length ≤ s.params.outCap.toNat :=
  Ref.decodeWithin_fits _ (Nat.zero_le _)

/-! ### The start -/

/-- An accepted DECOMPRESS whose start check fails raises its error at once (R402, R403). -/
theorem State.accept_decompress_raises (s : State) {e : ErrCode} (h : s.params.codecCheck = some e) :
    (s.accept .decompress).stepPhase (Run.init .decompress s) =
      (s.accept .decompress).raise (Run.init .decompress s) e := by
  simp only [State.stepPhase, Run.init, State.stepStart, State.startDecompress, h]

/-- An accepted DECOMPRESS that passes its start checks comes to the head of its loop with the counts emptied (R330). -/
theorem State.accept_decompress_reaches (s : State) (hcheck : s.params.codecCheck = none) :
    ∃ regs : List (ResultReg × Word), (∀ c ∈ regs, c.1 ∈ progressRegs) ∧
      State.Reaches (s.accept .decompress)
        (State.goto { s.accept .decompress with cursor := 0, outLen := 0, tokenCount := 0 }
          { Run.init .decompress s with cur := 0, regJournal := regs } (.recordRead [])) := by
  have hstart : (s.accept .decompress).stepPhase (Run.init .decompress s) =
      (s.accept .decompress).updates { Run.init .decompress s with cur := 0 }
        (Run.progress { Run.init .decompress s with cur := 0 }) .recordRead := by
    simp only [State.stepPhase, Run.init, State.stepStart, State.startDecompress, hcheck]
  obtain ⟨regs, hregs, hleads⟩ := State.progress_leads (bad := False) (s.accept .decompress)
    { Run.init .decompress s with cur := 0 } .recordRead
  refine ⟨regs ++ [], by simpa using hregs, State.Reaches.step rfl ?_⟩
  rw [hstart]
  exact hleads.reaches

/-! ### The end -/

/-- What DECOMPRESS leaves when its loop gives `res` and `seen` is what the host has yet to be made to see. -/
def State.decompressEnd (s : State) (res : List Byte × Nat) (seen : Unseen) : State :=
  let fits := decide (res.2 = s.params.n / 4)
  { s.ended (if fits then .none else .outOverflow) with
    tail := fits && decide (s.params.n % 4 ≠ 0)
    cursor := BitVec.ofNat 32 (4 * res.2)
    outLen := BitVec.ofNat 32 res.1.length
    tokenCount := BitVec.ofNat 32 res.2
    mem := Memory.writeBytes s.mem s.params.outBase.toNat res.1
    unseen := seen }

/-- Bytes trail the last record where the input's length is no multiple of 4 (R332). -/
theorem decide_trailing (n m : Nat) :
    (decide (m = n / 4) && decide (4 * m < n)) = (decide (m = n / 4) && decide (n % 4 ≠ 0)) := by
  by_cases h : m = n / 4
  · have : 4 * m < n ↔ n % 4 ≠ 0 := by omega
    simp [this]
  · simp [h]

/-- The loop's end, from the accepted command's counts, is the command's (R330). -/
theorem State.decoded_eq_decompressEnd {s : State} (hidle : s.busy = false) (regs : List (ResultReg × Word))
    (res : List Byte × Nat) (seen : Unseen) :
    State.decoded { s.accept .decompress with cursor := 0, outLen := 0, tokenCount := 0 }
        { Run.init .decompress s with cur := 0, regJournal := regs } [] (decide (res.2 = s.params.n / 4)) res.1 res.2 seen =
      s.decompressEnd res seen := by
  have htail := decide_trailing s.params.n res.2
  simp only [State.decoded, State.decompressEnd, State.ended_eq_accept hidle .decompress, Run.init, Nat.zero_add,
    List.length_nil, List.drop_zero, htail]
  simp [State.accept, State.retire, Unseen.append, Unseen.nothing, Params.outAddr]

/-- An accepted DECOMPRESS over ordinary memory leads to what the decoder's loop says, unless the platform refuses an access
(R330). -/
theorem State.accept_decompress_leads {bad : Prop} {s : State} (hinv : s.Inv) (hidle : s.busy = false)
    (hcheck : s.params.codecCheck = none) (hin : s.Readable bad s.params)
    (hout : s.OutputOk bad s.params s.decompressed.1.length) :
    ∃ seen : Unseen, (∀ c ∈ seen.cells, ∃ j < s.decompressed.1.length, c.1 = s.params.outAddr j) ∧
      (∀ c ∈ seen.regs, c.1 ∈ progressRegs) ∧
      State.Leads bad (s.accept .decompress) (s.decompressEnd s.decompressed seen) := by
  obtain ⟨-, hrange, hapart⟩ := Params.codecCheck_none hcheck
  obtain ⟨regs, hregs, hstart⟩ := s.accept_decompress_reaches hcheck
  obtain ⟨seen, hcells, hseen, hloop⟩ := State.decode_leads (bad := bad) (s.params.n / 4) (q := 0) (out := [])
    (s := { s.accept .decompress with cursor := 0, outLen := 0, tokenCount := 0 })
    (r := { Run.init .decompress s with cur := 0, regJournal := regs }) rfl hin rfl rfl (Nat.zero_le _)
    (fun j hj i hi => Params.inAddr_ne_outAddr hapart hi hj) rfl nofun hinv.memory
    (Params.outRangeFails_eq_false.1 hrange) (Nat.zero_le _) ⟨rfl, rfl, rfl⟩ s.decompressed
    (by rw [← List.range_eq_range']; rfl) hout
  refine ⟨seen, fun c hc => ?_, fun c hc => (hseen c hc).elim (hregs c) id, .trans (.inl hstart) ?_⟩
  · obtain hold | ⟨j, -, hj, ha⟩ := hcells c hc
    · cases hold
    · exact ⟨j, hj, ha⟩
  · rw [← State.decoded_eq_decompressEnd hidle regs]
    exact hloop

/-- Settles O45: on buffers that the platform refuses nowhere the loop's end is the command's
(`State.accept_decompress_leads`). -/
theorem decompressCompletes : Obligations.DecompressCompletes := by
  intro s hinv hready hcheck res fits hin hwrites hreads
  have hidle := hready.idle
  obtain ⟨seen, hcells, hregs, hleads⟩ := State.accept_decompress_leads (bad := False) hinv hidle hcheck
    (hin.readable _) (hwrites.outputOk hreads _)
  refine ⟨seen, ?_, hregs, fun c hc => ?_⟩
  · rw [exec_of_task (task := .decompress) rfl,
      State.offer_advance hinv hidle hready.waits hleads.reaches (State.not_busy_iff.1 hidle)]
    rfl
  · obtain ⟨j, hj, ha⟩ := hcells c hc
    rw [ha, Params.outAddr]
    exact ⟨Nat.le_add_right _ _, Nat.add_lt_add_left hj _⟩

/-! ### A DECOMPRESS that ends with ERR = NONE -/

/-- A DECOMPRESS over memory without side effects that ends with ERR = NONE has decoded every record of its input (R330,
R405): no access was refused, no start check failed, and the output buffer sufficed. -/
theorem exec_decompress_of_err_none {s t : State} (hinv : s.Inv) (hready : s.Ready)
    (hin : ∀ i < s.params.n, s.platform.hasSideEffects (s.params.inAddr i) = false)
    (hout : ∀ j < s.params.outCap.toNat, s.platform.hasSideEffects (s.params.outAddr j) = false)
    (ht : exec .decompress s = .next t) (herr : t.err = .none) :
    s.params.codecCheck = none ∧ s.decompressed.2 = s.params.n / 4 ∧ ∃ seen, t = s.decompressEnd s.decompressed seen := by
  obtain ⟨hreach, hend⟩ := exec_ready_reaches (task := .decompress) hinv hready rfl ht
  cases hcheck : s.params.codecCheck with
  | some e =>
    obtain ⟨-, hat⟩ := Params.codecCheck_some (t := .decompress) hcheck rfl
    rw [exec_of_task (task := .decompress) rfl, State.offer_refused hready (s.accept_decompress_raises hcheck) hat] at ht
    cases ht
    cases (herr : e = .none)
    cases hat
  | none =>
    have hfits := s.decompressed_fits
    obtain ⟨seen, -, -, hloop | ⟨-, u, hbus, hidle, hu⟩⟩ := State.accept_decompress_leads (bad := True) hinv hready.idle
      hcheck (fun i hi => ⟨hin i hi, .inr trivial⟩)
      ⟨fun j hj => ⟨hout j (by omega), .inr trivial⟩, fun j _ => .inr trivial⟩
    · obtain rfl := hreach.idle_unique hloop hend (State.not_busy_iff.1 hready.idle)
      refine ⟨rfl, ?_, seen, rfl⟩
      by_contra hshort
      simp [State.decompressEnd, State.ended, hshort] at herr
    · obtain rfl := hreach.idle_unique hbus hend hidle
      rw [hu] at herr
      cases herr

/-! ### Round trip (R340) -/

/-- A record is its four bytes assembled (R160, R162). -/
theorem recordWord_recordByte (w : Word) :
    recordWord (recordByte w 0) (recordByte w 1) (recordByte w 2) (recordByte w 3) = w := by
  have hw := w.isLt
  obtain ⟨-, -, -, hword, -⟩ := recordFieldAssembly (recordByte w 0) (recordByte w 1) (recordByte w 2) (recordByte w 3)
  refine BitVec.eq_of_toNat_eq (hword.trans ?_)
  simp only [toNat_recordByte]
  omega

/-- Byte `j` of the `k`-th token's record stands at position `4 k + j` of the stream (R165). -/
theorem Ref.streamBytes_getD (ts : List Ref.Token) {k j : Nat} (hk : k < ts.length) (hj : j < 4) :
    (Ref.streamBytes ts).getD (4 * k + j) 0 = recordByte (Ref.record ts[k]) j := by
  induction ts generalizing k with
  | nil => cases hk
  | cons t ts ih =>
    rw [Ref.streamBytes, List.flatMap_cons, ← Ref.streamBytes]
    cases k with
    | zero =>
      rw [List.getD_append _ _ _ _ (by simpa using hj)]
      simp [Ref.recordBytes, hj]
    | succ k =>
      rw [List.getD_append_right _ _ _ _ (by rw [Ref.recordBytes_length]; omega), Ref.recordBytes_length,
        show 4 * (k + 1) + j - 4 = 4 * k + j by omega]
      exact ih (Nat.lt_of_succ_lt_succ hk)

/-- The records of an input that holds a token stream are the tokens' records (R165, R320). -/
theorem Ref.records_of_streamBytes {inp : Nat → Byte} {ts : List Ref.Token}
    (h : ∀ j < 4 * ts.length, inp j = (Ref.streamBytes ts).getD j 0) :
    Ref.records inp (4 * ts.length) = ts.map Ref.record := by
  refine List.ext_getElem (by simp) fun k _ hk => ?_
  rw [List.length_map] at hk
  have hbyte : ∀ j < 4, inp (4 * k + j) = recordByte (Ref.record ts[k]) j := fun j hj => by
    rw [h _ (by omega), Ref.streamBytes_getD ts hk hj]
  have h0 := hbyte 0 (by omega)
  rw [Nat.add_zero] at h0
  simp [Ref.records, Ref.recordAt, h0, hbyte, recordWord_recordByte]

/-- The bytes that DECOMPRESS wrote are read back from its output buffer. -/
theorem State.read_decompressEnd {s : State} {res : List Byte × Nat} (hinv : s.Inv) (hcheck : s.params.codecCheck = none)
    (hlen : res.1.length ≤ s.params.outCap.toNat) (seen : Unseen) {j : Nat} (hj : j < res.1.length) :
    Memory.read (s.decompressEnd res seen).mem (s.params.outAddr j) = res.1[j] := by
  obtain ⟨-, hrange, -⟩ := Params.codecCheck_none hcheck
  have hspace := Params.outRangeFails_eq_false.1 hrange
  exact Memory.read_writeBytes_inside hinv.memory _ hj (by omega)

/-- Settles O48: the DECOMPRESS's records are those of the COMPRESS's tokens, which decode to the input
(`roundTripOfBytes`). -/
theorem roundTripOnTheMachine : Obligations.RoundTripOnTheMachine := by
  intro s t u v chain hinv hready hinv' hready' hL hin hout ht hterr hlen hbytes hin' hout' _ hv hverr
  obtain ⟨-, hroom, -⟩ := exec_compress_of_err_none hinv hready hin hout ht hterr
  obtain ⟨-, houtLen, hcount, hread⟩ := exec_compress_results hinv hready hin hout ht hterr
  obtain ⟨hcheck, hall, seen, rfl⟩ := exec_decompress_of_err_none hinv' hready' hin' hout' hv hverr
  have hback := roundTripOfBytes chain s.inByte s.params.n s.params.w s.params.L
    (Nat.le_of_lt_succ s.params.window.isLt) hL
  generalize Ref.compress chain s.inByte s.params.n s.params.w s.params.L = ts at hroom houtLen hcount hread hback
  have hstream : t.outLen.toNat = 4 * ts.length := by
    rw [houtLen, BitVec.toNat_ofNat]
    exact Nat.mod_eq_of_lt (hroom.trans_lt s.params.outCap.isLt)
  have hn : u.params.n = 4 * ts.length := by rw [Params.n, hlen, hstream]
  have hrecords : Ref.records u.inByte u.params.n = ts.map Ref.record := by
    rw [hn]
    exact Ref.records_of_streamBytes fun j hj => (hbytes j (hstream ▸ hj)).trans (hread j hj)
  have hresult : u.decompressed = ((List.range s.params.n).map s.inByte, ts.length) := by
    have hfull : u.decompressed = (Ref.decode (Ref.records u.inByte u.params.n), _) :=
      Ref.decodeWithin_of_count (by rw [Ref.records_length]; exact hall)
    rw [hfull, hrecords, hback, List.length_map]
  have hfits := u.decompressed_fits
  rw [hresult] at hfits ⊢
  refine ⟨fun i hi => ?_, ?_, hcount.symm, ?_⟩
  · rw [State.read_decompressEnd hinv' hcheck hfits seen (by simpa using hi)]
    simp
  · simp [State.decompressEnd, Params.n]
  · simp [State.decompressEnd, hn]

end Sys2Proof.Machine
end

section
/-! ### NOP and INDEX_CLEAR (45_control.md R361, 42_hash_chain.md R252) -/

namespace Sys2Proof.Machine

/-- A command whose first step is its end, over an idle block's registers and some index, leaves that index and has
changed nothing else but STATUS (R360). -/
theorem State.offer_ended {s : State} {task : Task} (h : s.Ready) (idx : List (Nat × List Nat))
    (hend : (s.accept task).stepPhase (Run.init task s) =
      State.finish { s.accept task with index := idx } (Run.init task s) .none) :
    (s.offer task).advance = { s.ended .none with index := idx } := by
  rw [State.finish_clean _ _ _ rfl] at hend
  rw [State.offer_advance_start h (by rw [hend]), hend, State.ended_eq_accept h.idle task]
  rfl

/-- Settles O26: either command ends in its first step, INDEX_CLEAR with the index emptied. -/
theorem nopAndIndexClearComplete : Obligations.NopAndIndexClearComplete := by
  intro s h
  rw [exec_of_task (i := .nop) rfl, exec_of_task (i := .indexClear) rfl, State.offer_ended h s.index rfl,
    State.offer_ended h [] rfl]
  exact ⟨rfl, rfl⟩

end Sys2Proof.Machine
end

section
/-! ### RESET and the hardware reset (45_control.md R362, 70_reset_and_hazards.md R450)

Both are `State.resetDevice`: the reset state over the memory that `State.abort` leaves. -/

namespace Sys2Proof.Machine

theorem Params.outside_of_not_inOutput {p : Params} {a : Nat} (h : p.inOutput a = false) :
    a < p.outBase.toNat ∨ p.outBase.toNat + p.outCap.toNat ≤ a := by
  simp only [Params.inOutput, Region.holds, Bool.and_eq_false_iff, decide_eq_false_iff_not] at h
  omega

/-- A byte of an output buffer that passed its start check lies in the address space (R103). -/
theorem Params.lt_of_inOutput {p : Params} {a : Nat} (hrange : p.outRangeFails = false) (h : p.inOutput a = true) :
    a < Config.addressSpace := by
  simp only [Params.outRangeFails, decide_eq_false_iff_not] at hrange
  simp only [Params.inOutput, Region.holds, Bool.and_eq_true, decide_eq_true_eq] at h
  omega

theorem mem_valuesAt {cells : List Host.Cell} {c : Host.Cell} (h : c ∈ cells) : c.2 ∈ Memory.valuesAt cells c.1 :=
  List.mem_filterMap.2 ⟨c, h, if_pos rfl⟩

/-! ### What an abort leaves in memory -/

/-- The bytes the running command has written, each with the two values an abort may leave (R362, U3). -/
def Run.writtenBytes (r : Run) (s : State) : List Blur :=
  r.journal.map fun c => { addr := c.1, old := c.2, new := Memory.read s.mem c.1 }

theorem Run.mem_writtenBytes {r : Run} {s : State} {b : Blur} :
    b ∈ r.writtenBytes s ↔ ∃ c ∈ r.journal, { addr := c.1, old := c.2, new := Memory.read s.mem c.1 } = b :=
  List.mem_map

/-- The running command has written bytes of its output buffer only, which lies in the address space (R103, R111). -/
theorem Run.Ok.writtenBytes_inOutput {r : Run} {s : State} (hk : r.Ok s) {b : Blur} (hb : b ∈ r.writtenBytes s) :
    r.task.hasOutput = true ∧ r.snap.inOutput b.addr = true ∧ b.addr < Config.addressSpace := by
  obtain ⟨c, hc, rfl⟩ := Run.mem_writtenBytes.1 hb
  obtain ⟨hout, hbegun, hin⟩ := hk.journal c hc
  exact ⟨hout, hin, Params.lt_of_inOutput (hk.outRange hbegun hout) hin⟩

theorem State.abort_idle {s : State} (hr : s.engine = none) : s.abort = s := by
  simp [State.abort, hr]

/-- An abort frees the bytes written, and after a broken R460 the whole output buffer (R362, R460). -/
theorem State.abort_busy {s : State} {r : Run} (hr : s.engine = some r) :
    s.abort =
      if r.foreign = [] ∨ r.task.hasOutput = false ∨ r.phase.begun = false then s.blur (r.writtenBytes s)
      else (s.blur (r.writtenBytes s)).scrambleBytes r.snap.outBase.toNat r.snap.outCap.toNat := by
  rw [State.abort, hr]
  rfl

/-- An abort changes nothing but memory and the counter. -/
theorem State.abort_spec (s : State) : ∃ m n, s.abort = { s with mem := m, freeTick := n } := by
  rcases Option.eq_none_or_eq_some s.engine with hr | ⟨r, hr⟩
  · exact ⟨s.mem, s.freeTick, State.abort_idle hr⟩
  · obtain ⟨m, n, hblur, -⟩ := State.blur_spec s (r.writtenBytes s)
    obtain ⟨m', n', hscramble, -⟩ :=
      State.scrambleBytes_spec (s.blur (r.writtenBytes s)) r.snap.outBase.toNat r.snap.outCap.toNat
    rw [State.abort_busy hr]
    split
    · exact ⟨m, n, hblur⟩
    · exact ⟨m', n', by rw [hscramble, hblur]⟩

section
variable {s : State} {r : Run} (h : s.Inv) (hr : s.engine = some r)
include h hr

/-- An abort leaves every byte outside the aborted command's output buffer as it was (R362). -/
theorem State.read_abort_outside {a : Nat} (ha : r.task.hasOutput = true → r.snap.inOutput a = false) :
    Memory.read s.abort.mem a = Memory.read s.mem a := by
  have hblurred : Memory.read (s.blur (r.writtenBytes s)).mem a = Memory.read s.mem a := by
    obtain ⟨m, n, hblur, hread, -⟩ := State.blur_spec s (r.writtenBytes s)
    rw [hblur]
    refine hread a fun b hb hba => ?_
    obtain ⟨hout, hin, -⟩ := (h.engine r hr).writtenBytes_inOutput hb
    rw [hba, ha hout] at hin
    cases hin
  rw [State.abort_busy hr]
  split
  · exact hblurred
  · rename_i hbroken
    simp only [not_or, Bool.not_eq_false] at hbroken
    obtain ⟨-, hout, -⟩ := hbroken
    obtain ⟨m, n, hscramble, hread, -⟩ :=
      State.scrambleBytes_spec (s.blur (r.writtenBytes s)) r.snap.outBase.toNat r.snap.outCap.toNat
    rw [hscramble]
    exact (hread a (Params.outside_of_not_inOutput (ha hout))).trans hblurred

/-- Where nobody else wrote the command's buffers an abort leaves each byte as it was, or with a value the command's own
writes replaced (R362, U3). -/
theorem State.read_abort_unbroken (hf : r.foreign = []) (a : Nat) :
    Memory.read s.abort.mem a = Memory.read s.mem a ∨
      Memory.read s.abort.mem a ∈ Memory.valuesAt r.journal a := by
  rw [State.abort_busy hr, if_pos (.inl hf)]
  rcases State.blur_values (fun b hb => ((h.engine r hr).writtenBytes_inOutput hb).2.2) h.memory a with
    hsame | ⟨b, hb, rfl, hval⟩
  · exact .inl hsame
  · obtain ⟨c, hc, rfl⟩ := Run.mem_writtenBytes.1 hb
    rcases hval with hold | hnew
    · exact .inr (hold ▸ mem_valuesAt hc)
    · exact .inl hnew

end

/-! ### The reset -/

theorem State.resetDevice_mem (s : State) : s.resetDevice.mem = s.abort.mem := rfl

/-- The reset state over what the abort leaves in memory, with the host's side kept (R90, R122, R362). -/
theorem State.resetDevice_eq (s : State) :
    s.resetDevice = { State.resetOn s.platform s.abort.mem with
      pending := s.pending, readback := s.readback, freeTick := s.resetDevice.freeTick
      unseen := { s.unseen with regs := [] }, stale := { s.stale with regs := [] } } := by
  obtain ⟨m, n, habort⟩ := s.abort_spec
  simp only [State.resetDevice, habort]

theorem State.resetDevice_statusWord (s : State) : s.resetDevice.statusWord = 0 :=
  State.regWord_resetOn s.abort.platform s.abort.mem .status

/-- The hardware reset acts when it comes, whatever the machine does (R450). -/
theorem step_hardReset {s : State} {e : HostEvent} {rest : List HostEvent} (hp : s.pending = e :: rest)
    (ha : e.access = .hardReset) : step s = .next (State.resetDevice { s with pending := rest }) := by
  rw [step_of_hostAccess hp (by rw [ha]; rfl), ha]
  rfl

/-- Settles O20: the memory left is the abort's, which `State.read_abort_outside` and `State.read_abort_unbroken` bound. -/
theorem resetCommand : Obligations.ResetCommand := by
  intro s h
  refine ⟨s.resetDevice, exec_reset s, fun d => step_hardReset rfl rfl, s.resetDevice_eq, s.resetDevice_statusWord,
    fun hidle => ?_, fun r a hr => ?_⟩
  · rw [State.resetDevice_mem, State.abort_idle hidle]
  · rw [State.resetDevice_mem]
    exact ⟨State.read_abort_outside h hr, fun hf => State.read_abort_unbroken h hr hf a⟩

end Sys2Proof.Machine
end

section
/-! ### Illegal words and the interrupt line (60_exceptions.md R401, R420) -/

namespace Sys2Proof.Machine

/-- An illegal word is offered to the block, and runs no instruction (R154, R360). -/
theorem commandWrite_illegal {v : Word} (h : legalWord v = false) (s : State) :
    commandWrite v s = .next s.offerIllegal.advance := by
  unfold commandWrite
  split
  · rename_i i hi
    rw [(legalWord_iff_decodes v).2 ⟨i, hi⟩] at h
    cases h
  · rfl

/-- Settles O9: an idle block rejects the word, and with no command to run nothing follows; a busy one drops it. -/
theorem illegalWordIsRejected : Obligations.IllegalWordIsRejected := by
  intro s e rest v hp ha hv
  rw [step_cmdWrite hp ha, commandWrite_illegal hv, State.offerIllegal]
  refine ⟨fun hidle => ⟨?_, rfl, Bool.true_and _⟩, fun hbusy => ?_⟩
  · rw [show State.busy { s with pending := rest } = false from hidle, if_neg Bool.false_ne_true,
      State.advance_of_idle (by exact hidle)]
    rfl
  · rw [show State.busy { s with pending := rest } = true from hbusy, if_pos rfl]
    rfl

/-- Bit 0 of CTRL is IRQ_EN (R54). -/
theorem State.ctrlWord_irqEn (s : State) : s.ctrlWord.getLsbD 0 = s.irqEn := by
  rw [State.ctrlWord, BitVec.getLsbD_append]
  simp

/-- Settles O18: the line is computed from the two bits, so it moves with them and falls with DONE. -/
theorem interruptLine : Obligations.InterruptLine := by
  intro s v task
  refine ⟨?_, ⟨rfl, rfl⟩, fun hack => ?_, rfl, rfl⟩
  · rw [State.ctrlWord_irqEn, State.getLsbD_statusWord]
    rfl
  · change (s.done && !v.getLsbD 1 && s.irqEn) = false
    rw [hack, Bool.not_true, Bool.and_false, Bool.false_and]

end Sys2Proof.Machine
end

section
/-! ### The errors of a command: start checks, room and the codes it can end with (60_exceptions.md R400 to R411) -/

namespace Sys2Proof.Machine

/-! ### RANGE and OVERLAP (R402, R403) -/

theorem Params.codecCheck_range {p : Params} (h : p.inBase.toNat + p.inLen.toNat > 2 ^ 32 ∨
    p.outBase.toNat + p.outCap.toNat > 2 ^ 32) : p.codecCheck = some .range := by
  rw [Params.codecCheck, if_pos]
  simpa [Params.inRangeFails, Params.outRangeFails, Config.addressSpace] using h

theorem Params.codecCheck_overlap {p : Params} (hin : p.inBase.toNat + p.inLen.toNat ≤ 2 ^ 32)
    (hout : p.outBase.toNat + p.outCap.toNat ≤ 2 ^ 32) (h : p.buffersOverlap = true) :
    p.codecCheck = some .overlap := by
  rw [Params.codecCheck, if_neg, if_pos h]
  simpa [Params.inRangeFails, Params.outRangeFails, Config.addressSpace] using And.intro hin hout

theorem Params.queryCheck_range {p : Params} (h : p.inBase.toNat + p.inLen.toNat > 2 ^ 32) :
    p.queryCheck = some .range := by
  rw [Params.queryCheck, if_pos]
  simpa [Params.inRangeFails, Config.addressSpace] using h

/-- A command whose start check fails, given to an idle block whose host waits, changes nothing but STATUS (R402, R403). -/
theorem exec_refused {s : State} {i : Instr} {task : Task} {e : ErrCode} (hi : i.task = some task) (hready : s.Ready)
    (hraise : (s.accept task).stepPhase (Run.init task s) = (s.accept task).raise (Run.init task s) e)
    (hat : e.atStart = true) : exec i s = .next (s.ended e) := by
  rw [exec_of_task hi, State.offer_refused hready hraise hat]

/-- The start checks of COMPRESS and DECOMPRESS. -/
theorem exec_codec_refused {s : State} {i : Instr} {e : ErrCode} (hready : s.Ready)
    (hi : i ∈ ([.compressLin, .compressHc, .decompress] : List Instr)) (h : s.params.codecCheck = some e) :
    exec i s = .next (s.ended e) := by
  have hat : e.atStart = true := (Params.codecCheck_some (t := .decompress) h rfl).2
  simp only [List.mem_cons, List.not_mem_nil, or_false] at hi
  rcases hi with rfl | rfl | rfl
  · exact exec_refused (task_compress false) hready (s.accept_compress_raises false h) hat
  · exact exec_refused (task_compress true) hready (s.accept_compress_raises true h) hat
  · exact exec_refused rfl hready (s.accept_decompress_raises h) hat

/-- The start check of FIND_LINEAR, FIND_HC and HASH3. -/
theorem exec_query_refused {s : State} {i : Instr} {e : ErrCode} (hready : s.Ready)
    (hi : i ∈ ([.findLinear, .findHc, .hash3] : List Instr)) (h : s.params.queryCheck = some e) :
    exec i s = .next (s.ended e) := by
  have hat : e.atStart = true := (Params.queryCheck_some (t := .hash3) h rfl).2
  have hfind : ∀ task, task.isQuery = true → (s.accept task).stepPhase (Run.init task s) =
      (s.accept task).raise (Run.init task s) e := fun task hq => by
    rw [State.stepPhase, show (Run.init task s).phase = .start from rfl]
    exact (State.stepStart_query _ hq).trans (by simp only [State.startFind, Run.init, h])
  simp only [List.mem_cons, List.not_mem_nil, or_false] at hi
  rcases hi with rfl | rfl | rfl
  · exact exec_refused rfl hready (hfind .findLinear rfl) hat
  · exact exec_refused rfl hready (hfind .findHc rfl) hat
  · exact exec_refused rfl hready (by simp only [State.stepPhase, Run.init, State.stepStart, State.startHash3, h]) hat

/-- Settles O27: each condition makes the command's start check fail with its error. -/
theorem failedStartChecksChangeOnlyStatus : Obligations.FailedStartChecksChangeOnlyStatus := by
  intro s i hready
  refine ⟨fun hi h => exec_codec_refused hready hi (Params.codecCheck_range h),
    fun hi h => exec_query_refused hready hi (Params.queryCheck_range h),
    fun hi hin hout hn hcap h1 h2 => exec_codec_refused hready hi (Params.codecCheck_overlap hin hout ?_)⟩
  simp only [Params.buffersOverlap, hn, hcap, h1, h2, decide_true, Bool.and_self]

/-! ### OUT_OVERFLOW (R405) -/

/-- At the head of its loop a COMPRESS with a byte to encode and no room for a token raises OUT_OVERFLOW (R290). -/
theorem State.stepPhase_encodeTop_full (s : State) {r : Run} (hp : r.phase = .encodeTop) (hcur : r.cur < r.snap.n)
    (hfull : r.snap.outCap.toNat < r.o + 4) : s.stepPhase r = s.raise r .outOverflow := by
  simp only [State.stepPhase, hp, State.stepEncodeTop]
  exact (if_pos hcur).trans (if_pos hfull)

/-- A record whose `cnt + 1` bytes do not fit raises OUT_OVERFLOW (R330). -/
theorem State.startRecord_full (s : State) {r : Run} {off : Half} {len : Byte} (lit : Byte)
    (hfull : r.snap.outCap.toNat < r.o + copyCount r.o off len + 1) :
    s.startRecord r off len lit = s.raise r .outOverflow := if_pos hfull

/-- Within a record an error ends the command in two steps (R410). -/
theorem State.runRecord_raise (s : State) (r : Run) (e : ErrCode) (hf : r.foreign = []) (k : Nat) :
    State.runRecord (k + 2) (s.raise r e) = { s with
      engine := none, done := true, err := e
      unseen := Unseen.append { cells := r.journal, regs := r.regJournal } s.unseen } := by
  rw [← State.raise_steps s r e (.inl hf), State.runRecord_step rfl rfl, State.runRecord_step rfl rfl]
  refine State.runRecord_idle ?_ k
  exact State.finish_engine _ _ _

/-- An accepted COMPRESS that passes its start checks and has no room for one token empties the index and its counts, and
then ends with OUT_OVERFLOW (R290). -/
theorem State.accept_compress_full {s : State} (chain : Bool) (hidle : s.busy = false)
    (hcheck : s.params.codecCheck = none) (hn : s.params.inLen.toNat ≥ 1) (hcap : s.params.outCap.toNat < 4) :
    State.Reaches (s.accept (Task.compress chain))
      { s.ended .outOverflow with
        cursor := 0, outLen := 0, tokenCount := 0, index := []
        unseen := { cells := [], regs := s.oldResults [.tokenCount, .outLen, .cursor] } } := by
  have hhead : State.Reaches (s.accept (Task.compress chain))
      (State.goto { s.accept (Task.compress chain) with index := [], cursor := 0, outLen := 0, tokenCount := 0 }
        { Run.init (Task.compress chain) s with
          cur := 0, regJournal := s.oldResults [.tokenCount, .outLen, .cursor] } .encodeTop) :=
    .step rfl (s.accept_compress_starts chain hcheck ▸ State.updates_reaches _ _ _ _)
  refine hhead.trans (.step rfl ?_)
  rw [State.stepPhase_encodeTop_full _ (by rfl) (by exact hn) (by exact hcap),
    State.ended_eq_accept hidle (Task.compress chain)]
  exact State.raise_reaches _ _ .outOverflow (.inl rfl)

/-- Settles O51: where the room is checked and found short the command raises its error at once. -/
theorem outputOverflow : Obligations.OutputOverflow := by
  refine ⟨fun s chain hinv hready hcheck hn hcap => ?_, fun s r hinv hr hp hf hcur hfull => ?_,
    fun s r w i off len lit hinv hr hp hf hi hfull => ?_⟩
  · rw [exec_of_task (task_compress chain), State.offer_advance hinv hready.idle hready.waits
      (State.accept_compress_full chain hready.idle hcheck hn hcap) (State.not_busy_iff.1 hready.idle)]
  · refine State.runToEnd_eq hinv (.step hr ?_) rfl
    rw [s.stepPhase_encodeTop_full hp hcur hfull]
    exact State.raise_reaches s r .outOverflow (.inl hf)
  · rw [exec_token hi, State.runToken_record hr hp, s.startRecord_full lit hfull]
    exact congrArg Host.Outcome.next (s.runRecord_raise r .outOverflow hf _)

/-! ### What a command that ends early has written (R411) -/

/-- An encoder with less room, or an index with a bound, emits the first tokens of what it emits with room enough. -/
theorem Ref.encode_prefix {chain : Bool} {cap : Option Nat} {inp : Nat → Byte} {n w L : Nat} (room c : Nat)
    (idx : List (Nat × List Nat)) : ∀ room', n ≤ c + room' →
      (Ref.encode chain cap inp n w L room c idx).1 <+: (Ref.encode chain none inp n w L room' c idx).1 := by
  fun_induction Ref.encode chain cap inp n w L room c idx with
  | case1 | case2 | case4 => exact fun _ _ => List.nil_prefix
  | case3 room c idx hlt hfull found tok rest ih =>
    intro room' hroom
    obtain ⟨room', rfl⟩ : ∃ k, room' = k + 1 := Nat.exists_eq_add_one.2 (by omega)
    rw [Ref.encode, if_pos hlt, if_neg (by simp [Ref.fullAt_unbounded])]
    exact List.cons_prefix_cons.2 ⟨rfl, ih room' (by omega)⟩

/-- More records only add to the output. -/
theorem Ref.prefix_foldl_decodeRecord (ws : List Word) (out : List Byte) : out <+: ws.foldl Ref.decodeRecord out := by
  induction ws generalizing out with
  | nil => exact List.prefix_refl _
  | cons w ws ih => exact (Ref.prefix_decodeRecord out w).trans (ih _)

/-- The first records of a stream decode to the first bytes of its output. -/
theorem Ref.decode_take_prefix (ws : List Word) (k : Nat) : Ref.decode (ws.take k) <+: Ref.decode ws := by
  calc Ref.decode (ws.take k)
    _ <+: (ws.drop k).foldl Ref.decodeRecord (Ref.decode (ws.take k)) := Ref.prefix_foldl_decodeRecord _ _
    _ = Ref.decode ws := by rw [Ref.decode, ← List.foldl_append, List.take_append_drop, Ref.decode]

/-- Settles O40: of the encoder by its loop; the decoder's bounded loop decodes the records that fit. -/
theorem errorsKeepAPrefix : Obligations.ErrorsKeepAPrefix := by
  refine ⟨fun chain cap inp n w L room => Ref.encode_prefix room 0 [] n (Nat.zero_add n).ge, fun cap ws => ?_⟩
  have htake : (Ref.decodeWithin cap ws []).1 = Ref.decode (ws.take (Ref.decodeWithin cap ws []).2) :=
    Ref.decodeWithin_eq_foldl_take cap ws []
  exact ⟨htake, htake ▸ Ref.decode_take_prefix ws _⟩

/-! ### The codes a command ends with (R400, R460) -/

/-- A step that ends a command is its end: NONE from where it works, or the error it has recorded. -/
theorem State.finish_of_stepPhase_idle {s : State} {r : Run} (h : (s.stepPhase r).engine = none) :
    ∃ idx e, (e = .none ∨ r.phase = .ending e) ∧ s.stepPhase r = State.finish { s with index := idx } r e := by
  generalize ht : s.stepPhase r = t at h ⊢
  have hm := ht ▸ s.stepPhase_move r
  cases hm with
  | @finishes idx e he => exact ⟨idx, e, he.imp_left And.right, rfl⟩
  | @updates u rest next hp => cases rest <;> cases h
  | goes | trails | raises => cases h

/-- R400: the codes a command can end with once its start checks have passed are among its codes. -/
theorem Task.runErrors_subset_errors (t : Task) : t.runErrors ⊆ t.errors := fun _ he =>
  List.mem_append_left _ (List.mem_append_left _ he)

/-- The step that ends a command leaves one of its codes in ERR, drawn after a broken R460 or not. -/
theorem State.err_of_stepPhase_idle {s : State} {r : Run} (hk : r.Ok s) (h : (s.stepPhase r).engine = none) :
    (s.stepPhase r).err ∈ r.task.errors := by
  obtain ⟨idx, e, he, hend⟩ := State.finish_of_stepPhase_idle h
  have hown : e ∈ r.task.errors := by
    rcases he with rfl | hp
    · exact r.task.none_mem_errors
    · have hpo := hk.phase
      rw [Run.phaseOk, hp] at hpo
      exact hpo
  rw [hend]
  rcases State.finish_err { s with index := idx } r e with h' | h'
  · rw [h']
    exact hown
  · exact r.task.runErrors_subset_errors h'

/-- A running command that has come to its end has left one of its codes in ERR. -/
theorem State.err_of_runSteps_idle {s : State} {r : Run} (hI : s.Inv) (hr : s.engine = some r) (k : Nat)
    (h : (State.runSteps k s).engine = none) : (State.runSteps k s).err ∈ r.task.errors := by
  induction k generalizing s r with
  | zero =>
    rw [State.runSteps, hr] at h
    cases h
  | succ k ih =>
    rw [State.runSteps, if_pos (State.busy_iff.2 ⟨r, hr⟩), State.engineStep_busy hr] at h ⊢
    cases he : (s.stepPhase r).engine with
    | none =>
      rw [State.runSteps_eq_iterate, State.iterate_idle he]
      exact State.err_of_stepPhase_idle (hI.engine r hr) he
    | some r' =>
      rw [← ((State.stepPhase_inFrame hI hr).engine r' he).1]
      exact ih (State.stepPhase_inv hI hr) he h

/-- Settles O24: the code is the one its last step leaves, and the bytes are `Frame`'s. -/
theorem commandEndsWithItsOwnErrors : Obligations.CommandEndsWithItsOwnErrors := fun _ _ hI hr =>
  ⟨State.err_of_runSteps_idle hI hr _ (State.runToEnd_idle hI), (State.runSteps_inFrame hI hr _).2.memory⟩

end Sys2Proof.Machine
end

section
/-! ### BUS (60_exceptions.md R404, R410, R411)

One case analysis of the engine step says both what a refused access does and that nothing else leads to BUS. -/

namespace Sys2Proof.Machine

/-! ### On the way to BUS -/

/-- Whether the engine is on its way to end with BUS. -/
def Phase.raisesBus : Phase → Bool
  | .update _ _ next => decide (next = .raising .bus)
  | .raising e | .ending e => decide (e = .bus)
  | .start | .encodeTop | .hashRead _ | .candidates _ | .matching _ _ _ | .comparing _ _ _ _ | .found _ _ | .emit _ _ _
  | .recordRead _ | .record _ | .copy _ _ _ _ _ | .copyWrite _ _ _ _ _ _ | .recordEnd _ | .trailing => false

theorem After.phase_raisesBus (next : After) : next.phase.raisesBus = decide (next = .raising .bus) := by
  cases next <;> simp [After.phase, Phase.raisesBus]

theorem Phase.raisesBus_of_underway {ph : Phase} (h : ph.underway = true) : ph.raisesBus = false := by
  cases ph with
  | start | update | raising | ending => cases h
  | _ => rfl

theorem Phase.err_ne_bus {ph : Phase} (h : ph.raisesBus = false) : ph.err ≠ .bus := by
  cases ph with
  | ending e => exact of_decide_eq_false h
  | _ => exact nofun

/-- A command makes its accesses between its start and its end. -/
theorem Run.underway_of_nextAccess {r : Run} {access : Nat × AccessKind} (h : r.nextAccess = some access) :
    r.phase.underway = true := by
  unfold Run.nextAccess at h
  cases hp : r.phase with
  | start | update | raising | ending =>
    rw [hp] at h
    cases h
  | _ => rfl

/-- On its way to BUS the engine makes no access (R404). -/
theorem Run.nextAccess_of_raisesBus {r : Run} (h : r.phase.raisesBus = true) : r.nextAccess = none := by
  cases hnext : r.nextAccess with
  | none => rfl
  | some access =>
    rw [Phase.raisesBus_of_underway (Run.underway_of_nextAccess hnext)] at h
    cases h

/-- The engine of `t` is idle or not on its way to BUS. -/
def State.Calm (t : State) : Prop := ∀ q, t.engine = some q → q.phase.raisesBus = false

theorem State.calm_goto {s : State} {r : Run} {ph : Phase} (h : ph.raisesBus = false) : (s.goto r ph).Calm := by
  rintro q ⟨⟩
  exact h

theorem State.updates_raisesBus {s : State} {r q : Run} {us : List Update} {next : After}
    (h : (s.updates r us next).engine = some q) : q.phase.raisesBus = decide (next = .raising .bus) := by
  cases us with
  | nil => cases h; exact next.phase_raisesBus
  | cons => cases h; rfl

theorem State.calm_updates {s : State} {r : Run} {us : List Update} {next : After} (h : next ≠ .raising .bus) :
    (s.updates r us next).Calm := fun _ hq => (State.updates_raisesBus hq).trans (decide_eq_false h)

theorem State.calm_finish (s : State) (r : Run) (e : ErrCode) : (s.finish r e).Calm := fun q hq => by
  rw [State.finish_engine] at hq
  cases hq

theorem State.calm_callFinder (s : State) (r : Run) : (s.callFinder r).Calm := by
  unfold State.callFinder
  split_ifs <;> exact State.calm_goto rfl

/-- A command's first step raises an error of its start checks, if any. -/
theorem State.calm_stepStart (s : State) (r : Run) : (s.stepStart r).Calm := by
  have hraise : ∀ {e : ErrCode}, e.atStart = true → (s.raise r e).Calm := fun he =>
    State.calm_goto (decide_eq_false fun h => by rw [h] at he; cases he)
  have hcodec : ∀ {e}, r.snap.codecCheck = some e → (s.raise r e).Calm := fun he =>
    hraise (Params.codecCheck_some (t := .decompress) he rfl).2
  have hquery : ∀ {e}, r.snap.queryCheck = some e → (s.raise r e).Calm := fun he =>
    hraise (Params.queryCheck_some (t := .hash3) he rfl).2
  unfold State.stepStart
  cases r.task with
  | nop | indexClear => exact State.calm_finish _ _ _
  | compressLin | compressHc =>
    simp only [State.startCompress]
    split
    · exact hcodec ‹_›
    · exact State.calm_updates (by simp)
  | decompress =>
    simp only [State.startDecompress]
    split
    · exact hcodec ‹_›
    · exact State.calm_updates (by simp)
  | findLinear | findHc =>
    simp only [State.startFind]
    split
    · exact hquery ‹_›
    · exact s.calm_callFinder r
  | hash3 =>
    simp only [State.startHash3]
    split
    · exact hquery ‹_›
    · split_ifs
      · exact State.calm_goto rfl
      · exact State.calm_updates (by simp)

/-! ### One engine step and the access it makes -/

/-- From `s` the engine comes to `t` by the byte access `next`: a refused one raises BUS, and with no refusal it is not on
its way to BUS. -/
def State.Accesses (s : State) (r : Run) (next : Option (Nat × AccessKind)) (t : State) : Prop :=
  (∃ a kind, next = some (a, kind) ∧ s.platform.admits a kind = false ∧ t = s.raiseBus r a) ∨
  ((∀ a kind, next = some (a, kind) → s.platform.admits a kind = true) ∧ t.Calm)

section
variable {s : State} {r : Run}

theorem State.accesses_none {t : State} (h : t.Calm) : s.Accesses r none t := .inr ⟨nofun, h⟩

theorem State.accesses_fetch {a : Nat} {k : Byte → State → State} (hk : ∀ v n, (k v { s with freeTick := n }).Calm) :
    s.Accesses r (some (a, .read)) (s.fetch r a k) := by
  rcases State.fetch_spec s r a k with ⟨hno, he⟩ | ⟨hyes, v, n, he, -⟩
  · exact .inl ⟨a, .read, rfl, hno, he⟩
  · refine .inr ⟨?_, he ▸ hk v n⟩
    rintro _ _ ⟨⟩
    exact hyes

theorem State.accesses_store {a : Nat} {v : Byte} {ph : Phase} (hph : ph.raisesBus = false) :
    s.Accesses r (some (a, .write)) (s.store r a v fun r s => s.goto r ph) := by
  rcases State.store_spec s r a v (fun r s => s.goto r ph) with ⟨hno, he⟩ | ⟨hyes, v', n, he, -⟩
  · exact .inl ⟨a, .write, rfl, hno, he⟩
  · refine .inr ⟨?_, he ▸ State.calm_goto hph⟩
    rintro _ _ ⟨⟩
    exact hyes

/-- An engine step makes the access that is next, and only a refused access sets the engine on its way to BUS. -/
theorem State.stepPhase_accesses (h : r.phase.raisesBus = false) : s.Accesses r r.nextAccess (s.stepPhase r) := by
  unfold State.stepPhase Run.nextAccess
  cases hp : r.phase with
  | start => exact State.accesses_none (s.calm_stepStart r)
  | encodeTop =>
    simp only [State.stepEncodeTop]
    refine State.accesses_none ?_
    split_ifs
    · exact State.calm_goto rfl
    · exact s.calm_callFinder r
    · exact s.calm_finish r _
  | hashRead bytes =>
    refine State.accesses_fetch fun v n => ?_
    split_ifs
    · exact State.calm_goto rfl
    · exact State.calm_updates (by simp)
    · exact State.calm_goto rfl
  | candidates left =>
    refine State.accesses_none ?_
    cases left with
    | nil =>
      simp only [State.stepCandidates, State.searchDone]
      split_ifs
      · exact State.calm_goto rfl
      · exact State.calm_updates (by simp)
      · exact State.calm_updates (by simp)
      · exact State.calm_goto rfl
    | cons p left =>
      simp only [State.stepCandidates]
      split_ifs <;> exact State.calm_goto rfl
  | matching p k left =>
    simp only [State.stepMatching]
    split_ifs
    · exact State.accesses_fetch fun v n => State.calm_goto rfl
    · exact State.accesses_none (State.calm_goto rfl)
  | comparing p k v left =>
    refine State.accesses_fetch fun v' n => ?_
    split_ifs <;> exact State.calm_goto rfl
  | found d k =>
    simp only [State.stepFound]
    split_ifs
    · exact State.accesses_fetch fun v n => State.calm_goto rfl
    · exact State.accesses_fetch fun v n => State.calm_goto rfl
    · exact State.accesses_none (State.calm_updates (by simp))
  | emit w k j =>
    by_cases hj : j < 4
    · simp only [State.stepEmit, Config.tokenBytes, hj, if_true]
      exact State.accesses_store rfl
    · simp only [State.stepEmit, Config.tokenBytes, hj, if_false]
      exact State.accesses_none (State.calm_updates (by simp))
  | recordRead bytes =>
    by_cases hend : bytes = [] ∧ ¬ r.cur + 4 ≤ r.snap.n
    · simp only [State.stepRecordRead, Config.tokenBytes, hend, not_false_eq_true, and_self, if_true]
      refine State.accesses_none ?_
      split_ifs
      · exact State.calm_goto rfl
      · exact s.calm_finish r _
    · simp only [State.stepRecordRead, Config.tokenBytes, hend, if_false]
      refine State.accesses_fetch fun v n => ?_
      split <;> exact State.calm_goto rfl
  | record w =>
    simp only [State.stepRecord, State.startRecord]
    refine State.accesses_none ?_
    split_ifs <;> exact State.calm_goto rfl
  | copy start len lit i a =>
    simp only [State.stepCopy]
    split_ifs
    · exact State.accesses_fetch fun v n => State.calm_goto rfl
    · exact State.accesses_none (State.calm_goto rfl)
    · exact State.accesses_store rfl
  | copyWrite start len lit i a v => exact State.accesses_store rfl
  | recordEnd a => exact State.accesses_none (State.calm_updates (by simp))
  | trailing => exact State.accesses_none (State.calm_goto rfl)
  | update u rest next =>
    rw [hp] at h
    exact State.accesses_none (State.calm_updates (of_decide_eq_false h))
  | raising e =>
    rw [hp] at h
    exact State.accesses_none (State.calm_goto h)
  | ending e => exact State.accesses_none (s.calm_finish r e)

end

/-- Where the platform refuses the next access the step raises BUS (R404). -/
theorem State.stepPhase_refused {s : State} {r : Run} {a : Nat} {kind : AccessKind} (h : r.nextAccess = some (a, kind))
    (hno : s.platform.admits a kind = false) : s.stepPhase r = s.raiseBus r a := by
  have hcalm := Phase.raisesBus_of_underway (Run.underway_of_nextAccess h)
  rcases State.stepPhase_accesses (s := s) hcalm with ⟨a', kind', h', -, he⟩ | ⟨hyes, -⟩
  · rw [h] at h'
    cases h'
    exact he
  · rw [hyes a kind h] at hno
    cases hno

/-! ### After the refused access -/

/-- On its way to BUS the engine stays on it until the command has ended (R410). -/
theorem State.stepPhase_raisesBus {s : State} {r q : Run} (h : r.phase.raisesBus = true)
    (hq : (s.stepPhase r).engine = some q) : q.phase.raisesBus = true := by
  unfold State.stepPhase at hq
  cases hp : r.phase with
  | update u rest next =>
    rw [hp] at h hq
    exact (State.updates_raisesBus hq).trans h
  | raising e =>
    rw [hp] at h hq
    cases hq
    exact h
  | ending e =>
    rw [hp] at hq
    simp at hq
  | _ => rw [hp] at h; cases h

theorem State.runSteps_raisesBus {s : State} (k : Nat) (h : ∀ r, s.engine = some r → r.phase.raisesBus = true) :
    ∀ q, (State.runSteps k s).engine = some q → q.phase.raisesBus = true := by
  induction k generalizing s with
  | zero => exact h
  | succ k ih =>
    rw [State.runSteps]
    split
    · rename_i hb
      obtain ⟨r, hr⟩ := State.busy_iff.1 hb
      rw [State.engineStep_busy hr]
      exact ih fun q => State.stepPhase_raisesBus (h r hr)
    · exact h

theorem State.raiseBus_raisesBus {s : State} {r q : Run} {a : Nat} (h : (s.raiseBus r a).engine = some q) :
    q.phase.raisesBus = true := State.updates_raisesBus h

/-- Where BUS leads to (R404, R410): STATUS and ERR_ADDR, and the failing bytes of memory. -/
theorem State.raiseBus_end (s : State) {r : Run} (a : Nat) (hf : r.foreign = []) :
    ∃ n cells, State.Reaches (s.raiseBus r a) { s with
        engine := none, done := true, err := .bus, errAddr := BitVec.ofNat 32 a, mem := (s.raiseBus r a).mem, freeTick := n
        unseen := Unseen.append { cells := cells ++ r.journal, regs := (.errAddr, s.errAddr) :: r.regJournal } s.unseen } ∧
      (∀ c ∈ cells, ∃ b ∈ s.failingBytes r, c.1 = b.addr) ∧
      (s.failingBytes r = [] → (s.raiseBus r a).mem = s.mem) := by
  obtain ⟨m, n, cells, he, hcells, -, -, hnone⟩ := State.raiseBus_spec s r a
  refine ⟨n, cells, ?_, hcells, fun h => ?_⟩
  · rw [he]
    exact .step rfl (State.raise_reaches _ _ .bus (.inl hf))
  · rw [he]
    exact (hnone h).1

/-! ### The bytes of the failing token or record (R411) -/

/-- A failing byte is one of the record's, at its place in the output, that the platform lets the engine write. -/
theorem State.mem_failingBytes {s : State} {r : Run} {b : Blur} (hb : b ∈ s.failingBytes r) :
    s.platform.admits b.addr .write = true ∧ ∃ i v, (i, v) ∈ s.recordBytes r ∧ b.addr = r.snap.outAddr (r.o + i) ∧
      b.old = s.oldByte r b.addr ∧ (b.new = v ∨ s.platform.hasSideEffects b.addr = true) := by
  simp only [State.failingBytes, List.mem_filter, List.mem_map] at hb
  obtain ⟨⟨⟨i, v⟩, hc, rfl⟩, hadm⟩ := hb
  refine ⟨hadm, i, v, hc, rfl, rfl, ?_⟩
  dsimp only
  split_ifs with hs
  · exact .inr hs
  · exact .inl rfl

theorem State.copiedBytes_le {s : State} {r : Run} {start len : Nat} {lit : Byte} {c : Nat × Byte}
    (h : c ∈ s.copiedBytes r start len lit) : c.1 ≤ if start < r.o then len else 0 := by
  have hlt := State.copiedBytes_lt h
  rw [State.copiedBytes_length] at hlt
  exact Nat.le_of_lt_succ hlt

/-- COMPRESS's failing bytes are a token's four, DECOMPRESS's a record's copy and its literal. -/
theorem Run.Ok.recordBytes_cases {s : State} {r : Run} (hk : r.Ok s) {c : Nat × Byte} (hc : c ∈ s.recordBytes r) :
    (r.task.isCompress = true ∧ c.1 < 4) ∨
    (r.task = .decompress ∧ ∃ (start : Nat) (len lit : Byte), c ∈ s.copiedBytes r start len.toNat lit) := by
  have hpo := hk.phase
  unfold State.recordBytes at hc
  cases hp : r.phase <;> simp only [hp, Run.phaseOk] at hc hpo
  case emit w k j => exact .inl ⟨hpo.1, tokenBytes_lt hc⟩
  case found d k =>
    split_ifs at hc with hcmp
    · exact .inl ⟨hcmp, tokenBytes_lt hc⟩
    · cases hc
  case hashRead | candidates | matching | comparing =>
    split_ifs at hc with hcmp
    · split at hc
      · cases hc
      · exact .inl ⟨hcmp, tokenBytes_lt hc⟩
    · cases hc
  case recordRead bytes =>
    split_ifs at hc
    · exact .inr ⟨hpo.1, _, _, _, hc⟩
    · cases hc
  case copy start len lit i a => exact .inr ⟨hpo.1, start, len, lit, hc⟩
  case copyWrite start len lit i a v => exact .inr ⟨hpo.1, start, len, lit, hc⟩
  all_goals cases hc

/-- How many bytes may change: 4 of a token, 256 of a record, its literal alone where no output precedes it (R282, R323). -/
theorem Run.Ok.recordBytes_bounds {s : State} {r : Run} (hk : r.Ok s) {c : Nat × Byte} (hc : c ∈ s.recordBytes r) :
    (r.task.isCompress = true → c.1 < 4) ∧ (r.task = .decompress → c.1 < 256) ∧
      (r.task = .decompress → r.o = 0 → c.1 = 0) := by
  rcases hk.recordBytes_cases hc with ⟨hcmp, hlt⟩ | ⟨ht, start, len, lit, hcopied⟩
  · exact ⟨fun _ => hlt, fun _ => by omega, fun ht => by rw [ht] at hcmp; cases hcmp⟩
  · have hle := State.copiedBytes_le hcopied
    have hlen := len.isLt
    refine ⟨fun hcmp => ?_, fun _ => ?_, fun _ ho => ?_⟩
    · rw [ht] at hcmp
      cases hcmp
    · split at hle <;> omega
    · rw [if_neg (by omega)] at hle
      exact Nat.le_zero.1 hle

/-- During the copy they are the record's own copied bytes and its literal. -/
theorem State.recordBytes_copy_le {s : State} {r : Run} {c : Nat × Byte} (hc : c ∈ s.recordBytes r) {start : Nat}
    {len lit : Byte} (hp : (∃ j b, r.phase = .copy start len lit j b) ∨ ∃ j b v, r.phase = .copyWrite start len lit j b v) :
    c.1 ≤ if start < r.o then len.toNat else 0 := by
  refine State.copiedBytes_le (s := s) (lit := lit) ?_
  rcases hp with ⟨j, b, hp⟩ | ⟨j, b, v, hp⟩ <;> simpa only [State.recordBytes, hp] using hc

/-- A byte that a BUS changes is one of them that the platform lets the engine write; it ends as it was before the command
or as the rules give it, on side-effect memory with any value. -/
theorem State.raiseBus_changes {s : State} {r : Run} {a x : Nat} (hI : s.Inv) (hr : s.engine = some r)
    (hx : Memory.read (s.raiseBus r a).mem x ≠ Memory.read s.mem x) :
    s.platform.admits x .write = true ∧ ∃ i v, (i, v) ∈ s.recordBytes r ∧ x = r.snap.outAddr (r.o + i) ∧
      r.snap.inOutput x = true ∧ (Memory.read (s.raiseBus r a).mem x = s.oldByte r x ∨
        Memory.read (s.raiseBus r a).mem x = v ∨ s.platform.hasSideEffects x = true) := by
  have hok := hI.engine r hr
  obtain hsame | ⟨b, hb, rfl, hval⟩ := State.raiseBus_values a
    (fun b hb => Platform.lt_of_admits (State.failingBytes_spec hok hb).1) hI.memory x
  · exact absurd hsame hx
  · obtain ⟨hadm, i, v, hi, haddr, hold, hnew⟩ := State.mem_failingBytes hb
    refine ⟨hadm, i, v, hi, haddr, (State.failingBytes_spec hok hb).2.2.2, ?_⟩
    rcases hval with hval | hval
    · exact .inl (hval.trans hold)
    · exact .inr (hnew.imp_left hval.trans)

/-! ### A platform that refuses nothing (R404) -/

theorem Platform.admits_of_nothing_refused {p : Platform} (hr : p.refusedReads = []) (hw : p.refusedWrites = []) {a : Nat}
    (ha : a < Config.addressSpace) (kind : AccessKind) : p.admits a kind = true := by
  cases kind <;> simp [Platform.admits, ha, hr, hw]

/-- The engine's accesses lie in the address space, because its buffers passed their start checks (R103). -/
theorem State.Inv.access_lt {s : State} {r : Run} {a : Nat} {kind : AccessKind} (hI : s.Inv) (hr : s.engine = some r)
    (h : r.nextAccess = some (a, kind)) : a < Config.addressSpace := by
  have hk := hI.engine r hr
  have hbegun := Phase.begun_of_underway (Run.underway_of_nextAccess h)
  have output : r.task.hasOutput = true → ∀ {j}, j < r.snap.outCap.toNat → r.snap.outAddr j < Config.addressSpace :=
    fun ho j hj => Params.lt_of_inOutput (hk.outRange hbegun ho) (Params.inOutput_outAddr hj)
  cases kind with
  | write =>
    obtain ⟨ho, j, -, hj, rfl⟩ := hk.write_in_output h
    exact output ho hj
  | read =>
    rcases hk.read_in_buffer h with ⟨hin, i, hi, rfl⟩ | ⟨ht, start, len, lit, i, b, -, j, -, hj, rfl⟩
    · have hrange := hk.inRange hbegun hin
      simp only [Params.inRangeFails, decide_eq_false_iff_not] at hrange
      simp only [Params.n] at hi
      simp only [Params.inAddr]
      omega
    · exact output (by rw [ht]; rfl) hj

/-- A state of a command that has not ended, and is not about to end, with BUS. -/
structure State.BusFree (t : State) : Prop where
  calm : t.Calm
  err : t.err ≠ .bus

/-- An engine step that meets no refusal does not lead to BUS. -/
theorem State.BusFree.step {s : State} {r : Run} (h : s.BusFree) (hI : s.Inv) (hr : s.engine = some r)
    (hf : r.foreign = []) (hrd : s.platform.refusedReads = []) (hwr : s.platform.refusedWrites = []) :
    (s.stepPhase r).BusFree := by
  have hcalm : (s.stepPhase r).Calm := by
    rcases State.stepPhase_accesses (s := s) (h.calm r hr) with ⟨a, kind, ha, hno, -⟩ | ⟨-, hcalm⟩
    · rw [Platform.admits_of_nothing_refused hrd hwr (hI.access_lt hr ha)] at hno
      cases hno
    · exact hcalm
  refine ⟨hcalm, ?_⟩
  cases he : (s.stepPhase r).engine with
  | some q =>
    rw [((State.stepPhase_inv hI hr).engine q he).status.2]
    exact Phase.err_ne_bus (hcalm q he)
  | none =>
    obtain ⟨idx, e, hcause, hend⟩ := State.finish_of_stepPhase_idle he
    rw [hend, State.finish_clean _ r e hf]
    rcases hcause with rfl | hp
    · exact nofun
    · have hne := Phase.err_ne_bus (h.calm r hr)
      rwa [hp] at hne

theorem State.runSteps_busFree {s : State} {r : Run} {a : Word} (h : s.BusFree) (hI : s.Inv) (hr : s.engine = some r)
    (hc : State.Clean r.task a s) (hrd : s.platform.refusedReads = []) (hwr : s.platform.refusedWrites = []) (k : Nat) :
    (State.runSteps k s).BusFree := by
  induction k generalizing s r with
  | zero => exact h
  | succ k ih =>
    have hstep := h.step hI hr (hc.foreign r hr) hrd hwr
    have hframe := State.stepPhase_inFrame hI hr
    rw [State.runSteps, if_pos (State.busy_iff.2 ⟨r, hr⟩), State.engineStep_busy hr]
    cases he : (s.stepPhase r).engine with
    | none =>
      rw [State.runSteps_eq_iterate, State.iterate_idle he]
      exact hstep
    | some q =>
      have hclean := State.stepPhase_clean hI hr hc
      rw [← (hframe.engine q he).1] at hclean
      exact ih hstep (State.stepPhase_inv hI hr) he hclean (hframe.platform ▸ hrd) (hframe.platform ▸ hwr)

/-- No command of an idle block on such a platform ends with BUS. -/
theorem exec_err_ne_bus {s t : State} {i : Instr} (hI : s.Inv) (hidle : s.busy = false)
    (hrd : s.platform.refusedReads = []) (hwr : s.platform.refusedWrites = []) (ht : exec i s = .next t) :
    t.err ≠ .bus := by
  by_cases hcmd : i.isCommand = true
  · by_cases hreset : i = .reset
    · subst hreset
      cases ht
      exact nofun
    · obtain ⟨task, htask⟩ := task_of_isCommand hcmd hreset
      rw [exec_of_task htask, State.offer_idle hidle] at ht
      cases ht
      obtain ⟨k, hk⟩ := State.advance_steps (s.accept task)
      have hstart : (s.accept task).BusFree := ⟨State.calm_goto (s := s.accept task) (r := Run.init task s) rfl, nofun⟩
      rw [hk]
      exact (State.runSteps_busFree hstart (State.accept_inv hI task) rfl (s.accept_clean task) hrd hwr k).err
  · obtain ⟨off, len, lit, hfields⟩ := exists_tokenFields (Bool.not_eq_true _ ▸ hcmd)
    rw [exec_token hfields, State.runToken_idle (State.not_busy_iff.1 hidle)] at ht
    cases ht

/-- Settles O54: the refused access raises BUS (`State.stepPhase_refused`), after which there is no access and nothing but
the failing bytes changes; with no refusal nothing raises it (`exec_err_ne_bus`). -/
theorem refusedAccessRaisesBus : Obligations.RefusedAccessRaisesBus := by
  refine ⟨fun s r a kind hI hr hf hnext hno => ⟨fun k hk q hq => ?_, ?_⟩,
    fun s t i hI hidle hrd hwr => exec_err_ne_bus hI hidle hrd hwr⟩
  · obtain ⟨k, rfl⟩ := Nat.exists_eq_add_one.2 hk
    rw [State.runSteps, if_pos (State.busy_iff.2 ⟨r, hr⟩), State.engineStep_busy hr, State.stepPhase_refused hnext hno] at hq
    exact Run.nextAccess_of_raisesBus (State.runSteps_raisesBus k (fun _ => State.raiseBus_raisesBus) q hq)
  · have hok := hI.engine r hr
    obtain ⟨n, cells, hreach, hcells, hnone⟩ := s.raiseBus_end a hf
    refine ⟨(s.raiseBus r a).mem, n, cells, State.runToEnd_eq hI (.step hr ?_) rfl, fun c hc => ?_, fun x hx => ?_,
      fun ho => hnone ?_⟩
    · rw [State.stepPhase_refused hnext hno]
      exact hreach
    · obtain ⟨b, hb, hcb⟩ := hcells c hc
      obtain ⟨-, ho, -, hin⟩ := State.failingBytes_spec hok hb
      exact ⟨ho, hcb ▸ hin⟩
    · obtain ⟨hadm, i, v, hi, haddr, hin, hval⟩ := State.raiseBus_changes hI hr hx
      obtain ⟨h4, h256, h0⟩ := hok.recordBytes_bounds hi
      refine ⟨hadm, fun hwrite hxa => ?_, i, v, hi, haddr, hin, hval, h4, h256, h0,
        fun start len lit j b hp => State.recordBytes_copy_le hi (.inl ⟨j, b, hp⟩), fun start len lit j b c hp => ?_⟩
      · rw [hwrite, ← hxa, hadm] at hno
        cases hno
      · have hle := State.recordBytes_copy_le hi (.inr ⟨j, b, c, hp⟩)
        split at hle <;> omega
    · exact List.eq_nil_iff_forall_not_mem.2 fun b hb => by
        rw [(State.failingBytes_spec hok hb).2.1] at ho
        cases ho

end Sys2Proof.Machine
end

section
/-! ### The end of a command (70_reset_and_hazards.md R470) -/

namespace Sys2Proof.Machine

/-- R470, R360: a running command comes to its end within the bound, and its end sets DONE. -/
theorem State.runToEnd_ends {s : State} (hI : s.Inv) (hb : s.busy = true) :
    s.runToEnd.busy = false ∧ s.runToEnd.done = true := by
  have hidle : s.runToEnd.engine = none := State.runToEnd_idle hI
  exact ⟨State.not_busy_iff.2 hidle, State.done_of_runSteps_idle hb s.stepsBound hidle⟩

/-- Settles O23: each engine step lowers the bound (`State.stepPhase_bound`, by way of `State.runToEnd_idle`), and the
step that ends a command sets DONE; a waiting host's command is run to that end before the next access
(`exec_ready_ends`). -/
theorem everyCommandEnds : Obligations.EveryCommandEnds := by
  refine ⟨fun _ hI hb => State.runToEnd_ends hI hb, fun s i hI hready hcmd hreset => ?_⟩
  obtain ⟨task, htask⟩ := task_of_isCommand hcmd hreset
  have hnext : exec i s = .next (s.offer task).advance := exec_of_task htask s
  obtain ⟨hidle, hdone⟩ := exec_ready_ends hI hready htask hnext
  exact ⟨_, hnext, State.not_busy_iff.2 hidle, hdone⟩

end Sys2Proof.Machine
end
